-- ==== Sys2Proof/Word.lean ====
section
/-! DEFINITION. Word.lean: the byte, the numbers by which the spec names its resources (00_scope.md 1.7), pin levels, and the one way
a numbered table is changed at one place. -/

namespace Sys2Proof

/-- One byte of a link transaction (10_request_and_frame_layouts.md). -/
abbrev Byte := BitVec 8

/-- Hosts 0 to 3; host n uses link n. -/
abbrev HostId := Fin 4

/-- Lines 0 to 39. -/
abbrev LineNo := Fin 40

/-- Terminals 0 to 11 of one host. -/
abbrev TermNo := Fin 12

/-- Fault groups 0 to 7. -/
abbrev GroupNo := Fin 8

/-- Route entries 0 to 95. -/
abbrev RouteSlot := Fin 96

/-- Claim records 0 to 31. -/
abbrev ClaimSlot := Fin 32

/-- Claim and driver route priorities 0 to 3; 3 is the preemptive one. -/
abbrev Priority := Fin 4

/-- The level of a pin. -/
inductive Level where
  | low
  | high
deriving DecidableEq, Repr, Inhabited

/-- The entry of a numbered table at one place. -/
def look {α : Type} {n : Nat} (v : Vector α n) (i : Fin n) : α := v[i.val]

/-- Change one place of a numbered table. -/
def upd {α : Type} {n : Nat} (v : Vector α n) (i : Fin n) (f : α → α) : Vector α n :=
  v.set i.val (f (look v i))

/-- A numbered table given by its entries. -/
def tab {α : Type} {n : Nat} (f : Fin n → α) : Vector α n := Vector.ofFn f

theorem look_upd {α : Type} {n : Nat} (v : Vector α n) (i j : Fin n) (f : α → α) :
    look (upd v i f) j = if i = j then f (look v j) else look v j := by
  unfold look upd
  rw [Vector.getElem_set]
  by_cases h : i = j
  · subst h
    simp [look]
  · have : ¬ i.val = j.val := fun e => h (Fin.ext e)
    simp [h, this]

@[simp] theorem look_upd_same {α : Type} {n : Nat} (v : Vector α n) (i : Fin n) (f : α → α) :
    look (upd v i f) i = f (look v i) := by
  rw [look_upd, if_pos rfl]

theorem look_upd_other {α : Type} {n : Nat} (v : Vector α n) {i j : Fin n} (f : α → α) (h : i ≠ j) :
    look (upd v i f) j = look v j := by
  rw [look_upd, if_neg h]

@[simp] theorem look_tab {α : Type} {n : Nat} (f : Fin n → α) (i : Fin n) : look (tab f) i = f i := by
  simp [look, tab]

@[simp] theorem look_replicate {α : Type} {n : Nat} (a : α) (i : Fin n) :
    look (Vector.replicate n a) i = a := by
  simp [look]

/-- Two numbered tables are equal when all their entries are. -/
theorem ext_look {α : Type} {n : Nat} {v w : Vector α n} (h : ∀ i, look v i = look w i) : v = w := by
  ext i hi
  exact h ⟨i, hi⟩

end Sys2Proof
end

