-- ==== Sys2Proof/Syntax.lean ====
section
/-! DEFINITION. Syntax.lean: the commands of the part, one constructor for each row of spec/opcode_table.json.

The requests of a host carry no operand but the link: the operands are the bytes of the frame that the host wrote earlier with WRITE
and that stands at the head of the link's inbound queue (R137). A pin or timer event names the pin or the timer. -/

namespace Sys2Proof

/-- One command: a transaction of a link, the taking of a request, the expiry of a timer, or an event on a pin. -/
inductive Instr where
  /-- RSTn low, or power-up (R15). -/
  | deviceReset
  /-- The part leaves reset, with the levels of the two supervisor straps at that moment (R34). -/
  | leaveReset (supsel1 supsel0 : Level)
  /-- SELn is asserted (R133). -/
  | transactionBegin (link : HostId)
  /-- SELn is deasserted, which ends the transaction (R133). A frame is the complete bytes received after a WRITE's kind byte, and is
  judged (R135); none ends a transaction of another kind, or one without a kind. -/
  | write (link : HostId) (frame : Option (List Byte))
  /-- The kind byte of a READ is complete (R139). -/
  | read (link : HostId)
  /-- The kind byte of a READ_AGAIN is complete (R140). -/
  | readAgain (link : HostId)
  /-- The kind byte of a LINK_RESET is complete (R141). -/
  | linkReset (link : HostId)
  /-- A kind byte that is no known kind is complete (R133). -/
  | unknownKind (link : HostId) (kind : Byte)
  /-- The port takes a frame whose CODE is no request code (R143). -/
  | unknownRequest (link : HostId)
  /-- The port takes an ATTACH (R36, R37). -/
  | attach (link : HostId)
  /-- The port takes a DETACH (R38). -/
  | detach (link : HostId)
  /-- The port takes a COLLECT (R127, R128). -/
  | collect (link : HostId)
  /-- The port takes a READ_LEVELS (R14). -/
  | readLevels (link : HostId)
  /-- The port takes a QUERY_LINE (R105). -/
  | queryLine (link : HostId)
  /-- The port takes a SET_POLICY (R21 to R30). -/
  | setPolicy (link : HostId)
  /-- The port takes a QUERY_POLICY (R32). -/
  | queryPolicy (link : HostId)
  /-- The port takes a LISTEN (R55, R56). -/
  | listen (link : HostId)
  /-- The port takes a RELEASE (R59). -/
  | release (link : HostId)
  /-- The port takes a RENEW (R60). -/
  | renew (link : HostId)
  /-- The port takes a REVOKE (R61). -/
  | revoke (link : HostId)
  /-- The port takes a QUERY_ROUTE (R62). -/
  | queryRoute (link : HostId)
  /-- The port takes a CLAIM (R71 to R74). -/
  | claim (link : HostId)
  /-- The port takes an AMEND (R78, R79). -/
  | amend (link : HostId)
  /-- The port takes a CANCEL (R80). -/
  | cancel (link : HostId)
  /-- The port takes a QUERY_CLAIM (R84). -/
  | queryClaim (link : HostId)
  /-- The port takes a SET_GROUP (R116). -/
  | setGroup (link : HostId)
  /-- The port takes a TRIP (R117, R118). -/
  | trip (link : HostId)
  /-- The port takes a REARM (R119). -/
  | rearm (link : HostId)
  /-- The port takes a QUERY_GROUP (R120). -/
  | queryGroup (link : HostId)
  /-- The lease of an ACTIVE route runs out (R57). -/
  | leaseExpiry (slot : RouteSlot)
  /-- The break interval of a CONNECTING route ends (R97). -/
  | breakExpiry (slot : RouteSlot)
  /-- The wait limit of a WAITING claim runs out (R76). -/
  | waitLimitExpiry (slot : ClaimSlot)
  /-- The settle interval of a SETTLING group ends (R111). -/
  | settleExpiry (group : GroupNo)
  /-- A fault input pin takes a level (R106). -/
  | faultPinChange (group : GroupNo) (level : Level)
  /-- A fault input pin has held its new level for the whole count (R106). -/
  | qualifiedLevelChange (group : GroupNo)
  /-- A host drives one of its terminals to a level, or stops driving it (R9). -/
  | terminalLevelChange (host : HostId) (terminal : TermNo) (level : Option Level)
  /-- A board circuit drives a line pin to a level, or leaves it (R7). DESIGN CHOICE (log entry 4): it drives at full strength, and a
  board circuit that only pulls the line (R4) has no form of its own. -/
  | boardLineLevelChange (line : LineNo) (level : Option Level)
deriving DecidableEq, Repr

end Sys2Proof
end

