-- ==== Sys2Proof/Decode.lean ====
section
/-! DEFINITION. Decode.lean: the command a word spells by the table's bits. No row of spec/opcode_table.json has bits: the part's
commands are transactions, requests inside frames, expiries and pin events, not words of one encoding. The bytes of request frames
are read in Machine/Operands.lean. -/

namespace Sys2Proof

/-- No row of the table gives bits, so no word spells a command. -/
def decodeTableWord (_nbits _w : Nat) : Option Instr := none

end Sys2Proof
end

