-- ==== Sys2Proof/Config.lean ====
section
/-! DEFINITION. Config.lean: the figures the spec fixes for the part, and the one value it leaves open. -/

namespace Sys2Proof.Config

/-- Frames an inbound queue holds (R132, table of 9.1). -/
def inboundCapacity : Nat := 4

/-- Unread replies a reply queue holds; at this number the link stalls (R137, R138). -/
def replyCapacity : Nat := 4

/-- Routes in use plus waiting claims a host may reach (R41). -/
def hostRouteLimit : Nat := 32

/-- Claim records a host may have in use (R41). -/
def hostClaimLimit : Nat := 8

/-- References one COLLECT reports at most (R127). -/
def collectLimit : Nat := 6

/-- Microseconds in a millisecond; every timer of the model runs in microseconds. -/
def microsPerMilli : Nat := 1000

/-- Microseconds a fault pin must hold a new level before it counts (R106). -/
def qualifyMicros : Nat := 2

/-- FREE VALUE (log entry 4). The level a pin reaches while the part drives it at full strength to one level and a board circuit to
the other: R2 says only that the sampled level reports whatever level the pin reaches. The first argument is the line, the
second counts the changes of that pin, so that nothing ties one contention to another. -/
opaque contention : LineNo → Nat → Level

end Sys2Proof.Config
end

