-- ==== Sys2Proof/Machine/State.lean ====
section
/-! DEFINITION. Machine/State.lean: every piece of state the spec gives the part, as plain data, and the state of device reset. -/

namespace Sys2Proof.Machine

/-- Why the machine stops with a fault: never. The spec gives every event an effect, if only none (log entry 3). -/
inductive Fault where
deriving DecidableEq, Repr

/-- Why a command has no meaning. -/
inductive Refusal where
  /-- Raised by an arm of exec whose command has no meaning yet; safe, since no claim can be drawn from it. No arm raises it. -/
  | notModelled (mnemonic : String)
deriving DecidableEq, Repr

/-- What a line shows when no terminal sets its level (R2). -/
inductive Posture where
  | low
  | high
  | float
  | pullUp
  | pullDown
deriving DecidableEq, Repr

/-- How a driver terminal's level is carried onto a line (R3, R4). -/
inductive DriveMode where
  | pushPull
  | openDrain
deriving DecidableEq, Repr

/-- One line's policy record (2.1). Masks and sets have the bit of a host or group set when it is in them (10.3). -/
structure Policy where
  /-- Hosts that may hold a driver member on the line. -/
  driverMask : BitVec 4
  /-- Hosts that may hold a listener member on the line. -/
  listenerMask : BitVec 4
  /-- Hosts that may name the line in a claim of priority 3. -/
  preemptMask : BitVec 4
  /-- Drive modes allowed: bit 0 PUSH_PULL, bit 1 OPEN_DRAIN. -/
  modes : BitVec 2
  restPosture : Posture
  safePosture : Posture
  /-- Fault groups whose state decides whether the line is held. -/
  groupSet : BitVec 8
  /-- Longest lease in ms; 0 is no limit. -/
  maxLease : Nat
  /-- Break interval in microseconds. -/
  breakInterval : Nat
deriving DecidableEq, Repr

/-- One member of a route or claim: a line and a terminal of the owner. -/
structure Member where
  line : LineNo
  terminal : TermNo
deriving DecidableEq, Repr

/-- What a terminal is bound to: the member of that index of a claim or route (R42). -/
inductive Binding where
  | claim (slot : ClaimSlot) (index : Nat)
  | route (slot : RouteSlot) (index : Nat)
deriving DecidableEq, Repr

/-- A host's change set (R122). The set has no order; it is held as two ascending lists. A reference's generation is the one its
slot has, for a reference in the set names a record in use (log entry 9). -/
structure ChangeSet where
  claims : List ClaimSlot
  routes : List RouteSlot
deriving DecidableEq, Repr

/-- One host's session record (3.1); the supervisor is held once, in State. -/
structure Session where
  attached : Bool
  epoch : Byte
  routesInUse : Nat
  waitingClaims : Nat
  claimRecords : Nat
  bindings : Vector (Option Binding) 12
  changes : ChangeSet
deriving DecidableEq, Repr

/-- Why a route ended (4.1). -/
inductive CloseReason where
  | expired
  | preempted
  | revoked
  | policy
deriving DecidableEq, Repr

/-- A route's stage of life (4.4). A CONNECTING route has the time left of its break interval, in microseconds. -/
inductive RouteState where
  | connecting (breakLeft : Nat)
  | active
  | closed (reason : CloseReason)
deriving DecidableEq, Repr

/-- Whether the owner drives or listens; a DRIVER route has a priority and a drive mode (4.1). -/
inductive RouteKind where
  | driver (priority : Priority) (mode : DriveMode)
  | listener
deriving DecidableEq, Repr

/-- One route (4.1). -/
structure Route where
  owner : HostId
  kind : RouteKind
  state : RouteState
  members : List Member
  /-- The forced set: bit i stands for the member of index i. -/
  forced : BitVec 8
  forcedSince : Bool
  leaseClamped : Bool
  /-- The remaining lease of an ACTIVE route, or the stored lease of a CONNECTING one, in microseconds. -/
  lease : Option Nat
deriving DecidableEq, Repr

/-- One of the 96 entries: its generation, and its route while it is in use (4.1). -/
structure RouteEntry where
  generation : Byte
  route : Option Route
deriving DecidableEq, Repr

/-- Why a claim was dropped (5.1). -/
inductive DropReason where
  | timedOut
  | policy
deriving DecidableEq, Repr

/-- A claim's stage of life (5.1). -/
inductive ClaimState where
  | waiting
  | granted (route : RouteSlot)
  | dropped (reason : DropReason)
deriving DecidableEq, Repr

/-- One claim (5.1). -/
structure Claim where
  owner : HostId
  state : ClaimState
  priority : Priority
  mode : DriveMode
  members : List Member
  /-- The lease asked for, in ms; 0 asks for none. -/
  leaseRequested : Nat
  /-- The time left of the wait limit, in microseconds. -/
  waitLimit : Option Nat
  /-- Eligible while no route entry is free (R102). -/
  awaiting : Bool
deriving DecidableEq, Repr

/-- One of the 32 claim records: its generation, and its claim while it is in use (5.1). -/
structure ClaimEntry where
  generation : Byte
  claim : Option Claim
deriving DecidableEq, Repr

/-- What a line is doing with respect to drivers and claims (R87). -/
inductive LineState where
  | free
  | pending
  | connecting
  | driven
deriving DecidableEq, Repr

/-- One line record (6.1). The driver route and the queue are named by slot (log entry 9). -/
structure LineRecord where
  state : LineState
  driver : Option RouteSlot
  queue : List ClaimSlot
deriving DecidableEq, Repr

/-- Which qualified level counts as asserted (7.2). -/
inductive Polarity where
  | activeLow
  | activeHigh
deriving DecidableEq, Repr

/-- How a group returns to CLEAR (7.2). -/
inductive Recovery where
  | auto
  | manual
deriving DecidableEq, Repr

/-- A group's condition (7.3). A SETTLING group has the time left of its settle interval, in microseconds. -/
inductive GroupState where
  | clear
  | tripped
  | settling (left : Nat)
  | latched
deriving DecidableEq, Repr

/-- One fault group record (7.2). -/
structure Group where
  enabled : Bool
  polarity : Polarity
  recovery : Recovery
  /-- In ms. -/
  settleInterval : Nat
  rearmMask : BitVec 4
  state : GroupState
  inputAsserted : Bool
  softTrip : Bool
deriving DecidableEq, Repr

/-- One fault input (R106). -/
structure Qualifier where
  pin : Level
  qualified : Level
  /-- The levels the pin has held for a whole count and left again before their event was taken, oldest first (log entry 6). -/
  due : List Level
  /-- The time left of a running count, in microseconds; at 0 the event of the pin's level is due. -/
  count : Option Nat
deriving DecidableEq, Repr

/-- One line pin: what a board circuit drives onto it (at full strength, DESIGN CHOICE, log entry 4), its level (the sampled level, which the line hold keeps, R7), and how often
what acts on the pin has changed (the model's own, the index of the free value Config.contention). -/
structure LinePin where
  board : Option Level
  level : Level
  changes : Nat
deriving DecidableEq, Repr

/-- The judgement of the latest WRITE, or the rejection of an unknown kind (9.1). -/
inductive WriteResult where
  | accepted
  | rejectedCheck
  | rejectedLength
  | rejectedFull
  | rejectedKind
deriving DecidableEq, Repr

/-- The transaction of a link (R133): none, SELn being deasserted; begun, with the status byte captured and the kind byte not complete;
or past its kind byte, with the bytes the port sends after it, each further byte being 00h. -/
inductive Transaction where
  | none
  | begun (status : Byte)
  | sending (status : Byte) (bytes : List Byte)
deriving DecidableEq, Repr

/-- One Host Link Port (9.1). Frames and replies are kept whole, byte for byte. -/
structure Port where
  transaction : Transaction
  inbound : List (List Byte)
  replies : List (List Byte)
  lastRead : Option (List Byte)
  lastWrite : WriteResult
deriving DecidableEq, Repr

/-- The whole part, the levels outside circuits put on its pins, and the queue of commands. -/
structure State where
  /-- RSTn is low. -/
  inReset : Bool
  supervisor : HostId
  policies : Vector Policy 40
  sessions : Vector Session 4
  routes : Vector RouteEntry 96
  claims : Vector ClaimEntry 32
  /-- The acceptance order: every WAITING claim once, earliest first (R69). -/
  accepted : List ClaimSlot
  lines : Vector LineRecord 40
  groups : Vector Group 8
  qualifiers : Vector Qualifier 8
  pins : Vector LinePin 40
  /-- What each host drives onto each of its terminals; none where it drives nothing (R9). -/
  terminals : Vector (Vector (Option Level) 12) 4
  ports : Vector Port 4
  /-- The commands that wait, first in, first out. -/
  pending : List Instr
deriving DecidableEq, Repr

/-- The set that holds one host alone. -/
def onlyHost (h : HostId) : BitVec 4 := 1#4 <<< h.val

/-- A policy record after reset, under the supervisor the straps name (R17). -/
def Policy.reset (supervisor : HostId) : Policy where
  driverMask := onlyHost supervisor
  listenerMask := 0xF#4
  preemptMask := 0#4
  modes := 3#2
  restPosture := .pullUp
  safePosture := .float
  groupSet := 0#8
  maxLease := 0
  breakInterval := 20

/-- A session record after reset (R33). -/
def Session.reset : Session where
  attached := false
  epoch := 0#8
  routesInUse := 0
  waitingClaims := 0
  claimRecords := 0
  bindings := Vector.replicate 12 none
  changes := ⟨[], []⟩

/-- A group record after reset (R108). -/
def Group.reset : Group where
  enabled := false
  polarity := .activeLow
  recovery := .manual
  settleInterval := 100
  rearmMask := 0#4
  state := .clear
  inputAsserted := false
  softTrip := false

/-- A port after reset (R132). -/
def Port.reset : Port where
  transaction := .none
  inbound := []
  replies := []
  lastRead := none
  lastWrite := .accepted

/-- The part held in reset (R15, R17, R33, R46, R66, R86, R108, R132), the outside circuits quiet. The spec gives no supervisor before
the straps are sampled and no levels at the inputs: host 0, undriven terminals and lines, and high fault pins are DESIGN CHOICE
(log entries 2 and 5). -/
def State.reset : State where
  inReset := true
  supervisor := 0
  policies := Vector.replicate 40 (Policy.reset 0)
  sessions := Vector.replicate 4 Session.reset
  routes := Vector.replicate 96 ⟨0#8, none⟩
  claims := Vector.replicate 32 ⟨0#8, none⟩
  accepted := []
  lines := Vector.replicate 40 ⟨.free, none, []⟩
  groups := Vector.replicate 8 Group.reset
  qualifiers := Vector.replicate 8 ⟨.high, .high, [], none⟩
  pins := Vector.replicate 40 ⟨none, .high, 0⟩
  terminals := Vector.replicate 4 (Vector.replicate 12 none)
  ports := Vector.replicate 4 Port.reset
  pending := []

end Sys2Proof.Machine
end

