-- ==== Sys2Proof/Machine/Ops.lean ====
section
/-! DEFINITION. Machine/Ops.lean: the named operations over the part's records: reading them, changing one of them, bindings, change
sets, queues, leases, held status, and the closing and freeing of routes and claims. -/

namespace Sys2Proof.Machine

/-! ### Reading the records -/

def State.policy (s : State) (l : LineNo) : Policy := look s.policies l
def State.session (s : State) (h : HostId) : Session := look s.sessions h
def State.routeEntry (s : State) (r : RouteSlot) : RouteEntry := look s.routes r
def State.claimEntry (s : State) (c : ClaimSlot) : ClaimEntry := look s.claims c
def State.line (s : State) (l : LineNo) : LineRecord := look s.lines l
def State.group (s : State) (g : GroupNo) : Group := look s.groups g
def State.qualifier (s : State) (g : GroupNo) : Qualifier := look s.qualifiers g
def State.pin (s : State) (l : LineNo) : LinePin := look s.pins l
def State.port (s : State) (h : HostId) : Port := look s.ports h

/-- What host h drives onto its terminal t. -/
def State.terminal (s : State) (h : HostId) (t : TermNo) : Option Level := look (look s.terminals h) t

/-- The route in an entry, if the entry is in use. -/
def State.route? (s : State) (r : RouteSlot) : Option Route := (s.routeEntry r).route

/-- The claim in a record, if the record is in use. -/
def State.claim? (s : State) (c : ClaimSlot) : Option Claim := (s.claimEntry c).claim

/-- CONNECTING or ACTIVE (4.4). -/
def Route.live (rt : Route) : Bool :=
  match rt.state with
  | .connecting _ => true
  | .active => true
  | .closed _ => false

def Route.active (rt : Route) : Bool :=
  match rt.state with
  | .active => true
  | _ => false

def Route.isDriver (rt : Route) : Bool :=
  match rt.kind with
  | .driver _ _ => true
  | .listener => false

def Claim.waiting (cl : Claim) : Bool :=
  match cl.state with
  | .waiting => true
  | _ => false

def GroupState.isClear : GroupState → Bool
  | .clear => true
  | _ => false

/-- The lines a list of members names, in its order. -/
def linesOf (ms : List Member) : List LineNo := ms.map (·.line)

/-- The index of the member on a line. -/
def memberIndex (ms : List Member) (l : LineNo) : Option Nat := ms.findIdx? fun m => m.line = l

/-- All numbers of one kind, ascending. -/
def every (n : Nat) : List (Fin n) := List.finRange n

/-! ### Changing one record -/

def State.updSession (s : State) (h : HostId) (f : Session → Session) : State :=
  { s with sessions := upd s.sessions h f }

def State.updRouteEntry (s : State) (r : RouteSlot) (f : RouteEntry → RouteEntry) : State :=
  { s with routes := upd s.routes r f }

def State.updClaimEntry (s : State) (c : ClaimSlot) (f : ClaimEntry → ClaimEntry) : State :=
  { s with claims := upd s.claims c f }

def State.updLine (s : State) (l : LineNo) (f : LineRecord → LineRecord) : State :=
  { s with lines := upd s.lines l f }

def State.updGroup (s : State) (g : GroupNo) (f : Group → Group) : State :=
  { s with groups := upd s.groups g f }

def State.updQualifier (s : State) (g : GroupNo) (f : Qualifier → Qualifier) : State :=
  { s with qualifiers := upd s.qualifiers g f }

def State.updPort (s : State) (h : HostId) (f : Port → Port) : State :=
  { s with ports := upd s.ports h f }

/-- Change the route of an entry; a free entry stays as it is. -/
def State.updRoute (s : State) (r : RouteSlot) (f : Route → Route) : State :=
  s.updRouteEntry r fun e => { e with route := e.route.map f }

/-- Change the claim of a record; a free record stays as it is. -/
def State.updClaim (s : State) (c : ClaimSlot) (f : Claim → Claim) : State :=
  s.updClaimEntry c fun e => { e with claim := e.claim.map f }

/-! ### Change sets (R122, R123) -/

/-- Add a number to an ascending list, once. -/
def insertAsc {n : Nat} (x : Fin n) : List (Fin n) → List (Fin n)
  | [] => [x]
  | y :: ys => if x < y then x :: y :: ys else if x = y then y :: ys else y :: insertAsc x ys

/-- Place a route's reference in its owner's change set, or leave it there. -/
def noteRoute (h : HostId) (r : RouteSlot) (s : State) : State :=
  s.updSession h fun e => { e with changes := { e.changes with routes := insertAsc r e.changes.routes } }

/-- Place a claim's reference in its owner's change set, or leave it there. -/
def noteClaim (h : HostId) (c : ClaimSlot) (s : State) : State :=
  s.updSession h fun e => { e with changes := { e.changes with claims := insertAsc c e.changes.claims } }

/-- Take a route's reference out of its owner's change set, if it is there (R125). -/
def unnoteRoute (h : HostId) (r : RouteSlot) (s : State) : State :=
  s.updSession h fun e => { e with changes := { e.changes with routes := e.changes.routes.filter (· ≠ r) } }

/-- Take a claim's reference out of its owner's change set, if it is there (R125). -/
def unnoteClaim (h : HostId) (c : ClaimSlot) (s : State) : State :=
  s.updSession h fun e => { e with changes := { e.changes with claims := e.changes.claims.filter (· ≠ c) } }

/-- How many references a change set holds. -/
def ChangeSet.size (cs : ChangeSet) : Nat := cs.claims.length + cs.routes.length

/-! ### Terminal bindings (R42) -/

/-- Bind the terminals of a list of members, the first of which has index i. -/
def setBindings (mk : Nat → Binding) : Nat → List Member → Vector (Option Binding) 12 → Vector (Option Binding) 12
  | _, [], v => v
  | i, m :: ms, v => setBindings mk (i + 1) ms (upd v m.terminal fun _ => some (mk i))

/-- Unbind the terminals of a list of members. -/
def clearBindings : List Member → Vector (Option Binding) 12 → Vector (Option Binding) 12
  | [], v => v
  | m :: ms, v => clearBindings ms (upd v m.terminal fun _ => none)

/-- Bind every member's terminal to the member of the same index of a record. -/
def bindMembers (h : HostId) (mk : Nat → Binding) (ms : List Member) (s : State) : State :=
  s.updSession h fun e => { e with bindings := setBindings mk 0 ms e.bindings }

def unbindMembers (h : HostId) (ms : List Member) (s : State) : State :=
  s.updSession h fun e => { e with bindings := clearBindings ms e.bindings }

/-! ### Leases (R19) -/

/-- A number of ms as a running timer; 0 is no timer. -/
def timerOfMillis (ms : Nat) : Option Nat :=
  if ms = 0 then none else some (ms * Config.microsPerMilli)

/-- A timer in whole ms, rounded up; one that has run out and is not yet taken is given as 1 ms (R57, R76, R120). -/
def millisOfTimer (t : Nat) : Nat :=
  max 1 ((t + (Config.microsPerMilli - 1)) / Config.microsPerMilli)

/-- A lease or wait limit as its two bytes carry it: 0 for none. -/
def millisOf? (t : Option Nat) : Nat :=
  match t with
  | none => 0
  | some t => millisOfTimer t

/-- The smallest max lease other than 0 among lines; 0 if all are 0. -/
def effectiveMax (s : State) (ls : List LineNo) : Nat :=
  ls.foldr (fun l acc =>
    let m := (s.policy l).maxLease
    if m = 0 then acc else if acc = 0 then m else min m acc) 0

/-- The resolved lease in ms; 0 is none (the table of R19). -/
def resolveLease (requested effMax : Nat) : Nat :=
  if effMax = 0 then requested else if requested = 0 then effMax else min requested effMax

/-- The lease resolved from a request over lines, as a timer. -/
def leaseFor (s : State) (requested : Nat) (ls : List LineNo) : Option Nat :=
  timerOfMillis (resolveLease requested (effectiveMax s ls))

/-- The longest break interval among lines (R49). -/
def longestBreak (s : State) (ls : List LineNo) : Nat :=
  ls.foldr (fun l acc => max (s.policy l).breakInterval acc) 0

/-! ### What policies permit (R23, R24, R72) -/

def DriveMode.bit : DriveMode → Nat
  | .pushPull => 0
  | .openDrain => 1

/-- The host may drive every one of the lines. -/
def mayDrive (s : State) (h : HostId) (ls : List LineNo) : Bool :=
  ls.all fun l => (s.policy l).driverMask.getLsbD h.val

/-- The drive mode is allowed on every one of the lines. -/
def modeAllowed (s : State) (m : DriveMode) (ls : List LineNo) : Bool :=
  ls.all fun l => (s.policy l).modes.getLsbD m.bit

/-- The host may preempt on every one of the lines. -/
def mayPreempt (s : State) (h : HostId) (ls : List LineNo) : Bool :=
  ls.all fun l => (s.policy l).preemptMask.getLsbD h.val

/-- The host may listen to every one of the lines. -/
def mayListen (s : State) (h : HostId) (ls : List LineNo) : Bool :=
  ls.all fun l => (s.policy l).listenerMask.getLsbD h.val

/-! ### Lines and their drivers (R87) -/

/-- The DRIVER route that is not CLOSED on a line, with its slot. -/
def lineDriver (s : State) (l : LineNo) : Option (RouteSlot × Route) :=
  match (s.line l).driver with
  | none => none
  | some r =>
    match s.route? r with
    | none => none
    | some rt => if rt.live && rt.isDriver then some (r, rt) else none

/-- The line state the table of R87 gives. -/
def lineStateOf (s : State) (l : LineNo) : LineState :=
  match lineDriver s l with
  | some (_, rt) => if rt.active then .driven else .connecting
  | none => if (s.line l).queue.isEmpty then .free else .pending

def setLineState (l : LineNo) (s : State) : State :=
  s.updLine l fun e => { e with state := lineStateOf s l }

/-! ### Wait queues (R69, R70) -/

def queueHead (s : State) (l : LineNo) : Option ClaimSlot := (s.line l).queue.head?

/-- The claim is the head of the queue of every line it names. -/
def headsAll (s : State) (c : ClaimSlot) (ls : List LineNo) : Bool :=
  ls.all fun l => queueHead s l = some c

/-- The priority of a claim record; 0 for a free one. -/
def claimPriority (s : State) (c : ClaimSlot) : Priority :=
  match s.claim? c with
  | none => 0
  | some cl => cl.priority

/-- Claim c stands ahead of claim d in a queue: higher priority, or equal priority and earlier acceptance. -/
def ahead (s : State) (c d : ClaimSlot) : Bool :=
  claimPriority s d < claimPriority s c ||
    (claimPriority s d = claimPriority s c && s.accepted.idxOf c < s.accepted.idxOf d)

/-- Place a claim in a queue by priority and acceptance position. -/
def placeInQueue (s : State) (c : ClaimSlot) : List ClaimSlot → List ClaimSlot
  | [] => [c]
  | d :: ds => if ahead s c d then c :: d :: ds else d :: placeInQueue s c ds

/-- Place a claim in the queues of its lines, at the places its priority and acceptance position give. -/
def joinQueues (c : ClaimSlot) (ls : List LineNo) (s : State) : State :=
  ls.foldl (fun t l => t.updLine l fun e => { e with queue := placeInQueue s c e.queue }) s

/-- Take a claim out of the queues of its lines. -/
def leaveQueues (c : ClaimSlot) (ls : List LineNo) (s : State) : State :=
  ls.foldl (fun t l => t.updLine l fun e => { e with queue := e.queue.filter (· ≠ c) }) s

/-- Take a claim out of the acceptance order. -/
def leaveAccepted (c : ClaimSlot) (s : State) : State :=
  { s with accepted := s.accepted.filter (· ≠ c) }

/-- The lines whose queue head an event has changed; a queue that has become empty is among them (R70). -/
def changedHeads (before after : State) (ls : List LineNo) : List LineNo :=
  ls.filter fun l => queueHead before l ≠ queueHead after l

/-- A claim's position in a line's queue, counted from 1. -/
def queuePosition (s : State) (c : ClaimSlot) (l : LineNo) : Nat := (s.line l).queue.idxOf c + 1

/-! ### Held status (R114) -/

/-- A line is held when its group set has a group that is not CLEAR. -/
def State.held (s : State) (l : LineNo) : Bool :=
  (every 8).any fun g => (s.policy l).groupSet.getLsbD g.val && !(s.group g).state.isClear

/-- The set of one member index. -/
def memberBit (i : Nat) : BitVec 8 := 1#8 <<< i

/-- The members whose lines are held, the first having index i. -/
def heldMembers (s : State) : Nat → List Member → BitVec 8
  | _, [] => 0#8
  | i, m :: ms => (if s.held m.line then memberBit i else 0#8) ||| heldMembers s (i + 1) ms

/-- A line's held status has changed to what it now is: force or release its driver member (R63). -/
def passHeldOn (l : LineNo) (s : State) : State :=
  match lineDriver s l with
  | none => s
  | some (r, rt) =>
    if rt.active then
      match memberIndex rt.members l with
      | none => s
      | some i =>
        noteRoute rt.owner r (s.updRoute r fun x =>
          if s.held l then { x with forced := x.forced ||| memberBit i, forcedSince := true }
          else { x with forced := x.forced &&& ~~~memberBit i })
    else s

/-- Hand on every change of held status between two moments of an event (R114). -/
def passHeldChanges (before : State) (s : State) : State :=
  ((every 40).filter fun l => before.held l ≠ s.held l).foldl (fun t l => passHeldOn l t) s

/-! ### Closing and freeing routes (R51, R53) -/

/-- The lines a route gives up when it closes or is freed. -/
def linesGivenUp (rt : Route) : List LineNo :=
  if rt.live && rt.isDriver then linesOf rt.members else []

/-- The lines lose the route as their driver. -/
def loseDriver (r : RouteSlot) (ls : List LineNo) (s : State) : State :=
  ls.foldl (fun t l => t.updLine l fun e => if e.driver = some r then { e with driver := none } else e) s

/-- A live route's terminals are unbound and its lines lose their driver. -/
def giveUp (r : RouteSlot) (rt : Route) (s : State) : State :=
  loseDriver r (linesGivenUp rt) (unbindMembers rt.owner rt.members s)

/-- A CONNECTING or ACTIVE route becomes CLOSED (R51). The lines it gives up are handed on by the caller. -/
def closeRoute (why : CloseReason) (r : RouteSlot) (s : State) : State :=
  match s.route? r with
  | none => s
  | some rt =>
    if rt.live then
      noteRoute rt.owner r (giveUp r rt (s.updRoute r fun x =>
        { x with state := .closed why, lease := none, forced := 0#8 }))
    else s

/-- A route's entry is freed with its generation kept (R53). The lines it gives up are handed on by the caller. -/
def freeRoute (r : RouteSlot) (s : State) : State :=
  match s.route? r with
  | none => s
  | some rt =>
    let s₁ := if rt.live then giveUp r rt s else s
    let s₂ := (unnoteRoute rt.owner r s₁).updSession rt.owner fun e => { e with routesInUse := e.routesInUse - 1 }
    s₂.updRouteEntry r fun e => { e with route := none }

/-- The free entry with the lowest slot number (R48). -/
def firstFreeRoute (s : State) : Option RouteSlot := (every 96).find? fun r => (s.route? r).isNone

/-- Take an entry: its generation advances, from 255 to 0, and it holds the route (R48). -/
def takeEntry (r : RouteSlot) (rt : Route) (s : State) : State :=
  s.updRouteEntry r fun e => { generation := e.generation + 1#8, route := some rt }

/-! ### Activation (R50, R97) -/

/-- A CONNECTING route becomes ACTIVE: its lease starts from the stored value, its forced set is formed, its lines are DRIVEN. The
change set is the caller's. -/
def activate (r : RouteSlot) (s : State) : State :=
  match s.route? r with
  | none => s
  | some rt =>
    let forced := heldMembers s 0 rt.members
    let s₁ := s.updRoute r fun x =>
      { x with state := .active, forced := forced, forcedSince := x.forcedSince || forced != 0#8 }
    (linesOf rt.members).foldl (fun t l => setLineState l t) s₁

/-- The route has a member that is forced. -/
def anyForced (s : State) (r : RouteSlot) : Bool :=
  match s.route? r with
  | none => false
  | some rt => rt.forced != 0#8

/-! ### Claims (R67, R82) -/

/-- The free claim record with the lowest slot number (R67). -/
def firstFreeClaim (s : State) : Option ClaimSlot := (every 32).find? fun c => (s.claim? c).isNone

/-- A claim record becomes free with its generation kept, and its reference leaves the owner's change set. -/
def freeClaim (c : ClaimSlot) (s : State) : State :=
  match s.claim? c with
  | none => s
  | some cl =>
    let s₁ := (unnoteClaim cl.owner c s).updSession cl.owner fun e => { e with claimRecords := e.claimRecords - 1 }
    s₁.updClaimEntry c fun e => { e with claim := none }

/-- A WAITING claim leaves the acceptance order and its queues, and its terminals are unbound; the owner waits with one claim less. -/
def withdrawClaim (c : ClaimSlot) (cl : Claim) (s : State) : State :=
  let s₁ := leaveAccepted c (leaveQueues c (linesOf cl.members) s)
  (unbindMembers cl.owner cl.members s₁).updSession cl.owner fun e => { e with waitingClaims := e.waitingClaims - 1 }

/-- A WAITING claim settles DROPPED (R82). The lines it leaves are handed on by the caller. -/
def dropClaim (why : DropReason) (c : ClaimSlot) (s : State) : State :=
  match s.claim? c with
  | none => s
  | some cl =>
    noteClaim cl.owner c ((withdrawClaim c cl s).updClaim c fun x =>
      { x with state := .dropped why, waitLimit := none, awaiting := false })

/-! ### Time (log entry 6) -/

def GroupState.after (d : Nat) : GroupState → GroupState
  | .settling t => .settling (t - d)
  | st => st

/-- A route's running timer after d microseconds: the break timer while CONNECTING, the lease while ACTIVE. -/
def Route.after (d : Nat) (rt : Route) : Route :=
  match rt.state with
  | .connecting t => { rt with state := .connecting (t - d) }
  | .active => { rt with lease := rt.lease.map (· - d) }
  | .closed _ => rt

/-- A WAITING claim's wait limit after d microseconds. -/
def Claim.after (d : Nat) (cl : Claim) : Claim :=
  match cl.state with
  | .waiting => { cl with waitLimit := cl.waitLimit.map (· - d) }
  | _ => cl

/-- Every running timer counts down by d microseconds; one that has run out stays at 0 until its expiry is taken. -/
def advance (d : Nat) (s : State) : State :=
  { s with
    routes := s.routes.map fun e => { e with route := e.route.map (Route.after d) }
    claims := s.claims.map fun e => { e with claim := e.claim.map (Claim.after d) }
    groups := s.groups.map fun g => { g with state := g.state.after d }
    qualifiers := s.qualifiers.map fun q => { q with count := q.count.map (· - d) } }

end Sys2Proof.Machine
end

