-- ==== Sys2Proof/Machine/Arbiter.lean ====
section
/-! DEFINITION. Machine/Arbiter.lean: the grant check, preemption and its cascade, the entry arbiter, and the grant (chapter 6, R54). -/

namespace Sys2Proof.Machine

/-- Mark a claim as eligible: it joins the claims that await an entry (R93). -/
def markAwaiting (c : ClaimSlot) (s : State) : State := s.updClaim c fun cl => { cl with awaiting := true }

def unmarkAwaiting (c : ClaimSlot) (s : State) : State := s.updClaim c fun cl => { cl with awaiting := false }

/-- D of R89: the DRIVER routes that are not CLOSED with a member on any of the lines. -/
def driversOn (s : State) (ls : List LineNo) : List (RouteSlot × Route) := ls.filterMap (lineDriver s)

/-- A route of priority 0, 1 or 2, which a priority-3 claim may preempt. -/
def Route.preemptible (rt : Route) : Bool :=
  match rt.kind with
  | .driver p _ => p < 3
  | .listener => false

/-- The grant check of one claim (R89, R91), with the lines that a preemption frees. -/
def grantCheck (c : ClaimSlot) (s : State) : State × List LineNo :=
  match s.claim? c with
  | none => (s, [])
  | some cl =>
    if !cl.waiting then (s, [])
    else if !headsAll s c (linesOf cl.members) then (unmarkAwaiting c s, [])
    else
      let d := driversOn s (linesOf cl.members)
      if d.isEmpty then (markAwaiting c s, [])
      else if cl.priority = 3 && d.all fun p => p.2.preemptible then
        (markAwaiting c (d.foldl (fun t p => closeRoute .preempted p.1 t) s), d.flatMap fun p => linesOf p.2.members)
      else (s, [])

/-- One listed line: its state is set and the head of its queue is checked (R88). -/
def checkLine (l : LineNo) (s : State) : State × List LineNo :=
  let s₁ := setLineState l s
  match queueHead s₁ l with
  | none => (s₁, [])
  | some c => grantCheck c s₁

/-- The listed lines one after the other, with the lines their preemptions free. -/
def checkLines : List LineNo → State → State × List LineNo
  | [], s => (s, [])
  | l :: ls, s =>
    let (s₁, more₁) := checkLine l s
    let (s₂, more₂) := checkLines ls s₁
    (s₂, more₁ ++ more₂)

/-- The work list until it is empty (R88, R92). A round that frees lines has closed a route, so 97 rounds reach the end: at most 96
routes can close. -/
def checkAll : Nat → List LineNo → State → State
  | 0, _, s => s
  | _ + 1, [], s => s
  | n + 1, l :: ls, s =>
    let (s₁, more) := checkLines (l :: ls) s
    checkAll n more s₁

/-- Rounds of the work list that always suffice. -/
def checkRounds : Nat := 97

/-- A claim awaits an entry at a priority. -/
def awaitsAt (s : State) (p : Priority) (c : ClaimSlot) : Bool :=
  match s.claim? c with
  | none => false
  | some cl => cl.waiting && cl.awaiting && cl.priority = p

/-- The awaiting claim of highest priority, and of those the one accepted first (R54). -/
def bestAwaiting (s : State) : Option ClaimSlot :=
  [3, 2, 1, 0].findSome? fun p => s.accepted.find? (awaitsAt s p)

/-- The route a claim is granted as (R49). -/
def grantedRoute (s : State) (cl : Claim) : Route where
  owner := cl.owner
  kind := .driver cl.priority cl.mode
  state := .connecting (longestBreak s (linesOf cl.members))
  members := cl.members
  forced := 0#8
  forcedSince := false
  leaseClamped := false
  lease := leaseFor s cl.leaseRequested (linesOf cl.members)

/-- The lines take the route as their driver. -/
def takeLines (r : RouteSlot) (ls : List LineNo) (s : State) : State :=
  ls.foldl (fun t l => t.updLine l fun e => { e with driver := some r }) s

/-- The claim settles GRANTED (R81): it leaves its queues, and its terminals move to the route's members. -/
def settleGranted (c : ClaimSlot) (cl : Claim) (r : RouteSlot) (s : State) : State :=
  let s₁ := leaveAccepted c (leaveQueues c (linesOf cl.members) s)
  let s₂ := s₁.updClaim c fun x => { x with state := .granted r, waitLimit := none, awaiting := false }
  (bindMembers cl.owner (.route r) cl.members s₂).updSession cl.owner fun e =>
    { e with waitingClaims := e.waitingClaims - 1, routesInUse := e.routesInUse + 1 }

/-- The grant of a claim into an entry (R94, R96), with the lines whose queue head it changes. The claim `own` is the one the request
being answered is about, if any: its grant is told in the reply and enters no change set, but for a forced activation. -/
def grant (own : Option ClaimSlot) (c : ClaimSlot) (r : RouteSlot) (s : State) : State × List LineNo :=
  match s.claim? c with
  | none => (s, [])
  | some cl =>
    let ls := linesOf cl.members
    let s₁ := settleGranted c cl r (takeLines r ls (takeEntry r (grantedRoute s cl) s))
    let s₂ := if own = some c then s₁ else noteRoute cl.owner r (noteClaim cl.owner c s₁)
    let s₃ := if longestBreak s ls = 0 then activate r s₂ else s₂
    let s₄ := if longestBreak s ls = 0 && anyForced s₃ r then noteRoute cl.owner r s₃ else s₃
    (ls.foldl (fun t l => setLineState l t) s₄, changedHeads s s₁ ls)

/-- The entry arbiter (R54, R93): free entries go to the awaiting claims, the new queue heads being checked after each grant. Every
grant takes a claim out of the 32 that wait, so 33 rounds reach the end. -/
def grantAll (own : Option ClaimSlot) : Nat → State → State
  | 0, s => s
  | n + 1, s =>
    match bestAwaiting s, firstFreeRoute s with
    | some c, some r =>
      let (s₁, ls) := grant own c r s
      grantAll own n (checkAll checkRounds ls s₁)
    | _, _ => s

/-- Rounds of grants that always suffice. -/
def grantRounds : Nat := 33

/-- A claim that no longer heads all its queues stops awaiting an entry (R54, R73, R103). -/
def dropDisplaced (s : State) : State :=
  s.accepted.foldl (fun t c =>
    match t.claim? c with
    | none => t
    | some cl => if cl.waiting && !headsAll t c (linesOf cl.members) then unmarkAwaiting c t else t) s

/-- The Line Arbiter's part of an event: the claim handed for itself, if any, and the handed lines are checked, then the free entries
are handed out (R88, R93). -/
def arbitrate (own : Option ClaimSlot) (ls : List LineNo) (s : State) : State :=
  let s₁ := dropDisplaced s
  let (s₂, more) :=
    match own with
    | none => (s₁, [])
    | some c => grantCheck c s₁
  grantAll own grantRounds (checkAll checkRounds (ls ++ more) s₂)

end Sys2Proof.Machine
end

