-- ==== Sys2Proof/Machine/Fabric.lean ====
section
/-! DEFINITION. Machine/Fabric.lean: the Line Fabric. What each line shows and each terminal does follow from the records; only the
level of each line pin is state, for the line hold keeps it (chapter 1). -/

namespace Sys2Proof.Machine

/-- What a line shows: a posture, or the level of one driving terminal in a drive mode (1.1). -/
inductive LineShows where
  | posture (p : Posture)
  | terminal (host : HostId) (t : TermNo) (mode : DriveMode)
deriving DecidableEq, Repr

/-- The part's own circuit at a line pin: the level it drives at full strength, and the level a weak pull gives (R2). -/
structure PinDrive where
  strong : Option Level
  pull : Option Level
deriving DecidableEq, Repr

/-- What a terminal pin does (R8): the level its output buffer drives, and what becomes of its input. -/
inductive TerminalShows where
  /-- Output buffer off, pull-down on, input not used. -/
  | idle
  /-- Output buffer off, pull-down on, input read and carried to no line. -/
  | readOnly
  /-- Output buffer off, pull-down on, input carried to the line. -/
  | carried (line : LineNo)
  /-- Output buffer on, pull-down off: the line's sampled level. -/
  | drives (level : Level)
deriving DecidableEq, Repr

/-- The choice of R1. -/
def lineShows (s : State) (l : LineNo) : LineShows :=
  if s.held l then .posture (s.policy l).safePosture
  else
    match (s.line l).state, lineDriver s l with
    | .driven, some (_, rt) =>
      match rt.kind, memberIndex rt.members l with
      | .driver _ mode, some i =>
        if rt.active && !rt.forced.getLsbD i then
          match rt.members[i]? with
          | some m => .terminal rt.owner m.terminal mode
          | none => .posture (s.policy l).restPosture
        else .posture (s.policy l).restPosture
      | _, _ => .posture (s.policy l).restPosture
    | _, _ => .posture (s.policy l).restPosture

/-- The level a terminal presents: the host's level, or LOW by the pull-down while the host does not drive it (R9). -/
def terminalLevel (s : State) (h : HostId) (t : TermNo) : Level := (s.terminal h t).getD .low

/-- The circuit of a posture (the table of R2). -/
def Posture.drive : Posture → PinDrive
  | .low => ⟨some .low, none⟩
  | .high => ⟨some .high, none⟩
  | .float => ⟨none, none⟩
  | .pullUp => ⟨none, some .high⟩
  | .pullDown => ⟨none, some .low⟩

/-- The pull of a released OPEN_DRAIN line (the table of R4). -/
def Posture.releasedPull : Posture → Option Level
  | .high => some .high
  | .pullUp => some .high
  | .low => some .low
  | .pullDown => some .low
  | .float => none

/-- The circuit the part applies at a line pin (R2, R3, R4). -/
def pinDrive (s : State) (l : LineNo) : PinDrive :=
  match lineShows s l with
  | .posture p => p.drive
  | .terminal h t .pushPull => ⟨some (terminalLevel s h t), none⟩
  | .terminal h t .openDrain =>
    match terminalLevel s h t with
    | .low => ⟨some .low, none⟩
    | .high => ⟨none, (s.policy l).restPosture.releasedPull⟩

/-- The level a pin takes: a driver beats a pull, a pull beats the hold (R2, R7). Where the part and the board drive different levels
the level is a free value. DESIGN CHOICE (log entry 4): every board circuit is taken as a full-strength driver. One that only pulls a
line (R4) has no form of its own: its pull against the part's driver gives the free value, where R2 gives the driver's level, and
against the part's pull or hold it sets the level. -/
def pinLevel (l : LineNo) (d : PinDrive) (p : LinePin) : Level :=
  match d.strong, p.board with
  | some a, none => a
  | some a, some b => if a = b then a else Config.contention l p.changes
  | none, some b => b
  | none, none => d.pull.getD p.level

/-- The pin after a change of what acts on it. -/
def repin (l : LineNo) (d : PinDrive) (p : LinePin) : LinePin :=
  { p with level := pinLevel l d p, changes := p.changes + 1 }

/-- The line pins follow an event (R5, R6): a pin on which something else now acts takes the level that follows, every other pin is
left as it is. -/
def settle (before after : State) : State :=
  { after with
    pins := tab fun l =>
      if pinDrive before l = pinDrive after l ∧ (before.pin l).board = (after.pin l).board then after.pin l
      else repin l (pinDrive after l) (after.pin l) }

/-- The sampled level of a line (R7). -/
def sampled (s : State) (l : LineNo) : Level := (s.pin l).level

/-- What a terminal pin does (the table of R8). -/
def terminalShows (s : State) (h : HostId) (t : TermNo) : TerminalShows :=
  match look (s.session h).bindings t with
  | none => .idle
  | some (.claim _ _) => .idle
  | some (.route r i) =>
    match s.route? r with
    | none => .idle
    | some rt =>
      match rt.members[i]?, rt.state, rt.kind with
      | some m, .active, .listener => .drives (sampled s m.line)
      | some m, .active, .driver _ _ => if rt.forced.getLsbD i then .readOnly else .carried m.line
      | some _, .connecting _, _ => .readOnly
      | _, _, _ => .idle

end Sys2Proof.Machine
end

