-- ==== Sys2Proof/Machine/Operands.lean ====
section
/-! DEFINITION. Machine/Operands.lean: the request codes with what each needs (R39, 10.4), and the parameter bytes of each request,
read by the layouts of 10.3 and 10.4 with the range checks of R145. A reader answers none where the request is BAD_PARAMETER. -/

namespace Sys2Proof.Machine

/-- The requests of the part (10.4). -/
inductive ReqCode where
  | attach | detach | collect | readLevels | queryLine | setPolicy | queryPolicy | listen | release | renew
  | revoke | queryRoute | claim | amend | cancel | queryClaim | setGroup | trip | rearm | queryGroup
deriving DecidableEq, Repr

/-- The CODE byte of a request (10.4). -/
def ReqCode.byte : ReqCode → Byte
  | .attach => 0x10#8
  | .detach => 0x11#8
  | .collect => 0x12#8
  | .readLevels => 0x20#8
  | .queryLine => 0x21#8
  | .setPolicy => 0x28#8
  | .queryPolicy => 0x29#8
  | .listen => 0x30#8
  | .release => 0x31#8
  | .renew => 0x32#8
  | .revoke => 0x33#8
  | .queryRoute => 0x34#8
  | .claim => 0x40#8
  | .amend => 0x41#8
  | .cancel => 0x42#8
  | .queryClaim => 0x43#8
  | .setGroup => 0x50#8
  | .trip => 0x51#8
  | .rearm => 0x52#8
  | .queryGroup => 0x53#8

/-- Every request code. -/
def allCodes : List ReqCode :=
  [.attach, .detach, .collect, .readLevels, .queryLine, .setPolicy, .queryPolicy, .listen, .release, .renew,
    .revoke, .queryRoute, .claim, .amend, .cancel, .queryClaim, .setGroup, .trip, .rearm, .queryGroup]

/-- The byte is one of the part's request codes. -/
def isRequestCode (b : Byte) : Bool := allCodes.any fun c => c.byte = b

/-- The request needs the host to be ATTACHED (the table of R39). -/
def ReqCode.needsAttachment : ReqCode → Bool
  | .attach => false
  | .readLevels => false
  | .queryLine => false
  | .queryPolicy => false
  | .queryRoute => false
  | .queryClaim => false
  | .queryGroup => false
  | .detach => true
  | .collect => true
  | .setPolicy => true
  | .listen => true
  | .release => true
  | .renew => true
  | .revoke => true
  | .claim => true
  | .amend => true
  | .cancel => true
  | .setGroup => true
  | .trip => true
  | .rearm => true

/-- The request needs the host to be the supervisor (the table of R39). -/
def ReqCode.needsSupervisor : ReqCode → Bool
  | .setPolicy => true
  | .revoke => true
  | .setGroup => true
  | .trip => true
  | _ => false

/-- A length that starts with a count byte: fixed bytes, and two more for each member. -/
def countedLength (fixed : Nat) (ps : List Byte) : Bool :=
  match ps with
  | [] => false
  | n :: _ => ps.length = fixed + 2 * n.toNat

/-- The parameter bytes have a length the code permits (R145). -/
def ReqCode.lengthOk (c : ReqCode) (ps : List Byte) : Bool :=
  match c with
  | .attach => ps.length = 0
  | .detach => ps.length = 0
  | .collect => ps.length = 0
  | .readLevels => ps.length = 0
  | .queryLine => ps.length = 1
  | .setPolicy => ps.length = 10
  | .queryPolicy => ps.length = 1
  | .listen => countedLength 3 ps
  | .release => ps.length = 2
  | .renew => ps.length = 4
  | .revoke => ps.length = 2
  | .queryRoute => ps.length = 2
  | .claim => countedLength 6 ps
  | .amend => ps.length = 5
  | .cancel => ps.length = 2
  | .queryClaim => ps.length = 2
  | .setGroup => ps.length = 4
  | .trip => ps.length = 1
  | .rearm => ps.length = 1
  | .queryGroup => ps.length = 1

/-! ### Fields -/

/-- A number sent in two bytes, high byte first. -/
def word16 (hi lo : Byte) : Nat := hi.toNat * 256 + lo.toNat

/-- A byte as a number below n. -/
def below? (n : Nat) (b : Byte) : Option (Fin n) :=
  if h : b.toNat < n then some ⟨b.toNat, h⟩ else none

/-- A field of a byte: w bits from bit i up. -/
def field (b : Byte) (i w : Nat) : BitVec w := b.extractLsb' i w

def posture? (x : BitVec 3) : Option Posture :=
  match x.toNat with
  | 0 => some .low
  | 1 => some .high
  | 2 => some .float
  | 3 => some .pullUp
  | 4 => some .pullDown
  | _ => none

def driveMode? (x : BitVec 4) : Option DriveMode :=
  match x.toNat with
  | 0 => some .pushPull
  | 1 => some .openDrain
  | _ => none

/-- Members, each sent as line and terminal. -/
def members? : List Byte → Option (List Member)
  | [] => some []
  | [_] => none
  | l :: t :: rest =>
    match below? 40 l, below? 12 t, members? rest with
    | some l, some t, some ms => some (⟨l, t⟩ :: ms)
    | _, _, _ => none

/-- 1 to 8 members, no line twice and no terminal twice (R55, R71). -/
def membersOk (ms : List Member) : Bool :=
  1 ≤ ms.length && ms.length ≤ 8 && (ms.map (·.line)).Nodup && (ms.map (·.terminal)).Nodup

/-- The members list of a LISTEN or CLAIM, in range. -/
def memberList? (bs : List Byte) : Option (List Member) :=
  match members? bs with
  | some ms => if membersOk ms then some ms else none
  | none => none

/-! ### Parameters of each request -/

/-- QUERY_LINE, QUERY_POLICY. -/
def lineParam? : List Byte → Option LineNo
  | [l] => below? 40 l
  | _ => none

/-- TRIP, REARM, QUERY_GROUP. -/
def groupParam? : List Byte → Option GroupNo
  | [g] => below? 8 g
  | _ => none

/-- RELEASE, REVOKE, QUERY_ROUTE: the generation is not range-checked. -/
def routeRef? : List Byte → Option (RouteSlot × Byte)
  | [slot, gen] => (below? 96 slot).map fun r => (r, gen)
  | _ => none

/-- CANCEL, QUERY_CLAIM. -/
def claimRef? : List Byte → Option (ClaimSlot × Byte)
  | [slot, gen] => (below? 32 slot).map fun c => (c, gen)
  | _ => none

/-- RENEW: reference and requested lease. -/
def renewParams? : List Byte → Option (RouteSlot × Byte × Nat)
  | [slot, gen, hi, lo] => (below? 96 slot).map fun r => (r, gen, word16 hi lo)
  | _ => none

/-- AMEND: reference, new priority, new wait limit. -/
def amendParams? : List Byte → Option (ClaimSlot × Byte × Priority × Nat)
  | [slot, gen, p, hi, lo] =>
    match below? 32 slot, below? 4 p with
    | some c, some p => some (c, gen, p, word16 hi lo)
    | _, _ => none
  | _ => none

/-- LISTEN: requested lease and members. The count agrees with the length by the length check. -/
def listenParams? : List Byte → Option (Nat × List Member)
  | _ :: hi :: lo :: rest => (memberList? rest).map fun ms => (word16 hi lo, ms)
  | _ => none

/-- The parameters of a CLAIM. -/
structure ClaimParams where
  priority : Priority
  mode : DriveMode
  lease : Nat
  waitLimit : Nat
  members : List Member
deriving DecidableEq, Repr

/-- CLAIM. -/
def claimParams? : List Byte → Option ClaimParams
  | _ :: pm :: lhi :: llo :: whi :: wlo :: rest =>
    match below? 4 ((field pm 4 4).setWidth 8), driveMode? (field pm 0 4), memberList? rest with
    | some p, some m, some ms => some ⟨p, m, word16 lhi llo, word16 whi wlo, ms⟩
    | _, _, _ => none
  | _ => none

/-- The policy record that SET_POLICY parameter bytes 2 to 9 spell, in range and with the zero bits zero (R21, R145). -/
def policyOfBytes? : List Byte → Option Policy
  | [masks, pm, post, gs, mhi, mlo, bhi, blo] =>
    match posture? (field post 4 3), posture? (field post 0 3) with
    | some rest, some safe =>
      if field pm 2 2 = 0#2 ∧ field pm 0 2 ≠ 0#2 ∧ field post 7 1 = 0#1 ∧ field post 3 1 = 0#1 ∧ word16 bhi blo ≤ 1000 then
        some {
          driverMask := field masks 4 4
          listenerMask := field masks 0 4
          preemptMask := field pm 4 4
          modes := field pm 0 2
          restPosture := rest
          safePosture := safe
          groupSet := gs
          maxLease := word16 mhi mlo
          breakInterval := word16 bhi blo }
      else none
    | _, _ => none
  | _ => none

/-- SET_POLICY: first line, last line, and the record to write. -/
def setPolicyParams? : List Byte → Option (LineNo × LineNo × Policy)
  | f :: l :: rest =>
    match below? 40 f, below? 40 l, policyOfBytes? rest with
    | some f, some l, some p => if f ≤ l then some (f, l, p) else none
    | _, _, _ => none
  | _ => none

/-- The five fields SET_GROUP writes. -/
structure GroupConfig where
  enabled : Bool
  polarity : Polarity
  recovery : Recovery
  settleInterval : Nat
  rearmMask : BitVec 4
deriving DecidableEq, Repr

/-- SET_GROUP. -/
def setGroupParams? : List Byte → Option (GroupNo × GroupConfig)
  | [g, cfg, hi, lo] =>
    match below? 8 g with
    | some g =>
      if field cfg 4 1 = 0#1 ∧ 1 ≤ word16 hi lo ∧ word16 hi lo ≤ 4095 then
        some (g, {
          enabled := cfg.getLsbD 7
          polarity := if cfg.getLsbD 6 then .activeHigh else .activeLow
          recovery := if cfg.getLsbD 5 then .auto else .manual
          settleInterval := word16 hi lo
          rearmMask := field cfg 0 4 })
      else none
    | none => none
  | _ => none

/-! ### Fields of replies -/

/-- A number in two bytes, high byte first. -/
def bytes16 (n : Nat) : List Byte := [BitVec.ofNat 8 (n / 256), BitVec.ofNat 8 n]

/-- A number placed in a byte from bit i up. -/
def place (n i : Nat) : Byte := BitVec.ofNat 8 n <<< i

/-- A yes or no placed at bit i. -/
def flagAt (b : Bool) (i : Nat) : Byte := place b.toNat i

def DriveMode.code : DriveMode → Nat
  | .pushPull => 0
  | .openDrain => 1

def Posture.code : Posture → Nat
  | .low => 0
  | .high => 1
  | .float => 2
  | .pullUp => 3
  | .pullDown => 4

def CloseReason.code : CloseReason → Nat
  | .expired => 0
  | .preempted => 1
  | .revoked => 2
  | .policy => 3

def RouteState.code : RouteState → Nat
  | .connecting _ => 0
  | .active => 1
  | .closed _ => 2

def ClaimState.code : ClaimState → Nat
  | .waiting => 0
  | .granted _ => 1
  | .dropped _ => 2

def DropReason.code : DropReason → Nat
  | .timedOut => 0
  | .policy => 1

def LineState.code : LineState → Nat
  | .free => 0
  | .pending => 1
  | .connecting => 2
  | .driven => 3

def GroupState.code : GroupState → Nat
  | .clear => 0
  | .tripped => 1
  | .settling _ => 2
  | .latched => 3

/-- A set of lines: byte j, bit i stands for line 8j + i, byte 0 first (10.3). -/
def lineSet (f : LineNo → Bool) : List Byte :=
  (List.finRange 5).map fun j =>
    (List.finRange 8).foldl (fun acc i => acc ||| flagAt (f (Fin.ofNat 40 (8 * j.val + i.val))) i.val) 0#8

end Sys2Proof.Machine
end

