-- ==== Sys2Proof/Machine/Flags.lean ====
section
/-! DEFINITION. Machine/Flags.lean: the flags and status outputs that follow from the records: input asserted, FLTSTAT, ATTN, the link
status byte, the group status byte. -/

namespace Sys2Proof.Machine

/-- The input asserted flag of a polarity and a qualified level (R107). -/
def assertedOf (p : Polarity) (l : Level) : Bool :=
  match p, l with
  | .activeLow, .low => true
  | .activeHigh, .high => true
  | .activeLow, .high => false
  | .activeHigh, .low => false

/-- FLTSTAT is high while a group is not CLEAR (R121). -/
def fltstat (s : State) : Bool := (every 8).any fun g => !(s.group g).state.isClear

def ChangeSet.isEmpty (cs : ChangeSet) : Bool := cs.claims.isEmpty && cs.routes.isEmpty

/-- ATTNn is asserted while the host's change set is not empty or its link has an unread reply (R130). -/
def attn (s : State) (h : HostId) : Bool :=
  !(s.session h).changes.isEmpty || !(s.port h).replies.isEmpty

def WriteResult.code : WriteResult → Nat
  | .accepted => 0
  | .rejectedCheck => 1
  | .rejectedLength => 2
  | .rejectedFull => 3
  | .rejectedKind => 4

/-- Free places of an inbound queue. -/
def inboundSpace (p : Port) : Nat := Config.inboundCapacity - p.inbound.length

/-- The link status byte (R134, 10.1). -/
def linkStatus (s : State) (h : HostId) : Byte :=
  flagAt (!(s.port h).replies.isEmpty) 7 ||| flagAt (!(s.session h).changes.isEmpty) 6 |||
    flagAt (s.session h).attached 5 ||| place (5 * (s.port h).lastWrite.code + inboundSpace (s.port h)) 0

/-- The group status byte (10.6). -/
def groupStatus (g : Group) : Byte :=
  place g.state.code 0 ||| flagAt g.inputAsserted 4 ||| flagAt g.softTrip 5

end Sys2Proof.Machine
end

