-- ==== Sys2Proof/Machine/Frames.lean ====
section
/-! DEFINITION. Machine/Frames.lean: status codes, the CRC, request frames and reply frames (R136, R144, 10.2, 10.5). -/

namespace Sys2Proof.Machine

/-- The 23 status codes (9.8). -/
inductive Status where
  | ok | granted | queued | alreadyClosed
  | unknownRequest | badLength | notAttached | notAuthorized | badParameter
  | staleReference | notOwner | wrongState
  | lineNotPermitted | modeNotPermitted | terminalBusy | alreadyWaiting | alreadyOwner | alreadyListening
  | tableFull | hostRouteLimit | hostClaimLimit
  | faultPresent | groupNotClear
deriving DecidableEq, Repr

/-- The byte of a status (10.5). -/
def Status.byte : Status → Byte
  | .ok => 0x00#8
  | .granted => 0x01#8
  | .queued => 0x02#8
  | .alreadyClosed => 0x03#8
  | .unknownRequest => 0x10#8
  | .badLength => 0x11#8
  | .notAttached => 0x12#8
  | .notAuthorized => 0x13#8
  | .badParameter => 0x14#8
  | .staleReference => 0x20#8
  | .notOwner => 0x21#8
  | .wrongState => 0x22#8
  | .lineNotPermitted => 0x30#8
  | .modeNotPermitted => 0x31#8
  | .terminalBusy => 0x32#8
  | .alreadyWaiting => 0x33#8
  | .alreadyOwner => 0x34#8
  | .alreadyListening => 0x35#8
  | .tableFull => 0x40#8
  | .hostRouteLimit => 0x41#8
  | .hostClaimLimit => 0x43#8
  | .faultPresent => 0x50#8
  | .groupNotClear => 0x51#8

/-- The outcome of a request as its reply carries it. -/
structure Answer where
  status : Status
  results : List Byte
deriving DecidableEq, Repr

/-! ### The CRC (R136) -/

/-- One bit of the division by x^16 + x^12 + x^5 + 1. -/
def crcShift (c : BitVec 16) : BitVec 16 :=
  if c.msb then (c <<< 1) ^^^ 0x1021#16 else c <<< 1

def crcShifts : Nat → BitVec 16 → BitVec 16
  | 0, c => c
  | n + 1, c => crcShifts n (crcShift c)

/-- A byte enters, most significant bit first. -/
def crcByte (c : BitVec 16) (b : Byte) : BitVec 16 := crcShifts 8 (c ^^^ (b.setWidth 16 <<< 8))

def crc (bs : List Byte) : BitVec 16 := bs.foldl crcByte 0xFFFF#16

/-- The CHECK of some bytes, high byte first. -/
def checkBytes (bs : List Byte) : List Byte := [(crc bs).extractLsb' 8 8, (crc bs).extractLsb' 0 8]

/-! ### Frames -/

def frameTag (f : List Byte) : Byte := f.getD 1 0#8

def frameCode (f : List Byte) : Byte := f.getD 2 0#8

/-- The bytes between CODE and CHECK. -/
def frameParams (f : List Byte) : List Byte := (f.drop 3).dropLast.dropLast

/-- Check 1 of R135: LEN is 2 to 26 and the frame is LEN + 3 bytes long. -/
def frameLengthOk (f : List Byte) : Bool :=
  match f with
  | [] => false
  | len :: _ => 2 ≤ len.toNat && len.toNat ≤ 26 && f.length = len.toNat + 3

/-- Check 2 of R135: the last two bytes are the CHECK of the others. -/
def frameCheckOk (f : List Byte) : Bool :=
  f.drop (f.length - 2) = checkBytes (f.take (f.length - 2))

/-- A request frame as a host builds it. -/
def requestFrame (tag code : Byte) (ps : List Byte) : List Byte :=
  let body := BitVec.ofNat 8 (2 + ps.length) :: tag :: code :: ps
  body ++ checkBytes body

/-- A reply frame (R144). -/
def replyFrame (tag code epoch : Byte) (a : Answer) : List Byte :=
  let body := BitVec.ofNat 8 (4 + a.results.length) :: tag :: code :: a.status.byte :: epoch :: a.results
  body ++ checkBytes body

/-- The null reply (R139). -/
def nullReply : List Byte := [0x00#8]

end Sys2Proof.Machine
end

