-- ==== Sys2Proof/Machine/Ports.lean ====
section
/-! DEFINITION. Machine/Ports.lean: device reset, the sessions' ends, the transactions of the Host Link Ports, and the taking of a
request with the common request checks (chapters 3 and 9). -/

namespace Sys2Proof.Machine

/-- The next state of every meaning. -/
abbrev Result := Host.Outcome State Fault Refusal

/-- A command that the part takes only outside device reset; while reset lasts every block holds its reset values (R15). -/
def whileRunning (f : State → State) (s : State) : Result := .next (if s.inReset then s else f s)

/-! ### Device reset -/

/-- Every block at its reset values; the circuits outside the part stay as they are (R15). -/
def deviceReset (s : State) : State :=
  let s₁ := { State.reset with
    qualifiers := s.qualifiers.map fun (q : Qualifier) => { pin := q.pin, qualified := .high, due := [], count := none }
    terminals := s.terminals
    pins := s.pins
    pending := s.pending }
  { s₁ with pins := tab fun l => repin l (pinDrive s₁ l) (s₁.pin l) }

/-- The host whose number the straps give, SUPSEL1 the high digit (R34). -/
def strappedHost : Level → Level → HostId
  | .low, .low => 0
  | .low, .high => 1
  | .high, .low => 2
  | .high, .high => 3

/-- The part leaves reset: the straps name the supervisor and the reset driver masks (R17, R34); each qualified level is the one at its
pin, and each input asserted flag follows from it (R106, R107). -/
def leaveReset (supsel1 supsel0 : Level) (s : State) : State :=
  let sup := strappedHost supsel1 supsel0
  { s with
    inReset := false
    supervisor := sup
    policies := s.policies.map fun p => { p with driverMask := onlyHost sup }
    qualifiers := s.qualifiers.map fun q => { q with qualified := q.pin, due := [], count := none }
    groups := tab fun g => { s.group g with inputAsserted := assertedOf (s.group g).polarity (s.qualifier g).pin } }

/-- DEVICE_RESET (R15). -/
def execDeviceReset (s : State) : Result := .next (deviceReset s)

/-- LEAVE_RESET (R34); only a part in reset leaves it. -/
def execLeaveReset (supsel1 supsel0 : Level) (s : State) : Result :=
  .next (if s.inReset then settle s (leaveReset supsel1 supsel0 s) else s)

/-! ### Session end (R43, R44) -/

/-- An entry holds a route of the host. -/
def ownsRoute (h : HostId) (e : RouteEntry) : Bool :=
  match e.route with
  | none => false
  | some rt => rt.owner = h

/-- A record holds a claim of the host. -/
def ownsClaim (h : HostId) (e : ClaimEntry) : Bool :=
  match e.claim with
  | none => false
  | some cl => cl.owner = h

/-- The route entries of a host, in any state. -/
def routesOf (s : State) (h : HostId) : List RouteSlot := (every 96).filter fun r => ownsRoute h (s.routeEntry r)

/-- The claim records of a host, in any state. -/
def claimsOf (s : State) (h : HostId) : List ClaimSlot := (every 32).filter fun c => ownsClaim h (s.claimEntry c)

/-- The lines that a host's freed records touch: those of its live driver routes and of its WAITING claims (R44). -/
def touchedLines (s : State) (h : HostId) : List LineNo :=
  ((routesOf s h).flatMap fun r => ((s.route? r).map linesGivenUp).getD []) ++
    (claimsOf s h).flatMap fun c => ((s.claim? c).map fun cl => if cl.waiting then linesOf cl.members else []).getD []

/-- Every record of a host is freed without closing or settling, and its session record is cleared but for its epoch (R43). -/
def clearHost (h : HostId) (s : State) : State :=
  { s with
    routes := s.routes.map fun e => if ownsRoute h e then { e with route := none } else e
    claims := s.claims.map fun e => if ownsClaim h e then { e with claim := none } else e
    accepted := s.accepted.filter fun c => !ownsClaim h (s.claimEntry c)
    lines := s.lines.map fun ln =>
      { ln with
        driver := ln.driver.filter fun r => !ownsRoute h (s.routeEntry r)
        queue := ln.queue.filter fun c => !ownsClaim h (s.claimEntry c) }
    sessions := upd s.sessions h fun e => { Session.reset with epoch := e.epoch } }

/-- The session of a host ends: its records are freed, then the lines they touched are offered to the other hosts (R43, R44). -/
def endSession (h : HostId) (s : State) : State := arbitrate none (touchedLines s h) (clearHost h s)

/-! ### Transactions (R133 to R141) -/

/-- The status byte captured by a transaction whose kind byte is not complete. -/
def awaitedKind (p : Port) : Option Byte :=
  match p.transaction with
  | .begun st => some st
  | _ => none

/-- The transaction kinds (R133). -/
inductive Kind where
  | write
  | read
  | readAgain
  | linkReset
  | unknown
deriving DecidableEq, Repr

/-- The kind that a transaction's first byte names (the table of R133). -/
def kindOf (b : Byte) : Kind :=
  if b = 0x31#8 then .write
  else if b = 0x32#8 then .read
  else if b = 0x33#8 then .readAgain
  else if b = 0x3C#8 then .linkReset
  else .unknown

/-- The byte the port shifts out on SDOn as byte i of a transaction, byte 0 being sent while the kind byte comes in; none is high
impedance, SELn being deasserted. The further bytes of a WRITE, a LINK_RESET and an unknown kind are 00h (R133). -/
def Transaction.sent : Transaction → Nat → Option Byte
  | .none, _ => Option.none
  | .begun st, 0 => some st
  | .begun _, _ + 1 => some 0x00#8
  | .sending st _, 0 => some st
  | .sending _ bs, i + 1 => some (bs.getD i 0x00#8)

/-- SELn is deasserted: the transaction is over, whatever has been sent, and nothing else changes (R133). -/
def Port.deselect (p : Port) : Port := { p with transaction := .none }

/-- SELn is asserted: a transaction begins with the captured status byte (R133). -/
def Port.select (st : Byte) (p : Port) : Port := { p with transaction := .begun st }

/-- An assertion of SELn begins a transaction. Where one is still open, its deassertion is taken first (R133, log entry 8). -/
def beginTransaction (h : HostId) (s : State) : State :=
  s.updPort h fun p => p.deselect.select (linkStatus s h)

/-- Act on a complete kind byte, if a transaction waits for one; clocks outside a transaction are ignored (R133). -/
def onKind (h : HostId) (f : Byte → State → State) (s : State) : State :=
  match awaitedKind (s.port h) with
  | none => s
  | some st => f st s

/-- The judgement of a WRITE (R135). -/
def judgeFrame (p : Port) (bytes : List Byte) : WriteResult :=
  if !frameLengthOk bytes then .rejectedLength
  else if !frameCheckOk bytes then .rejectedCheck
  else if p.inbound.length < Config.inboundCapacity then .accepted
  else .rejectedFull

/-- SELn is deasserted in a WRITE: the frame is accepted or discarded, and the transaction is over (R135). -/
def writeFrame (bytes : List Byte) (p : Port) : Port :=
  { p.deselect with
    lastWrite := judgeFrame p bytes
    inbound := if judgeFrame p bytes = .accepted then p.inbound ++ [bytes] else p.inbound }

/-- SELn is deasserted: a WRITE's frame is judged, and a transaction of any other kind, or of none, is over and changes nothing; what the
host sent in it is ignored (R133, R135). -/
def endTransaction (frame : Option (List Byte)) (p : Port) : Port :=
  match p.transaction, frame with
  | .begun _, some bytes => writeFrame bytes p
  | _, _ => p.deselect

/-- A READ takes the oldest unread reply, or sends the null reply (R139). -/
def readReply (st : Byte) (p : Port) : Port :=
  match p.replies with
  | [] => { p with transaction := .sending st nullReply }
  | r :: rs => { p with transaction := .sending st r, replies := rs, lastRead := some r }

/-- A READ_AGAIN sends the last-read reply, or the null reply (R140). -/
def readReplyAgain (st : Byte) (p : Port) : Port :=
  { p with transaction := .sending st (p.lastRead.getD nullReply) }

/-- A link reset (R141). -/
def resetLink (h : HostId) (st : Byte) (s : State) : State :=
  let s₁ := if (s.session h).attached then endSession h s else s
  s₁.updPort h fun _ => { Port.reset with transaction := .sending st nullReply }

/-- TRANSACTION_BEGIN (R133, R134). -/
def execTransactionBegin (h : HostId) (s : State) : Result := whileRunning (beginTransaction h) s

/-- WRITE, and the end of every other transaction (R133, R135). -/
def execWrite (h : HostId) (frame : Option (List Byte)) (s : State) : Result :=
  whileRunning (fun t => t.updPort h (endTransaction frame)) s

/-- READ (R139). -/
def execRead (h : HostId) (s : State) : Result :=
  whileRunning (onKind h fun st t => t.updPort h (readReply st)) s

/-- READ_AGAIN (R140). -/
def execReadAgain (h : HostId) (s : State) : Result :=
  whileRunning (onKind h fun st t => t.updPort h (readReplyAgain st)) s

/-- LINK_RESET (R141). -/
def execLinkReset (h : HostId) (s : State) : Result :=
  whileRunning (onKind h fun st t => settle t (resetLink h st t)) s

/-- An unknown kind is rejected, and the port sends 00h (R133). -/
def rejectKind (st : Byte) (p : Port) : Port := { p with lastWrite := .rejectedKind, transaction := .sending st nullReply }

/-- UNKNOWN_KIND (R133). A byte that names a known kind is no such event, and nothing happens. -/
def execUnknownKind (h : HostId) (kind : Byte) (s : State) : Result :=
  whileRunning (fun t => if kindOf kind = .unknown then onKind h (fun st u => u.updPort h (rejectKind st)) t else t) s

/-! ### Taking a request (R137, R143, R144) -/

/-- The frame the port may take: the head of its inbound queue, while fewer than 4 replies are unread (R137, R138). -/
def takeableFrame (s : State) (h : HostId) : Option (List Byte) :=
  if (s.port h).replies.length < Config.replyCapacity then (s.port h).inbound.head? else none

/-- The head frame leaves the inbound queue. -/
def popFrame (h : HostId) (s : State) : State := s.updPort h fun p => { p with inbound := p.inbound.tail }

/-- The reply to a frame is placed at the end of the reply queue, with the host's epoch as the request leaves it (R144). -/
def queueReply (h : HostId) (frame : List Byte) (a : Answer) (s : State) : State :=
  s.updPort h fun p =>
    { p with replies := p.replies ++ [replyFrame (frameTag frame) (frameCode frame) (s.session h).epoch a] }

/-- A refusal: no record is changed and no result is given. -/
def refuse (st : Status) (s : State) : State × Answer := (s, ⟨st, []⟩)

/-- Common checks 2 to 4 (R143): length, attachment, authority. -/
def commonRefusal (code : ReqCode) (h : HostId) (ps : List Byte) (s : State) : Option Status :=
  if !code.lengthOk ps then some .badLength
  else if code.needsAttachment && !(s.session h).attached then some .notAttached
  else if code.needsSupervisor && h ≠ s.supervisor then some .notAuthorized
  else none

/-- The common checks, then the owning block. -/
def carryOut (code : ReqCode) (act : HostId → List Byte → State → State × Answer) (h : HostId) (ps : List Byte)
    (s : State) : State × Answer :=
  match commonRefusal code h ps s with
  | some st => refuse st s
  | none => act h ps s

/-- The port takes its head frame if that is a request of this code, and its reply is queued. Where the port may take no frame, or its
head frame is another request, the event does not occur (log entry 7). -/
def takeRequest (code : ReqCode) (act : HostId → List Byte → State → State × Answer) (h : HostId) (s : State) : State :=
  match takeableFrame s h with
  | none => s
  | some f =>
    if frameCode f = code.byte then
      let p := carryOut code act h (frameParams f) (popFrame h s)
      settle s (queueReply h f p.2 p.1)
    else s

/-- A frame whose CODE is no request code is answered UNKNOWN_REQUEST. -/
def takeUnknown (h : HostId) (s : State) : State :=
  match takeableFrame s h with
  | none => s
  | some f =>
    if isRequestCode (frameCode f) then s
    else queueReply h f ⟨.unknownRequest, []⟩ (popFrame h s)

/-- UNKNOWN_REQUEST (R143). -/
def execUnknownRequest (h : HostId) (s : State) : Result := whileRunning (takeUnknown h) s

end Sys2Proof.Machine
end

