-- ==== Sys2Proof/Machine/Routes.lean ====
section
/-! DEFINITION. Machine/Routes.lean: LISTEN, RELEASE, RENEW, REVOKE and QUERY_ROUTE (R47, R55 to R62). -/

namespace Sys2Proof.Machine

/-- A route reference as it is sent (10.3). -/
def routeRefBytes (s : State) (r : RouteSlot) : List Byte := [place r.val 0, (s.routeEntry r).generation]

/-! ### LISTEN -/

/-- A terminal of the host is bound. -/
def terminalBound (s : State) (h : HostId) (t : TermNo) : Bool := (look (s.session h).bindings t).isSome

/-- The host listens to one of the lines in a route that is not CLOSED. -/
def listensAny (s : State) (h : HostId) (ls : List LineNo) : Bool :=
  (every 96).any fun r =>
    match s.route? r with
    | none => false
    | some rt => rt.owner = h && !rt.isDriver && rt.live && (linesOf rt.members).any ls.contains

/-- Routes in use plus waiting claims have reached the limit (R41). -/
def atRouteLimit (s : State) (h : HostId) : Bool :=
  Config.hostRouteLimit ≤ (s.session h).routesInUse + (s.session h).waitingClaims

/-- The request-specific checks of LISTEN, in their order (R55). -/
def listenRefusal (s : State) (h : HostId) (ms : List Member) : Option Status :=
  if !mayListen s h (linesOf ms) then some .lineNotPermitted
  else if ms.any fun m => terminalBound s h m.terminal then some .terminalBusy
  else if listensAny s h (linesOf ms) then some .alreadyListening
  else if atRouteLimit s h then some .hostRouteLimit
  else if (firstFreeRoute s).isNone then some .tableFull
  else none

/-- The route of a LISTEN (R56). -/
def listenerRoute (s : State) (h : HostId) (lease : Nat) (ms : List Member) : Route where
  owner := h
  kind := .listener
  state := .active
  members := ms
  forced := 0#8
  forcedSince := false
  leaseClamped := false
  lease := leaseFor s lease (linesOf ms)

/-- A listener route is created in an entry (R48, R56). -/
def createListener (h : HostId) (lease : Nat) (ms : List Member) (r : RouteSlot) (s : State) : State :=
  (bindMembers h (.route r) ms (takeEntry r (listenerRoute s h lease ms) s)).updSession h fun e =>
    { e with routesInUse := e.routesInUse + 1 }

/-- LISTEN. -/
def listenAct (h : HostId) (ps : List Byte) (s : State) : State × Answer :=
  match listenParams? ps with
  | none => refuse .badParameter s
  | some (lease, ms) =>
    match listenRefusal s h ms, firstFreeRoute s with
    | some st, _ => refuse st s
    | none, none => refuse .tableFull s
    | none, some r =>
      let s₁ := createListener h lease ms r s
      (s₁, ⟨.ok, routeRefBytes s₁ r ++ bytes16 (resolveLease lease (effectiveMax s (linesOf ms)))⟩)

/-! ### Requests on existing routes -/

/-- The route a reference names, if the slot is in use at that generation (R47). -/
def routeAt? (s : State) (r : RouteSlot) (gen : Byte) : Option Route :=
  if (s.routeEntry r).generation = gen then s.route? r else none

/-- ALREADY_CLOSED with the close reason. -/
def alreadyClosed (why : CloseReason) : Answer := ⟨.alreadyClosed, [place why.code 0]⟩

/-- A release that has passed its checks (R59): the entry is freed, the lines given up are checked, the entry is offered. -/
def releaseRoute (r : RouteSlot) (rt : Route) (s : State) : State × Answer :=
  (arbitrate none (linesGivenUp rt) (freeRoute r s),
    match rt.state with
    | .closed why => alreadyClosed why
    | st => ⟨.ok, [place st.code 0]⟩)

/-- RELEASE (R59). -/
def releaseAct (h : HostId) (ps : List Byte) (s : State) : State × Answer :=
  match routeRef? ps with
  | none => refuse .badParameter s
  | some (r, gen) =>
    match routeAt? s r gen with
    | none => refuse .staleReference s
    | some rt => if rt.owner ≠ h then refuse .notOwner s else releaseRoute r rt s

/-- RENEW (R60). -/
def renewAct (h : HostId) (ps : List Byte) (s : State) : State × Answer :=
  match renewParams? ps with
  | none => refuse .badParameter s
  | some (r, gen, lease) =>
    match routeAt? s r gen with
    | none => refuse .staleReference s
    | some rt =>
      if rt.owner ≠ h then refuse .notOwner s
      else
        match rt.state with
        | .closed why => (s, alreadyClosed why)
        | _ =>
          (s.updRoute r fun x => { x with lease := leaseFor s lease (linesOf x.members) },
            ⟨.ok, bytes16 (resolveLease lease (effectiveMax s (linesOf rt.members)))⟩)

/-- REVOKE (R61). -/
def revokeAct (_h : HostId) (ps : List Byte) (s : State) : State × Answer :=
  match routeRef? ps with
  | none => refuse .badParameter s
  | some (r, gen) =>
    match routeAt? s r gen with
    | none => refuse .staleReference s
    | some rt =>
      match rt.state with
      | .closed why => (s, alreadyClosed why)
      | _ => (arbitrate none (linesGivenUp rt) (closeRoute .revoked r s), ⟨.ok, []⟩)

/-! ### QUERY_ROUTE -/

/-- A member word, with bits 5 to 4 of its second byte given (10.3). -/
def memberWord (m : Member) (x : Nat) : List Byte := [place m.line.val 0, place m.terminal.val 0 ||| place x 4]

/-- Owner, kind and state. -/
def routeByte (rt : Route) : Byte :=
  place rt.owner.val 6 ||| flagAt (!rt.isDriver) 5 ||| place rt.state.code 3

/-- Priority, drive mode, close reason and flags; a field the route does not have is zero (R146). -/
def routeFlagsByte (rt : Route) : Byte :=
  (match rt.kind with
    | .driver p m => place p.val 6 ||| place m.code 5
    | .listener => 0#8) |||
  (match rt.state with
    | .closed why => place why.code 3
    | _ => 0#8) |||
  flagAt rt.forcedSince 1 ||| flagAt rt.leaseClamped 0

/-- Break remaining of a CONNECTING route, forced set of an ACTIVE DRIVER route. -/
def routeDetailBytes (rt : Route) : List Byte :=
  match rt.state, rt.kind with
  | .connecting t, _ => bytes16 t
  | .active, .driver _ _ => [0#8, rt.forced]
  | _, _ => [0#8, 0#8]

/-- The results of QUERY_ROUTE (R62, 10.6). -/
def routeReport (s : State) (r : RouteSlot) (rt : Route) : List Byte :=
  routeRefBytes s r ++ [routeByte rt, routeFlagsByte rt] ++
    bytes16 (if rt.live then millisOf? rt.lease else 0) ++ routeDetailBytes rt ++
    rt.members.flatMap fun m => memberWord m 0

/-- QUERY_ROUTE (R62). -/
def queryRouteAct (_h : HostId) (ps : List Byte) (s : State) : State × Answer :=
  match routeRef? ps with
  | none => refuse .badParameter s
  | some (r, gen) =>
    match routeAt? s r gen with
    | none => refuse .staleReference s
    | some rt => (s, ⟨.ok, routeReport s r rt⟩)

/-- LISTEN. -/
def execListen (h : HostId) (s : State) : Result := whileRunning (takeRequest .listen listenAct h) s

/-- RELEASE. -/
def execRelease (h : HostId) (s : State) : Result := whileRunning (takeRequest .release releaseAct h) s

/-- RENEW. -/
def execRenew (h : HostId) (s : State) : Result := whileRunning (takeRequest .renew renewAct h) s

/-- REVOKE. -/
def execRevoke (h : HostId) (s : State) : Result := whileRunning (takeRequest .revoke revokeAct h) s

/-- QUERY_ROUTE. -/
def execQueryRoute (h : HostId) (s : State) : Result := whileRunning (takeRequest .queryRoute queryRouteAct h) s

end Sys2Proof.Machine
end

