-- ==== Sys2Proof/Machine/Claims.lean ====
section
/-! DEFINITION. Machine/Claims.lean: CLAIM, AMEND, CANCEL and QUERY_CLAIM (R68, R71 to R84). -/

namespace Sys2Proof.Machine

/-! ### CLAIM -/

/-- A WAITING claim of the host names one of the lines. -/
def waitsOnAny (s : State) (h : HostId) (ls : List LineNo) : Bool :=
  (every 32).any fun c =>
    match s.claim? c with
    | none => false
    | some cl => cl.owner = h && cl.waiting && (linesOf cl.members).any ls.contains

/-- The host has a member on one of the lines in a DRIVER route that is not CLOSED. -/
def drivesAny (s : State) (h : HostId) (ls : List LineNo) : Bool :=
  (every 96).any fun r =>
    match s.route? r with
    | none => false
    | some rt => rt.owner = h && rt.isDriver && rt.live && (linesOf rt.members).any ls.contains

/-- The request-specific checks of CLAIM, in their order (R72). -/
def claimRefusal (s : State) (h : HostId) (p : ClaimParams) : Option Status :=
  let ls := linesOf p.members
  if !mayDrive s h ls then some .lineNotPermitted
  else if !modeAllowed s p.mode ls then some .modeNotPermitted
  else if p.priority = 3 && !mayPreempt s h ls then some .notAuthorized
  else if p.members.any fun m => terminalBound s h m.terminal then some .terminalBusy
  else if waitsOnAny s h ls then some .alreadyWaiting
  else if drivesAny s h ls then some .alreadyOwner
  else if atRouteLimit s h then some .hostRouteLimit
  else if Config.hostClaimLimit ≤ (s.session h).claimRecords then some .hostClaimLimit
  else none

/-- The claim of a request (R73). -/
def newClaim (h : HostId) (p : ClaimParams) : Claim where
  owner := h
  state := .waiting
  priority := p.priority
  mode := p.mode
  members := p.members
  leaseRequested := p.lease
  waitLimit := timerOfMillis p.waitLimit
  awaiting := false

/-- A claim is accepted into a record (R73, steps 1 to 4). -/
def acceptClaim (h : HostId) (p : ClaimParams) (c : ClaimSlot) (s : State) : State :=
  let s₁ := s.updClaimEntry c fun e => { generation := e.generation + 1#8, claim := some (newClaim h p) }
  let s₂ := joinQueues c (linesOf p.members) { s₁ with accepted := s₁.accepted ++ [c] }
  (bindMembers h (.claim c) p.members s₂).updSession h fun e =>
    { e with waitingClaims := e.waitingClaims + 1, claimRecords := e.claimRecords + 1 }

/-- The results of a GRANTED reply: reference, state and resolved lease of the route (R74, 10.6). -/
def grantedResults (s : State) (r : RouteSlot) : List Byte :=
  routeRefBytes s r ++
    match s.route? r with
    | none => [0#8, 0#8, 0#8]
    | some rt => place rt.state.code 0 :: bytes16 (millisOf? rt.lease)

/-- A claim reference as it is sent. -/
def claimRefBytes (s : State) (c : ClaimSlot) : List Byte := [place c.val 0, (s.claimEntry c).generation]

/-- The results of a QUEUED reply: reference, awaiting entry, and the position in each member line's queue (R74, 10.6). -/
def queuedResults (s : State) (c : ClaimSlot) (cl : Claim) : List Byte :=
  claimRefBytes s c ++ [flagAt cl.awaiting 0] ++ (linesOf cl.members).map fun l => place (queuePosition s c l) 0

/-- The answer to a CLAIM or AMEND whose grant checks are done: a granted claim's record is freed (R74, R79). -/
def answerClaim (c : ClaimSlot) (s : State) : State × Answer :=
  match s.claim? c with
  | none => (s, ⟨.queued, []⟩)
  | some cl =>
    match cl.state with
    | .granted r => (freeClaim c s, ⟨.granted, grantedResults s r⟩)
    | _ => (s, ⟨.queued, queuedResults s c cl⟩)

/-- CLAIM. A claim that passes the eight checks finds a record free, for the limits of four hosts add up to the pool (R72). -/
def claimAct (h : HostId) (ps : List Byte) (s : State) : State × Answer :=
  match claimParams? ps with
  | none => refuse .badParameter s
  | some p =>
    match claimRefusal s h p, firstFreeClaim s with
    | some st, _ => refuse st s
    | none, none => refuse .hostClaimLimit s
    | none, some c =>
      let s₁ := acceptClaim h p c s
      answerClaim c (arbitrate (some c) (changedHeads s s₁ (linesOf p.members)) s₁)

/-! ### Requests on existing claims -/

/-- The claim a reference names, if the slot is in use at that generation (R68). -/
def claimAt? (s : State) (c : ClaimSlot) (gen : Byte) : Option Claim :=
  if (s.claimEntry c).generation = gen then s.claim? c else none

/-- The checks AMEND and CANCEL share (R68, R78, R80). -/
def claimRefRefusal (h : HostId) (cl : Option Claim) : Option Status :=
  match cl with
  | none => some .staleReference
  | some cl => if cl.owner ≠ h then some .notOwner else if !cl.waiting then some .wrongState else none

/-- A claim takes a new priority: it goes to the end of the acceptance order and moves in its queues (R78). -/
def reprioritise (c : ClaimSlot) (cl : Claim) (p : Priority) (s : State) : State :=
  if cl.priority = p then s
  else
    let s₁ := leaveAccepted c (leaveQueues c (linesOf cl.members) s)
    let s₂ := { s₁ with accepted := s₁.accepted ++ [c] }
    joinQueues c (linesOf cl.members) (s₂.updClaim c fun x => { x with priority := p })

/-- An AMEND that has passed its checks (R78, R79). -/
def amendClaim (c : ClaimSlot) (cl : Claim) (p : Priority) (waitLimit : Nat) (s : State) : State × Answer :=
  let s₁ := reprioritise c cl p (s.updClaim c fun x => { x with waitLimit := timerOfMillis waitLimit })
  answerClaim c (arbitrate (some c) (changedHeads s s₁ (linesOf cl.members)) s₁)

/-- AMEND (R78). -/
def amendAct (h : HostId) (ps : List Byte) (s : State) : State × Answer :=
  match amendParams? ps with
  | none => refuse .badParameter s
  | some (c, gen, p, waitLimit) =>
    match claimRefRefusal h (claimAt? s c gen), claimAt? s c gen with
    | some st, _ => refuse st s
    | none, none => refuse .staleReference s
    | none, some cl =>
      if p = 3 && !mayPreempt s h (linesOf cl.members) then refuse .notAuthorized s
      else amendClaim c cl p waitLimit s

/-- A CANCEL that has passed its checks (R80). -/
def cancelClaim (c : ClaimSlot) (cl : Claim) (s : State) : State × Answer :=
  let s₁ := freeClaim c (withdrawClaim c cl s)
  (arbitrate none (changedHeads s s₁ (linesOf cl.members)) s₁, ⟨.ok, []⟩)

/-- CANCEL (R80). -/
def cancelAct (h : HostId) (ps : List Byte) (s : State) : State × Answer :=
  match claimRef? ps with
  | none => refuse .badParameter s
  | some (c, gen) =>
    match claimRefRefusal h (claimAt? s c gen), claimAt? s c gen with
    | some st, _ => refuse st s
    | none, none => refuse .staleReference s
    | none, some cl => cancelClaim c cl s

/-! ### QUERY_CLAIM -/

/-- Owner, state, priority, drive mode and awaiting entry. -/
def claimByte (cl : Claim) : Byte :=
  place cl.owner.val 6 ||| place cl.state.code 4 ||| place cl.priority.val 2 ||| place cl.mode.code 1 |||
    flagAt (cl.waiting && cl.awaiting) 0

/-- Wait limit, granted route or drop reason. -/
def claimDetailBytes (cl : Claim) : List Byte :=
  match cl.state with
  | .waiting => bytes16 (millisOf? cl.waitLimit)
  | .granted r => [0#8, place r.val 0]
  | .dropped why => [0#8, place why.code 0]

/-- The results of QUERY_CLAIM (R84, 10.6); queue positions, less 1, of a WAITING claim only. -/
def claimReport (s : State) (c : ClaimSlot) (cl : Claim) : List Byte :=
  claimRefBytes s c ++ [claimByte cl] ++ bytes16 cl.leaseRequested ++ claimDetailBytes cl ++
    cl.members.flatMap fun m => memberWord m (if cl.waiting then queuePosition s c m.line - 1 else 0)

/-- QUERY_CLAIM (R84). -/
def queryClaimAct (_h : HostId) (ps : List Byte) (s : State) : State × Answer :=
  match claimRef? ps with
  | none => refuse .badParameter s
  | some (c, gen) =>
    match claimAt? s c gen with
    | none => refuse .staleReference s
    | some cl => (s, ⟨.ok, claimReport s c cl⟩)

/-- CLAIM. -/
def execClaim (h : HostId) (s : State) : Result := whileRunning (takeRequest .claim claimAct h) s

/-- AMEND. -/
def execAmend (h : HostId) (s : State) : Result := whileRunning (takeRequest .amend amendAct h) s

/-- CANCEL. -/
def execCancel (h : HostId) (s : State) : Result := whileRunning (takeRequest .cancel cancelAct h) s

/-- QUERY_CLAIM. -/
def execQueryClaim (h : HostId) (s : State) : Result := whileRunning (takeRequest .queryClaim queryClaimAct h) s

end Sys2Proof.Machine
end

