-- ==== Sys2Proof/Machine/Groups.lean ====
section
/-! DEFINITION. Machine/Groups.lean: SET_GROUP, TRIP, REARM, QUERY_GROUP, the fault inputs and the settle expiry (chapter 7). -/

namespace Sys2Proof.Machine

/-- Change a group and hand on the changes of held status that follow (R114). -/
def changeGroup (g : GroupNo) (f : Group → Group) (s : State) : State := passHeldChanges s (s.updGroup g f)

/-- The answer that carries the group status byte (10.6). -/
def groupAnswer (s : State) (g : GroupNo) : Answer := ⟨.ok, [groupStatus (s.group g)]⟩

/-- The five fields are written and the input asserted flag is derived anew; an enabled group whose input is asserted trips (R116). -/
def configureGroup (cfg : GroupConfig) (qualified : Level) (x : Group) : Group :=
  { x with
    enabled := cfg.enabled
    polarity := cfg.polarity
    recovery := cfg.recovery
    settleInterval := cfg.settleInterval
    rearmMask := cfg.rearmMask
    inputAsserted := assertedOf cfg.polarity qualified
    state := if cfg.enabled && assertedOf cfg.polarity qualified then .tripped else x.state }

/-- SET_GROUP (R116). -/
def setGroupAct (_h : HostId) (ps : List Byte) (s : State) : State × Answer :=
  match setGroupParams? ps with
  | none => refuse .badParameter s
  | some (g, cfg) =>
    if !(s.group g).state.isClear then refuse .groupNotClear s
    else
      let s₁ := changeGroup g (configureGroup cfg (s.qualifier g).qualified) s
      (s₁, groupAnswer s₁ g)

/-- TRIP (R117, R118). -/
def tripAct (_h : HostId) (ps : List Byte) (s : State) : State × Answer :=
  match groupParam? ps with
  | none => refuse .badParameter s
  | some g =>
    if !(s.group g).enabled then refuse .wrongState s
    else
      let s₁ := changeGroup g (fun x => { x with state := .tripped, softTrip := true }) s
      (s₁, groupAnswer s₁ g)

def GroupState.isTripped : GroupState → Bool
  | .tripped => true
  | _ => false

/-- REARM (R119). -/
def rearmAct (h : HostId) (ps : List Byte) (s : State) : State × Answer :=
  match groupParam? ps with
  | none => refuse .badParameter s
  | some g =>
    if h ≠ s.supervisor && !(s.group g).rearmMask.getLsbD h.val then refuse .notAuthorized s
    else if (s.group g).state.isTripped && (s.group g).inputAsserted then refuse .faultPresent s
    else
      let s₁ := changeGroup g (fun x =>
        { x with state := .clear, softTrip := if x.state.isTripped then false else x.softTrip }) s
      (s₁, groupAnswer s₁ g)

/-- The SET_GROUP configuration byte of a record (10.4). -/
def groupConfigByte (x : Group) : Byte :=
  flagAt x.enabled 7 ||| flagAt (x.polarity = .activeHigh) 6 ||| flagAt (x.recovery = .auto) 5 ||| x.rearmMask.setWidth 8

/-- The time left of a settle interval in ms; 0 outside SETTLING (R120, R146). -/
def settleMillis : GroupState → Nat
  | .settling t => millisOfTimer t
  | _ => 0

/-- The line's policy names the group. -/
def inGroup (s : State) (g : GroupNo) (l : LineNo) : Bool := (s.policy l).groupSet.getLsbD g.val

/-- The group holds the line and no other group does. -/
def heldAlone (s : State) (g : GroupNo) (l : LineNo) : Bool :=
  inGroup s g l && !(s.group g).state.isClear &&
    !(every 8).any fun g' => g' ≠ g && inGroup s g' l && !(s.group g').state.isClear

/-- QUERY_GROUP (R120). -/
def queryGroupAct (_h : HostId) (ps : List Byte) (s : State) : State × Answer :=
  match groupParam? ps with
  | none => refuse .badParameter s
  | some g =>
    (s, ⟨.ok, [place g.val 0, groupConfigByte (s.group g)] ++ bytes16 (s.group g).settleInterval ++
      [groupStatus (s.group g)] ++ bytes16 (settleMillis (s.group g).state) ++
      lineSet (inGroup s g) ++ lineSet (heldAlone s g)⟩)

/-! ### Fault inputs (R106, R107, R110) -/

/-- The state of an enabled group after its input asserts (R110). -/
def stateOnAssert (_x : Group) : GroupState := .tripped

/-- The state of an enabled group after its input deasserts: a TRIPPED group whose soft trip is clear settles or latches (R110). -/
def stateOnDeassert (x : Group) : GroupState :=
  match x.state with
  | .tripped =>
    if x.softTrip then .tripped
    else
      match x.recovery with
      | .auto => .settling (x.settleInterval * Config.microsPerMilli)
      | .manual => .latched
  | st => st

/-- A group under a new qualified level: the flag first, then the state in the same event; a flag that stays as it was is no event, and
a group that is not enabled changes no state (R107, R109, R110). -/
def groupOnLevel (level : Level) (x : Group) : Group :=
  let now := assertedOf x.polarity level
  { x with
    inputAsserted := now
    state :=
      if !x.enabled || now = x.inputAsserted then x.state
      else if now then stateOnAssert x
      else stateOnDeassert x }

/-- A pin that leaves its level after it has held it for a whole count leaves the event of that level due: only a shorter pulse changes
nothing (R106). -/
def Qualifier.dueOnReturn (q : Qualifier) : List Level := if q.count = some 0 then q.due ++ [q.pin] else q.due

/-- The qualified level as it is once every event due has been taken. -/
def Qualifier.lastDue (q : Qualifier) : Level := q.due.getLast?.getD q.qualified

/-- The count that a level new at the pin starts: 2 µs where the qualified level is, or is about to be, the other one (R106). -/
def Qualifier.recount (level : Level) (q : Qualifier) : Qualifier :=
  { q with pin := level, count := if level = q.lastDue then none else some Config.qualifyMicros }

/-- The pin of a fault input takes a level: a change restarts the count (R106). In reset the pin changes and no count runs. -/
def faultPin (g : GroupNo) (level : Level) (s : State) : State :=
  s.updQualifier g fun q =>
    if q.pin = level then q
    else if s.inReset then { q with pin := level, due := [], count := none }
    else { q with due := q.dueOnReturn }.recount level

/-- The qualified level takes a level the pin has held for a whole count, and the group acts on it (R106, R107, R110). -/
def qualifyAs (g : GroupNo) (level : Level) (f : Qualifier → Qualifier) (s : State) : State :=
  changeGroup g (groupOnLevel level) (s.updQualifier g fun q => { f q with qualified := level })

/-- The oldest event due is taken; where none is, the pin's own, when the rest of its count has passed (R106). -/
def qualify (g : GroupNo) (s : State) : State :=
  match (s.qualifier g).due, (s.qualifier g).count with
  | l :: ls, _ => qualifyAs g l (fun q => { q with due := ls }) s
  | [], some t => qualifyAs g (s.qualifier g).pin (fun q => { q with count := none }) (advance t s)
  | [], none => s

/-- The settle interval of a SETTLING group ends, when its rest has passed (R111). -/
def settleEnd (g : GroupNo) (s : State) : State :=
  match (s.group g).state with
  | .settling t => changeGroup g (fun x => { x with state := .clear }) (advance t s)
  | _ => s

/-- SET_GROUP. -/
def execSetGroup (h : HostId) (s : State) : Result := whileRunning (takeRequest .setGroup setGroupAct h) s

/-- TRIP. -/
def execTrip (h : HostId) (s : State) : Result := whileRunning (takeRequest .trip tripAct h) s

/-- REARM. -/
def execRearm (h : HostId) (s : State) : Result := whileRunning (takeRequest .rearm rearmAct h) s

/-- QUERY_GROUP. -/
def execQueryGroup (h : HostId) (s : State) : Result := whileRunning (takeRequest .queryGroup queryGroupAct h) s

/-- FAULT_PIN_CHANGE (R106). -/
def execFaultPinChange (g : GroupNo) (level : Level) (s : State) : Result := .next (faultPin g level s)

/-- QUALIFIED_LEVEL_CHANGE (R106, R107, R110). -/
def execQualifiedLevelChange (g : GroupNo) (s : State) : Result :=
  whileRunning (fun t => settle t (qualify g t)) s

/-- SETTLE_EXPIRY (R111). -/
def execSettleExpiry (g : GroupNo) (s : State) : Result := whileRunning (fun t => settle t (settleEnd g t)) s

end Sys2Proof.Machine
end

