-- ==== Sys2Proof/Machine/Lines.lean ====
section
/-! DEFINITION. Machine/Lines.lean: READ_LEVELS and QUERY_LINE (R14, R105). -/

namespace Sys2Proof.Machine

/-- READ_LEVELS: sampled levels and held lines of one instant (R14). -/
def readLevelsAct (_h : HostId) (_ps : List Byte) (s : State) : State × Answer :=
  (s, ⟨.ok, lineSet (fun l => sampled s l = .high) ++ lineSet s.held⟩)

/-- The host has a listener member on a line in an ACTIVE route. -/
def listensOn (s : State) (h : HostId) (l : LineNo) : Bool :=
  (every 96).any fun r =>
    match s.route? r with
    | none => false
    | some rt => rt.owner = h && !rt.isDriver && rt.active && (linesOf rt.members).contains l

/-- The listener hosts of a line, as a set in bits 3 to 0. -/
def listenerHosts (s : State) (l : LineNo) : Byte :=
  flagAt (listensOn s 0 l) 0 ||| flagAt (listensOn s 1 l) 1 ||| flagAt (listensOn s 2 l) 2 ||| flagAt (listensOn s 3 l) 3

/-- The head of the line's queue awaits an entry; told for a PENDING line only (R105). -/
def headAwaits (s : State) (l : LineNo) : Bool :=
  match (s.line l).state, queueHead s l with
  | .pending, some c => ((s.claim? c).map (·.awaiting)).getD false
  | _, _ => false

/-- The reference, the owner byte and the break remaining of a line's driver route; zeros where it has none (R146). -/
def driverBytes (s : State) (l : LineNo) : List Byte :=
  match lineDriver s l with
  | none => [0#8, 0#8, 0#8, 0#8, 0#8]
  | some (r, rt) =>
    let forced := ((memberIndex rt.members l).map rt.forced.getLsbD).getD false
    let own :=
      match rt.kind with
      | .driver p m => place rt.owner.val 6 ||| place p.val 4 ||| place m.code 3 ||| flagAt forced 2
      | .listener => 0#8
    let left :=
      match rt.state with
      | .connecting t => t
      | _ => 0
    [place r.val 0, (s.routeEntry r).generation, own] ++ bytes16 left

/-- One queue entry: reference, owner and priority. -/
def queueEntryBytes (s : State) (c : ClaimSlot) : List Byte :=
  match s.claim? c with
  | none => []
  | some cl => [place c.val 0, (s.claimEntry c).generation, place cl.owner.val 6 ||| place cl.priority.val 4]

/-- QUERY_LINE (R105). -/
def queryLineAct (_h : HostId) (ps : List Byte) (s : State) : State × Answer :=
  match lineParam? ps with
  | none => refuse .badParameter s
  | some l =>
    (s, ⟨.ok,
      [place l.val 0,
        place (s.line l).state.code 6 ||| flagAt (s.held l) 5 ||| flagAt (headAwaits s l) 4 ||| listenerHosts s l] ++
      driverBytes s l ++ (s.line l).queue.flatMap (queueEntryBytes s)⟩)

/-- READ_LEVELS. -/
def execReadLevels (h : HostId) (s : State) : Result := whileRunning (takeRequest .readLevels readLevelsAct h) s

/-- QUERY_LINE. -/
def execQueryLine (h : HostId) (s : State) : Result := whileRunning (takeRequest .queryLine queryLineAct h) s

end Sys2Proof.Machine
end

