-- ==== Sys2Proof/Machine/Pins.lean ====
section
/-! DEFINITION. Machine/Pins.lean: what hosts and board circuits do to terminal and line pins (R3, R4, R7, R9). These are not records
and change at any time, device reset included. -/

namespace Sys2Proof.Machine

/-- A host drives its terminal to a level, or leaves it (R9). -/
def driveTerminal (h : HostId) (t : TermNo) (level : Option Level) (s : State) : State :=
  { s with terminals := upd s.terminals h fun v => upd v t fun _ => level }

/-- A board circuit drives a line to a level, or leaves it (R7). -/
def driveLine (l : LineNo) (level : Option Level) (s : State) : State :=
  { s with pins := upd s.pins l fun p => { p with board := level } }

/-- TERMINAL_LEVEL_CHANGE (R3, R4, R9). -/
def execTerminalLevelChange (h : HostId) (t : TermNo) (level : Option Level) (s : State) : Result :=
  .next (settle s (driveTerminal h t level s))

/-- BOARD_LINE_LEVEL_CHANGE (R2, R7). -/
def execBoardLineLevelChange (l : LineNo) (level : Option Level) (s : State) : Result :=
  .next (settle s (driveLine l level s))

end Sys2Proof.Machine
end

