-- ==== Sys2Proof/Machine/Policies.lean ====
section
/-! DEFINITION. Machine/Policies.lean: SET_POLICY with its consequences, and QUERY_POLICY (R21 to R32). -/

namespace Sys2Proof.Machine

/-- A line of the range. -/
def inRange (first last l : LineNo) : Bool := first ≤ l && l ≤ last

/-- A record has a member on a line of the range. -/
def meetsRange (first last : LineNo) (ms : List Member) : Bool := (linesOf ms).any (inRange first last)

/-- The nine values are written to every line of the range (R22). -/
def writePolicies (first last : LineNo) (p : Policy) (s : State) : State :=
  { s with policies := tab fun l => if inRange first last l then p else s.policy l }

/-- The records of its lines permit a route (R23). -/
def routePermitted (s : State) (rt : Route) : Bool :=
  match rt.kind with
  | .driver _ mode => mayDrive s rt.owner (linesOf rt.members) && modeAllowed s mode (linesOf rt.members)
  | .listener => mayListen s rt.owner (linesOf rt.members)

/-- The records of its lines permit a claim (R24). -/
def claimPermitted (s : State) (cl : Claim) : Bool :=
  mayDrive s cl.owner (linesOf cl.members) && modeAllowed s cl.mode (linesOf cl.members)

/-- The live routes with a member in the range. -/
def affectedRoutes (first last : LineNo) (s : State) : List (RouteSlot × Route) :=
  (every 96).filterMap fun r =>
    match s.route? r with
    | none => none
    | some rt => if rt.live && meetsRange first last rt.members then some (r, rt) else none

/-- The WAITING claims with a member in the range. -/
def affectedClaims (first last : LineNo) (s : State) : List (ClaimSlot × Claim) :=
  (every 32).filterMap fun c =>
    match s.claim? c with
    | none => none
    | some cl => if cl.waiting && meetsRange first last cl.members then some (c, cl) else none

/-- A claim is demoted to priority 2: it moves in its queues and keeps its acceptance position (R25, R83). -/
def demote (c : ClaimSlot) (cl : Claim) (s : State) : State :=
  noteClaim cl.owner c (joinQueues c (linesOf cl.members)
    ((leaveQueues c (linesOf cl.members) s).updClaim c fun x => { x with priority := 2 }))

/-- The claim loses its priority 3 under the records (R25). -/
def losesPreempt (s : State) (cl : Claim) : Bool :=
  cl.priority = 3 && !mayPreempt s cl.owner (linesOf cl.members)

/-- A lease under an effective max, both in microseconds (R26). -/
def clampLease (maxTimer : Nat) (lease : Option Nat) : Option Nat :=
  match lease with
  | none => some maxTimer
  | some t => some (min t maxTimer)

/-- A surviving route's lease is given or shortened, and that is marked and told; otherwise nothing (R26). -/
def clampRoute (r : RouteSlot) (s : State) : State :=
  match s.route? r with
  | none => s
  | some rt =>
    let m := effectiveMax s (linesOf rt.members)
    let lease := clampLease (m * Config.microsPerMilli) rt.lease
    if rt.live && m ≠ 0 && lease ≠ rt.lease then
      noteRoute rt.owner r (s.updRoute r fun x => { x with lease := lease, leaseClamped := true })
    else s

/-- A SET_POLICY that has passed its checks (R22 to R30): closures, drops, demotions, clamps, held status, then the grant checks. -/
def applyPolicy (first last : LineNo) (p : Policy) (s : State) : State × Answer :=
  let s₁ := writePolicies first last p s
  let routes := affectedRoutes first last s₁
  let closed := routes.filter fun x => !routePermitted s₁ x.2
  let claims := affectedClaims first last s₁
  let dropped := claims.filter fun x => !claimPermitted s₁ x.2
  let demoted := claims.filter fun x => claimPermitted s₁ x.2 && losesPreempt s₁ x.2
  let s₂ := closed.foldl (fun t x => closeRoute .policy x.1 t) s₁
  let s₃ := dropped.foldl (fun t x => dropClaim .policy x.1 t) s₂
  let s₄ := demoted.foldl (fun t x => demote x.1 x.2 t) s₃
  let s₅ := routes.foldl (fun t x => clampRoute x.1 t) s₄
  let s₆ := passHeldChanges s s₅
  let lines := closed.flatMap (fun x => linesGivenUp x.2) ++ dropped.flatMap (fun x => linesOf x.2.members) ++
    demoted.flatMap (fun x => linesOf x.2.members)
  (arbitrate none lines s₆,
    ⟨.ok, [BitVec.ofNat 8 closed.length, BitVec.ofNat 8 dropped.length, BitVec.ofNat 8 demoted.length]⟩)

/-- SET_POLICY (R21). -/
def setPolicyAct (_h : HostId) (ps : List Byte) (s : State) : State × Answer :=
  match setPolicyParams? ps with
  | none => refuse .badParameter s
  | some (first, last, p) => applyPolicy first last p s

/-- A policy record as SET_POLICY parameter bytes 2 to 9 (10.4). -/
def policyBytes (p : Policy) : List Byte :=
  [p.driverMask ++ p.listenerMask, p.preemptMask ++ (0#2 ++ p.modes), place p.restPosture.code 4 ||| place p.safePosture.code 0,
    p.groupSet] ++ bytes16 p.maxLease ++ bytes16 p.breakInterval

/-- QUERY_POLICY (R32). -/
def queryPolicyAct (_h : HostId) (ps : List Byte) (s : State) : State × Answer :=
  match lineParam? ps with
  | none => refuse .badParameter s
  | some l => (s, ⟨.ok, place l.val 0 :: policyBytes (s.policy l)⟩)

/-- SET_POLICY. -/
def execSetPolicy (h : HostId) (s : State) : Result := whileRunning (takeRequest .setPolicy setPolicyAct h) s

/-- QUERY_POLICY. -/
def execQueryPolicy (h : HostId) (s : State) : Result := whileRunning (takeRequest .queryPolicy queryPolicyAct h) s

end Sys2Proof.Machine
end

