-- ==== Sys2Proof/Machine/Sessions.lean ====
section
/-! DEFINITION. Machine/Sessions.lean: ATTACH, DETACH and COLLECT (R35 to R38, R127, R128). -/

namespace Sys2Proof.Machine

/-- The epoch after an attach: one more, 255 and 0 going to 1 (R35). -/
def nextEpoch (e : Byte) : Byte := if e = 0xFF#8 then 1#8 else e + 1#8

/-- A count in one byte. -/
def countByte (n : Nat) : Byte := BitVec.ofNat 8 n

/-- The counts of route entries and claim records that the end of a host's session frees (R43). -/
def freedCounts (s : State) (h : HostId) : List Byte :=
  [countByte (routesOf s h).length, countByte (claimsOf s h).length]

/-- The host becomes ATTACHED under its next epoch. -/
def openSession (h : HostId) (s : State) : State :=
  s.updSession h fun e => { e with attached := true, epoch := nextEpoch e.epoch }

/-- ATTACH: an open session is ended first (R36, R37). -/
def attachAct (h : HostId) (_ps : List Byte) (s : State) : State × Answer :=
  if (s.session h).attached then
    (openSession h (endSession h s), ⟨.ok, [countByte s.supervisor.val, 1#8] ++ freedCounts s h⟩)
  else
    (openSession h s, ⟨.ok, [countByte s.supervisor.val, 0#8, 0#8, 0#8]⟩)

/-- DETACH (R38). -/
def detachAct (h : HostId) (_ps : List Byte) (s : State) : State × Answer :=
  (endSession h s, ⟨.ok, freedCounts s h⟩)

/-! ### COLLECT -/

/-- A reference in a change set. -/
inductive ChangeRef where
  | claim (slot : ClaimSlot)
  | route (slot : RouteSlot)
deriving DecidableEq, Repr

/-- The references in the order of the report: claims, then routes, each by slot (R127). -/
def ChangeSet.refs (cs : ChangeSet) : List ChangeRef := cs.claims.map .claim ++ cs.routes.map .route

/-- The references one COLLECT reports. -/
def reportedRefs (cs : ChangeSet) : List ChangeRef := cs.refs.take Config.collectLimit

/-- The entry code of a claim (10.6). -/
def claimEntryCode (cl : Claim) : Nat :=
  match cl.state with
  | .waiting => 0
  | .granted _ => 1
  | .dropped _ => 2

/-- The entry code of a route (10.6). -/
def routeEntryCode (rt : Route) : Nat :=
  match rt.kind, rt.state with
  | .driver _ _, .connecting _ => 3
  | .driver _ _, .active => 4
  | .driver _ _, .closed _ => 5
  | .listener, .closed _ => 7
  | .listener, _ => 6

def claimDetail (cl : Claim) : Byte :=
  match cl.state with
  | .waiting => 0#8
  | .granted r => place r.val 0
  | .dropped why => place why.code 0

def routeDetail (rt : Route) : Byte :=
  match rt.state, rt.kind with
  | .closed why, _ => place why.code 0
  | .active, .driver _ _ => rt.forced
  | _, _ => 0#8

/-- A report entry, without its remaining-count digit (R127, 10.6). A reference always names a record in use. -/
def reportEntry (s : State) : ChangeRef → List Byte
  | .claim c =>
    match s.claim? c with
    | none => []
    | some cl => [place (claimEntryCode cl) 5 ||| place cl.priority.val 3, place c.val 0, (s.claimEntry c).generation, claimDetail cl]
  | .route r =>
    match s.route? r with
    | none => []
    | some rt =>
      [place (routeEntryCode rt) 5 ||| flagAt rt.forcedSince 4 ||| flagAt rt.leaseClamped 3, place r.val 0,
        (s.routeEntry r).generation, routeDetail rt]

/-- Put a digit into the first byte of an entry. -/
def addDigit (d : Nat) : List Byte → List Byte
  | [] => []
  | b :: bs => (b ||| place d 0) :: bs

/-- The remaining count as base-8 digits, the low one in the first entry and the high one in the second (R146). -/
def withDigits (remaining : Nat) : List (List Byte) → List (List Byte)
  | [] => []
  | [e] => [addDigit (remaining % 8) e]
  | e :: e' :: es => addDigit (remaining % 8) e :: addDigit (remaining / 8) e' :: es

/-- A reported reference leaves the set; a CLOSED route or settled claim is freed, another record stays, a route with its flags clear
(R128, steps 2 to 5). -/
def reportRef (h : HostId) (ref : ChangeRef) (s : State) : State :=
  match ref with
  | .claim c =>
    match s.claim? c with
    | none => unnoteClaim h c s
    | some cl => if cl.waiting then unnoteClaim h c s else freeClaim c s
  | .route r =>
    match s.route? r with
    | none => unnoteRoute h r s
    | some rt =>
      if rt.live then (unnoteRoute h r s).updRoute r fun x => { x with forcedSince := false, leaseClamped := false }
      else freeRoute r s

/-- COLLECT (R128): the report, then the freed entries to the entry arbiter. -/
def collectAct (h : HostId) (_ps : List Byte) (s : State) : State × Answer :=
  let refs := reportedRefs (s.session h).changes
  let s₁ := arbitrate none [] (refs.foldl (fun t ref => reportRef h ref t) s)
  (s₁, ⟨.ok, (withDigits (s₁.session h).changes.size (refs.map (reportEntry s))).flatten⟩)

/-- ATTACH. -/
def execAttach (h : HostId) (s : State) : Result := whileRunning (takeRequest .attach attachAct h) s

/-- DETACH. -/
def execDetach (h : HostId) (s : State) : Result := whileRunning (takeRequest .detach detachAct h) s

/-- COLLECT. -/
def execCollect (h : HostId) (s : State) : Result := whileRunning (takeRequest .collect collectAct h) s

end Sys2Proof.Machine
end

