-- ==== Sys2Proof/Machine/Timers.lean ====
section
/-! DEFINITION. Machine/Timers.lean: the expiries of leases, break intervals and wait limits (R57, R76, R97). An expiry comes when the
rest of its timer has passed, so the other timers run for as long (log entry 6); where its timer does not run, no expiry comes. -/

namespace Sys2Proof.Machine

/-- The lease of an ACTIVE route has run out (R57). -/
def expireLease (r : RouteSlot) (rt : Route) (s : State) : State :=
  arbitrate none (linesGivenUp rt) (closeRoute .expired r s)

/-- The time left of the lease of an ACTIVE route that has one. -/
def runningLease (s : State) (r : RouteSlot) : Option (Nat × Route) :=
  match s.route? r with
  | none => none
  | some rt => if rt.active then rt.lease.map fun t => (t, rt) else none

def leaseEnd (r : RouteSlot) (s : State) : State :=
  match runningLease s r with
  | none => s
  | some (t, rt) => expireLease r rt (advance t s)

/-- The break interval of a CONNECTING route has ended (R50, R97). -/
def expireBreak (r : RouteSlot) (owner : HostId) (s : State) : State := noteRoute owner r (activate r s)

/-- The time left of the break interval of a CONNECTING route, with the route's owner. -/
def runningBreak (s : State) (r : RouteSlot) : Option (Nat × HostId) :=
  match s.route? r with
  | none => none
  | some rt =>
    match rt.state with
    | .connecting t => some (t, rt.owner)
    | _ => none

def breakEnd (r : RouteSlot) (s : State) : State :=
  match runningBreak s r with
  | none => s
  | some (t, owner) => expireBreak r owner (advance t s)

/-- The wait limit of a WAITING claim has run out (R76). -/
def expireWait (c : ClaimSlot) (cl : Claim) (s : State) : State :=
  let s₁ := dropClaim .timedOut c s
  arbitrate none (changedHeads s s₁ (linesOf cl.members)) s₁

/-- The time left of the wait limit of a WAITING claim that has one. -/
def runningWait (s : State) (c : ClaimSlot) : Option (Nat × Claim) :=
  match s.claim? c with
  | none => none
  | some cl => if cl.waiting then cl.waitLimit.map fun t => (t, cl) else none

def waitEnd (c : ClaimSlot) (s : State) : State :=
  match runningWait s c with
  | none => s
  | some (t, cl) => expireWait c cl (advance t s)

/-- LEASE_EXPIRY (R57). -/
def execLeaseExpiry (r : RouteSlot) (s : State) : Result := whileRunning (fun t => settle t (leaseEnd r t)) s

/-- BREAK_EXPIRY (R97). -/
def execBreakExpiry (r : RouteSlot) (s : State) : Result := whileRunning (fun t => settle t (breakEnd r t)) s

/-- WAIT_LIMIT_EXPIRY (R76). -/
def execWaitLimitExpiry (c : ClaimSlot) (s : State) : Result := whileRunning (fun t => settle t (waitEnd c t)) s

end Sys2Proof.Machine
end

