-- ==== Sys2Proof/Machine/Dispatch.lean ====
section
/-! DEFINITION. Machine/Dispatch.lean: the meaning of each command. -/

namespace Sys2Proof.Machine

def exec (i : Instr) (s : State) : Host.Outcome State Fault Refusal :=
  match i with
  | .deviceReset => Sys2Proof.Machine.execDeviceReset s
  | .leaveReset a b => Sys2Proof.Machine.execLeaveReset a b s
  | .transactionBegin h => Sys2Proof.Machine.execTransactionBegin h s
  | .write h frame => Sys2Proof.Machine.execWrite h frame s
  | .read h => Sys2Proof.Machine.execRead h s
  | .readAgain h => Sys2Proof.Machine.execReadAgain h s
  | .linkReset h => Sys2Proof.Machine.execLinkReset h s
  | .unknownKind h kind => Sys2Proof.Machine.execUnknownKind h kind s
  | .unknownRequest h => Sys2Proof.Machine.execUnknownRequest h s
  | .attach h => Sys2Proof.Machine.execAttach h s
  | .detach h => Sys2Proof.Machine.execDetach h s
  | .collect h => Sys2Proof.Machine.execCollect h s
  | .readLevels h => Sys2Proof.Machine.execReadLevels h s
  | .queryLine h => Sys2Proof.Machine.execQueryLine h s
  | .setPolicy h => Sys2Proof.Machine.execSetPolicy h s
  | .queryPolicy h => Sys2Proof.Machine.execQueryPolicy h s
  | .listen h => Sys2Proof.Machine.execListen h s
  | .release h => Sys2Proof.Machine.execRelease h s
  | .renew h => Sys2Proof.Machine.execRenew h s
  | .revoke h => Sys2Proof.Machine.execRevoke h s
  | .queryRoute h => Sys2Proof.Machine.execQueryRoute h s
  | .claim h => Sys2Proof.Machine.execClaim h s
  | .amend h => Sys2Proof.Machine.execAmend h s
  | .cancel h => Sys2Proof.Machine.execCancel h s
  | .queryClaim h => Sys2Proof.Machine.execQueryClaim h s
  | .setGroup h => Sys2Proof.Machine.execSetGroup h s
  | .trip h => Sys2Proof.Machine.execTrip h s
  | .rearm h => Sys2Proof.Machine.execRearm h s
  | .queryGroup h => Sys2Proof.Machine.execQueryGroup h s
  | .leaseExpiry r => Sys2Proof.Machine.execLeaseExpiry r s
  | .breakExpiry r => Sys2Proof.Machine.execBreakExpiry r s
  | .waitLimitExpiry c => Sys2Proof.Machine.execWaitLimitExpiry c s
  | .settleExpiry g => Sys2Proof.Machine.execSettleExpiry g s
  | .faultPinChange g level => Sys2Proof.Machine.execFaultPinChange g level s
  | .qualifiedLevelChange g => Sys2Proof.Machine.execQualifiedLevelChange g s
  | .terminalLevelChange h t level => Sys2Proof.Machine.execTerminalLevelChange h t level s
  | .boardLineLevelChange l level => Sys2Proof.Machine.execBoardLineLevelChange l level s

end Sys2Proof.Machine
end

