-- ==== Sys2Proof/Safety.lean ====
section
/-! DEFINITION. Safety.lean: the words the statements use: what a command leaves as it was, when a port takes a request and how it is
answered, and the properties that hold after every step. -/

namespace Sys2Proof.Machine

/-! ### What stays as it was -/

/-- Everything but sessions, routes, claims, acceptance order and line records is as it was. -/
structure KeepsRest (s t : State) : Prop where
  inReset : t.inReset = s.inReset
  supervisor : t.supervisor = s.supervisor
  policies : t.policies = s.policies
  groups : t.groups = s.groups
  qualifiers : t.qualifiers = s.qualifiers
  pins : t.pins = s.pins
  terminals : t.terminals = s.terminals
  ports : t.ports = s.ports
  pending : t.pending = s.pending

/-- Sessions, routes, claims, acceptance order and line records are as they were. -/
structure KeepsRecords (s t : State) : Prop where
  sessions : t.sessions = s.sessions
  routes : t.routes = s.routes
  claims : t.claims = s.claims
  accepted : t.accepted = s.accepted
  lines : t.lines = s.lines

/-- What outside circuits drive, the supervisor, and the queue are as they were, and the part is in or out of reset as before. -/
structure KeepsOutside (s t : State) : Prop where
  inReset : t.inReset = s.inReset
  supervisor : t.supervisor = s.supervisor
  pending : t.pending = s.pending
  terminals : t.terminals = s.terminals
  boards : ∀ l, (t.pin l).board = (s.pin l).board

/-- Policies, groups and fault inputs are as they were. -/
structure KeepsSettings (s t : State) : Prop where
  policies : t.policies = s.policies
  groups : t.groups = s.groups
  qualifiers : t.qualifiers = s.qualifiers

/-- The ports of the other links are as they were. -/
def KeepsOtherPorts (h : HostId) (s t : State) : Prop := ∀ k, k ≠ h → t.port k = s.port k

/-- Nothing but the ports is changed. -/
def OnlyPortsChange (s t : State) : Prop := t = { s with ports := t.ports }

/-- A line pin on which nothing else acts after an event than before it keeps its level (R5 to R7). -/
def PinsFollow (s t : State) : Prop :=
  ∀ l, pinDrive s l = pinDrive t l → (s.pin l).board = (t.pin l).board → t.pin l = s.pin l

/-! ### Requests -/

/-- The part is out of reset, and link h may take a frame of this code at the head of its inbound queue (R137, R138). -/
structure Offers (s : State) (h : HostId) (code : ReqCode) (frame : List Byte) : Prop where
  running : s.inReset = false
  room : (s.port h).replies.length < Config.replyCapacity
  head : (s.port h).inbound.head? = some frame
  code : frameCode frame = code.byte

/-- The request's length, attachment and authority checks pass (R143). -/
abbrev Admitted (s : State) (h : HostId) (code : ReqCode) (frame : List Byte) : Prop :=
  commonRefusal code h (frameParams frame) s = none

/-- The frame has left the inbound queue of link h and its one reply stands at the end of the reply queue; the rest of the port, and
the other ports, are as they were (R137, R144). -/
structure Answered (s t : State) (h : HostId) (frame : List Byte) (a : Answer) : Prop where
  inbound : (t.port h).inbound = (s.port h).inbound.tail
  replies : (t.port h).replies =
    (s.port h).replies ++ [replyFrame (frameTag frame) (frameCode frame) (t.session h).epoch a]
  lastRead : (t.port h).lastRead = (s.port h).lastRead
  lastWrite : (t.port h).lastWrite = (s.port h).lastWrite
  transaction : (t.port h).transaction = (s.port h).transaction
  others : KeepsOtherPorts h s t

/-- The command that a transaction on link h becomes when its first byte is complete, or, for a WRITE, when SELn is deasserted: the table
of R133, with the bytes the host sends after the first. -/
def kindCommand (h : HostId) (kind : Byte) (bytes : List Byte) : Instr :=
  match kindOf kind with
  | .write => .write h (some bytes)
  | .read => .read h
  | .readAgain => .readAgain h
  | .linkReset => .linkReset h
  | .unknown => .unknownKind h kind

/-- The command that takes a request of this code on a link. -/
def ReqCode.command (h : HostId) : ReqCode → Instr
  | .attach => .attach h
  | .detach => .detach h
  | .collect => .collect h
  | .readLevels => .readLevels h
  | .queryLine => .queryLine h
  | .setPolicy => .setPolicy h
  | .queryPolicy => .queryPolicy h
  | .listen => .listen h
  | .release => .release h
  | .renew => .renew h
  | .revoke => .revoke h
  | .queryRoute => .queryRoute h
  | .claim => .claim h
  | .amend => .amend h
  | .cancel => .cancel h
  | .queryClaim => .queryClaim h
  | .setGroup => .setGroup h
  | .trip => .trip h
  | .rearm => .rearm h
  | .queryGroup => .queryGroup h

/-- The request is answered, and nothing else happens (R143, the queries). -/
structure OnlyAnswered (s t : State) (h : HostId) (frame : List Byte) (a : Answer) : Prop where
  answered : Answered s t h frame a
  outside : KeepsOutside s t
  settings : KeepsSettings s t
  records : KeepsRecords s t
  pins : t.pins = s.pins

/-- The request is answered, and what outside circuits drive, the supervisor and the queue stay; line pins follow (R6, R137). -/
structure AnsweredWithin (s t : State) (h : HostId) (frame : List Byte) (a : Answer) : Prop where
  answered : Answered s t h frame a
  outside : KeepsOutside s t
  pins : PinsFollow s t

/-- The status of the first check that fails, each check given with the status of its failure. -/
def firstFailing (checks : List (Bool × Status)) : Option Status := (checks.find? fun c => !c.1).map (·.2)

/-- Parameter byte i as a number; 0 beyond the end. -/
def paramAt (ps : List Byte) (i : Nat) : Nat := (ps.getD i 0#8).toNat

/-- The members of a LISTEN or CLAIM are in range: 1 to 8 of them, as parameter byte 0 counts, from byte k on; each line below 40, each
terminal below 12, no line twice and no terminal twice (R55, R71). -/
def MembersInRange (ps : List Byte) (k : Nat) : Prop :=
  1 ≤ paramAt ps 0 ∧ paramAt ps 0 ≤ 8 ∧
    (∀ i < paramAt ps 0, paramAt ps (k + 2 * i) < 40 ∧ paramAt ps (k + 2 * i + 1) < 12) ∧
    ∀ i < paramAt ps 0, ∀ j < i,
      paramAt ps (k + 2 * i) ≠ paramAt ps (k + 2 * j) ∧ paramAt ps (k + 2 * i + 1) ≠ paramAt ps (k + 2 * j + 1)

/-- The SET_POLICY bytes are in range: lines 0 to 39 in order, zero bits zero, a drive mode allowed, postures of 10.3, a break interval
of at most 1000 (R21). -/
def PolicyInRange (ps : List Byte) : Prop :=
  paramAt ps 0 ≤ paramAt ps 1 ∧ paramAt ps 1 < 40 ∧
    paramAt ps 3 / 4 % 4 = 0 ∧ paramAt ps 3 % 4 ≠ 0 ∧
    paramAt ps 4 / 128 = 0 ∧ paramAt ps 4 / 16 % 8 ≤ 4 ∧ paramAt ps 4 / 8 % 2 = 0 ∧ paramAt ps 4 % 8 ≤ 4 ∧
    256 * paramAt ps 8 + paramAt ps 9 ≤ 1000

/-- Every field of a request of permitted length is in range, as 10.3 and 10.4 lay the bytes out: lines below 40, groups below 8, route
slots below 96, claim slots below 32, priorities below 4, drive mode 0 or 1, settle interval 1 to 4095, zero bits zero (R145, R116). -/
def ReqCode.InRange (code : ReqCode) (ps : List Byte) : Prop :=
  match code with
  | .attach | .detach | .collect | .readLevels => True
  | .queryLine | .queryPolicy => paramAt ps 0 < 40
  | .setPolicy => PolicyInRange ps
  | .listen => MembersInRange ps 3
  | .release | .renew | .revoke | .queryRoute => paramAt ps 0 < 96
  | .claim => paramAt ps 1 / 16 ≤ 3 ∧ paramAt ps 1 % 16 ≤ 1 ∧ MembersInRange ps 6
  | .amend => paramAt ps 0 < 32 ∧ paramAt ps 2 < 4
  | .cancel | .queryClaim => paramAt ps 0 < 32
  | .setGroup => paramAt ps 0 < 8 ∧ paramAt ps 1 / 16 % 2 = 0 ∧
      1 ≤ 256 * paramAt ps 2 + paramAt ps 3 ∧ 256 * paramAt ps 2 + paramAt ps 3 ≤ 4095
  | .trip | .rearm | .queryGroup => paramAt ps 0 < 8

/-- The route reference a request carries (10.4). -/
def ReqCode.routeReference? (code : ReqCode) (ps : List Byte) : Option (RouteSlot × Byte) :=
  match code with
  | .release => routeRef? ps
  | .renew => (renewParams? ps).map fun x => (x.1, x.2.1)
  | .revoke => routeRef? ps
  | .queryRoute => routeRef? ps
  | _ => none

/-- The claim reference a request carries (10.4). -/
def ReqCode.claimReference? (code : ReqCode) (ps : List Byte) : Option (ClaimSlot × Byte) :=
  match code with
  | .amend => (amendParams? ps).map fun x => (x.1, x.2.1)
  | .cancel => claimRef? ps
  | .queryClaim => claimRef? ps
  | _ => none

/-- A reference names the route rt: its slot is in use at its generation (R47). -/
abbrev NamesRoute (s : State) (r : RouteSlot) (gen : Byte) (rt : Route) : Prop :=
  s.route? r = some rt ∧ (s.routeEntry r).generation = gen

/-- A reference names the claim cl (R68). -/
abbrev NamesClaim (s : State) (c : ClaimSlot) (gen : Byte) (cl : Claim) : Prop :=
  s.claim? c = some cl ∧ (s.claimEntry c).generation = gen

/-- A command the part takes while reset lasts: its end, another reset, and what outside circuits do at pins (R15, R106). -/
def actsInReset : Instr → Bool
  | .deviceReset => true
  | .leaveReset _ _ => true
  | .faultPinChange _ _ => true
  | .terminalLevelChange _ _ _ => true
  | .boardLineLevelChange _ _ => true
  | _ => false

/-- The request-specific checks of a CLAIM with their statuses, in order (R72). -/
def claimChecks (s : State) (h : HostId) (p : ClaimParams) : List (Bool × Status) :=
  let ls := linesOf p.members
  [(mayDrive s h ls, .lineNotPermitted),
    (modeAllowed s p.mode ls, .modeNotPermitted),
    (p.priority ≠ 3 || mayPreempt s h ls, .notAuthorized),
    (p.members.all fun m => !terminalBound s h m.terminal, .terminalBusy),
    (!waitsOnAny s h ls, .alreadyWaiting),
    (!drivesAny s h ls, .alreadyOwner),
    ((s.session h).routesInUse + (s.session h).waitingClaims < 32, .hostRouteLimit),
    ((s.session h).claimRecords < 8, .hostClaimLimit)]

/-- The request-specific checks of a LISTEN with their statuses, in order (R55). -/
def listenChecks (s : State) (h : HostId) (ms : List Member) : List (Bool × Status) :=
  [(mayListen s h (linesOf ms), .lineNotPermitted),
    (ms.all fun m => !terminalBound s h m.terminal, .terminalBusy),
    (!listensAny s h (linesOf ms), .alreadyListening),
    ((s.session h).routesInUse + (s.session h).waitingClaims < 32, .hostRouteLimit),
    ((firstFreeRoute s).isSome, .tableFull)]

/-! ### What the grant checks of one event can do (R88 to R96) -/

/-- A route entry before and after: as it was; or its DRIVER route of priority 0 to 2 preempted; or, if it was free, taken by a DRIVER
route under the next generation. -/
def EntryAfterChecks (e e' : RouteEntry) : Prop :=
  e' = e ∨
  (∃ rt, e.route = some rt ∧ rt.live = true ∧ rt.preemptible = true ∧
    e' = { e with route := some { rt with state := .closed .preempted, lease := none, forced := 0#8 } }) ∨
  (e.route = none ∧ e'.generation = e.generation + 1#8 ∧ ∃ rt, e'.route = some rt ∧ rt.isDriver = true)

/-- A claim before and after: as it was; or, if it was WAITING, with its mark changed, or GRANTED. -/
def ClaimAfterChecks (cl cl' : Claim) : Prop :=
  cl' = cl ∨
  (cl.waiting = true ∧ ∃ b, cl' = { cl with awaiting := b }) ∨
  (cl.waiting = true ∧ ∃ r, cl' = { cl with state := .granted r, waitLimit := none, awaiting := false })

/-- A claim record before and after. -/
def RecordAfterChecks (e e' : ClaimEntry) : Prop :=
  e'.generation = e.generation ∧
    match e.claim with
    | none => e'.claim = none
    | some cl => ∃ cl', e'.claim = some cl' ∧ ClaimAfterChecks cl cl'

/-- Every route entry after the grant checks, from what the event had made of the entries before them. -/
def RoutesAfterChecks (before : RouteSlot → RouteEntry) (t : State) : Prop :=
  ∀ r, EntryAfterChecks (before r) (t.routeEntry r)

/-- Every claim record after the grant checks, from what the event had made of the records before them. -/
def ClaimsAfterChecks (before : ClaimSlot → ClaimEntry) (t : State) : Prop :=
  ∀ c, RecordAfterChecks (before c) (t.claimEntry c)

/-- Grant checks attach and detach no host, change no epoch, and only add to change sets. -/
structure SessionsAfterChecks (s t : State) : Prop where
  attached : ∀ h, (t.session h).attached = (s.session h).attached
  epoch : ∀ h, (t.session h).epoch = (s.session h).epoch
  notedClaims : ∀ h, (s.session h).changes.claims ⊆ (t.session h).changes.claims
  notedRoutes : ∀ h, (s.session h).changes.routes ⊆ (t.session h).changes.routes

/-- All that the grant checks and grants of one event can do. -/
structure AfterChecks (s t : State) : Prop where
  rest : KeepsRest s t
  sessions : SessionsAfterChecks s t
  routes : RoutesAfterChecks s.routeEntry t
  claims : ClaimsAfterChecks s.claimEntry t
  accepted : t.accepted.Sublist s.accepted

/-! ### Which grants an event makes (R49, R54, R65, R93, R94, R96) -/

/-- Claim c, WAITING before the event, is GRANTED entry r after it; cl is its record after it. -/
def Granted (s t : State) (c : ClaimSlot) (cl : Claim) (r : RouteSlot) : Prop :=
  (∃ cl₀, s.claim? c = some cl₀ ∧ cl₀.waiting = true) ∧ t.claim? c = some cl ∧ cl.state = .granted r

/-- The route of a claim's grant in entry r: a DRIVER route under the next generation with the claim's owner, priority, drive mode and
members, its lease resolved from the lease requested; CONNECTING for the longest break interval of its lines, or ACTIVE where that is 0,
with the members on held lines forced; unless a later preemption of the same event has closed it (R49, R50, R94). -/
def GrantedRoute (s t : State) (cl : Claim) (r : RouteSlot) : Prop :=
  ∃ rt, t.routeEntry r = ⟨(s.routeEntry r).generation + 1#8, some rt⟩ ∧
    rt.owner = cl.owner ∧ rt.kind = .driver cl.priority cl.mode ∧ rt.members = cl.members ∧ rt.leaseClamped = false ∧
    (rt.state = .closed .preempted ∨
      (rt.lease = leaseFor t cl.leaseRequested (linesOf cl.members) ∧
        if longestBreak t (linesOf cl.members) = 0 then rt.state = .active ∧ rt.forced = heldMembers t 0 cl.members
        else rt.state = .connecting (longestBreak t (linesOf cl.members)) ∧ rt.forced = 0#8))

/-- A DRIVER route has come into entry r. -/
abbrev NewDriver (s t : State) (r : RouteSlot) (rt : Route) : Prop :=
  (t.routeEntry r).generation ≠ (s.routeEntry r).generation ∧ t.route? r = some rt ∧ rt.isDriver = true

/-- The grants of one event. A claim granted otherwise than in the reply to its owner's own request has its route, and both references
stand in its owner's change set; every new DRIVER route is the route of such a claim or the one granted in the reply; and each takes an
entry below which none is free (R48, R65, R94, R96). -/
structure GrantsMade (inReply : Option RouteSlot) (s t : State) : Prop where
  route : ∀ c cl r, Granted s t c cl r → GrantedRoute s t cl r
  told : ∀ c cl r, Granted s t c cl r → c ∈ (t.session cl.owner).changes.claims ∧ r ∈ (t.session cl.owner).changes.routes
  claimed : ∀ r rt, NewDriver s t r rt → inReply = some r ∨ ∃ c cl, Granted s t c cl r
  lowest : ∀ r rt, NewDriver s t r rt → ∀ q, q < r → (t.route? q).isSome

/-- The command is a CLAIM or AMEND of host h whose reply is GRANTED with the route in entry r (R74, R79, 10.6). -/
def GrantedInReply (i : Instr) (s t : State) (h : HostId) (r : RouteSlot) : Prop :=
  (i = .claim h ∨ i = .amend h) ∧ ∃ f, (t.port h).replies = (s.port h).replies ++ [f] ∧
    f.getD 3 0#8 = Status.granted.byte ∧ f.getD 5 0#8 = BitVec.ofNat 8 r.val

/-- The claim a CLAIM or AMEND is about, with the priority it asks for: the record a CLAIM takes, the one an AMEND names (R73, R78). -/
def ownClaim? (i : Instr) (s : State) : Option (ClaimSlot × Priority) :=
  match i with
  | .claim h => do
    let p ← claimParams? (frameParams (← takeableFrame s h))
    return (← firstFreeClaim s, p.priority)
  | .amend h => do
    let (c, _, p, _) ← amendParams? (frameParams (← takeableFrame s h))
    return (c, p)
  | _ => none

/-- The acceptance order in which the grants of a command are made: a claim just accepted stands at its end, and so does one that an AMEND
has given another priority (R69, R73, R78). -/
def acceptanceAt (i : Instr) (s : State) : List ClaimSlot :=
  match ownClaim? i s with
  | none => s.accepted
  | some (c, p) => if c ∈ s.accepted ∧ claimPriority s c = p then s.accepted else s.accepted.filter (· ≠ c) ++ [c]

/-- The command grants claim c, at priority p, entry r: in its reply or otherwise. -/
def GrantedAt (i : Instr) (s t : State) (c : ClaimSlot) (p : Priority) (r : RouteSlot) : Prop :=
  (∃ cl, Granted s t c cl r ∧ cl.priority = p) ∨ (ownClaim? i s = some (c, p) ∧ ∃ h, GrantedInReply i s t h r)

/-- Claim c at priority p comes before claim d at priority q for an entry: higher priority, or equal priority and earlier acceptance
(R54). -/
abbrev Outranks (order : List ClaimSlot) (c : ClaimSlot) (p : Priority) (d : ClaimSlot) (q : Priority) : Prop :=
  q < p ∨ (p = q ∧ order.idxOf c < order.idxOf d)

/-- The entry arbiter's order: a claim that is granted comes before every claim left awaiting an entry; of two that are granted, the one
that comes first takes the lower entry; and each granted route is live after the event, for the claims behind it wait (R54, R93, R94). -/
structure EntriesHandedInOrder (i : Instr) (s t : State) : Prop where
  left : ∀ c p r, GrantedAt i s t c p r → ∀ d dl, t.claim? d = some dl → dl.waiting = true → dl.awaiting = true →
    Outranks (acceptanceAt i s) c p d dl.priority
  served : ∀ c p r d q e, GrantedAt i s t c p r → GrantedAt i s t d q e → Outranks (acceptanceAt i s) c p d q → r < e
  live : ∀ c p r, GrantedAt i s t c p r → ∃ rt, t.route? r = some rt ∧ rt.live = true

/-- The entry of a live route after its closing (R51, R52). -/
def closedEntry (e : RouteEntry) (rt : Route) (why : CloseReason) : RouteEntry :=
  { e with route := some { rt with state := .closed why, lease := none, forced := 0#8 } }

/-- A free entry of the same generation (R53). -/
def freedEntry (e : RouteEntry) : RouteEntry := { e with route := none }

/-- A free claim record of the same generation (R67). -/
def freedRecord (e : ClaimEntry) : ClaimEntry := { e with claim := none }

/-- The session of host h has ended, its records freed and the lines handed on (R43, R44); the other hosts stay as attached as they
were. -/
structure SessionEnded (s t : State) (h : HostId) : Prop where
  routes : RoutesAfterChecks (fun r => if ownsRoute h (s.routeEntry r) then freedEntry (s.routeEntry r) else s.routeEntry r) t
  claims : ClaimsAfterChecks (fun c => if ownsClaim h (s.claimEntry c) then freedRecord (s.claimEntry c) else s.claimEntry c) t
  noRoute : ∀ r rt, t.route? r = some rt → rt.owner ≠ h
  noClaim : ∀ c cl, t.claim? c = some cl → cl.owner ≠ h
  others : ∀ k, k ≠ h → (t.session k).attached = (s.session k).attached ∧ (t.session k).epoch = (s.session k).epoch

/-! ### What a change of held status does (R63, R65) -/

/-- The member of index i of the ACTIVE DRIVER route in entry r drives line l, and the line's held status changes. -/
abbrev ForcingOn (s t : State) (l : LineNo) (r : RouteSlot) (rt : Route) (i : Nat) : Prop :=
  s.held l ≠ t.held l ∧ lineDriver s l = some (r, rt) ∧ rt.active = true ∧ memberIndex rt.members l = some i ∧ i < 8

/-- A route with a member that is forced or released is told to its owner; while it is ACTIVE, the member is in the forced set just when
its line is held, and a member that becomes forced sets forced-since (R63, R65). -/
def ForcingTold (s t : State) : Prop :=
  ∀ l r rt i, ForcingOn s t l r rt i → r ∈ (t.session rt.owner).changes.routes ∧
    ∀ rt', t.route? r = some rt' → rt'.active = true →
      rt'.forced.getLsbD i = t.held l ∧ (t.held l = true → rt'.forcedSince = true)

/-- All that the changes of held status can do: forcings and releases as told, no other change of a route than of its forced set and
forced-since, and there only of the members forced or released, none at all to a route with no line whose held status changes, and no
other change of a session than those references. -/
structure HeldPassedOn (s t : State) : Prop where
  told : ForcingTold s t
  routes : ∀ r, ∃ forced since, t.routeEntry r = { s.routeEntry r with
      route := (s.route? r).map fun rt => { rt with forced := forced, forcedSince := rt.forcedSince || since } } ∧
    (∀ rt i, s.route? r = some rt → (∀ l, ¬ ForcingOn s t l r rt i) → forced.getLsbD i = rt.forced.getLsbD i) ∧
    (since = true → ∃ l rt, s.held l = false ∧ t.held l = true ∧ lineDriver s l = some (r, rt) ∧ rt.active = true)
  untouched : ∀ r, (∀ l rt, s.held l ≠ t.held l → lineDriver s l = some (r, rt) → rt.active = false) → t.routeEntry r = s.routeEntry r
  sessions : ∀ h, ∃ rs, t.session h = { s.session h with changes := ⟨(s.session h).changes.claims, rs⟩ } ∧
    ∀ r ∈ rs, r ∈ (s.session h).changes.routes ∨
      ∃ l rt, s.held l ≠ t.held l ∧ lineDriver s l = some (r, rt) ∧ rt.active = true ∧ rt.owner = h

/-! ### What a COLLECT makes of the records it reports (R128) -/

/-- A reported route: a CLOSED one is freed, a live one has its flags cleared; any other entry stays. -/
def entryAfterReport (s : State) (refs : List ChangeRef) (r : RouteSlot) : RouteEntry :=
  match s.route? r with
  | some rt =>
    if .route r ∈ refs then
      if rt.live then { s.routeEntry r with route := some { rt with forcedSince := false, leaseClamped := false } }
      else freedEntry (s.routeEntry r)
    else s.routeEntry r
  | none => s.routeEntry r

/-- A reported claim: a settled one is freed, a WAITING one stays; any other record stays. -/
def recordAfterReport (s : State) (refs : List ChangeRef) (c : ClaimSlot) : ClaimEntry :=
  match s.claim? c with
  | some cl => if .claim c ∈ refs ∧ cl.waiting = false then freedRecord (s.claimEntry c) else s.claimEntry c
  | none => s.claimEntry c

/-- The members of a route or claim are bound: each terminal to the member of its index (R42). -/
def BoundTo (s : State) (h : HostId) (mk : Nat → Binding) (ms : List Member) : Prop :=
  ∀ i m, ms[i]? = some m → look (s.session h).bindings m.terminal = some (mk i)

/-! ### Properties that every step keeps -/

/-- A group record and its fault input agree (R107, R109, R112 and the end of 7.3): the flag follows the qualified level, a disabled
group is CLEAR, only a TRIPPED group has a soft trip, a TRIPPED group without one has its input asserted, and an enabled group that is
not TRIPPED has its input clear. A settle timer never exceeds its interval (R111). -/
structure GroupAgrees (x : Group) (q : Qualifier) : Prop where
  flag : x.inputAsserted = assertedOf x.polarity q.qualified
  disabled : x.enabled = false → x.state = .clear
  softTrip : x.softTrip = true → x.state = .tripped
  tripped : x.state = .tripped → x.softTrip = true ∨ x.inputAsserted = true
  calm : x.enabled = true → x.state ≠ .tripped → x.inputAsserted = false
  settling : ∀ t, x.state = .settling t → t ≤ x.settleInterval * Config.microsPerMilli

/-- Every group agrees with its input, and no group is enabled before reset ends (R108). -/
structure GroupsAgree (s : State) : Prop where
  agree : ∀ g, GroupAgrees (s.group g) (s.qualifier g)
  inReset : s.inReset = true → ∀ g, (s.group g).enabled = false

/-- A free entry and an eligible claim that awaits one never stand side by side (R54). -/
def NoIdleEntry (s : State) : Prop := firstFreeRoute s = none ∨ bestAwaiting s = none

/-- Every record in use belongs to an attached host, a DETACHED host's session record is empty but for its epoch (R36, R122), and an
attached host never has epoch 0 (R35). -/
structure SessionsSound (s : State) : Prop where
  routes : ∀ r rt, s.route? r = some rt → (s.session rt.owner).attached = true
  claims : ∀ c cl, s.claim? c = some cl → (s.session cl.owner).attached = true
  empty : ∀ h, (s.session h).attached = false → s.session h = { Session.reset with epoch := (s.session h).epoch }
  epoch : ∀ h, (s.session h).attached = true → (s.session h).epoch ≠ 0#8

/-- The WAITING claims of a host. -/
def waitingOf (s : State) (h : HostId) : List ClaimSlot :=
  (claimsOf s h).filter fun c => ((s.claim? c).map Claim.waiting).getD false

/-- The counts of a host are those of its records, and they stay within its limits (R40, R41). -/
structure CountsExact (s : State) (h : HostId) : Prop where
  routes : (s.session h).routesInUse = (routesOf s h).length
  records : (s.session h).claimRecords = (claimsOf s h).length
  waiting : (s.session h).waitingClaims = (waitingOf s h).length
  routeLimit : (s.session h).routesInUse + (s.session h).waitingClaims ≤ Config.hostRouteLimit
  claimLimit : (s.session h).claimRecords ≤ Config.hostClaimLimit

/-- The queues of a port stay within their capacity (R132). -/
def PortBounded (p : Port) : Prop :=
  p.inbound.length ≤ Config.inboundCapacity ∧ p.replies.length ≤ Config.replyCapacity

/-- An ascending list without repeats. -/
def Ascending {n : Nat} (xs : List (Fin n)) : Prop := xs.Pairwise (· < ·)

/-- The change sets hold references to records in use of their own host, each once, in their one form (R122, log entry 9); a CLOSED
route and a settled claim stand in their owner's set (R125). -/
structure ChangeSetsExact (s : State) : Prop where
  claimsOnce : ∀ h, Ascending (s.session h).changes.claims
  routesOnce : ∀ h, Ascending (s.session h).changes.routes
  claimsOwn : ∀ h c, c ∈ (s.session h).changes.claims → ∃ cl, s.claim? c = some cl ∧ cl.owner = h
  routesOwn : ∀ h r, r ∈ (s.session h).changes.routes → ∃ rt, s.route? r = some rt ∧ rt.owner = h
  settled : ∀ c cl, s.claim? c = some cl → cl.waiting = false → c ∈ (s.session cl.owner).changes.claims
  closed : ∀ r rt, s.route? r = some rt → rt.live = false → r ∈ (s.session rt.owner).changes.routes

/-- A live route's lease stays within the effective max of its lines, which is none where that max is 0 (R19, R26). -/
def LeaseWithinMax (s : State) (rt : Route) : Prop :=
  effectiveMax s (linesOf rt.members) ≠ 0 →
    ∃ t, rt.lease = some t ∧ t ≤ effectiveMax s (linesOf rt.members) * Config.microsPerMilli

/-- The policy records permit every live route and every WAITING claim, and bound every live lease (R19, R23 to R26). No record is in
use before reset ends. -/
structure PoliciesHold (s : State) : Prop where
  routes : ∀ r rt, s.route? r = some rt → rt.live = true → routePermitted s rt = true
  leases : ∀ r rt, s.route? r = some rt → rt.live = true → LeaseWithinMax s rt
  claims : ∀ c cl, s.claim? c = some cl → cl.waiting = true → claimPermitted s cl = true ∧ losesPreempt s cl = false
  inReset : s.inReset = true → (∀ r, s.route? r = none) ∧ ∀ c, s.claim? c = none

/-- The acceptance order holds every WAITING claim once and nothing else (R69). -/
structure AcceptanceExact (s : State) : Prop where
  once : s.accepted.Nodup
  waiting : ∀ c, c ∈ s.accepted ↔ ∃ cl, s.claim? c = some cl ∧ cl.waiting = true

/-- A list of members as a request can give it (R55, R71). -/
def MembersSound (ms : List Member) : Prop := ms.length ≤ 8 ∧ (linesOf ms).Nodup

/-- The line records agree with the route table and the claim pool. A line's driver is a live DRIVER route with a member on it, and such
a route is the driver of each of its lines, so no line has two (R87, R94). A claim stands in a line's queue just when it is WAITING and
names the line, and the queue is ordered by priority, then acceptance (R69, R70). A claim that awaits an entry heads all its queues and
finds no driver on its lines (R89, R102). The line state is that of the table of R87. -/
structure LinesAgree (s : State) : Prop where
  accepted : AcceptanceExact s
  routeMembers : ∀ r rt, s.route? r = some rt → MembersSound rt.members
  claimMembers : ∀ c cl, s.claim? c = some cl → MembersSound cl.members
  driver : ∀ l r, (s.line l).driver = some r →
    ∃ rt, s.route? r = some rt ∧ rt.live = true ∧ rt.isDriver = true ∧ l ∈ linesOf rt.members
  driven : ∀ r rt, s.route? r = some rt → rt.live = true → rt.isDriver = true → ∀ l ∈ linesOf rt.members, (s.line l).driver = some r
  queue : ∀ l c, c ∈ (s.line l).queue ↔ ∃ cl, s.claim? c = some cl ∧ cl.waiting = true ∧ l ∈ linesOf cl.members
  order : ∀ l, (s.line l).queue.Pairwise fun c d => ahead s c d = true
  awaiting : ∀ c cl, s.claim? c = some cl → cl.waiting = true → cl.awaiting = true →
    headsAll s c (linesOf cl.members) = true ∧ driversOn s (linesOf cl.members) = []
  state : ∀ l, (s.line l).state = lineStateOf s l

/-- Every line that could be granted has been: a WAITING claim that heads the queue of each of its lines awaits an entry if it finds no
driver there, and finds a driver it may not preempt if its priority is 3 and it finds one. So each event that hands a line on runs the
grant check of its new queue head (R44, R53, R70, R88, R89, R91, R93). -/
structure GrantsChecked (s : State) : Prop where
  free : ∀ c cl, s.claim? c = some cl → cl.waiting = true → headsAll s c (linesOf cl.members) = true →
    driversOn s (linesOf cl.members) = [] → cl.awaiting = true
  preempting : ∀ c cl, s.claim? c = some cl → cl.waiting = true → headsAll s c (linesOf cl.members) = true → cl.priority = 3 →
    driversOn s (linesOf cl.members) ≠ [] → ∃ p ∈ driversOn s (linesOf cl.members), p.2.preemptible = false

/-- The forced set of every ACTIVE DRIVER route holds just the members whose lines are held, and every other route's is empty (R63). The
line records agree, and a LISTENER route is never CONNECTING (R56). -/
structure ForcedExact (s : State) : Prop where
  lines : LinesAgree s
  listener : ∀ r rt, s.route? r = some rt → rt.isDriver = false → ∀ t, rt.state ≠ .connecting t
  active : ∀ r rt, s.route? r = some rt → rt.active = true → rt.isDriver = true →
    ∀ i m, rt.members[i]? = some m → rt.forced.getLsbD i = s.held m.line
  other : ∀ r rt, s.route? r = some rt → (rt.active = false ∨ rt.isDriver = false) → rt.forced = 0#8

/-- A terminal is bound just to the member that names it, of a live route or WAITING claim of its host (R42). -/
structure BindingsExact (s : State) : Prop where
  toRoute : ∀ h t r i, look (s.session h).bindings t = some (.route r i) →
    ∃ rt m, s.route? r = some rt ∧ rt.live = true ∧ rt.owner = h ∧ rt.members[i]? = some m ∧ m.terminal = t
  toClaim : ∀ h t c i, look (s.session h).bindings t = some (.claim c i) →
    ∃ cl m, s.claim? c = some cl ∧ cl.waiting = true ∧ cl.owner = h ∧ cl.members[i]? = some m ∧ m.terminal = t
  ofRoute : ∀ r rt, s.route? r = some rt → rt.live = true → BoundTo s rt.owner (.route r) rt.members
  ofClaim : ∀ c cl, s.claim? c = some cl → cl.waiting = true → BoundTo s cl.owner (.claim c) cl.members

end Sys2Proof.Machine
end

