-- ==== Sys2Proof/Certificates/Slice0/Obligations.lean ====
section
/-! DEFINITION. Certificates/Slice0/Obligations.lean: the statements for the provers, in the order of OBLIGATIONS.json. -/

open Sys2Proof Sys2Proof.Machine

/-! ### The machine -/

/-- A step with command c in front is exec of c with the rest of the queue. -/
def Obligations.StepRunsFrontCommand : Prop :=
  ∀ (c : Instr) (rest : List Instr) (s : State), step { s with pending := c :: rest } = exec c { s with pending := rest }

/-- On an empty queue a microsecond passes (the model's choice, log entry 6): each running break interval, lease, wait limit, settle
interval and qualifier count is less by 1, one that has run out stays at 0, and nothing else changes. -/
def Obligations.EmptyQueuePassesAMicrosecond : Prop :=
  ∀ s : State, s.pending = [] → ∃ t, step s = .next t ∧
    t = { s with routes := t.routes, claims := t.claims, groups := t.groups, qualifiers := t.qualifiers } ∧
    (∀ r, t.routeEntry r = { s.routeEntry r with route := (s.route? r).map fun rt =>
      match rt.state with
      | .connecting d => { rt with state := .connecting (d - 1) }
      | .active => { rt with lease := rt.lease.map (· - 1) }
      | .closed _ => rt }) ∧
    (∀ c, t.claimEntry c = { s.claimEntry c with claim := (s.claim? c).map fun cl =>
      if cl.waiting then { cl with waitLimit := cl.waitLimit.map (· - 1) } else cl }) ∧
    (∀ g, t.group g = { s.group g with state :=
      match (s.group g).state with
      | .settling d => .settling (d - 1)
      | st => st }) ∧
    ∀ g, t.qualifier g = { s.qualifier g with count := (s.qualifier g).count.map (· - 1) }

/-- The model's choice, log entries 3 and 13: every command has a next state, in every state, none a fault or a refusal, and no command
changes the queue that waits behind it. -/
def Obligations.EveryCommandCompletes : Prop :=
  ∀ (c : Instr) (s : State), ∃ t, exec c s = .next t ∧ t.pending = s.pending

/-! ### Device reset -/

/-- DEVICE_RESET puts every record at its reset value, whatever the state; each line shows PULL_UP and each terminal is unbound. What
outside circuits drive stays. That no count runs in reset and that the input asserted flags are clear is the model's choice, log entry 5.
While reset lasts, no transaction, request or expiry has an effect (the model's choice, log entry 3); DEVICE_RESET, LEAVE_RESET and the
three pin events act. -/
def Obligations.DeviceResetSetsEveryRecord : Prop :=
  (∀ s : State, ∃ t, exec .deviceReset s = .next t ∧ t.inReset = true ∧ t.pending = s.pending ∧ t.terminals = s.terminals ∧
    (∀ l, (t.policy l).listenerMask = 0xF#4 ∧ (t.policy l).preemptMask = 0#4 ∧ (t.policy l).modes = 3#2 ∧
      (t.policy l).restPosture = .pullUp ∧ (t.policy l).safePosture = .float ∧ (t.policy l).groupSet = 0#8 ∧
      (t.policy l).maxLease = 0 ∧ (t.policy l).breakInterval = 20) ∧
    (∀ h, t.session h = Session.reset) ∧
    (∀ r, t.routeEntry r = ⟨0#8, none⟩) ∧ (∀ c, t.claimEntry c = ⟨0#8, none⟩) ∧ t.accepted = [] ∧
    (∀ l, t.line l = ⟨.free, none, []⟩) ∧
    (∀ g, t.group g = Group.reset) ∧
    (∀ g, (t.qualifier g).pin = (s.qualifier g).pin ∧ (t.qualifier g).due = [] ∧ (t.qualifier g).count = none) ∧
    (∀ l, (t.pin l).board = (s.pin l).board) ∧
    (∀ h, t.port h = ⟨.none, [], [], none, .accepted⟩) ∧
    (∀ l, lineShows t l = .posture .pullUp) ∧ (∀ h n, terminalShows t h n = .idle) ∧
    fltstat t = false ∧ ∀ h, attn t h = false) ∧
  ∀ (c : Instr) (s : State), s.inReset = true → actsInReset c = false → exec c s = .next s

/-- LEAVE_RESET: the host whose number the straps give becomes supervisor and the one host of every driver mask; each qualified level is
the one at its pin, and each input asserted flag follows from it. Nothing else changes but line pins. On a part out of
reset the command does nothing (the model's choice, log entry 3). -/
def Obligations.LeaveResetSamplesTheStraps : Prop :=
  (∀ (a b : Level) (s : State), s.inReset = true → ∃ t, exec (.leaveReset a b) s = .next t ∧ t.inReset = false ∧
    t.supervisor.val = (if a = .high then 2 else 0) + (if b = .high then 1 else 0) ∧
    (∀ l, t.policy l = { s.policy l with driverMask := (t.policy l).driverMask } ∧
      ∀ h : HostId, (t.policy l).driverMask.getLsbD h.val = decide (h = t.supervisor)) ∧
    (∀ g, t.qualifier g = { pin := (s.qualifier g).pin, qualified := (s.qualifier g).pin, due := [], count := none } ∧
      t.group g = { s.group g with inputAsserted := assertedOf (s.group g).polarity (s.qualifier g).pin }) ∧
    KeepsRecords s t ∧ PinsFollow s t ∧ t.ports = s.ports ∧ t.terminals = s.terminals ∧ t.pending = s.pending) ∧
  ∀ (a b : Level) (s : State), s.inReset = false → exec (.leaveReset a b) s = .next s

/-! ### Transactions -/

/-- TRANSACTION_BEGIN captures the link status byte: reply waiting, change set not empty, attached, and 5 times the last write result
code plus the inbound space. Begun again with no kind byte in between, the transaction that had no kind has changed nothing. -/
def Obligations.TransactionBeginCapturesStatus : Prop :=
  ∀ (h : HostId) (s : State), s.inReset = false →
    ∃ t st, exec (.transactionBegin h) s = .next t ∧ OnlyPortsChange s t ∧ KeepsOtherPorts h s t ∧
      t.port h = { s.port h with transaction := .begun st } ∧ (t.port h).transaction.sent 0 = some st ∧
      exec (.transactionBegin h) t = .next t ∧
      st.getLsbD 7 = !(s.port h).replies.isEmpty ∧
      st.getLsbD 6 = !((s.session h).changes.claims.isEmpty && (s.session h).changes.routes.isEmpty) ∧
      st.getLsbD 5 = (s.session h).attached ∧
      (st.extractLsb' 0 5).toNat =
        5 * (match (s.port h).lastWrite with
          | .accepted => 0
          | .rejectedCheck => 1
          | .rejectedLength => 2
          | .rejectedFull => 3
          | .rejectedKind => 4) + (4 - (s.port h).inbound.length)

/-- WRITE: the frame is judged for length, CHECK and room in that order; it joins the inbound queue if it passes, and is discarded if
not; the result is recorded; nothing else changes but that the transaction is over. In it the port sends the status byte and then 00h.
The deassertion of SELn ends a transaction of any other kind, or of none, and changes nothing else. After it SDOn is at high impedance. -/
def Obligations.WriteJudgesTheFrame : Prop :=
  (∀ (h : HostId) (bytes : List Byte) (s : State) (st : Byte), s.inReset = false → (s.port h).transaction = .begun st →
    ∃ t res, exec (.write h (some bytes)) s = .next t ∧ OnlyPortsChange s t ∧ KeepsOtherPorts h s t ∧
      t.port h = { s.port h with
        transaction := .none
        lastWrite := res
        inbound := if res = .accepted then (s.port h).inbound ++ [bytes] else (s.port h).inbound } ∧
      (∀ i, (s.port h).transaction.sent i = some (if i = 0 then st else 0x00#8) ∧ (t.port h).transaction.sent i = none) ∧
      (if ¬ (2 ≤ (bytes.headD 0#8).toNat ∧ (bytes.headD 0#8).toNat ≤ 26 ∧ bytes.length = (bytes.headD 0#8).toNat + 3) then
        res = .rejectedLength
      else if bytes.drop (bytes.length - 2) ≠ checkBytes (bytes.take (bytes.length - 2)) then res = .rejectedCheck
      else if (s.port h).inbound.length < 4 then res = .accepted
      else res = .rejectedFull)) ∧
  ∀ (h : HostId) (frame : Option (List Byte)) (s : State), s.inReset = false →
    (frame = none ∨ ∀ st, (s.port h).transaction ≠ .begun st) →
    ∃ t, exec (.write h frame) s = .next t ∧ OnlyPortsChange s t ∧ KeepsOtherPorts h s t ∧
      t.port h = { s.port h with transaction := .none } ∧ ∀ i, (t.port h).transaction.sent i = none

/-- READ: the oldest unread reply leaves the queue, becomes the last-read reply and is sent after the status byte, 00h following; with none
unread the null reply is sent and nothing else changes. -/
def Obligations.ReadTakesTheOldestReply : Prop :=
  ∀ (h : HostId) (s : State) (st : Byte), s.inReset = false → (s.port h).transaction = .begun st →
    ∃ t, exec (.read h) s = .next t ∧ OnlyPortsChange s t ∧ KeepsOtherPorts h s t ∧
      (∀ r rs, (s.port h).replies = r :: rs →
        t.port h = { s.port h with transaction := .sending st r, replies := rs, lastRead := some r } ∧
        (t.port h).transaction.sent 0 = some st ∧ ∀ i, (t.port h).transaction.sent (i + 1) = some (r.getD i 0x00#8)) ∧
      ((s.port h).replies = [] → t.port h = { s.port h with transaction := .sending st [0x00#8] })

/-- READ_AGAIN sends the last-read reply again, or the null reply, and changes no queue, no last-read reply, no write result and no ATTN
output; a READ_AGAIN in the next transaction sends the same. Only a READ or a link reset of the link, or device reset, changes its
last-read reply. -/
def Obligations.ReadAgainResends : Prop :=
  (∀ (h : HostId) (s : State) (st : Byte), s.inReset = false → (s.port h).transaction = .begun st →
    ∃ t, exec (.readAgain h) s = .next t ∧ OnlyPortsChange s t ∧ KeepsOtherPorts h s t ∧
      t.port h = { s.port h with transaction := .sending st ((s.port h).lastRead.getD [0x00#8]) } ∧
      (∀ k, attn t k = attn s k) ∧
      ∃ u v, exec (.transactionBegin h) t = .next u ∧ exec (.readAgain h) u = .next v ∧
        ∃ st', (v.port h).transaction = .sending st' ((s.port h).lastRead.getD [0x00#8])) ∧
  ∀ (c : Instr) (s t : State) (h : HostId), exec c s = .next t → (t.port h).lastRead ≠ (s.port h).lastRead →
    c = .read h ∨ c = .linkReset h ∨ c = .deviceReset

/-- LINK_RESET empties the port, and ends the session of an ATTACHED host with its epoch kept; a DETACHED host's link reset changes
nothing else. Policies, groups, the other ports and the other hosts' attachment stay. -/
def Obligations.LinkResetClearsPortAndSession : Prop :=
  ∀ (h : HostId) (s : State) (st : Byte), s.inReset = false → (s.port h).transaction = .begun st →
    ∃ t, exec (.linkReset h) s = .next t ∧ KeepsOtherPorts h s t ∧ KeepsOutside s t ∧ KeepsSettings s t ∧ PinsFollow s t ∧
      t.port h = { transaction := .sending st [0x00#8], inbound := [], replies := [], lastRead := none, lastWrite := .accepted } ∧
      (∀ i, (t.port h).transaction.sent i = some (if i = 0 then st else 0x00#8)) ∧
      ((s.session h).attached = true → SessionEnded s t h ∧ t.session h = { Session.reset with epoch := (s.session h).epoch }) ∧
      ((s.session h).attached = false → OnlyPortsChange s t)

/-- The kinds: 31h WRITE, 32h READ, 33h READ_AGAIN, 3Ch LINK_RESET, every other first byte unknown. UNKNOWN_KIND sets the last write result
to REJECTED_KIND, sends 00h and changes nothing else; the four known kind bytes are no such event and the command then does nothing (the
model's choice, log entry 3). -/
def Obligations.UnknownKindIsRejected : Prop :=
  (∀ (h : HostId) (bytes : List Byte), kindCommand h 0x31#8 bytes = .write h (some bytes) ∧ kindCommand h 0x32#8 bytes = .read h ∧
    kindCommand h 0x33#8 bytes = .readAgain h ∧ kindCommand h 0x3C#8 bytes = .linkReset h ∧
    ∀ kind, kind ∉ [0x31#8, 0x32#8, 0x33#8, 0x3C#8] → kindCommand h kind bytes = .unknownKind h kind) ∧
  (∀ (h : HostId) (kind : Byte) (s : State) (st : Byte), s.inReset = false → (s.port h).transaction = .begun st →
    kind ∉ [0x31#8, 0x32#8, 0x33#8, 0x3C#8] →
    ∃ t, exec (.unknownKind h kind) s = .next t ∧ OnlyPortsChange s t ∧ KeepsOtherPorts h s t ∧
      t.port h = { s.port h with transaction := .sending st [0x00#8], lastWrite := .rejectedKind } ∧
      ∀ i, (t.port h).transaction.sent i = some (if i = 0 then st else 0x00#8)) ∧
  ∀ (h : HostId) (kind : Byte) (s : State), kind ∈ [0x31#8, 0x32#8, 0x33#8, 0x3C#8] → exec (.unknownKind h kind) s = .next s

/-- The CRC: the remainder of polynomial division by x^16 + x^12 + x^5 + 1 from FFFFh, each byte's most significant bit first, nothing
reflected or inverted, sent high byte first. A frame is accepted only if it ends with it, and every reply that is queued ends with it;
the null reply is a single 00h. -/
def Obligations.CrcIsComputedBitwise : Prop :=
  (∀ bs : List Byte, crc bs = (bs.flatMap fun b => (List.range 8).map fun i => b.getMsbD i).foldl
    (fun (c : BitVec 16) (bit : Bool) => if c.msb != bit then (c <<< 1) ^^^ 0x1021#16 else c <<< 1) 0xFFFF#16) ∧
  (∀ bs : List Byte, checkBytes bs = [(crc bs).extractLsb' 8 8, (crc bs).extractLsb' 0 8]) ∧
  (∀ f : List Byte, 5 ≤ f.length → (frameCheckOk f = true ↔ ∃ body, f = body ++ checkBytes body)) ∧
  (∀ (tag code epoch : Byte) (a : Answer), ∃ body, replyFrame tag code epoch a = body ++ checkBytes body ∧
    body = [BitVec.ofNat 8 (4 + a.results.length), tag, code, a.status.byte, epoch] ++ a.results) ∧
  (∀ (h : HostId) (bytes : List Byte) (s t : State) (st : Byte), s.inReset = false → (s.port h).transaction = .begun st →
    exec (.write h (some bytes)) s = .next t → (t.port h).lastWrite = .accepted → ∃ body, bytes = body ++ checkBytes body) ∧
  (∀ (c : Instr) (s t : State) (h : HostId), exec c s = .next t →
    ∀ r ∈ (t.port h).replies, r ∈ (s.port h).replies ∨ ∃ body, r = body ++ checkBytes body) ∧
  nullReply = [0x00#8]

/-! ### The common checks -/

/-- UNKNOWN_REQUEST: a frame whose CODE is none of the 20 request codes is taken, answered UNKNOWN_REQUEST, and changes no record. -/
def Obligations.UnknownRequestIsAnswered : Prop :=
  ∀ (h : HostId) (s : State) (f : List Byte), s.inReset = false → (s.port h).replies.length < 4 →
    (s.port h).inbound.head? = some f → (∀ code : ReqCode, frameCode f ≠ code.byte) →
    ∃ t, exec (.unknownRequest h) s = .next t ∧ OnlyAnswered s t h f ⟨.unknownRequest, []⟩

/-- A link with 4 unread replies takes no request, and neither does one whose inbound queue is empty: the request commands
then do nothing (the model's choice, log entries 3 and 7). -/
def Obligations.StalledLinkTakesNothing : Prop :=
  ∀ (h : HostId) (s : State), (4 ≤ (s.port h).replies.length ∨ (s.port h).inbound = []) →
    (∀ code : ReqCode, exec (code.command h) s = .next s) ∧ exec (.unknownRequest h) s = .next s

/-- The common checks decide in their order: length, attachment, authority. A request refused at one is answered and changes nothing. The
lengths are those of 10.4; every request but ATTACH, READ_LEVELS and the five queries QUERY_LINE, QUERY_POLICY, QUERY_ROUTE, QUERY_CLAIM
and QUERY_GROUP needs attachment; SET_POLICY, REVOKE, SET_GROUP and TRIP alone need the supervisor. -/
def Obligations.CommonChecksDecideInOrder : Prop :=
  (∀ (code : ReqCode) (h : HostId) (f : List Byte) (s : State), Offers s h code f →
    ∀ checks, checks = [(code.lengthOk (frameParams f), .badLength),
        (!code.needsAttachment || (s.session h).attached, .notAttached),
        (!code.needsSupervisor || h = s.supervisor, .notAuthorized)] →
      (∀ st, firstFailing checks = some st → ∃ t, exec (code.command h) s = .next t ∧ OnlyAnswered s t h f ⟨st, []⟩) ∧
      (firstFailing checks = none ↔ Admitted s h code f)) ∧
  (∀ (code : ReqCode) (ps : List Byte), code.lengthOk ps = true ↔ ps.length =
    match code with
    | .attach | .detach | .collect | .readLevels => 0
    | .queryLine | .queryPolicy | .trip | .rearm | .queryGroup => 1
    | .release | .revoke | .queryRoute | .cancel | .queryClaim => 2
    | .renew | .setGroup => 4
    | .amend => 5
    | .setPolicy => 10
    | .listen => 3 + 2 * paramAt ps 0
    | .claim => 6 + 2 * paramAt ps 0) ∧
  (∀ code : ReqCode, code.needsAttachment = false ↔
    code ∈ [.attach, .readLevels, .queryLine, .queryPolicy, .queryRoute, .queryClaim, .queryGroup]) ∧
  (∀ code : ReqCode, code.needsSupervisor = true ↔ code ∈ [.setPolicy, .revoke, .setGroup, .trip]) ∧
  [ReqCode.attach, .detach, .collect, .readLevels, .queryLine, .setPolicy, .queryPolicy, .listen, .release, .renew].map ReqCode.byte =
    [0x10#8, 0x11#8, 0x12#8, 0x20#8, 0x21#8, 0x28#8, 0x29#8, 0x30#8, 0x31#8, 0x32#8] ∧
  [ReqCode.revoke, .queryRoute, .claim, .amend, .cancel, .queryClaim, .setGroup, .trip, .rearm, .queryGroup].map ReqCode.byte =
    [0x33#8, 0x34#8, 0x40#8, 0x41#8, 0x42#8, 0x43#8, 0x50#8, 0x51#8, 0x52#8, 0x53#8]

/-- A request with a field out of its range, as the ranges stand over the parameter bytes, is refused BAD_PARAMETER and changes nothing; one
with every field in range is answered, with another status. -/
def Obligations.RangeChecksRefuse : Prop :=
  ∀ (code : ReqCode) (h : HostId) (f : List Byte) (s : State), Offers s h code f → Admitted s h code f →
    (¬ code.InRange (frameParams f) →
      ∃ t, exec (code.command h) s = .next t ∧ OnlyAnswered s t h f ⟨.badParameter, []⟩) ∧
    (code.InRange (frameParams f) →
      ∃ t a, exec (code.command h) s = .next t ∧ Answered s t h f a ∧ a.status ≠ .badParameter)

/-- A reference to a free slot or of another generation is refused STALE_REFERENCE; then RELEASE, RENEW, AMEND and CANCEL by another
host than the owner are refused NOT_OWNER; then AMEND and CANCEL of a settled claim WRONG_STATE. Nothing changes. -/
def Obligations.ReferencesAreChecked : Prop :=
  (∀ (code : ReqCode) (h : HostId) (f : List Byte) (s : State) (r : RouteSlot) (gen : Byte), Offers s h code f →
    Admitted s h code f → code.routeReference? (frameParams f) = some (r, gen) →
    ((¬ ∃ rt, NamesRoute s r gen rt) →
      ∃ t, exec (code.command h) s = .next t ∧ OnlyAnswered s t h f ⟨.staleReference, []⟩) ∧
    ∀ rt, NamesRoute s r gen rt → rt.owner ≠ h → (code = .release ∨ code = .renew) →
      ∃ t, exec (code.command h) s = .next t ∧ OnlyAnswered s t h f ⟨.notOwner, []⟩) ∧
  ∀ (code : ReqCode) (h : HostId) (f : List Byte) (s : State) (c : ClaimSlot) (gen : Byte), Offers s h code f →
    Admitted s h code f → code.claimReference? (frameParams f) = some (c, gen) →
    ((¬ ∃ cl, NamesClaim s c gen cl) →
      ∃ t, exec (code.command h) s = .next t ∧ OnlyAnswered s t h f ⟨.staleReference, []⟩) ∧
    ∀ cl, NamesClaim s c gen cl → (code = .amend ∨ code = .cancel) →
      (cl.owner ≠ h → ∃ t, exec (code.command h) s = .next t ∧ OnlyAnswered s t h f ⟨.notOwner, []⟩) ∧
      (cl.owner = h → cl.waiting = false →
        ∃ t, exec (code.command h) s = .next t ∧ OnlyAnswered s t h f ⟨.wrongState, []⟩)

/-- The request-specific checks of LISTEN and of CLAIM decide in their order, the first that fails giving its status; nothing
changes. -/
def Obligations.ListenAndClaimChecksInOrder : Prop :=
  (∀ (h : HostId) (f : List Byte) (s : State) (lease : Nat) (ms : List Member) (st : Status), Offers s h .listen f →
    Admitted s h .listen f → listenParams? (frameParams f) = some (lease, ms) → firstFailing (listenChecks s h ms) = some st →
    ∃ t, exec (.listen h) s = .next t ∧ OnlyAnswered s t h f ⟨st, []⟩) ∧
  ∀ (h : HostId) (f : List Byte) (s : State) (p : ClaimParams) (st : Status), Offers s h .claim f →
    Admitted s h .claim f → claimParams? (frameParams f) = some p → firstFailing (claimChecks s h p) = some st →
    ∃ t, exec (.claim h) s = .next t ∧ OnlyAnswered s t h f ⟨st, []⟩

/-! ### Sessions -/

/-- ATTACH of a DETACHED host: it becomes ATTACHED under the next epoch; the reply names the supervisor and no ended session. -/
def Obligations.AttachOpensASession : Prop :=
  ∀ (h : HostId) (f : List Byte) (s : State), Offers s h .attach f → frameParams f = [] → (s.session h).attached = false →
    ∃ t, exec (.attach h) s = .next t ∧
      Answered s t h f ⟨.ok, [BitVec.ofNat 8 s.supervisor.val, 0#8, 0#8, 0#8]⟩ ∧
      KeepsOutside s t ∧ KeepsSettings s t ∧ t.pins = s.pins ∧
      t.routes = s.routes ∧ t.claims = s.claims ∧ t.accepted = s.accepted ∧ t.lines = s.lines ∧
      t.session h = { s.session h with
        attached := true
        epoch := if (s.session h).epoch = 0xFF#8 then 1#8 else (s.session h).epoch + 1#8 } ∧
      ∀ k, k ≠ h → t.session k = s.session k

/-- A second ATTACH and a DETACH end the session: every record of the host is freed, its counts, bindings and change set are emptied, the
other hosts' records are touched by the grant checks alone, and the reply counts what was freed. After ATTACH the host is ATTACHED under
the next epoch, after DETACH it is DETACHED and its epoch kept. -/
def Obligations.AttachAndDetachEndTheSession : Prop :=
  ∀ (h : HostId) (f : List Byte) (s : State), (s.session h).attached = true → frameParams f = [] →
    (Offers s h .attach f → ∃ t, exec (.attach h) s = .next t ∧
      AnsweredWithin s t h f ⟨.ok, [BitVec.ofNat 8 s.supervisor.val, 1#8, BitVec.ofNat 8 (routesOf s h).length,
        BitVec.ofNat 8 (claimsOf s h).length]⟩ ∧
      KeepsSettings s t ∧ SessionEnded s t h ∧
      t.session h = { Session.reset with
        attached := true
        epoch := if (s.session h).epoch = 0xFF#8 then 1#8 else (s.session h).epoch + 1#8 }) ∧
    (Offers s h .detach f → ∃ t, exec (.detach h) s = .next t ∧
      AnsweredWithin s t h f ⟨.ok, [BitVec.ofNat 8 (routesOf s h).length, BitVec.ofNat 8 (claimsOf s h).length]⟩ ∧
      KeepsSettings s t ∧ SessionEnded s t h ∧
      t.session h = { Session.reset with epoch := (s.session h).epoch })

/-- The epoch rule: a carried-out ATTACH takes the epoch to the old one plus 1, 0 and 255 to 1; no other command but device reset changes
an epoch; an attached host never comes to have epoch 0; 255 attaches lead from any epoch of a session back to it, so the 256th attach
after device reset gives the same epoch as the first. -/
def Obligations.EpochRule : Prop :=
  (∀ (h : HostId) (f : List Byte) (s : State), Offers s h .attach f → frameParams f = [] →
    ∃ t, exec (.attach h) s = .next t ∧
      ((t.session h).epoch = if (s.session h).epoch = 0#8 ∨ (s.session h).epoch = 0xFF#8 then 1#8 else (s.session h).epoch + 1#8) ∧
      ∀ k, k ≠ h → (t.session k).epoch = (s.session k).epoch) ∧
  (∀ (c : Instr) (s t : State), exec c s = .next t → c ≠ .deviceReset → (∀ h, c ≠ .attach h) →
    ∀ k, (t.session k).epoch = (s.session k).epoch) ∧
  (∀ (c : Instr) (s t : State), exec c s = .next t →
    (∀ k, (s.session k).attached = true → (s.session k).epoch ≠ 0#8) →
    ∀ k, (t.session k).attached = true → (t.session k).epoch ≠ 0#8) ∧
  ∀ e : Byte, e ≠ 0#8 → (fun x : Byte => if x = 0#8 ∨ x = 0xFF#8 then 1#8 else x + 1#8)^[255] e = e

/-- COLLECT reports the first six references of the host's change set, claims before routes, each by slot, with entry code, priority or
flags, generation and detail byte, from the records as they stand, and how many remain. Each reported reference leaves the set, and stands
in it again only if the grants that follow change its record; the others stay. A reported CLOSED route or settled claim is freed, any other
reported route has its flags cleared; freed entries are handed out. -/
def Obligations.CollectReportsAndClears : Prop :=
  ∀ (h : HostId) (f : List Byte) (s : State), Offers s h .collect f → Admitted s h .collect f → ChangeSetsExact s → CountsExact s h →
    ∃ t a, exec (.collect h) s = .next t ∧ AnsweredWithin s t h f a ∧ KeepsSettings s t ∧ a.status = .ok ∧
      (∀ refs, refs = ((s.session h).changes.claims.map ChangeRef.claim ++ (s.session h).changes.routes.map ChangeRef.route).take 6 →
        a.results.length = 4 * refs.length ∧
        (∀ i c cl, refs[i]? = some (.claim c) → s.claim? c = some cl →
          ((a.results.getD (4 * i) 0#8).extractLsb' 5 3).toNat = cl.state.code ∧
          ((a.results.getD (4 * i) 0#8).extractLsb' 3 2).toNat = cl.priority.val ∧
          (a.results.getD (4 * i + 1) 0#8).toNat = c.val ∧ a.results.getD (4 * i + 2) 0#8 = (s.claimEntry c).generation ∧
          (a.results.getD (4 * i + 3) 0#8).toNat =
            match cl.state with
            | .waiting => 0
            | .granted r => r.val
            | .dropped why => why.code) ∧
        (∀ i r rt, refs[i]? = some (.route r) → s.route? r = some rt →
          ((a.results.getD (4 * i) 0#8).extractLsb' 5 3).toNat =
            (if rt.isDriver = true then 3 + rt.state.code else if rt.live = true then 6 else 7) ∧
          (a.results.getD (4 * i) 0#8).getLsbD 4 = rt.forcedSince ∧ (a.results.getD (4 * i) 0#8).getLsbD 3 = rt.leaseClamped ∧
          (a.results.getD (4 * i + 1) 0#8).toNat = r.val ∧ a.results.getD (4 * i + 2) 0#8 = (s.routeEntry r).generation ∧
          a.results.getD (4 * i + 3) 0#8 =
            match rt.state with
            | .connecting _ => 0#8
            | .active => if rt.isDriver then rt.forced else 0#8
            | .closed why => BitVec.ofNat 8 why.code) ∧
        (∀ n, n = (t.session h).changes.claims.length + (t.session h).changes.routes.length →
          (refs.length = 1 → ((a.results.getD 0 0#8).extractLsb' 0 3).toNat = n % 8) ∧
          (2 ≤ refs.length → ((a.results.getD 0 0#8).extractLsb' 0 3).toNat + 8 * ((a.results.getD 4 0#8).extractLsb' 0 3).toNat = n)) ∧
        RoutesAfterChecks (entryAfterReport s refs) t ∧ ClaimsAfterChecks (recordAfterReport s refs) t ∧
        (∀ r, .route r ∈ refs → r ∈ (t.session h).changes.routes → t.routeEntry r ≠ entryAfterReport s refs r) ∧
        (∀ c, .claim c ∈ refs → c ∈ (t.session h).changes.claims → t.claimEntry c ≠ recordAfterReport s refs c) ∧
        (∀ r ∈ (s.session h).changes.routes, .route r ∉ refs → r ∈ (t.session h).changes.routes) ∧
        (∀ c ∈ (s.session h).changes.claims, .claim c ∉ refs → c ∈ (t.session h).changes.claims)) ∧
      NoIdleEntry t ∧ (∀ k, (t.session k).attached = (s.session k).attached ∧ (t.session k).epoch = (s.session k).epoch) ∧
      ((s.session h).changes = ⟨[], []⟩ → a.results = [] ∧
        (NoIdleEntry s → (∀ c ∈ s.accepted, ∀ cl, s.claim? c = some cl → cl.awaiting = true → headsAll s c (linesOf cl.members) = true) →
          KeepsRecords s t))

/-! ### Queries -/

/-- READ_LEVELS, of a DETACHED host too: the sampled levels and the held status of the 40 lines as two line sets, and no record
changes. -/
def Obligations.ReadLevelsReportsEveryLine : Prop :=
  ∀ (h : HostId) (f : List Byte) (s : State), Offers s h .readLevels f → frameParams f = [] →
    ∃ t a, exec (.readLevels h) s = .next t ∧ OnlyAnswered s t h f a ∧ a.status = .ok ∧ a.results.length = 10 ∧
      ∀ l : LineNo, (a.results.getD (l.val / 8) 0#8).getLsbD (l.val % 8) = decide ((s.pin l).level = .high) ∧
        ((a.results.getD (5 + l.val / 8) 0#8).getLsbD (l.val % 8) = true ↔
          ∃ g : GroupNo, (s.policy l).groupSet.getLsbD g.val = true ∧ (s.group g).state ≠ .clear)

/-- QUERY_LINE, QUERY_ROUTE and QUERY_CLAIM answer OK, of a DETACHED host too, with every field of the record that 10.6 lays out, zeros
where there is none, and change no record. -/
def Obligations.LineRouteAndClaimQueries : Prop :=
  (∀ (h : HostId) (f : List Byte) (s : State) (l : LineNo), Offers s h .queryLine f → frameParams f = [BitVec.ofNat 8 l.val] →
    ∃ t a, exec (.queryLine h) s = .next t ∧ OnlyAnswered s t h f a ∧ a.status = .ok ∧
      a.results.getD 0 0#8 = BitVec.ofNat 8 l.val ∧
      ((a.results.getD 1 0#8).extractLsb' 6 2).toNat = (s.line l).state.code ∧
      (a.results.getD 1 0#8).getLsbD 5 = s.held l ∧
      ((a.results.getD 1 0#8).getLsbD 4 = true ↔
        (s.line l).state = .pending ∧ ∃ c cl, (s.line l).queue.head? = some c ∧ s.claim? c = some cl ∧ cl.awaiting = true) ∧
      (∀ k : HostId, (a.results.getD 1 0#8).getLsbD k.val = true ↔
        ∃ r rt, s.route? r = some rt ∧ rt.owner = k ∧ rt.isDriver = false ∧ rt.active = true ∧ l ∈ linesOf rt.members) ∧
      (∀ r rt p m, lineDriver s l = some (r, rt) → rt.kind = .driver p m →
        a.results.getD 2 0#8 = BitVec.ofNat 8 r.val ∧ a.results.getD 3 0#8 = (s.routeEntry r).generation ∧
        ((a.results.getD 4 0#8).extractLsb' 6 2).toNat = rt.owner.val ∧ ((a.results.getD 4 0#8).extractLsb' 4 2).toNat = p.val ∧
        (a.results.getD 4 0#8).getLsbD 3 = decide (m = .openDrain) ∧
        (∀ i, memberIndex rt.members l = some i → (a.results.getD 4 0#8).getLsbD 2 = rt.forced.getLsbD i) ∧
        (∀ d, rt.state = .connecting d → d < 65536 → word16 (a.results.getD 5 0#8) (a.results.getD 6 0#8) = d) ∧
        (rt.state = .active → word16 (a.results.getD 5 0#8) (a.results.getD 6 0#8) = 0)) ∧
      (lineDriver s l = none → ∀ i, 2 ≤ i → i ≤ 6 → a.results.getD i 0#8 = 0#8) ∧
      ((∀ c ∈ (s.line l).queue, (s.claim? c).isSome) → a.results.length = 7 + 3 * (s.line l).queue.length ∧
        ∀ i c cl, (s.line l).queue[i]? = some c → s.claim? c = some cl →
          a.results.getD (7 + 3 * i) 0#8 = BitVec.ofNat 8 c.val ∧ a.results.getD (8 + 3 * i) 0#8 = (s.claimEntry c).generation ∧
          ((a.results.getD (9 + 3 * i) 0#8).extractLsb' 6 2).toNat = cl.owner.val ∧
          ((a.results.getD (9 + 3 * i) 0#8).extractLsb' 4 2).toNat = cl.priority.val)) ∧
  (∀ (h : HostId) (f : List Byte) (s : State) (r : RouteSlot) (gen : Byte) (rt : Route), Offers s h .queryRoute f →
    frameParams f = [BitVec.ofNat 8 r.val, gen] → NamesRoute s r gen rt →
    ∃ t a, exec (.queryRoute h) s = .next t ∧ OnlyAnswered s t h f a ∧ a.status = .ok ∧
      a.results.length = 8 + 2 * rt.members.length ∧ a.results.getD 0 0#8 = BitVec.ofNat 8 r.val ∧ a.results.getD 1 0#8 = gen ∧
      ((a.results.getD 2 0#8).extractLsb' 6 2).toNat = rt.owner.val ∧ (a.results.getD 2 0#8).getLsbD 5 = !rt.isDriver ∧
      ((a.results.getD 2 0#8).extractLsb' 3 2).toNat = rt.state.code ∧
      (∀ p m, rt.kind = .driver p m →
        ((a.results.getD 3 0#8).extractLsb' 6 2).toNat = p.val ∧ (a.results.getD 3 0#8).getLsbD 5 = decide (m = .openDrain)) ∧
      (rt.kind = .listener → (a.results.getD 3 0#8).extractLsb' 5 3 = 0#3) ∧
      ((a.results.getD 3 0#8).extractLsb' 3 2).toNat =
        (match rt.state with
          | .closed why => why.code
          | _ => 0) ∧
      (a.results.getD 3 0#8).getLsbD 1 = rt.forcedSince ∧ (a.results.getD 3 0#8).getLsbD 0 = rt.leaseClamped ∧
      ((rt.live = false ∨ rt.lease = none) → word16 (a.results.getD 4 0#8) (a.results.getD 5 0#8) = 0) ∧
      (∀ d, rt.live = true → rt.lease = some d → d ≤ 65535 * 1000 →
        word16 (a.results.getD 4 0#8) (a.results.getD 5 0#8) = max 1 ((d + 999) / 1000)) ∧
      (∀ d, rt.state = .connecting d → d < 65536 → word16 (a.results.getD 6 0#8) (a.results.getD 7 0#8) = d) ∧
      (rt.active = true → rt.isDriver = true → a.results.getD 6 0#8 = 0#8 ∧ a.results.getD 7 0#8 = rt.forced) ∧
      ((rt.live = false ∨ rt.active = true ∧ rt.isDriver = false) → a.results.getD 6 0#8 = 0#8 ∧ a.results.getD 7 0#8 = 0#8) ∧
      ∀ i m, rt.members[i]? = some m → a.results.getD (8 + 2 * i) 0#8 = BitVec.ofNat 8 m.line.val ∧
        a.results.getD (9 + 2 * i) 0#8 = BitVec.ofNat 8 m.terminal.val) ∧
  ∀ (h : HostId) (f : List Byte) (s : State) (c : ClaimSlot) (gen : Byte) (cl : Claim), Offers s h .queryClaim f →
    frameParams f = [BitVec.ofNat 8 c.val, gen] → NamesClaim s c gen cl →
    ∃ t a, exec (.queryClaim h) s = .next t ∧ OnlyAnswered s t h f a ∧ a.status = .ok ∧
      a.results.length = 7 + 2 * cl.members.length ∧ a.results.getD 0 0#8 = BitVec.ofNat 8 c.val ∧ a.results.getD 1 0#8 = gen ∧
      ((a.results.getD 2 0#8).extractLsb' 6 2).toNat = cl.owner.val ∧ ((a.results.getD 2 0#8).extractLsb' 4 2).toNat = cl.state.code ∧
      ((a.results.getD 2 0#8).extractLsb' 2 2).toNat = cl.priority.val ∧ (a.results.getD 2 0#8).getLsbD 1 = decide (cl.mode = .openDrain) ∧
      (a.results.getD 2 0#8).getLsbD 0 = (cl.waiting && cl.awaiting) ∧
      (cl.leaseRequested < 65536 → word16 (a.results.getD 3 0#8) (a.results.getD 4 0#8) = cl.leaseRequested) ∧
      (cl.waiting = true → cl.waitLimit = none → word16 (a.results.getD 5 0#8) (a.results.getD 6 0#8) = 0) ∧
      (∀ d, cl.waiting = true → cl.waitLimit = some d → d ≤ 65535 * 1000 →
        word16 (a.results.getD 5 0#8) (a.results.getD 6 0#8) = max 1 ((d + 999) / 1000)) ∧
      (∀ why, cl.state = .dropped why → word16 (a.results.getD 5 0#8) (a.results.getD 6 0#8) = why.code) ∧
      (∀ r, cl.state = .granted r → word16 (a.results.getD 5 0#8) (a.results.getD 6 0#8) = r.val) ∧
      ∀ i m, cl.members[i]? = some m → a.results.getD (7 + 2 * i) 0#8 = BitVec.ofNat 8 m.line.val ∧
        ((a.results.getD (8 + 2 * i) 0#8).extractLsb' 0 4).toNat = m.terminal.val ∧
        (cl.waiting = true → (s.line m.line).queue.idxOf c < 4 →
          ((a.results.getD (8 + 2 * i) 0#8).extractLsb' 4 4).toNat = (s.line m.line).queue.idxOf c) ∧
        (cl.waiting = false → (a.results.getD (8 + 2 * i) 0#8).extractLsb' 4 4 = 0#4)

/-- QUERY_POLICY reports what SET_POLICY would write, and QUERY_GROUP what SET_GROUP would write together with the group's state, flag and
soft trip, its member lines and the lines it alone holds; neither changes a record. -/
def Obligations.PolicyAndGroupQueries : Prop :=
  (∀ (h : HostId) (f : List Byte) (s : State) (l : LineNo), Offers s h .queryPolicy f → frameParams f = [BitVec.ofNat 8 l.val] →
    (s.policy l).modes ≠ 0#2 → (s.policy l).maxLease < 65536 → (s.policy l).breakInterval ≤ 1000 →
    ∃ t bs, exec (.queryPolicy h) s = .next t ∧ OnlyAnswered s t h f ⟨.ok, BitVec.ofNat 8 l.val :: bs⟩ ∧
      policyOfBytes? bs = some (s.policy l)) ∧
  ∀ (h : HostId) (f : List Byte) (s : State) (g : GroupNo), Offers s h .queryGroup f → frameParams f = [BitVec.ofNat 8 g.val] →
    1 ≤ (s.group g).settleInterval → (s.group g).settleInterval ≤ 4095 →
    ∃ t a, exec (.queryGroup h) s = .next t ∧ OnlyAnswered s t h f a ∧ a.status = .ok ∧ a.results.length = 17 ∧
      setGroupParams? (a.results.take 4) = some (g, ⟨(s.group g).enabled, (s.group g).polarity, (s.group g).recovery,
        (s.group g).settleInterval, (s.group g).rearmMask⟩) ∧
      ((a.results.getD 4 0#8).extractLsb' 0 2).toNat = (s.group g).state.code ∧
      (a.results.getD 4 0#8).getLsbD 4 = (s.group g).inputAsserted ∧ (a.results.getD 4 0#8).getLsbD 5 = (s.group g).softTrip ∧
      ((∀ d, (s.group g).state ≠ .settling d) → word16 (a.results.getD 5 0#8) (a.results.getD 6 0#8) = 0) ∧
      (∀ d, (s.group g).state = .settling d → d ≤ 4095 * 1000 →
        word16 (a.results.getD 5 0#8) (a.results.getD 6 0#8) = max 1 ((d + 999) / 1000)) ∧
      ∀ l : LineNo, (a.results.getD (7 + l.val / 8) 0#8).getLsbD (l.val % 8) = (s.policy l).groupSet.getLsbD g.val ∧
        ((a.results.getD (12 + l.val / 8) 0#8).getLsbD (l.val % 8) = true ↔
          ∀ k : GroupNo, ((s.policy l).groupSet.getLsbD k.val = true ∧ (s.group k).state ≠ .clear) ↔ k = g)

/-! ### Policies -/

/-- SET_POLICY of the supervisor writes the given record to every line of its range and to no other, changes no group, and answers OK with
the counts of the routes closed, the claims dropped and the claims demoted. A route whose member is forced or released is told. A live
route with a member in the range that the new records no longer permit is CLOSED with reason POLICY and told to its owner; a route with no
member in the range is touched by the grant checks alone. -/
def Obligations.SetPolicyWritesAndCloses : Prop :=
  ∀ (h : HostId) (f : List Byte) (s : State) (first last : LineNo) (p : Policy), Offers s h .setPolicy f →
    Admitted s h .setPolicy f → setPolicyParams? (frameParams f) = some (first, last, p) →
    ∃ t a, exec (.setPolicy h) s = .next t ∧ AnsweredWithin s t h f a ∧ a.status = .ok ∧
      a.results = [
        BitVec.ofNat 8 ((every 96).filter fun r => (s.route? r).any fun rt =>
          rt.live && rt.members.any (fun m => first ≤ m.line && m.line ≤ last) && !routePermitted t rt).length,
        BitVec.ofNat 8 ((every 32).filter fun c => (s.claim? c).any fun cl =>
          cl.waiting && cl.members.any (fun m => first ≤ m.line && m.line ≤ last) && !claimPermitted t cl).length,
        BitVec.ofNat 8 ((every 32).filter fun c => (s.claim? c).any fun cl =>
          cl.waiting && cl.members.any (fun m => first ≤ m.line && m.line ≤ last) && claimPermitted t cl &&
            cl.priority == 3 && !mayPreempt t cl.owner (linesOf cl.members)).length] ∧
      ForcingTold s t ∧ t.groups = s.groups ∧ t.qualifiers = s.qualifiers ∧
      (∀ l, t.policy l = if first ≤ l ∧ l ≤ last then p else s.policy l) ∧
      (∀ r rt, s.route? r = some rt → rt.live = true → (∃ m ∈ rt.members, first ≤ m.line ∧ m.line ≤ last) →
        routePermitted t rt = false →
        t.routeEntry r = closedEntry (s.routeEntry r) rt .policy ∧ r ∈ (t.session rt.owner).changes.routes) ∧
      (∀ r, (∀ rt, s.route? r = some rt → rt.live = true → ∀ m ∈ rt.members, ¬ (first ≤ m.line ∧ m.line ≤ last)) →
        EntryAfterChecks (s.routeEntry r) (t.routeEntry r)) ∧
      ∀ k, (t.session k).attached = (s.session k).attached ∧ (t.session k).epoch = (s.session k).epoch

/-- SET_POLICY drops with reason POLICY a WAITING claim that names a line of the range and is no longer permitted, demotes to priority 2
one that may no longer preempt, leaves every other claim to the grant checks, and gives or shortens the lease of each route it leaves
live on the range, marking and telling that. That the leases are set before the grant checks is the model's reading, log entry 10. -/
def Obligations.SetPolicyDropsDemotesAndClamps : Prop :=
  ∀ (h : HostId) (f : List Byte) (s : State) (first last : LineNo) (p : Policy), Offers s h .setPolicy f →
    Admitted s h .setPolicy f → setPolicyParams? (frameParams f) = some (first, last, p) →
    ∃ t, exec (.setPolicy h) s = .next t ∧
      (∀ c cl, s.claim? c = some cl → cl.waiting = true → (∃ m ∈ cl.members, first ≤ m.line ∧ m.line ≤ last) →
        (claimPermitted t cl = false →
          t.claimEntry c = { s.claimEntry c with claim := some { cl with state := .dropped .policy, waitLimit := none, awaiting := false } } ∧
          c ∉ t.accepted ∧ c ∈ (t.session cl.owner).changes.claims) ∧
        (claimPermitted t cl = true → cl.priority = 3 → mayPreempt t cl.owner (linesOf cl.members) = false →
          RecordAfterChecks { s.claimEntry c with claim := some { cl with priority := 2 } } (t.claimEntry c) ∧
          c ∈ (t.session cl.owner).changes.claims) ∧
        (claimPermitted t cl = true → (cl.priority ≠ 3 ∨ mayPreempt t cl.owner (linesOf cl.members) = true) →
          RecordAfterChecks (s.claimEntry c) (t.claimEntry c))) ∧
      (∀ c, (∀ cl, s.claim? c = some cl → cl.waiting = true → ∀ m ∈ cl.members, ¬ (first ≤ m.line ∧ m.line ≤ last)) →
        RecordAfterChecks (s.claimEntry c) (t.claimEntry c)) ∧
      ∀ r rt, s.route? r = some rt → rt.live = true → (∃ m ∈ rt.members, first ≤ m.line ∧ m.line ≤ last) →
        routePermitted t rt = true →
        ∃ rt', t.route? r = some rt' ∧ rt'.owner = rt.owner ∧ rt'.kind = rt.kind ∧ rt'.members = rt.members ∧
          (rt'.state = rt.state ∨ rt'.state = .closed .preempted) ∧
          (rt'.live = true →
            rt'.lease = (if effectiveMax t (linesOf rt.members) = 0 then rt.lease else
              match rt.lease with
              | none => some (effectiveMax t (linesOf rt.members) * 1000)
              | some d => some (min d (effectiveMax t (linesOf rt.members) * 1000)))) ∧
          (rt'.live = true → rt'.lease ≠ rt.lease → rt'.leaseClamped = true ∧ r ∈ (t.session rt.owner).changes.routes) ∧
          (rt'.live = true → rt'.lease = rt.lease → rt'.leaseClamped = rt.leaseClamped)

/-- The table of lease resolution, and the effective max it uses. -/
def Obligations.LeaseResolution : Prop :=
  (∀ (s : State) (ls : List LineNo),
    ((∀ l ∈ ls, (s.policy l).maxLease = 0) → effectiveMax s ls = 0) ∧
    ((∃ l ∈ ls, (s.policy l).maxLease ≠ 0) →
      effectiveMax s ls ≠ 0 ∧ (∃ l ∈ ls, (s.policy l).maxLease = effectiveMax s ls) ∧
      ∀ l ∈ ls, (s.policy l).maxLease ≠ 0 → effectiveMax s ls ≤ (s.policy l).maxLease)) ∧
  (resolveLease 0 0 = 0) ∧ (∀ m, m ≠ 0 → resolveLease 0 m = m) ∧ (∀ n, n ≠ 0 → resolveLease n 0 = n) ∧
  (∀ n m, n ≠ 0 → m ≠ 0 → n ≤ m → resolveLease n m = n) ∧ (∀ n m, m ≠ 0 → m < n → resolveLease n m = m) ∧
  ∀ (s : State) (n : Nat) (ls : List LineNo),
    leaseFor s n ls = if resolveLease n (effectiveMax s ls) = 0 then none else some (resolveLease n (effectiveMax s ls) * 1000)

/-! ### Routes -/

/-- LISTEN that passes its checks: the lowest free entry takes an ACTIVE LISTENER route under its next generation, its terminals are
bound, the host's routes in use grow by 1, the reply gives reference and resolved lease, and nothing else changes. -/
def Obligations.ListenCreatesARoute : Prop :=
  ∀ (h : HostId) (f : List Byte) (s : State) (lease : Nat) (ms : List Member) (r : RouteSlot), Offers s h .listen f →
    Admitted s h .listen f → listenParams? (frameParams f) = some (lease, ms) → firstFailing (listenChecks s h ms) = none →
    s.route? r = none → (∀ q, q < r → (s.route? q).isSome) →
    ∃ t, exec (.listen h) s = .next t ∧
      AnsweredWithin s t h f ⟨.ok, [BitVec.ofNat 8 r.val, (s.routeEntry r).generation + 1#8] ++
        bytes16 (resolveLease lease (effectiveMax s (linesOf ms)))⟩ ∧
      KeepsSettings s t ∧ t.claims = s.claims ∧ t.accepted = s.accepted ∧ t.lines = s.lines ∧
      t.routeEntry r = ⟨(s.routeEntry r).generation + 1#8, some {
        owner := h, kind := .listener, state := .active, members := ms, forced := 0#8, forcedSince := false, leaseClamped := false,
        lease := leaseFor s lease (linesOf ms) }⟩ ∧
      (∀ q, q ≠ r → t.routeEntry q = s.routeEntry q) ∧
      BoundTo t h (.route r) ms ∧
      (∀ n, (∀ m ∈ ms, m.terminal ≠ n) → look (t.session h).bindings n = look (s.session h).bindings n) ∧
      t.session h = { s.session h with routesInUse := (s.session h).routesInUse + 1, bindings := (t.session h).bindings } ∧
      ∀ k, k ≠ h → t.session k = s.session k

/-- RELEASE by the owner frees the entry with its generation kept; the other records are touched by the grant checks alone, and the free
entry is offered; the reply gives the state the route had, or ALREADY_CLOSED with the reason. Where the entry of a CLOSED route is the only
one to come free, it goes to the claim awaiting one that has the highest priority, and of those the one accepted first. -/
def Obligations.ReleaseFreesTheRoute : Prop :=
  ∀ (h : HostId) (f : List Byte) (s : State) (r : RouteSlot) (gen : Byte) (rt : Route), Offers s h .release f →
    Admitted s h .release f → frameParams f = [BitVec.ofNat 8 r.val, gen] → NamesRoute s r gen rt → rt.owner = h →
    ∃ t a, exec (.release h) s = .next t ∧ AnsweredWithin s t h f a ∧ KeepsSettings s t ∧
      (∀ d, rt.state = .connecting d → a = ⟨.ok, [0#8]⟩) ∧ (rt.state = .active → a = ⟨.ok, [1#8]⟩) ∧
      (∀ why, rt.state = .closed why → a = ⟨.alreadyClosed, [BitVec.ofNat 8 why.code]⟩) ∧
      RoutesAfterChecks (fun q => if q = r then freedEntry (s.routeEntry r) else s.routeEntry q) t ∧
      ClaimsAfterChecks s.claimEntry t ∧ NoIdleEntry t ∧
      (∀ k, (t.session k).attached = (s.session k).attached ∧ (t.session k).epoch = (s.session k).epoch) ∧
      (rt.live = false → (∀ q, q ≠ r → (s.route? q).isSome) →
        (∀ c ∈ s.accepted, ∀ cl, s.claim? c = some cl → cl.waiting = true → cl.awaiting = true →
          headsAll s c (linesOf cl.members) = true) →
        ∀ c cl, c ∈ s.accepted → s.claim? c = some cl → cl.waiting = true → cl.awaiting = true →
          (∀ d ∈ s.accepted, ∀ dl, d ≠ c → s.claim? d = some dl → dl.waiting = true → dl.awaiting = true →
            Outranks s.accepted c cl.priority d dl.priority) →
          t.claim? c = some { cl with state := .granted r, waitLimit := none, awaiting := false })

/-- RENEW by the owner: the resolved lease replaces the lease of a CONNECTING or ACTIVE route and is answered, and nothing else changes;
a CLOSED route is answered ALREADY_CLOSED with its reason and nothing changes. -/
def Obligations.RenewReplacesTheLease : Prop :=
  ∀ (h : HostId) (f : List Byte) (s : State) (r : RouteSlot) (gen : Byte) (rt : Route) (lease : Nat), Offers s h .renew f →
    Admitted s h .renew f → renewParams? (frameParams f) = some (r, gen, lease) → NamesRoute s r gen rt → rt.owner = h →
    (rt.live = true → ∃ t, exec (.renew h) s = .next t ∧
      AnsweredWithin s t h f ⟨.ok, bytes16 (resolveLease lease (effectiveMax s (linesOf rt.members)))⟩ ∧
      KeepsSettings s t ∧ t.sessions = s.sessions ∧ t.claims = s.claims ∧ t.accepted = s.accepted ∧ t.lines = s.lines ∧
      t.pins = s.pins ∧
      t.routeEntry r = { s.routeEntry r with route := some { rt with lease := leaseFor s lease (linesOf rt.members) } } ∧
      ∀ q, q ≠ r → t.routeEntry q = s.routeEntry q) ∧
    ∀ why, rt.state = .closed why →
      ∃ t, exec (.renew h) s = .next t ∧ OnlyAnswered s t h f ⟨.alreadyClosed, [BitVec.ofNat 8 why.code]⟩

/-- REVOKE by the supervisor closes a CONNECTING or ACTIVE route of any host with reason REVOKED, tells its owner, touches
other records by the grant checks alone, and frees no entry; a CLOSED route is answered ALREADY_CLOSED and nothing changes. -/
def Obligations.RevokeClosesTheRoute : Prop :=
  ∀ (h : HostId) (f : List Byte) (s : State) (r : RouteSlot) (gen : Byte) (rt : Route), Offers s h .revoke f →
    Admitted s h .revoke f → frameParams f = [BitVec.ofNat 8 r.val, gen] → NamesRoute s r gen rt →
    (rt.live = true → ∃ t, exec (.revoke h) s = .next t ∧ AnsweredWithin s t h f ⟨.ok, []⟩ ∧ KeepsSettings s t ∧
      t.routeEntry r = closedEntry (s.routeEntry r) rt .revoked ∧ r ∈ (t.session rt.owner).changes.routes ∧
      (∀ q, q ≠ r → EntryAfterChecks (s.routeEntry q) (t.routeEntry q)) ∧ ClaimsAfterChecks s.claimEntry t ∧
      ∀ k, (t.session k).attached = (s.session k).attached ∧ (t.session k).epoch = (s.session k).epoch) ∧
    ∀ why, rt.state = .closed why →
      ∃ t, exec (.revoke h) s = .next t ∧ OnlyAnswered s t h f ⟨.alreadyClosed, [BitVec.ofNat 8 why.code]⟩

/-! ### Claims -/

/-- CLAIM that passes its checks takes the lowest free record under its next generation. Its reply is GRANTED, with the record free
again and a DRIVER route of the claim's owner, members, priority and mode in use; or QUEUED, with the claim WAITING as asked, last in the
acceptance order. Neither enters the owner's change set, but a route that became ACTIVE with a forced member. Other claims and routes are
touched by the grant checks alone. -/
def Obligations.ClaimIsGrantedOrQueued : Prop :=
  ∀ (h : HostId) (f : List Byte) (s : State) (p : ClaimParams) (c : ClaimSlot), Offers s h .claim f →
    Admitted s h .claim f → claimParams? (frameParams f) = some p → firstFailing (claimChecks s h p) = none →
    s.claim? c = none → (∀ d, d < c → (s.claim? d).isSome) →
    ∃ t a, exec (.claim h) s = .next t ∧ AnsweredWithin s t h f a ∧ KeepsSettings s t ∧
      (t.claimEntry c).generation = (s.claimEntry c).generation + 1#8 ∧
      (∀ d, d ≠ c → RecordAfterChecks (s.claimEntry d) (t.claimEntry d)) ∧
      RoutesAfterChecks s.routeEntry t ∧
      (∀ k, (t.session k).attached = (s.session k).attached ∧ (t.session k).epoch = (s.session k).epoch) ∧
      ((a.status = .granted ∧ t.claim? c = none ∧ ∃ r rt, t.route? r = some rt ∧ s.route? r = none ∧
          rt.owner = h ∧ rt.kind = .driver p.priority p.mode ∧ rt.members = p.members ∧
          (rt.live = true → rt.lease = leaseFor s p.lease (linesOf p.members)) ∧
          a.results = [BitVec.ofNat 8 r.val, (s.routeEntry r).generation + 1#8, BitVec.ofNat 8 rt.state.code] ++
            bytes16 (match rt.lease with
              | none => 0
              | some d => max 1 ((d + 999) / 1000)) ∧
          c ∉ (t.session h).changes.claims ∧
          (r ∉ (s.session h).changes.routes → rt.live = true → (r ∈ (t.session h).changes.routes ↔ rt.forced ≠ 0#8))) ∨
        (a.status = .queued ∧ ∃ b, t.claim? c = some {
            owner := h, state := .waiting, priority := p.priority, mode := p.mode, members := p.members, leaseRequested := p.lease,
            waitLimit := if p.waitLimit = 0 then none else some (p.waitLimit * 1000), awaiting := b } ∧
          t.accepted.getLast? = some c ∧
          a.results = [BitVec.ofNat 8 c.val, (s.claimEntry c).generation + 1#8, if b then 1#8 else 0#8] ++
            (p.members.map fun m => BitVec.ofNat 8 ((t.line m.line).queue.idxOf c + 1)) ∧
          (c ∈ (t.session h).changes.claims ↔ c ∈ (s.session h).changes.claims)))

/-- A CLAIM on lines without driver and without queue, while a record and an entry are free and no claim awaits one, is granted at once,
in the lowest free entry: CONNECTING for the longest break interval of its lines, or ACTIVE where that is 0. -/
def Obligations.ClaimOnFreeLinesIsGranted : Prop :=
  ∀ (h : HostId) (f : List Byte) (s : State) (p : ClaimParams) (r : RouteSlot), Offers s h .claim f →
    Admitted s h .claim f → claimParams? (frameParams f) = some p → firstFailing (claimChecks s h p) = none →
    (∀ m ∈ p.members, (s.line m.line).driver = none ∧ (s.line m.line).queue = []) →
    (∃ c, s.claim? c = none) → s.route? r = none → (∀ q, q < r → (s.route? q).isSome) → bestAwaiting s = none →
    ∃ t a, exec (.claim h) s = .next t ∧ AnsweredWithin s t h f a ∧ a.status = .granted ∧
      a.results.take 2 = [BitVec.ofNat 8 r.val, (s.routeEntry r).generation + 1#8] ∧
      (∃ rt, t.route? r = some rt ∧ rt.owner = h ∧ rt.kind = .driver p.priority p.mode ∧ rt.members = p.members ∧
        ((∀ m ∈ p.members, (s.policy m.line).breakInterval = 0) → rt.state = .active) ∧
        ∀ n, n ≠ 0 → (∃ m ∈ p.members, (s.policy m.line).breakInterval = n) →
          (∀ m ∈ p.members, (s.policy m.line).breakInterval ≤ n) → rt.state = .connecting n) ∧
      (∀ m ∈ p.members, (t.line m.line).driver = some r ∧ (t.line m.line).queue = [] ∧
        ((t.line m.line).state = .connecting ∨ (t.line m.line).state = .driven)) ∧
      BoundTo t h (.route r) p.members

/-- A CLAIM of priority 3 on lines where no other claim of priority 3 waits, so that it heads every queue, passing the claims of lower
priority there, against live DRIVER routes all of priority 0 to 2, preempts every one of them: each is CLOSED with reason PREEMPTED,
keeps its entry, and is told to its owner. -/
def Obligations.PriorityThreePreempts : Prop :=
  ∀ (h : HostId) (f : List Byte) (s : State) (p : ClaimParams), Offers s h .claim f →
    Admitted s h .claim f → claimParams? (frameParams f) = some p → firstFailing (claimChecks s h p) = none →
    (∃ c, s.claim? c = none) → p.priority = 3 →
    (∀ m ∈ p.members, ∀ c ∈ (s.line m.line).queue, ∀ cl, s.claim? c = some cl → cl.priority ≠ 3) →
    (∀ m ∈ p.members, ∀ r rt, lineDriver s m.line = some (r, rt) → ∃ q mode, rt.kind = .driver q mode ∧ q ≠ 3) →
    ∃ t, exec (.claim h) s = .next t ∧
      ∀ m ∈ p.members, ∀ r rt, lineDriver s m.line = some (r, rt) →
        t.routeEntry r = closedEntry (s.routeEntry r) rt .preempted ∧ r ∈ (t.session rt.owner).changes.routes

/-- AMEND of a WAITING claim by its owner: the wait limit is replaced and restarts; a new priority is taken and moves the claim to the
end of the acceptance order, an equal one leaves it in place. The reply is GRANTED with reference, state and resolved lease of the route,
the record being freed and leaving the change set, which the route enters only if it became ACTIVE with a forced member; or QUEUED with the
claim's reference, whether it awaits an entry, and its position in each member line's queue, its place in the change set as before. -/
def Obligations.AmendChangesPriorityAndWait : Prop :=
  ∀ (h : HostId) (f : List Byte) (s : State) (c : ClaimSlot) (gen : Byte) (p : Priority) (wait : Nat) (cl : Claim),
    Offers s h .amend f → Admitted s h .amend f → amendParams? (frameParams f) = some (c, gen, p, wait) →
    NamesClaim s c gen cl → cl.owner = h → cl.waiting = true →
    ((p = 3 ∧ mayPreempt s h (linesOf cl.members) = false) →
      ∃ t, exec (.amend h) s = .next t ∧ OnlyAnswered s t h f ⟨.notAuthorized, []⟩) ∧
    ((p ≠ 3 ∨ mayPreempt s h (linesOf cl.members) = true) →
      ∃ t a, exec (.amend h) s = .next t ∧ AnsweredWithin s t h f a ∧ KeepsSettings s t ∧
        (t.claimEntry c).generation = gen ∧
        (∀ d, d ≠ c → RecordAfterChecks (s.claimEntry d) (t.claimEntry d)) ∧ RoutesAfterChecks s.routeEntry t ∧
        ((a.status = .granted ∧ t.claim? c = none ∧ ∃ r rt, t.route? r = some rt ∧ s.route? r = none ∧ rt.owner = h ∧
            rt.kind = .driver p cl.mode ∧ rt.members = cl.members ∧
            (rt.live = true → rt.lease = leaseFor s cl.leaseRequested (linesOf cl.members)) ∧
            a.results = [BitVec.ofNat 8 r.val, (s.routeEntry r).generation + 1#8, BitVec.ofNat 8 rt.state.code] ++
              bytes16 (match rt.lease with
                | none => 0
                | some d => max 1 ((d + 999) / 1000)) ∧
            c ∉ (t.session h).changes.claims ∧
            (r ∉ (s.session h).changes.routes → rt.live = true → (r ∈ (t.session h).changes.routes ↔ rt.forced ≠ 0#8))) ∨
          (a.status = .queued ∧ ∃ b, t.claim? c = some { cl with
              priority := p, waitLimit := (if wait = 0 then none else some (wait * 1000)), awaiting := b } ∧
            (p = cl.priority → t.accepted.Sublist s.accepted) ∧
            (p ≠ cl.priority → t.accepted.getLast? = some c) ∧
            a.results = [BitVec.ofNat 8 c.val, gen, if b then 1#8 else 0#8] ++
              (cl.members.map fun m => BitVec.ofNat 8 ((t.line m.line).queue.idxOf c + 1)) ∧
            (c ∈ (t.session h).changes.claims ↔ c ∈ (s.session h).changes.claims))))

/-- CANCEL of a WAITING claim by its owner frees the record with its generation kept; the claim leaves the acceptance order and the
queues of its lines, its terminals are unbound, and the owner's waiting claims and claim records fall by 1; what else changes, the grant
checks do. -/
def Obligations.CancelFreesTheClaim : Prop :=
  ∀ (h : HostId) (f : List Byte) (s : State) (c : ClaimSlot) (gen : Byte) (cl : Claim), Offers s h .cancel f →
    Admitted s h .cancel f → frameParams f = [BitVec.ofNat 8 c.val, gen] → NamesClaim s c gen cl → cl.owner = h →
    cl.waiting = true →
    ∃ t, exec (.cancel h) s = .next t ∧ AnsweredWithin s t h f ⟨.ok, []⟩ ∧ KeepsSettings s t ∧
      t.claimEntry c = freedRecord (s.claimEntry c) ∧ c ∉ t.accepted ∧ (∀ m ∈ cl.members, c ∉ (t.line m.line).queue) ∧
      c ∉ (t.session h).changes.claims ∧
      (BindingsExact s → ∀ m ∈ cl.members, look (t.session h).bindings m.terminal = none) ∧
      (CountsExact s h → (t.session h).claimRecords + 1 = (s.session h).claimRecords ∧
        (t.session h).routesInUse + (t.session h).waitingClaims + 1 = (s.session h).routesInUse + (s.session h).waitingClaims ∧
        ((∀ d x, d ≠ c → s.claim? d = some x → x.owner = h → x.waiting = false) →
          (t.session h).waitingClaims + 1 = (s.session h).waitingClaims)) ∧
      (∀ d, d ≠ c → RecordAfterChecks (s.claimEntry d) (t.claimEntry d)) ∧ RoutesAfterChecks s.routeEntry t ∧
      ∀ k, (t.session k).attached = (s.session k).attached ∧ (t.session k).epoch = (s.session k).epoch

/-! ### Fault groups -/

/-- SET_GROUP of the supervisor on a CLEAR group writes the five values; the input asserted flag follows the new polarity; an enabled
group whose input is then asserted becomes TRIPPED, any other stays CLEAR; members so forced are told to their owners. A group that is not
CLEAR refuses GROUP_NOT_CLEAR. -/
def Obligations.SetGroupConfigures : Prop :=
  ∀ (h : HostId) (f : List Byte) (s : State) (g : GroupNo) (cfg : GroupConfig), Offers s h .setGroup f →
    Admitted s h .setGroup f → setGroupParams? (frameParams f) = some (g, cfg) →
    ((s.group g).state ≠ .clear → ∃ t, exec (.setGroup h) s = .next t ∧ OnlyAnswered s t h f ⟨.groupNotClear, []⟩) ∧
    ((s.group g).state = .clear → ∃ t b, exec (.setGroup h) s = .next t ∧ AnsweredWithin s t h f ⟨.ok, [b]⟩ ∧
      t.policies = s.policies ∧ t.qualifiers = s.qualifiers ∧ t.claims = s.claims ∧ t.accepted = s.accepted ∧ t.lines = s.lines ∧
      (∀ k, k ≠ g → t.group k = s.group k) ∧
      (t.group g).enabled = cfg.enabled ∧ (t.group g).polarity = cfg.polarity ∧ (t.group g).recovery = cfg.recovery ∧
      (t.group g).settleInterval = cfg.settleInterval ∧ (t.group g).rearmMask = cfg.rearmMask ∧
      (t.group g).softTrip = (s.group g).softTrip ∧
      ((t.group g).inputAsserted = true ↔
        (cfg.polarity = .activeLow ∧ (s.qualifier g).qualified = .low) ∨
          (cfg.polarity = .activeHigh ∧ (s.qualifier g).qualified = .high)) ∧
      (t.group g).state = (if cfg.enabled = true ∧ (t.group g).inputAsserted = true then .tripped else .clear) ∧
      (b.extractLsb' 0 2).toNat = (t.group g).state.code ∧ b.getLsbD 4 = (t.group g).inputAsserted ∧ HeldPassedOn s t)

/-- TRIP of the supervisor makes an enabled group TRIPPED with its soft trip set, whatever its state was; a group that is not enabled is
refused WRONG_STATE. REARM, of the supervisor or of a host of the rearm mask, clears any group but one TRIPPED with its input asserted,
which is refused FAULT_PRESENT; another host is refused NOT_AUTHORIZED. Each member so forced or released is told to its owner. -/
def Obligations.TripAndRearm : Prop :=
  (∀ (h : HostId) (f : List Byte) (s : State) (g : GroupNo), Offers s h .trip f → Admitted s h .trip f →
    frameParams f = [BitVec.ofNat 8 g.val] →
    ((s.group g).enabled = false → ∃ t, exec (.trip h) s = .next t ∧ OnlyAnswered s t h f ⟨.wrongState, []⟩) ∧
    ((s.group g).enabled = true → ∃ t b, exec (.trip h) s = .next t ∧ AnsweredWithin s t h f ⟨.ok, [b]⟩ ∧
      t.policies = s.policies ∧ t.qualifiers = s.qualifiers ∧ t.claims = s.claims ∧ t.accepted = s.accepted ∧ t.lines = s.lines ∧
      (∀ k, k ≠ g → t.group k = s.group k) ∧ t.group g = { s.group g with state := .tripped, softTrip := true } ∧
      (b.extractLsb' 0 2).toNat = 1 ∧ b.getLsbD 4 = (s.group g).inputAsserted ∧ fltstat t = true ∧ HeldPassedOn s t)) ∧
  ∀ (h : HostId) (f : List Byte) (s : State) (g : GroupNo), Offers s h .rearm f → Admitted s h .rearm f →
    frameParams f = [BitVec.ofNat 8 g.val] →
    (h ≠ s.supervisor → (s.group g).rearmMask.getLsbD h.val = false →
      ∃ t, exec (.rearm h) s = .next t ∧ OnlyAnswered s t h f ⟨.notAuthorized, []⟩) ∧
    ((h = s.supervisor ∨ (s.group g).rearmMask.getLsbD h.val = true) →
      ((s.group g).state = .tripped ∧ (s.group g).inputAsserted = true →
        ∃ t, exec (.rearm h) s = .next t ∧ OnlyAnswered s t h f ⟨.faultPresent, []⟩) ∧
      (¬ ((s.group g).state = .tripped ∧ (s.group g).inputAsserted = true) →
        ∃ t b, exec (.rearm h) s = .next t ∧ AnsweredWithin s t h f ⟨.ok, [b]⟩ ∧
          t.policies = s.policies ∧ t.qualifiers = s.qualifiers ∧ t.claims = s.claims ∧ t.accepted = s.accepted ∧ t.lines = s.lines ∧
          (∀ k, k ≠ g → t.group k = s.group k) ∧
          t.group g = { s.group g with
            state := .clear
            softTrip := if (s.group g).state = .tripped then false else (s.group g).softTrip } ∧
          (b.extractLsb' 0 2).toNat = 0 ∧ b.getLsbD 4 = (s.group g).inputAsserted ∧ HeldPassedOn s t))

/-- The soft trip. A TRIP that passes its checks sets it and leaves the group TRIPPED; nothing else sets it. Device reset and a REARM that
takes the group from TRIPPED to CLEAR clear it; nothing else does. It is set in TRIPPED alone. While it is set only those two take the
group out of TRIPPED, so no input and no recovery setting does. -/
def Obligations.SoftTripRule : Prop :=
  (∀ (h : HostId) (f : List Byte) (s t : State) (g : GroupNo), Offers s h .trip f → Admitted s h .trip f →
    frameParams f = [BitVec.ofNat 8 g.val] → (s.group g).enabled = true → exec (.trip h) s = .next t →
    (t.group g).softTrip = true ∧ (t.group g).state = .tripped) ∧
  (∀ (c : Instr) (s t : State) (g : GroupNo), exec c s = .next t → (s.group g).softTrip = false → (t.group g).softTrip = true →
    ∃ h, c = .trip h) ∧
  (∀ (s t : State) (g : GroupNo), exec .deviceReset s = .next t → (t.group g).softTrip = false) ∧
  (∀ (h : HostId) (s t : State) (g : GroupNo), exec (.rearm h) s = .next t → (s.group g).state = .tripped →
    (t.group g).state = .clear → (t.group g).softTrip = false) ∧
  (∀ (c : Instr) (s t : State) (g : GroupNo), exec c s = .next t → (s.group g).softTrip = true → (t.group g).softTrip = false →
    c = .deviceReset ∨ ∃ h, c = .rearm h ∧ (s.group g).state = .tripped ∧ (t.group g).state = .clear) ∧
  (∀ (c : Instr) (s t : State), exec c s = .next t → GroupsAgree s →
    ∀ g, (t.group g).softTrip = true → (t.group g).state = .tripped) ∧
  ∀ (c : Instr) (s t : State) (g : GroupNo), exec c s = .next t → (s.group g).softTrip = true → (s.group g).state = .tripped →
    (t.group g).state ≠ .tripped → c = .deviceReset ∨ ∃ h, c = .rearm h ∧ (t.group g).state = .clear

/-- FAULT_PIN_CHANGE: a change of the pin's level restarts the 2 µs count where the new level is not the qualified one, and ends it
where it is, so that a pulse whose count has not run out changes nothing. A pin that leaves a level after a whole count leaves the event of
that level due, and later counts run against it (log entry 6). A level the pin has changes nothing; in reset no count runs (the model's
choice, log entry 5). Nothing else changes. -/
def Obligations.FaultPinRestartsTheCount : Prop :=
  (∀ (g : GroupNo) (level : Level) (s : State), ∃ t, exec (.faultPinChange g level) s = .next t ∧
    t = { s with qualifiers := t.qualifiers } ∧ (∀ k, k ≠ g → t.qualifier k = s.qualifier k) ∧
    (t.qualifier g).pin = level ∧ (t.qualifier g).qualified = (s.qualifier g).qualified ∧
    (level = (s.qualifier g).pin → t = s) ∧
    (level ≠ (s.qualifier g).pin → s.inReset = true → (t.qualifier g).due = [] ∧ (t.qualifier g).count = none) ∧
    (level ≠ (s.qualifier g).pin → s.inReset = false → (s.qualifier g).count = some 0 →
      (t.qualifier g).due = (s.qualifier g).due ++ [(s.qualifier g).pin] ∧ (t.qualifier g).count = some 2) ∧
    (level ≠ (s.qualifier g).pin → s.inReset = false → (s.qualifier g).count ≠ some 0 →
      (t.qualifier g).due = (s.qualifier g).due ∧
      ((s.qualifier g).due = [] → (t.qualifier g).count = if level = (s.qualifier g).qualified then none else some 2) ∧
      ∀ ls l, (s.qualifier g).due = ls ++ [l] → (t.qualifier g).count = if level = l then none else some 2)) ∧
  ∀ (g : GroupNo) (level : Level) (s t : State), (s.qualifier g).pin = (s.qualifier g).qualified → (s.qualifier g).due = [] →
    (s.qualifier g).count = none → exec (.faultPinChange g level) s = .next t →
    exec (.faultPinChange g (s.qualifier g).pin) t = .next s

/-- QUALIFIED_LEVEL_CHANGE, the pin having held for the whole count, or a level it has held and left being due: the qualified level becomes
that level, the oldest due first, the input asserted flag follows, and the state of an enabled group goes by the table of 7.3: asserted,
TRIPPED; deasserted, a TRIPPED group without soft trip SETTLES for its interval or is LATCHED by its recovery. A flag that stays, and a
group not enabled, change no state. Each member so forced or released is told to its owner. That a level held and left stays due, and
that the oldest due is taken first, is the model's choice, log entry 6. -/
def Obligations.QualifiedLevelDecidesTheGroup : Prop :=
  ∀ (g : GroupNo) (level : Level) (q : Qualifier) (s : State), s.inReset = false →
    (((s.qualifier g).due = [] ∧ (s.qualifier g).count = some 0 ∧ level = (s.qualifier g).pin ∧
        q = { pin := level, qualified := level, due := [], count := none }) ∨
      ∃ ls, (s.qualifier g).due = level :: ls ∧ q = { s.qualifier g with qualified := level, due := ls }) →
    ∃ t, exec (.qualifiedLevelChange g) s = .next t ∧ KeepsOutside s t ∧ PinsFollow s t ∧ t.policies = s.policies ∧
      t.claims = s.claims ∧ t.accepted = s.accepted ∧ t.lines = s.lines ∧ t.ports = s.ports ∧
      (∀ k, k ≠ g → t.group k = s.group k ∧ t.qualifier k = s.qualifier k) ∧ t.qualifier g = q ∧
      t.group g = { s.group g with inputAsserted := (t.group g).inputAsserted, state := (t.group g).state } ∧
      ((t.group g).inputAsserted = true ↔
        ((s.group g).polarity = .activeLow ∧ level = .low) ∨ ((s.group g).polarity = .activeHigh ∧ level = .high)) ∧
      ((s.group g).enabled = false ∨ (t.group g).inputAsserted = (s.group g).inputAsserted → (t.group g).state = (s.group g).state) ∧
      ((s.group g).enabled = true → (s.group g).inputAsserted = false → (t.group g).inputAsserted = true →
        (t.group g).state = .tripped) ∧
      ((s.group g).enabled = true → (s.group g).inputAsserted = true → (t.group g).inputAsserted = false →
        (s.group g).state = .tripped →
        (t.group g).state = (if (s.group g).softTrip then .tripped else
          match (s.group g).recovery with
          | .auto => .settling ((s.group g).settleInterval * 1000)
          | .manual => .latched)) ∧
      HeldPassedOn s t

/-- SETTLE_EXPIRY, the interval having passed: the group becomes CLEAR; each of its lines held by no other group stops being held, and the
member so released is told to its owner; other groups, policies, claims and line records stay. -/
def Obligations.SettleExpiryClearsTheGroup : Prop :=
  ∀ (g : GroupNo) (s : State), s.inReset = false → (s.group g).state = .settling 0 →
    ∃ t, exec (.settleExpiry g) s = .next t ∧ KeepsOutside s t ∧ PinsFollow s t ∧ t.policies = s.policies ∧
      t.qualifiers = s.qualifiers ∧ t.claims = s.claims ∧ t.accepted = s.accepted ∧ t.lines = s.lines ∧ t.ports = s.ports ∧
      (∀ k, k ≠ g → t.group k = s.group k) ∧ t.group g = { s.group g with state := .clear } ∧
      (∀ l, s.held l = true → (t.held l = false ↔
        ∀ k, k ≠ g → (s.policy l).groupSet.getLsbD k.val = true → (s.group k).state = .clear)) ∧ HeldPassedOn s t

/-! ### Expiries -/

/-- LEASE_EXPIRY, the lease of an ACTIVE route having run out: the route is CLOSED with reason EXPIRED and told to its owner; the rest is
the grant checks of its lines. Where no lease of an ACTIVE route runs, the command does nothing (the model's choice, log entry 3). -/
def Obligations.LeaseExpiryClosesTheRoute : Prop :=
  (∀ (r : RouteSlot) (rt : Route) (s : State), s.inReset = false → s.route? r = some rt → rt.state = .active → rt.lease = some 0 →
    ∃ t, exec (.leaseExpiry r) s = .next t ∧ KeepsOutside s t ∧ KeepsSettings s t ∧ PinsFollow s t ∧ t.ports = s.ports ∧
      t.routeEntry r = closedEntry (s.routeEntry r) rt .expired ∧ r ∈ (t.session rt.owner).changes.routes ∧
      (∀ q, q ≠ r → EntryAfterChecks (s.routeEntry q) (t.routeEntry q)) ∧ ClaimsAfterChecks s.claimEntry t ∧
      ∀ k, (t.session k).attached = (s.session k).attached ∧ (t.session k).epoch = (s.session k).epoch) ∧
  ∀ (r : RouteSlot) (s : State), (∀ rt, s.route? r = some rt → rt.state = .active → rt.lease = none) →
    exec (.leaseExpiry r) s = .next s

/-- BREAK_EXPIRY, the break interval having ended: the CONNECTING route becomes ACTIVE with its stored lease, its forced set is the members
whose lines are held, forced-since is set if any is, its lines become DRIVEN, and its owner is told. No other entry, no claim and no queue
changes. -/
def Obligations.BreakExpiryActivatesTheRoute : Prop :=
  ∀ (r : RouteSlot) (rt : Route) (s : State), s.inReset = false → s.route? r = some rt → rt.state = .connecting 0 →
    rt.isDriver = true → rt.members.length ≤ 8 → (∀ m ∈ rt.members, (s.line m.line).driver = some r) →
    ∃ t, exec (.breakExpiry r) s = .next t ∧ KeepsOutside s t ∧ KeepsSettings s t ∧ PinsFollow s t ∧ t.ports = s.ports ∧
      t.claims = s.claims ∧ t.accepted = s.accepted ∧
      (∀ q, q ≠ r → t.routeEntry q = s.routeEntry q) ∧ (t.routeEntry r).generation = (s.routeEntry r).generation ∧
      (∃ forced, t.route? r = some { rt with
          state := .active, forced := forced, forcedSince := rt.forcedSince || forced != 0#8 } ∧
        ∀ i, forced.getLsbD i = true ↔ ∃ m, rt.members[i]? = some m ∧ s.held m.line = true) ∧
      (∀ m ∈ rt.members, (t.line m.line).state = .driven) ∧
      (∀ l, (t.line l).driver = (s.line l).driver ∧ (t.line l).queue = (s.line l).queue) ∧
      (∀ h, t.session h = if h = rt.owner then { s.session h with changes := (t.session h).changes } else s.session h) ∧
      r ∈ (t.session rt.owner).changes.routes

/-- WAIT_LIMIT_EXPIRY, the limit having run out: the claim settles DROPPED with reason TIMED_OUT, leaves the acceptance order and its
queues, its record stays in use, and its owner is told; the rest is the grant checks of the lines whose queue head changed. Where no wait
limit runs, the command does nothing (the model's choice, log entry 3). -/
def Obligations.WaitLimitExpiryDropsTheClaim : Prop :=
  (∀ (c : ClaimSlot) (cl : Claim) (s : State), s.inReset = false → s.claim? c = some cl → cl.waiting = true → cl.waitLimit = some 0 →
    ∃ t, exec (.waitLimitExpiry c) s = .next t ∧ KeepsOutside s t ∧ KeepsSettings s t ∧ PinsFollow s t ∧ t.ports = s.ports ∧
      t.claimEntry c = { s.claimEntry c with claim := some { cl with state := .dropped .timedOut, waitLimit := none, awaiting := false } } ∧
      c ∉ t.accepted ∧ (∀ m ∈ cl.members, c ∉ (t.line m.line).queue) ∧ c ∈ (t.session cl.owner).changes.claims ∧
      (∀ d, d ≠ c → RecordAfterChecks (s.claimEntry d) (t.claimEntry d)) ∧ RoutesAfterChecks s.routeEntry t ∧
      ∀ k, (t.session k).attached = (s.session k).attached ∧ (t.session k).epoch = (s.session k).epoch) ∧
  ∀ (c : ClaimSlot) (s : State), (∀ cl, s.claim? c = some cl → cl.waiting = true → cl.waitLimit = none) →
    exec (.waitLimitExpiry c) s = .next s

/-! ### Pins -/

/-- The Line Fabric. A held line shows its safe posture; a DRIVEN line not held the terminal of its driver's member; any other its rest
posture. Each posture, drive mode and released pull acts at the pin by its table, and a pin on which something else comes to act takes the
level that follows, or keeps its level where nothing acts. A terminal is idle, read or driven by its binding. TERMINAL_LEVEL_CHANGE and
BOARD_LINE_LEVEL_CHANGE set what the host or the board drives there, and nothing else but line pins. -/
def Obligations.PinsFollowTerminalsAndBoard : Prop :=
  (∀ (h : HostId) (n : TermNo) (v : Option Level) (s : State), ∃ t, exec (.terminalLevelChange h n v) s = .next t ∧
    t = { s with terminals := t.terminals, pins := t.pins } ∧ PinsFollow s t ∧
    t.terminal h n = v ∧ (∀ k m, (k ≠ h ∨ m ≠ n) → t.terminal k m = s.terminal k m) ∧
    (∀ l, (t.pin l).board = (s.pin l).board) ∧
    ∀ l mode, lineShows s l = .terminal h n mode → (s.pin l).board = none →
      pinDrive s l ≠ pinDrive t l →
      (mode = .pushPull → (t.pin l).level = v.getD .low) ∧ (mode = .openDrain → v.getD .low = .low → (t.pin l).level = .low)) ∧
  (∀ (l : LineNo) (v : Option Level) (s : State), ∃ t, exec (.boardLineLevelChange l v) s = .next t ∧
    t = { s with pins := t.pins } ∧ (∀ k, k ≠ l → t.pin k = s.pin k) ∧ (t.pin l).board = v ∧
    (∀ x, v = some x → (pinDrive s l).strong = none → v ≠ (s.pin l).board → (t.pin l).level = x) ∧
    (v = none → pinDrive s l = ⟨none, none⟩ → (t.pin l).level = (s.pin l).level) ∧
    ∀ x, v = none → pinDrive s l = ⟨none, some x⟩ → v ≠ (s.pin l).board → (t.pin l).level = x) ∧
  (∀ (s : State) (l : LineNo),
    (s.held l = true → lineShows s l = .posture (s.policy l).safePosture) ∧
    (s.held l = false → (s.line l).state ≠ .driven → lineShows s l = .posture (s.policy l).restPosture) ∧
    (ForcedExact s → s.held l = false → ∀ r rt p mode m, s.route? r = some rt → rt.state = .active → rt.kind = .driver p mode →
      m ∈ rt.members → m.line = l → lineShows s l = .terminal rt.owner m.terminal mode) ∧
    (∀ x, lineShows s l = .posture x → pinDrive s l =
      match x with
      | .low => ⟨some .low, none⟩
      | .high => ⟨some .high, none⟩
      | .float => ⟨none, none⟩
      | .pullUp => ⟨none, some .high⟩
      | .pullDown => ⟨none, some .low⟩) ∧
    (∀ h n, lineShows s l = .terminal h n .pushPull → pinDrive s l = ⟨some ((s.terminal h n).getD .low), none⟩) ∧
    (∀ h n, lineShows s l = .terminal h n .openDrain →
      ((s.terminal h n).getD .low = .low → pinDrive s l = ⟨some .low, none⟩) ∧
      ((s.terminal h n).getD .low = .high → pinDrive s l = ⟨none,
        match (s.policy l).restPosture with
        | .high | .pullUp => some .high
        | .low | .pullDown => some .low
        | .float => none⟩))) ∧
  (∀ (c : Instr) (s t : State) (l : LineNo), exec c s = .next t → pinDrive s l ≠ pinDrive t l → (t.pin l).board = none →
    (t.pin l).level = match pinDrive t l with
      | ⟨some x, _⟩ => x
      | ⟨none, some x⟩ => x
      | ⟨none, none⟩ => (s.pin l).level) ∧
  ∀ (s : State) (h : HostId) (n : TermNo),
    (look (s.session h).bindings n = none → terminalShows s h n = .idle) ∧
    (∀ c i, look (s.session h).bindings n = some (.claim c i) → terminalShows s h n = .idle) ∧
    ∀ r i rt m, look (s.session h).bindings n = some (.route r i) → s.route? r = some rt → rt.members[i]? = some m →
      (∀ d, rt.state = .connecting d → terminalShows s h n = .readOnly) ∧
      (rt.state = .active → rt.isDriver = true → terminalShows s h n = if rt.forced.getLsbD i then .readOnly else .carried m.line) ∧
      (rt.state = .active → rt.isDriver = false → terminalShows s h n = .drives (s.pin m.line).level)

/-! ### Rules of the whole part -/

/-- The policy records change at device reset, as reset ends, and at a SET_POLICY of the ATTACHED supervisor alone; a group's five
configured fields at device reset and at its SET_GROUP alone; the supervisor as the part enters or leaves reset alone. -/
def Obligations.OnlyTheSupervisorConfigures : Prop :=
  ∀ (c : Instr) (s t : State), exec c s = .next t →
    (t.policies ≠ s.policies → c = .deviceReset ∨ (∃ a b, c = .leaveReset a b) ∨
      ∃ h, c = .setPolicy h ∧ h = s.supervisor ∧ (s.session h).attached = true) ∧
    (∀ g, ((t.group g).enabled ≠ (s.group g).enabled ∨ (t.group g).polarity ≠ (s.group g).polarity ∨
        (t.group g).recovery ≠ (s.group g).recovery ∨ (t.group g).settleInterval ≠ (s.group g).settleInterval ∨
        (t.group g).rearmMask ≠ (s.group g).rearmMask) →
      c = .deviceReset ∨ ∃ h, c = .setGroup h ∧ h = s.supervisor ∧ (s.session h).attached = true ∧ (s.group g).state = .clear) ∧
    (t.supervisor ≠ s.supervisor → c = .deviceReset ∨ ∃ a b, c = .leaveReset a b)

/-- A generation moves only when its slot is taken, then by one, and back to 0 at device reset alone; a CLOSED route or settled claim
stays as it is until it is freed. A WAITING claim that any event grants gets its DRIVER route in a free entry below which none is free, with
the claim's owner, members, priority, drive mode and resolved lease, and both references enter the owner's change set; every new DRIVER
route is such a claim's, or the one that the reply to its owner's own CLAIM or AMEND names. -/
def Obligations.GenerationsAdvanceAndSettledRecordsStand : Prop :=
  ∀ (c : Instr) (s t : State), exec c s = .next t → c ≠ .deviceReset →
    (∀ r, (t.routeEntry r).generation = (s.routeEntry r).generation ∨
      ((t.routeEntry r).generation = (s.routeEntry r).generation + 1#8 ∧ (t.route? r).isSome)) ∧
    (∀ d, (t.claimEntry d).generation = (s.claimEntry d).generation ∨
      ((t.claimEntry d).generation = (s.claimEntry d).generation + 1#8 ∧ s.claim? d = none)) ∧
    (∀ r rt, s.route? r = some rt → rt.live = false →
      t.route? r = some rt ∨ t.route? r = none ∨ (t.routeEntry r).generation = (s.routeEntry r).generation + 1#8) ∧
    (∀ d cl, s.claim? d = some cl → cl.waiting = false → t.claim? d = none ∨ t.claim? d = some cl) ∧
    ∃ inReply, GrantsMade inReply s t ∧ ∀ r, inReply = some r → ∃ h, GrantedInReply c s t h r

/-! ### Invariants -/

/-- Every step keeps the agreement of the fault groups with their inputs. -/
def Obligations.GroupsAgreeKept : Prop := ∀ s t : State, GroupsAgree s → step s = .next t → GroupsAgree t

/-- Every step keeps every host's counts exact and within its limits, and the queues of its port within their capacity. -/
def Obligations.CountsAndQueuesBoundedKept : Prop :=
  ∀ s t : State, (∀ h, CountsExact s h ∧ PortBounded (s.port h)) → step s = .next t → ∀ h, CountsExact t h ∧ PortBounded (t.port h)

/-- No step leaves a free entry beside an eligible claim. -/
def Obligations.NoIdleEntryKept : Prop := ∀ s t : State, NoIdleEntry s → step s = .next t → NoIdleEntry t

/-- Every step keeps the soundness of the sessions: only ATTACHED hosts own records, and their epoch is not 0. -/
def Obligations.SessionsSoundKept : Prop := ∀ s t : State, SessionsSound s → step s = .next t → SessionsSound t

/-- Every step keeps the change sets exact. -/
def Obligations.ChangeSetsExactKept : Prop := ∀ s t : State, ChangeSetsExact s → step s = .next t → ChangeSetsExact t

/-- Every step keeps the policies' hold on every route, lease and claim. -/
def Obligations.PoliciesHoldKept : Prop := ∀ s t : State, PoliciesHold s → step s = .next t → PoliciesHold t

/-- Every step keeps the acceptance order exact. -/
def Obligations.AcceptanceExactKept : Prop := ∀ s t : State, AcceptanceExact s → step s = .next t → AcceptanceExact t

/-- Every step keeps the line records in agreement with routes and claims; so no line ever has two drivers. And every step that hands a
line on runs the grant checks: after it each WAITING claim that heads all its queues and finds no driver awaits an entry. And every command
hands the entries out in order: a claim that is granted comes before every claim left awaiting an entry, by priority and then by acceptance,
and the one that comes first takes the lower entry. -/
def Obligations.LinesAgreeKept : Prop :=
  (∀ s t : State, LinesAgree s → step s = .next t → LinesAgree t ∧ (GrantsChecked s → GrantsChecked t)) ∧
  ∀ (i : Instr) (s t : State), LinesAgree s → exec i s = .next t → EntriesHandedInOrder i s t

/-- Every step keeps the forced sets exact. -/
def Obligations.ForcedExactKept : Prop := ∀ s t : State, ForcedExact s → step s = .next t → ForcedExact t

/-- Every step keeps the terminal bindings exact. -/
def Obligations.BindingsExactKept : Prop := ∀ s t : State, BindingsExact s → step s = .next t → BindingsExact t

/-- The state of device reset meets every invariant that the steps keep. -/
def Obligations.ResetMeetsEveryInvariant : Prop :=
  GroupsAgree State.reset ∧ (∀ h, CountsExact State.reset h) ∧ NoIdleEntry State.reset ∧ SessionsSound State.reset ∧
    (∀ h, PortBounded (State.reset.port h)) ∧ ChangeSetsExact State.reset ∧ PoliciesHold State.reset ∧
    AcceptanceExact State.reset ∧ LinesAgree State.reset ∧ GrantsChecked State.reset ∧ ForcedExact State.reset ∧ BindingsExact State.reset
end

