-- ==== Sys2Proof/Laws/State.lean ====
section
/-! SUPPORT. Laws/State.lean: what each named update of one record does to each field of the state. -/

namespace Sys2Proof.Machine

variable (s : State)

/-! ### updSession -/

section

variable (h : HostId) (f : Session → Session)

@[simp] theorem State.updSession_inReset : (s.updSession h f).inReset = s.inReset := rfl
@[simp] theorem State.updSession_supervisor : (s.updSession h f).supervisor = s.supervisor := rfl
@[simp] theorem State.updSession_policies : (s.updSession h f).policies = s.policies := rfl
@[simp] theorem State.updSession_routes : (s.updSession h f).routes = s.routes := rfl
@[simp] theorem State.updSession_claims : (s.updSession h f).claims = s.claims := rfl
@[simp] theorem State.updSession_accepted : (s.updSession h f).accepted = s.accepted := rfl
@[simp] theorem State.updSession_lines : (s.updSession h f).lines = s.lines := rfl
@[simp] theorem State.updSession_groups : (s.updSession h f).groups = s.groups := rfl
@[simp] theorem State.updSession_qualifiers : (s.updSession h f).qualifiers = s.qualifiers := rfl
@[simp] theorem State.updSession_pins : (s.updSession h f).pins = s.pins := rfl
@[simp] theorem State.updSession_terminals : (s.updSession h f).terminals = s.terminals := rfl
@[simp] theorem State.updSession_ports : (s.updSession h f).ports = s.ports := rfl
@[simp] theorem State.updSession_pending : (s.updSession h f).pending = s.pending := rfl

theorem State.updSession_session (h' : HostId) :
    (s.updSession h f).session h' = if h = h' then f (s.session h') else s.session h' :=
  look_upd _ _ _ _

@[simp] theorem State.updSession_session_same : (s.updSession h f).session h = f (s.session h) :=
  look_upd_same _ _ _

end

/-! ### updRouteEntry -/

section

variable (r : RouteSlot) (f : RouteEntry → RouteEntry)

@[simp] theorem State.updRouteEntry_inReset : (s.updRouteEntry r f).inReset = s.inReset := rfl
@[simp] theorem State.updRouteEntry_supervisor : (s.updRouteEntry r f).supervisor = s.supervisor := rfl
@[simp] theorem State.updRouteEntry_policies : (s.updRouteEntry r f).policies = s.policies := rfl
@[simp] theorem State.updRouteEntry_sessions : (s.updRouteEntry r f).sessions = s.sessions := rfl
@[simp] theorem State.updRouteEntry_claims : (s.updRouteEntry r f).claims = s.claims := rfl
@[simp] theorem State.updRouteEntry_accepted : (s.updRouteEntry r f).accepted = s.accepted := rfl
@[simp] theorem State.updRouteEntry_lines : (s.updRouteEntry r f).lines = s.lines := rfl
@[simp] theorem State.updRouteEntry_groups : (s.updRouteEntry r f).groups = s.groups := rfl
@[simp] theorem State.updRouteEntry_qualifiers : (s.updRouteEntry r f).qualifiers = s.qualifiers := rfl
@[simp] theorem State.updRouteEntry_pins : (s.updRouteEntry r f).pins = s.pins := rfl
@[simp] theorem State.updRouteEntry_terminals : (s.updRouteEntry r f).terminals = s.terminals := rfl
@[simp] theorem State.updRouteEntry_ports : (s.updRouteEntry r f).ports = s.ports := rfl
@[simp] theorem State.updRouteEntry_pending : (s.updRouteEntry r f).pending = s.pending := rfl

theorem State.updRouteEntry_routeEntry (r' : RouteSlot) :
    (s.updRouteEntry r f).routeEntry r' = if r = r' then f (s.routeEntry r') else s.routeEntry r' :=
  look_upd _ _ _ _

@[simp] theorem State.updRouteEntry_routeEntry_same : (s.updRouteEntry r f).routeEntry r = f (s.routeEntry r) :=
  look_upd_same _ _ _

end

/-! ### updClaimEntry -/

section

variable (c : ClaimSlot) (f : ClaimEntry → ClaimEntry)

@[simp] theorem State.updClaimEntry_inReset : (s.updClaimEntry c f).inReset = s.inReset := rfl
@[simp] theorem State.updClaimEntry_supervisor : (s.updClaimEntry c f).supervisor = s.supervisor := rfl
@[simp] theorem State.updClaimEntry_policies : (s.updClaimEntry c f).policies = s.policies := rfl
@[simp] theorem State.updClaimEntry_sessions : (s.updClaimEntry c f).sessions = s.sessions := rfl
@[simp] theorem State.updClaimEntry_routes : (s.updClaimEntry c f).routes = s.routes := rfl
@[simp] theorem State.updClaimEntry_accepted : (s.updClaimEntry c f).accepted = s.accepted := rfl
@[simp] theorem State.updClaimEntry_lines : (s.updClaimEntry c f).lines = s.lines := rfl
@[simp] theorem State.updClaimEntry_groups : (s.updClaimEntry c f).groups = s.groups := rfl
@[simp] theorem State.updClaimEntry_qualifiers : (s.updClaimEntry c f).qualifiers = s.qualifiers := rfl
@[simp] theorem State.updClaimEntry_pins : (s.updClaimEntry c f).pins = s.pins := rfl
@[simp] theorem State.updClaimEntry_terminals : (s.updClaimEntry c f).terminals = s.terminals := rfl
@[simp] theorem State.updClaimEntry_ports : (s.updClaimEntry c f).ports = s.ports := rfl
@[simp] theorem State.updClaimEntry_pending : (s.updClaimEntry c f).pending = s.pending := rfl

theorem State.updClaimEntry_claimEntry (c' : ClaimSlot) :
    (s.updClaimEntry c f).claimEntry c' = if c = c' then f (s.claimEntry c') else s.claimEntry c' :=
  look_upd _ _ _ _

@[simp] theorem State.updClaimEntry_claimEntry_same : (s.updClaimEntry c f).claimEntry c = f (s.claimEntry c) :=
  look_upd_same _ _ _

end

/-! ### updLine -/

section

variable (l : LineNo) (f : LineRecord → LineRecord)

@[simp] theorem State.updLine_inReset : (s.updLine l f).inReset = s.inReset := rfl
@[simp] theorem State.updLine_supervisor : (s.updLine l f).supervisor = s.supervisor := rfl
@[simp] theorem State.updLine_policies : (s.updLine l f).policies = s.policies := rfl
@[simp] theorem State.updLine_sessions : (s.updLine l f).sessions = s.sessions := rfl
@[simp] theorem State.updLine_routes : (s.updLine l f).routes = s.routes := rfl
@[simp] theorem State.updLine_claims : (s.updLine l f).claims = s.claims := rfl
@[simp] theorem State.updLine_accepted : (s.updLine l f).accepted = s.accepted := rfl
@[simp] theorem State.updLine_groups : (s.updLine l f).groups = s.groups := rfl
@[simp] theorem State.updLine_qualifiers : (s.updLine l f).qualifiers = s.qualifiers := rfl
@[simp] theorem State.updLine_pins : (s.updLine l f).pins = s.pins := rfl
@[simp] theorem State.updLine_terminals : (s.updLine l f).terminals = s.terminals := rfl
@[simp] theorem State.updLine_ports : (s.updLine l f).ports = s.ports := rfl
@[simp] theorem State.updLine_pending : (s.updLine l f).pending = s.pending := rfl

theorem State.updLine_line (l' : LineNo) :
    (s.updLine l f).line l' = if l = l' then f (s.line l') else s.line l' :=
  look_upd _ _ _ _

@[simp] theorem State.updLine_line_same : (s.updLine l f).line l = f (s.line l) :=
  look_upd_same _ _ _

end

/-! ### updGroup -/

section

variable (g : GroupNo) (f : Group → Group)

@[simp] theorem State.updGroup_inReset : (s.updGroup g f).inReset = s.inReset := rfl
@[simp] theorem State.updGroup_supervisor : (s.updGroup g f).supervisor = s.supervisor := rfl
@[simp] theorem State.updGroup_policies : (s.updGroup g f).policies = s.policies := rfl
@[simp] theorem State.updGroup_sessions : (s.updGroup g f).sessions = s.sessions := rfl
@[simp] theorem State.updGroup_routes : (s.updGroup g f).routes = s.routes := rfl
@[simp] theorem State.updGroup_claims : (s.updGroup g f).claims = s.claims := rfl
@[simp] theorem State.updGroup_accepted : (s.updGroup g f).accepted = s.accepted := rfl
@[simp] theorem State.updGroup_lines : (s.updGroup g f).lines = s.lines := rfl
@[simp] theorem State.updGroup_qualifiers : (s.updGroup g f).qualifiers = s.qualifiers := rfl
@[simp] theorem State.updGroup_pins : (s.updGroup g f).pins = s.pins := rfl
@[simp] theorem State.updGroup_terminals : (s.updGroup g f).terminals = s.terminals := rfl
@[simp] theorem State.updGroup_ports : (s.updGroup g f).ports = s.ports := rfl
@[simp] theorem State.updGroup_pending : (s.updGroup g f).pending = s.pending := rfl

theorem State.updGroup_group (g' : GroupNo) :
    (s.updGroup g f).group g' = if g = g' then f (s.group g') else s.group g' :=
  look_upd _ _ _ _

@[simp] theorem State.updGroup_group_same : (s.updGroup g f).group g = f (s.group g) :=
  look_upd_same _ _ _

end

/-! ### updQualifier -/

section

variable (g : GroupNo) (f : Qualifier → Qualifier)

@[simp] theorem State.updQualifier_inReset : (s.updQualifier g f).inReset = s.inReset := rfl
@[simp] theorem State.updQualifier_supervisor : (s.updQualifier g f).supervisor = s.supervisor := rfl
@[simp] theorem State.updQualifier_policies : (s.updQualifier g f).policies = s.policies := rfl
@[simp] theorem State.updQualifier_sessions : (s.updQualifier g f).sessions = s.sessions := rfl
@[simp] theorem State.updQualifier_routes : (s.updQualifier g f).routes = s.routes := rfl
@[simp] theorem State.updQualifier_claims : (s.updQualifier g f).claims = s.claims := rfl
@[simp] theorem State.updQualifier_accepted : (s.updQualifier g f).accepted = s.accepted := rfl
@[simp] theorem State.updQualifier_lines : (s.updQualifier g f).lines = s.lines := rfl
@[simp] theorem State.updQualifier_groups : (s.updQualifier g f).groups = s.groups := rfl
@[simp] theorem State.updQualifier_pins : (s.updQualifier g f).pins = s.pins := rfl
@[simp] theorem State.updQualifier_terminals : (s.updQualifier g f).terminals = s.terminals := rfl
@[simp] theorem State.updQualifier_ports : (s.updQualifier g f).ports = s.ports := rfl
@[simp] theorem State.updQualifier_pending : (s.updQualifier g f).pending = s.pending := rfl

theorem State.updQualifier_qualifier (g' : GroupNo) :
    (s.updQualifier g f).qualifier g' = if g = g' then f (s.qualifier g') else s.qualifier g' :=
  look_upd _ _ _ _

@[simp] theorem State.updQualifier_qualifier_same : (s.updQualifier g f).qualifier g = f (s.qualifier g) :=
  look_upd_same _ _ _

end

/-! ### updPort -/

section

variable (h : HostId) (f : Port → Port)

@[simp] theorem State.updPort_inReset : (s.updPort h f).inReset = s.inReset := rfl
@[simp] theorem State.updPort_supervisor : (s.updPort h f).supervisor = s.supervisor := rfl
@[simp] theorem State.updPort_policies : (s.updPort h f).policies = s.policies := rfl
@[simp] theorem State.updPort_sessions : (s.updPort h f).sessions = s.sessions := rfl
@[simp] theorem State.updPort_routes : (s.updPort h f).routes = s.routes := rfl
@[simp] theorem State.updPort_claims : (s.updPort h f).claims = s.claims := rfl
@[simp] theorem State.updPort_accepted : (s.updPort h f).accepted = s.accepted := rfl
@[simp] theorem State.updPort_lines : (s.updPort h f).lines = s.lines := rfl
@[simp] theorem State.updPort_groups : (s.updPort h f).groups = s.groups := rfl
@[simp] theorem State.updPort_qualifiers : (s.updPort h f).qualifiers = s.qualifiers := rfl
@[simp] theorem State.updPort_pins : (s.updPort h f).pins = s.pins := rfl
@[simp] theorem State.updPort_terminals : (s.updPort h f).terminals = s.terminals := rfl
@[simp] theorem State.updPort_pending : (s.updPort h f).pending = s.pending := rfl

theorem State.updPort_port (h' : HostId) :
    (s.updPort h f).port h' = if h = h' then f (s.port h') else s.port h' :=
  look_upd _ _ _ _

@[simp] theorem State.updPort_port_same : (s.updPort h f).port h = f (s.port h) :=
  look_upd_same _ _ _

end

/-! ### updRoute -/

section

variable (r : RouteSlot) (f : Route → Route)

@[simp] theorem State.updRoute_inReset : (s.updRoute r f).inReset = s.inReset := rfl
@[simp] theorem State.updRoute_supervisor : (s.updRoute r f).supervisor = s.supervisor := rfl
@[simp] theorem State.updRoute_policies : (s.updRoute r f).policies = s.policies := rfl
@[simp] theorem State.updRoute_sessions : (s.updRoute r f).sessions = s.sessions := rfl
@[simp] theorem State.updRoute_claims : (s.updRoute r f).claims = s.claims := rfl
@[simp] theorem State.updRoute_accepted : (s.updRoute r f).accepted = s.accepted := rfl
@[simp] theorem State.updRoute_lines : (s.updRoute r f).lines = s.lines := rfl
@[simp] theorem State.updRoute_groups : (s.updRoute r f).groups = s.groups := rfl
@[simp] theorem State.updRoute_qualifiers : (s.updRoute r f).qualifiers = s.qualifiers := rfl
@[simp] theorem State.updRoute_pins : (s.updRoute r f).pins = s.pins := rfl
@[simp] theorem State.updRoute_terminals : (s.updRoute r f).terminals = s.terminals := rfl
@[simp] theorem State.updRoute_ports : (s.updRoute r f).ports = s.ports := rfl
@[simp] theorem State.updRoute_pending : (s.updRoute r f).pending = s.pending := rfl

theorem State.updRoute_route? (r' : RouteSlot) :
    (s.updRoute r f).route? r' = if r = r' then (s.route? r').map f else s.route? r' := by
  unfold State.updRoute State.route?
  rw [State.updRouteEntry_routeEntry]
  split <;> rfl

@[simp] theorem State.updRoute_generation (r' : RouteSlot) :
    ((s.updRoute r f).routeEntry r').generation = (s.routeEntry r').generation := by
  unfold State.updRoute
  rw [State.updRouteEntry_routeEntry]
  split <;> rfl

end

/-! ### updClaim -/

section

variable (c : ClaimSlot) (f : Claim → Claim)

@[simp] theorem State.updClaim_inReset : (s.updClaim c f).inReset = s.inReset := rfl
@[simp] theorem State.updClaim_supervisor : (s.updClaim c f).supervisor = s.supervisor := rfl
@[simp] theorem State.updClaim_policies : (s.updClaim c f).policies = s.policies := rfl
@[simp] theorem State.updClaim_sessions : (s.updClaim c f).sessions = s.sessions := rfl
@[simp] theorem State.updClaim_routes : (s.updClaim c f).routes = s.routes := rfl
@[simp] theorem State.updClaim_accepted : (s.updClaim c f).accepted = s.accepted := rfl
@[simp] theorem State.updClaim_lines : (s.updClaim c f).lines = s.lines := rfl
@[simp] theorem State.updClaim_groups : (s.updClaim c f).groups = s.groups := rfl
@[simp] theorem State.updClaim_qualifiers : (s.updClaim c f).qualifiers = s.qualifiers := rfl
@[simp] theorem State.updClaim_pins : (s.updClaim c f).pins = s.pins := rfl
@[simp] theorem State.updClaim_terminals : (s.updClaim c f).terminals = s.terminals := rfl
@[simp] theorem State.updClaim_ports : (s.updClaim c f).ports = s.ports := rfl
@[simp] theorem State.updClaim_pending : (s.updClaim c f).pending = s.pending := rfl

theorem State.updClaim_claim? (c' : ClaimSlot) :
    (s.updClaim c f).claim? c' = if c = c' then (s.claim? c').map f else s.claim? c' := by
  unfold State.updClaim State.claim?
  rw [State.updClaimEntry_claimEntry]
  split <;> rfl

@[simp] theorem State.updClaim_generation (c' : ClaimSlot) :
    ((s.updClaim c f).claimEntry c').generation = (s.claimEntry c').generation := by
  unfold State.updClaim
  rw [State.updClaimEntry_claimEntry]
  split <;> rfl

end

end Sys2Proof.Machine
end

