-- ==== Sys2Proof/Laws/Kept.lean ====
section
/-! SUPPORT. Laws/Kept.lean: what each shared operation over the records leaves as it was. -/

namespace Sys2Proof.Machine

theorem KeepsRest.refl (s : State) : KeepsRest s s := by constructor <;> rfl

theorem KeepsRest.trans {s t u : State} (a : KeepsRest s t) (b : KeepsRest t u) : KeepsRest s u := by
  constructor
  · exact b.inReset.trans a.inReset
  · exact b.supervisor.trans a.supervisor
  · exact b.policies.trans a.policies
  · exact b.groups.trans a.groups
  · exact b.qualifiers.trans a.qualifiers
  · exact b.pins.trans a.pins
  · exact b.terminals.trans a.terminals
  · exact b.ports.trans a.ports
  · exact b.pending.trans a.pending

/-- A fold keeps whatever a reflexive and transitive relation says each of its steps keeps. -/
theorem foldl_rel {α : Type} {R : State → State → Prop} (refl : ∀ s, R s s)
    (trans : ∀ {s t u}, R s t → R t u → R s u) {f : State → α → State} (h : ∀ s a, R s (f s a)) (xs : List α) (s : State) :
    R s (xs.foldl f s) := by
  induction xs generalizing s with
  | nil => exact refl s
  | cons x xs ih => exact trans (h s x) (ih (f s x))

/-- A fold leaves a field that each of its steps leaves. -/
theorem foldl_keeps {α β : Type} {f : State → α → State} (p : State → β) (h : ∀ s a, p (f s a) = p s) (xs : List α) (s : State) :
    p (xs.foldl f s) = p s := by
  induction xs generalizing s with
  | nil => rfl
  | cons x xs ih => exact (ih (f s x)).trans (h s x)

variable (s : State)

/-! ### Change sets and bindings: sessions only -/

section

variable (h : HostId) (r : RouteSlot) (c : ClaimSlot) (mk : Nat → Binding) (ms : List Member)

theorem noteRoute_keepsRest : KeepsRest s (noteRoute h r s) := by constructor <;> rfl
theorem noteClaim_keepsRest : KeepsRest s (noteClaim h c s) := by constructor <;> rfl
theorem unnoteRoute_keepsRest : KeepsRest s (unnoteRoute h r s) := by constructor <;> rfl
theorem unnoteClaim_keepsRest : KeepsRest s (unnoteClaim h c s) := by constructor <;> rfl
theorem bindMembers_keepsRest : KeepsRest s (bindMembers h mk ms s) := by constructor <;> rfl
theorem unbindMembers_keepsRest : KeepsRest s (unbindMembers h ms s) := by constructor <;> rfl

@[simp] theorem noteRoute_routes : (noteRoute h r s).routes = s.routes := rfl
@[simp] theorem noteRoute_claims : (noteRoute h r s).claims = s.claims := rfl
@[simp] theorem noteRoute_accepted : (noteRoute h r s).accepted = s.accepted := rfl
@[simp] theorem noteRoute_lines : (noteRoute h r s).lines = s.lines := rfl
@[simp] theorem noteClaim_routes : (noteClaim h c s).routes = s.routes := rfl
@[simp] theorem noteClaim_claims : (noteClaim h c s).claims = s.claims := rfl
@[simp] theorem noteClaim_accepted : (noteClaim h c s).accepted = s.accepted := rfl
@[simp] theorem noteClaim_lines : (noteClaim h c s).lines = s.lines := rfl
@[simp] theorem unnoteRoute_routes : (unnoteRoute h r s).routes = s.routes := rfl
@[simp] theorem unnoteRoute_claims : (unnoteRoute h r s).claims = s.claims := rfl
@[simp] theorem unnoteRoute_accepted : (unnoteRoute h r s).accepted = s.accepted := rfl
@[simp] theorem unnoteRoute_lines : (unnoteRoute h r s).lines = s.lines := rfl
@[simp] theorem unnoteClaim_routes : (unnoteClaim h c s).routes = s.routes := rfl
@[simp] theorem unnoteClaim_claims : (unnoteClaim h c s).claims = s.claims := rfl
@[simp] theorem unnoteClaim_accepted : (unnoteClaim h c s).accepted = s.accepted := rfl
@[simp] theorem unnoteClaim_lines : (unnoteClaim h c s).lines = s.lines := rfl
@[simp] theorem bindMembers_routes : (bindMembers h mk ms s).routes = s.routes := rfl
@[simp] theorem bindMembers_claims : (bindMembers h mk ms s).claims = s.claims := rfl
@[simp] theorem bindMembers_accepted : (bindMembers h mk ms s).accepted = s.accepted := rfl
@[simp] theorem bindMembers_lines : (bindMembers h mk ms s).lines = s.lines := rfl
@[simp] theorem unbindMembers_routes : (unbindMembers h ms s).routes = s.routes := rfl
@[simp] theorem unbindMembers_claims : (unbindMembers h ms s).claims = s.claims := rfl
@[simp] theorem unbindMembers_accepted : (unbindMembers h ms s).accepted = s.accepted := rfl
@[simp] theorem unbindMembers_lines : (unbindMembers h ms s).lines = s.lines := rfl

end

/-! ### Queues, drivers and line states: line records only -/

/-- Only line records may differ. -/
structure KeepsAllButLines (s t : State) : Prop where
  rest : KeepsRest s t
  sessions : t.sessions = s.sessions
  routes : t.routes = s.routes
  claims : t.claims = s.claims
  accepted : t.accepted = s.accepted

theorem KeepsAllButLines.refl : KeepsAllButLines s s := ⟨.refl s, rfl, rfl, rfl, rfl⟩

theorem KeepsAllButLines.trans {s t u : State} (a : KeepsAllButLines s t) (b : KeepsAllButLines t u) : KeepsAllButLines s u :=
  ⟨a.rest.trans b.rest, b.sessions.trans a.sessions, b.routes.trans a.routes, b.claims.trans a.claims,
    b.accepted.trans a.accepted⟩

theorem updLine_keeps (l : LineNo) (f : LineRecord → LineRecord) : KeepsAllButLines s (s.updLine l f) :=
  ⟨by constructor <;> rfl, rfl, rfl, rfl, rfl⟩

theorem setLineState_keeps (l : LineNo) : KeepsAllButLines s (setLineState l s) := updLine_keeps s l _

theorem foldl_updLine_keeps (f : LineNo → LineRecord → LineRecord) (ls : List LineNo) :
    KeepsAllButLines s (ls.foldl (fun t l => t.updLine l (f l)) s) :=
  foldl_rel KeepsAllButLines.refl KeepsAllButLines.trans (fun t l => updLine_keeps t l (f l)) ls s

theorem joinQueues_keeps (c : ClaimSlot) (ls : List LineNo) : KeepsAllButLines s (joinQueues c ls s) :=
  foldl_updLine_keeps s (fun _ e => { e with queue := placeInQueue s c e.queue }) ls

theorem leaveQueues_keeps (c : ClaimSlot) (ls : List LineNo) : KeepsAllButLines s (leaveQueues c ls s) :=
  foldl_updLine_keeps s (fun _ e => { e with queue := e.queue.filter (· ≠ c) }) ls

theorem loseDriver_keeps (r : RouteSlot) (ls : List LineNo) : KeepsAllButLines s (loseDriver r ls s) :=
  foldl_updLine_keeps s (fun _ e => if e.driver = some r then { e with driver := none } else e) ls

theorem takeLines_keeps (r : RouteSlot) (ls : List LineNo) : KeepsAllButLines s (takeLines r ls s) :=
  foldl_updLine_keeps s (fun _ e => { e with driver := some r }) ls

theorem setLineStates_keep (ls : List LineNo) : KeepsAllButLines s (ls.foldl (fun t l => setLineState l t) s) :=
  foldl_rel KeepsAllButLines.refl KeepsAllButLines.trans (fun t l => setLineState_keeps t l) ls s

/-! ### Acceptance order -/

theorem leaveAccepted_keepsRest (c : ClaimSlot) : KeepsRest s (leaveAccepted c s) := by constructor <;> rfl

@[simp] theorem leaveAccepted_sessions (c : ClaimSlot) : (leaveAccepted c s).sessions = s.sessions := rfl
@[simp] theorem leaveAccepted_routes (c : ClaimSlot) : (leaveAccepted c s).routes = s.routes := rfl
@[simp] theorem leaveAccepted_claims (c : ClaimSlot) : (leaveAccepted c s).claims = s.claims := rfl
@[simp] theorem leaveAccepted_lines (c : ClaimSlot) : (leaveAccepted c s).lines = s.lines := rfl
@[simp] theorem leaveAccepted_accepted (c : ClaimSlot) : (leaveAccepted c s).accepted = s.accepted.filter (· ≠ c) := rfl

/-! ### Routes -/

section

variable (r : RouteSlot)

theorem giveUp_keepsRest (rt : Route) : KeepsRest s (giveUp r rt s) :=
  (unbindMembers_keepsRest s _ _).trans (loseDriver_keeps _ r _).rest

@[simp] theorem giveUp_routes (rt : Route) : (giveUp r rt s).routes = s.routes := (loseDriver_keeps _ r _).routes
@[simp] theorem giveUp_claims (rt : Route) : (giveUp r rt s).claims = s.claims := (loseDriver_keeps _ r _).claims
@[simp] theorem giveUp_accepted (rt : Route) : (giveUp r rt s).accepted = s.accepted := (loseDriver_keeps _ r _).accepted

theorem giveUp_sessions (rt : Route) : (giveUp r rt s).sessions = (unbindMembers rt.owner rt.members s).sessions :=
  (loseDriver_keeps _ r _).sessions

theorem closeRoute_keepsRest (why : CloseReason) : KeepsRest s (closeRoute why r s) := by
  unfold closeRoute
  split
  · exact .refl s
  · split
    · exact ((by constructor <;> rfl : KeepsRest s (s.updRoute r _)).trans (giveUp_keepsRest _ _ _)).trans
        (noteRoute_keepsRest _ _ _)
    · exact .refl s

@[simp] theorem closeRoute_claims (why : CloseReason) : (closeRoute why r s).claims = s.claims := by
  unfold closeRoute
  split
  · rfl
  · split <;> simp

@[simp] theorem closeRoute_accepted (why : CloseReason) : (closeRoute why r s).accepted = s.accepted := by
  unfold closeRoute
  split
  · rfl
  · split <;> simp

theorem freeRoute_keepsRest : KeepsRest s (freeRoute r s) := by
  unfold freeRoute
  split
  · exact .refl s
  · dsimp only
    split
    · exact (giveUp_keepsRest s r _).trans (by constructor <;> rfl)
    · constructor <;> rfl

@[simp] theorem freeRoute_claims : (freeRoute r s).claims = s.claims := by
  unfold freeRoute
  split
  · rfl
  · dsimp only
    split <;> simp

@[simp] theorem freeRoute_accepted : (freeRoute r s).accepted = s.accepted := by
  unfold freeRoute
  split
  · rfl
  · dsimp only
    split <;> simp

theorem takeEntry_keepsRest (rt : Route) : KeepsRest s (takeEntry r rt s) := by constructor <;> rfl

@[simp] theorem takeEntry_sessions (rt : Route) : (takeEntry r rt s).sessions = s.sessions := rfl
@[simp] theorem takeEntry_claims (rt : Route) : (takeEntry r rt s).claims = s.claims := rfl
@[simp] theorem takeEntry_accepted (rt : Route) : (takeEntry r rt s).accepted = s.accepted := rfl
@[simp] theorem takeEntry_lines (rt : Route) : (takeEntry r rt s).lines = s.lines := rfl

theorem activate_keepsRest : KeepsRest s (activate r s) := by
  unfold activate
  split
  · exact .refl s
  · exact (by constructor <;> rfl : KeepsRest s (s.updRoute r _)).trans (setLineStates_keep _ _).rest

@[simp] theorem activate_sessions : (activate r s).sessions = s.sessions := by
  unfold activate
  split
  · rfl
  · exact (setLineStates_keep _ _).sessions

@[simp] theorem activate_claims : (activate r s).claims = s.claims := by
  unfold activate
  split
  · rfl
  · exact (setLineStates_keep _ _).claims

@[simp] theorem activate_accepted : (activate r s).accepted = s.accepted := by
  unfold activate
  split
  · rfl
  · exact (setLineStates_keep _ _).accepted

end

/-! ### Claims -/

section

variable (c : ClaimSlot)

theorem freeClaim_keepsRest : KeepsRest s (freeClaim c s) := by
  unfold freeClaim
  split
  · exact .refl s
  · constructor <;> rfl

@[simp] theorem freeClaim_routes : (freeClaim c s).routes = s.routes := by
  unfold freeClaim
  split <;> rfl

@[simp] theorem freeClaim_accepted : (freeClaim c s).accepted = s.accepted := by
  unfold freeClaim
  split <;> rfl

@[simp] theorem freeClaim_lines : (freeClaim c s).lines = s.lines := by
  unfold freeClaim
  split <;> rfl

theorem withdrawClaim_keepsRest (cl : Claim) : KeepsRest s (withdrawClaim c cl s) :=
  ((leaveQueues_keeps s c _).rest.trans (leaveAccepted_keepsRest _ c)).trans (by constructor <;> rfl)

@[simp] theorem withdrawClaim_routes (cl : Claim) : (withdrawClaim c cl s).routes = s.routes := (leaveQueues_keeps s c _).routes
@[simp] theorem withdrawClaim_claims (cl : Claim) : (withdrawClaim c cl s).claims = s.claims := (leaveQueues_keeps s c _).claims

theorem withdrawClaim_accepted (cl : Claim) : (withdrawClaim c cl s).accepted = s.accepted.filter (· ≠ c) := by
  show (leaveQueues c _ s).accepted.filter _ = _
  rw [(leaveQueues_keeps s c _).accepted]

theorem dropClaim_keepsRest (why : DropReason) : KeepsRest s (dropClaim why c s) := by
  unfold dropClaim
  split
  · exact .refl s
  · exact (withdrawClaim_keepsRest s c _).trans (by constructor <;> rfl)

@[simp] theorem dropClaim_routes (why : DropReason) : (dropClaim why c s).routes = s.routes := by
  unfold dropClaim
  split <;> simp

end

end Sys2Proof.Machine
end

