-- ==== Sys2Proof/Laws/Lists.lean ====
section
/-! SUPPORT. Laws/Lists.lean: ascending lists, searches by number, and rewritten tables. -/

namespace Sys2Proof.Machine

theorem mem_every {n : Nat} (i : Fin n) : i ∈ every n := List.mem_finRange i

@[simp] theorem mem_insertAsc {n : Nat} {x y : Fin n} {ys : List (Fin n)} : x ∈ insertAsc y ys ↔ x = y ∨ x ∈ ys := by
  induction ys with
  | nil => simp [insertAsc]
  | cons z zs ih =>
    unfold insertAsc
    split
    · simp
    · split
      · rename_i h
        subst h
        simp
      · simp only [List.mem_cons, ih]
        tauto

theorem insertAsc_ascending {n : Nat} (x : Fin n) {ys : List (Fin n)} (h : ys.Pairwise (· < ·)) :
    (insertAsc x ys).Pairwise (· < ·) := by
  induction ys with
  | nil => simp [insertAsc]
  | cons y ys ih =>
    have ⟨hy, hys⟩ := List.pairwise_cons.mp h
    unfold insertAsc
    split
    · rename_i hxy
      refine List.pairwise_cons.mpr ⟨fun z hz => ?_, h⟩
      rcases List.mem_cons.mp hz with rfl | hz
      · exact hxy
      · exact hxy.trans (hy z hz)
    · split
      · exact h
      · rename_i h₁ h₂
        refine List.pairwise_cons.mpr ⟨fun z hz => ?_, ih hys⟩
        rcases mem_insertAsc.mp hz with rfl | hz
        · exact lt_of_le_of_ne (not_lt.mp h₁) (Ne.symm h₂)
        · exact hy z hz

theorem firstFreeRoute_free {s : State} {r : RouteSlot} (h : firstFreeRoute s = some r) : s.route? r = none := by
  have := List.find?_some h
  simpa using this

theorem firstFreeClaim_free {s : State} {c : ClaimSlot} (h : firstFreeClaim s = some c) : s.claim? c = none := by
  have := List.find?_some h
  simpa using this

theorem firstFreeRoute_none {s : State} (h : firstFreeRoute s = none) (r : RouteSlot) : (s.route? r).isSome := by
  have := (List.find?_eq_none.mp h) r (mem_every r)
  simpa [Option.isSome_iff_ne_none] using this

theorem firstFreeClaim_none {s : State} (h : firstFreeClaim s = none) (c : ClaimSlot) : (s.claim? c).isSome := by
  have := (List.find?_eq_none.mp h) c (mem_every c)
  simpa [Option.isSome_iff_ne_none] using this

/-- The entry of a table rewritten as a whole. -/
@[simp] theorem look_map {α β : Type} {n : Nat} (f : α → β) (v : Vector α n) (i : Fin n) : look (v.map f) i = f (look v i) := by
  simp [look]

end Sys2Proof.Machine
end

