-- ==== Sys2Proof/Laws/Arbiter.lean ====
section
/-! SUPPORT. Laws/Arbiter.lean: all that the grant checks and grants of one event can do (arbitrate_afterChecks), and that they leave no
free entry beside an eligible claim (arbitrate_noIdleEntry). -/

namespace Sys2Proof.Machine

/-! ### The relation is reflexive and transitive -/

theorem EntryAfterChecks.refl (e : RouteEntry) : EntryAfterChecks e e := .inl rfl

theorem EntryAfterChecks.trans {a b c : RouteEntry} (h : EntryAfterChecks a b) (k : EntryAfterChecks b c) : EntryAfterChecks a c := by
  rcases h with rfl | ⟨rt, ha, hl, hp, rfl⟩ | ⟨ha, hg, rt, hb, hd⟩
  · exact k
  · rcases k with rfl | ⟨rt', hb, hl', -, -⟩ | ⟨hb, -⟩
    · exact .inr (.inl ⟨rt, ha, hl, hp, rfl⟩)
    · simp only [Option.some.injEq] at hb
      subst hb
      simp [Route.live] at hl'
    · simp at hb
  · rcases k with rfl | ⟨rt', hb', -, -, rfl⟩ | ⟨hb', -⟩
    · exact .inr (.inr ⟨ha, hg, rt, hb, hd⟩)
    · rw [hb] at hb'
      cases hb'
      exact .inr (.inr ⟨ha, hg, _, rfl, hd⟩)
    · rw [hb] at hb'
      cases hb'

theorem ClaimAfterChecks.refl (cl : Claim) : ClaimAfterChecks cl cl := .inl rfl

theorem ClaimAfterChecks.trans {a b c : Claim} (h : ClaimAfterChecks a b) (k : ClaimAfterChecks b c) : ClaimAfterChecks a c := by
  rcases h with rfl | ⟨hw, x, rfl⟩ | ⟨hw, r, rfl⟩
  · exact k
  · rcases k with rfl | ⟨-, y, rfl⟩ | ⟨-, r, rfl⟩
    · exact .inr (.inl ⟨hw, x, rfl⟩)
    · exact .inr (.inl ⟨hw, y, rfl⟩)
    · exact .inr (.inr ⟨hw, r, rfl⟩)
  · rcases k with rfl | ⟨hw', -⟩ | ⟨hw', -⟩
    · exact .inr (.inr ⟨hw, r, rfl⟩)
    · simp [Claim.waiting] at hw'
    · simp [Claim.waiting] at hw'

theorem RecordAfterChecks.refl (e : ClaimEntry) : RecordAfterChecks e e := by
  refine ⟨rfl, ?_⟩
  cases h : e.claim with
  | none => rfl
  | some cl => exact ⟨cl, rfl, .refl cl⟩

theorem RecordAfterChecks.trans {a b c : ClaimEntry} (h : RecordAfterChecks a b) (k : RecordAfterChecks b c) :
    RecordAfterChecks a c := by
  refine ⟨k.1.trans h.1, ?_⟩
  have h₂ := h.2
  have k₂ := k.2
  cases ha : a.claim with
  | none =>
    simp only [ha] at h₂
    simp only [h₂] at k₂
    exact k₂
  | some cl =>
    simp only [ha] at h₂
    obtain ⟨cl', hb, hab⟩ := h₂
    simp only [hb] at k₂
    obtain ⟨cl'', hc, hbc⟩ := k₂
    exact ⟨cl'', hc, hab.trans hbc⟩

theorem SessionsAfterChecks.refl (s : State) : SessionsAfterChecks s s :=
  ⟨fun _ => rfl, fun _ => rfl, fun _ => List.Subset.refl _, fun _ => List.Subset.refl _⟩

theorem SessionsAfterChecks.trans {s t u : State} (a : SessionsAfterChecks s t) (b : SessionsAfterChecks t u) :
    SessionsAfterChecks s u :=
  ⟨fun h => (b.attached h).trans (a.attached h), fun h => (b.epoch h).trans (a.epoch h),
    fun h _ hx => b.notedClaims h (a.notedClaims h hx), fun h _ hx => b.notedRoutes h (a.notedRoutes h hx)⟩

theorem AfterChecks.refl (s : State) : AfterChecks s s :=
  ⟨.refl s, .refl s, fun _ => .refl _, fun _ => .refl _, List.Sublist.refl _⟩

theorem AfterChecks.trans {s t u : State} (a : AfterChecks s t) (b : AfterChecks t u) : AfterChecks s u :=
  ⟨a.rest.trans b.rest, a.sessions.trans b.sessions, fun r => (a.routes r).trans (b.routes r),
    fun c => (a.claims c).trans (b.claims c), b.accepted.trans a.accepted⟩

/-! ### Small moves -/

theorem SessionsAfterChecks.of_sessions {s t : State} (h : t.sessions = s.sessions) : SessionsAfterChecks s t := by
  have k : ∀ g, t.session g = s.session g := fun g => by simp only [State.session, h]
  constructor <;> intro g <;> simp [k]

/-- A change of one session that attaches nobody, keeps the epoch and takes no reference out of the change set. -/
theorem updSession_afterChecks (s : State) (h : HostId) (f : Session → Session) (ha : ∀ e, (f e).attached = e.attached)
    (he : ∀ e, (f e).epoch = e.epoch) (hc : ∀ e, e.changes.claims ⊆ (f e).changes.claims)
    (hr : ∀ e, e.changes.routes ⊆ (f e).changes.routes) : SessionsAfterChecks s (s.updSession h f) := by
  constructor <;> intro g <;> rw [State.updSession_session] <;> split
  all_goals first | exact ha _ | exact he _ | exact hc _ | exact hr _ | rfl | exact List.Subset.refl _

theorem noteRoute_sessionsAfter (s : State) (h : HostId) (r : RouteSlot) : SessionsAfterChecks s (noteRoute h r s) :=
  updSession_afterChecks s h _ (fun _ => rfl) (fun _ => rfl) (fun _ => List.Subset.refl _)
    (fun _ _ hx => mem_insertAsc.mpr (.inr hx))

theorem noteClaim_sessionsAfter (s : State) (h : HostId) (c : ClaimSlot) : SessionsAfterChecks s (noteClaim h c s) :=
  updSession_afterChecks s h _ (fun _ => rfl) (fun _ => rfl) (fun _ _ hx => mem_insertAsc.mpr (.inr hx))
    (fun _ => List.Subset.refl _)

theorem unbindMembers_sessionsAfter (s : State) (h : HostId) (ms : List Member) : SessionsAfterChecks s (unbindMembers h ms s) :=
  updSession_afterChecks s h _ (fun _ => rfl) (fun _ => rfl) (fun _ => List.Subset.refl _) (fun _ => List.Subset.refl _)

theorem KeepsAllButLines.afterChecks {s t : State} (h : KeepsAllButLines s t) : AfterChecks s t :=
  ⟨h.rest, .of_sessions h.sessions, fun r => .inl (by simp only [State.routeEntry, h.routes]),
    fun c => by simpa only [State.claimEntry, h.claims] using RecordAfterChecks.refl (look s.claims c), by rw [h.accepted]⟩

theorem noteRoute_afterChecks (s : State) (h : HostId) (r : RouteSlot) : AfterChecks s (noteRoute h r s) :=
  ⟨noteRoute_keepsRest s h r, noteRoute_sessionsAfter s h r, fun _ => .refl _, fun _ => .refl _, List.Sublist.refl _⟩

theorem noteClaim_afterChecks (s : State) (h : HostId) (c : ClaimSlot) : AfterChecks s (noteClaim h c s) :=
  ⟨noteClaim_keepsRest s h c, noteClaim_sessionsAfter s h c, fun _ => .refl _, fun _ => .refl _, List.Sublist.refl _⟩

/-- The mark of a WAITING claim may change. -/
theorem updClaim_awaiting_afterChecks {s : State} {c : ClaimSlot} {x : Claim} (hx : s.claim? c = some x) (hw : x.waiting = true)
    (b : Bool) : AfterChecks s (s.updClaim c fun cl => { cl with awaiting := b }) := by
  refine ⟨by constructor <;> rfl, .of_sessions rfl, fun _ => .refl _, fun d => ?_, List.Sublist.refl _⟩
  show RecordAfterChecks _ (State.claimEntry (s.updClaimEntry c _) d)
  rw [State.updClaimEntry_claimEntry]
  split
  · rename_i e
    subst e
    have hx' : (s.claimEntry c).claim = some x := hx
    refine ⟨rfl, ?_⟩
    rw [hx']
    exact ⟨_, rfl, .inr (.inl ⟨hw, b, rfl⟩)⟩
  · exact .refl _

theorem markAwaiting_afterChecks {s : State} {c : ClaimSlot} {x : Claim} (hx : s.claim? c = some x) (hw : x.waiting = true) :
    AfterChecks s (markAwaiting c s) := updClaim_awaiting_afterChecks hx hw true

theorem unmarkAwaiting_afterChecks {s : State} {c : ClaimSlot} {x : Claim} (hx : s.claim? c = some x) (hw : x.waiting = true) :
    AfterChecks s (unmarkAwaiting c s) := updClaim_awaiting_afterChecks hx hw false

/-! ### Closing a route -/

/-- The entry of a live route after its closing; no other entry changes. -/
theorem closeRoute_routeEntry {s : State} {r : RouteSlot} {rt : Route} (h : s.route? r = some rt) (hl : rt.live = true)
    (why : CloseReason) (q : RouteSlot) :
    (closeRoute why r s).routeEntry q =
      if r = q then { s.routeEntry r with route := some { rt with state := .closed why, lease := none, forced := 0#8 } }
      else s.routeEntry q := by
  have hr : (closeRoute why r s).routes = (s.updRoute r fun x => { x with state := .closed why, lease := none, forced := 0#8 }).routes := by
    simp only [closeRoute, h, hl, if_true, noteRoute_routes, giveUp_routes]
  simp only [State.routeEntry, hr]
  show State.routeEntry (s.updRouteEntry r _) q = _
  rw [State.updRouteEntry_routeEntry]
  split
  · rename_i e
    subst e
    have h' : (s.routeEntry r).route = some rt := h
    rw [h']
    rfl
  · rfl

/-- The closing of a free entry or of a CLOSED route does nothing. -/
theorem closeRoute_idle {s : State} {r : RouteSlot} (h : ∀ rt, s.route? r = some rt → rt.live = false) (why : CloseReason) :
    closeRoute why r s = s := by
  unfold closeRoute
  split
  · rfl
  · rename_i rt hrt
    simp [h rt hrt]

theorem closeRoute_sessionsAfter (s : State) (r : RouteSlot) (why : CloseReason) : SessionsAfterChecks s (closeRoute why r s) := by
  unfold closeRoute
  split
  · exact .refl s
  · rename_i rt hrt
    split
    · refine SessionsAfterChecks.trans (t := giveUp r rt _) ?_ (noteRoute_sessionsAfter _ _ _)
      refine SessionsAfterChecks.trans (t := unbindMembers rt.owner rt.members _) ?_ (.of_sessions (giveUp_sessions _ _ _))
      exact SessionsAfterChecks.trans
        (t := s.updRoute r fun x => { x with state := .closed why, lease := none, forced := 0#8 }) (.of_sessions rfl)
        (unbindMembers_sessionsAfter _ _ _)
    · exact .refl s

/-- Preempting a DRIVER route of priority 0 to 2. -/
theorem closeRoute_afterChecks {s : State} {r : RouteSlot} (h : ∀ rt, s.route? r = some rt → rt.live = true → rt.preemptible = true) :
    AfterChecks s (closeRoute .preempted r s) := by
  refine ⟨closeRoute_keepsRest s r _, closeRoute_sessionsAfter s r _, fun q => ?_, fun c => ?_, ?_⟩
  · by_cases k : ∃ rt, s.route? r = some rt ∧ rt.live = true
    · obtain ⟨rt, hrt, hl⟩ := k
      rw [closeRoute_routeEntry hrt hl]
      split
      · rename_i e
        subst e
        exact .inr (.inl ⟨rt, hrt, hl, h rt hrt hl, rfl⟩)
      · exact .refl _
    · rw [closeRoute_idle fun rt hrt => ?_]
      · exact .refl _
      · cases hl : rt.live with
        | false => rfl
        | true => exact absurd ⟨rt, hrt, hl⟩ k
  · simpa only [State.claimEntry, closeRoute_claims] using RecordAfterChecks.refl (s.claimEntry c)
  · rw [closeRoute_accepted]

/-! ### The grant check -/

/-- What grant checks make of a live preemptible route: it stays, or it is CLOSED. -/
theorem AfterChecks.preemptible {s t : State} (a : AfterChecks s t) {r : RouteSlot} {rt : Route} (h : s.route? r = some rt)
    (hp : rt.preemptible = true) (rt' : Route) (h' : t.route? r = some rt') : rt'.preemptible = true := by
  have h₁ : (s.routeEntry r).route = some rt := h
  have h₂ : (t.routeEntry r).route = some rt' := h'
  rcases a.routes r with e | ⟨x, hx, -, -, e⟩ | ⟨e, -⟩
  · rw [e, h₁] at h₂
    cases h₂
    exact hp
  · rw [h₁] at hx
    cases hx
    rw [e] at h₂
    cases h₂
    exact hp
  · rw [h₁] at e
    cases e

theorem lineDriver_route {s : State} {l : LineNo} {r : RouteSlot} {rt : Route} (h : lineDriver s l = some (r, rt)) :
    (s.line l).driver = some r ∧ s.route? r = some rt ∧ rt.live = true ∧ rt.isDriver = true := by
  unfold lineDriver at h
  split at h
  · cases h
  · rename_i q hd
    split at h
    · cases h
    · rename_i x hx
      split at h
      · rename_i hl
        cases h
        simp only [Bool.and_eq_true] at hl
        exact ⟨hd, hx, hl.1, hl.2⟩
      · cases h

theorem driversOn_route {s : State} {ls : List LineNo} {p : RouteSlot × Route} (h : p ∈ driversOn s ls) :
    s.route? p.1 = some p.2 ∧ p.2.live = true ∧ p.2.isDriver = true := by
  obtain ⟨l, -, hl⟩ := List.mem_filterMap.mp h
  obtain ⟨-, k⟩ := lineDriver_route (show lineDriver s l = some (p.1, p.2) from hl)
  exact k

/-- Preempting several routes, each of which was preemptible. -/
theorem closeAll_afterChecks (s : State) (ps : List (RouteSlot × Route)) (h : ∀ p ∈ ps, s.route? p.1 = some p.2 ∧ p.2.preemptible = true) :
    AfterChecks s (ps.foldl (fun t p => closeRoute .preempted p.1 t) s) := by
  suffices k : ∀ t, AfterChecks s t → AfterChecks s (ps.foldl (fun t p => closeRoute .preempted p.1 t) t) from k s (.refl s)
  induction ps with
  | nil => exact fun _ a => a
  | cons p ps ih =>
    intro t a
    obtain ⟨hp, hq⟩ := h p (List.mem_cons_self ..)
    exact ih (fun q hq => h q (List.mem_cons_of_mem _ hq)) _
      (a.trans (closeRoute_afterChecks fun rt hrt _ => a.preemptible hp hq rt hrt))

theorem grantCheck_afterChecks (s : State) (c : ClaimSlot) : AfterChecks s (grantCheck c s).1 := by
  unfold grantCheck
  split
  · exact .refl s
  · rename_i cl hcl
    dsimp only
    split
    · exact .refl s
    · rename_i hw
      have hw : cl.waiting = true := by simpa using hw
      split
      · exact unmarkAwaiting_afterChecks hcl hw
      · split
        · exact markAwaiting_afterChecks hcl hw
        · split
          · rename_i hd
            simp only [Bool.and_eq_true, List.all_eq_true] at hd
            refine (closeAll_afterChecks s _ fun p hp => ⟨(driversOn_route hp).1, hd.2 p hp⟩).trans
              (markAwaiting_afterChecks ?_ hw)
            exact (foldl_keeps (fun t => t.claim? c) (fun t p => by simp only [State.claim?, State.claimEntry, closeRoute_claims])
              _ s).trans hcl
          · exact .refl s

theorem checkLine_afterChecks (s : State) (l : LineNo) : AfterChecks s (checkLine l s).1 := by
  have a := (setLineState_keeps s l).afterChecks
  unfold checkLine
  dsimp only
  split
  · exact a
  · exact a.trans (grantCheck_afterChecks _ _)

theorem checkLines_afterChecks (s : State) (ls : List LineNo) : AfterChecks s (checkLines ls s).1 := by
  induction ls generalizing s with
  | nil => exact .refl s
  | cons l ls ih => exact (checkLine_afterChecks s l).trans (ih _)

theorem checkAll_afterChecks (n : Nat) (ls : List LineNo) (s : State) : AfterChecks s (checkAll n ls s) := by
  induction n generalizing ls s with
  | zero => exact .refl s
  | succ n ih =>
    cases ls with
    | nil => exact .refl s
    | cons l ls => exact (checkLines_afterChecks s (l :: ls)).trans (ih _ _)

/-! ### The grant -/

theorem bestAwaiting_claim {s : State} {c : ClaimSlot} (h : bestAwaiting s = some c) :
    c ∈ s.accepted ∧ ∃ cl, s.claim? c = some cl ∧ cl.waiting = true ∧ cl.awaiting = true := by
  obtain ⟨p, -, hp⟩ := List.exists_of_findSome?_eq_some h
  refine ⟨List.mem_of_find?_eq_some hp, ?_⟩
  have k := List.find?_some hp
  unfold awaitsAt at k
  split at k
  · cases k
  · rename_i cl hcl
    simp only [Bool.and_eq_true] at k
    exact ⟨cl, hcl, k.1.1, k.1.2⟩

theorem settleGranted_routes (c : ClaimSlot) (cl : Claim) (r : RouteSlot) (s : State) :
    (settleGranted c cl r s).routes = s.routes := (leaveQueues_keeps s c _).routes

theorem settleGranted_keepsRest (c : ClaimSlot) (cl : Claim) (r : RouteSlot) (s : State) :
    KeepsRest s (settleGranted c cl r s) :=
  ((leaveQueues_keeps s c _).rest.trans (leaveAccepted_keepsRest _ c)).trans (by constructor <;> rfl)

theorem settleGranted_accepted (c : ClaimSlot) (cl : Claim) (r : RouteSlot) (s : State) :
    (settleGranted c cl r s).accepted = s.accepted.filter (· ≠ c) := by
  show (leaveQueues c _ s).accepted.filter _ = _
  rw [(leaveQueues_keeps s c _).accepted]

theorem settleGranted_claims (c : ClaimSlot) (cl : Claim) (r : RouteSlot) (s : State) :
    (settleGranted c cl r s).claims =
      (s.updClaim c fun x => { x with state := .granted r, waitLimit := none, awaiting := false }).claims := by
  unfold settleGranted
  simp only [State.updSession_claims, bindMembers_claims, State.updClaim, State.updClaimEntry, leaveAccepted_claims,
    (leaveQueues_keeps s c _).claims]

theorem settleGranted_sessions (c : ClaimSlot) (cl : Claim) (r : RouteSlot) (s : State) :
    (settleGranted c cl r s).sessions =
      ((bindMembers cl.owner (.route r) cl.members s).updSession cl.owner fun e =>
        { e with waitingClaims := e.waitingClaims - 1, routesInUse := e.routesInUse + 1 }).sessions := by
  unfold settleGranted bindMembers
  simp only [State.updSession, State.updClaim, State.updClaimEntry, leaveAccepted_sessions, (leaveQueues_keeps s c _).sessions]

theorem settleGranted_sessionsAfter (c : ClaimSlot) (cl : Claim) (r : RouteSlot) (s : State) :
    SessionsAfterChecks s (settleGranted c cl r s) := by
  refine SessionsAfterChecks.trans (t := (bindMembers cl.owner (.route r) cl.members s).updSession cl.owner fun e =>
    { e with waitingClaims := e.waitingClaims - 1, routesInUse := e.routesInUse + 1 }) ?_
    (.of_sessions (settleGranted_sessions c cl r s))
  refine SessionsAfterChecks.trans (t := bindMembers cl.owner (.route r) cl.members s) ?_ ?_
  · exact updSession_afterChecks s _ _ (fun _ => rfl) (fun _ => rfl) (fun _ => List.Subset.refl _) (fun _ => List.Subset.refl _)
  · exact updSession_afterChecks _ _ _ (fun _ => rfl) (fun _ => rfl) (fun _ => List.Subset.refl _) (fun _ => List.Subset.refl _)

/-- The state of a grant up to the claim's settling. -/
def grantBase (c : ClaimSlot) (cl : Claim) (r : RouteSlot) (s : State) : State :=
  settleGranted c cl r (takeLines r (linesOf cl.members) (takeEntry r (grantedRoute s cl) s))

/-- A grant is its base, then moves that touch change sets and line records and perhaps activate the new route. -/
theorem grant_cases {own : Option ClaimSlot} {c : ClaimSlot} {r : RouteSlot} {s : State} {cl : Claim} (h : s.claim? c = some cl) :
    ∃ t u, (t = grantBase c cl r s ∨ t = noteRoute cl.owner r (noteClaim cl.owner c (grantBase c cl r s))) ∧
      (u = t ∨ u = activate r t ∨ u = noteRoute cl.owner r (activate r t)) ∧
      (grant own c r s).1 = (linesOf cl.members).foldl (fun t l => setLineState l t) u := by
  unfold grant
  simp only [h]
  refine ⟨if own = some c then grantBase c cl r s else noteRoute cl.owner r (noteClaim cl.owner c (grantBase c cl r s)), _, ?_, ?_, rfl⟩
  · split
    · exact .inl rfl
    · exact .inr rfl
  · by_cases hb : longestBreak s (linesOf cl.members) = 0
    · by_cases hf : anyForced (activate r (if own = some c then grantBase c cl r s
          else noteRoute cl.owner r (noteClaim cl.owner c (grantBase c cl r s)))) r = true
      · exact .inr (.inr (by simp [hb, grantBase] at hf ⊢; simp [hf]))
      · exact .inr (.inl (by simp [hb, grantBase] at hf ⊢; simp [hf]))
    · exact .inl (by simp [hb, grantBase])

/-- The entries a route's activation leaves: the route's own with its state and forced set changed. -/
theorem activate_routeEntry (r : RouteSlot) (s : State) (q : RouteSlot) :
    (activate r s).routeEntry q =
      if r = q then { s.routeEntry q with route := (s.route? q).map fun rt =>
        { rt with state := .active, forced := heldMembers s 0 rt.members, forcedSince := rt.forcedSince || heldMembers s 0 rt.members != 0#8 } }
      else s.routeEntry q := by
  unfold activate
  split
  · rename_i h
    split
    · rename_i e
      subst e
      have h' : (s.routeEntry r).route = none := h
      rw [h]
      cases k : s.routeEntry r
      rw [k] at h'
      cases h'
      rfl
    · rfl
  · rename_i rt h
    dsimp only
    have := (setLineStates_keep (s.updRoute r fun x =>
      { x with state := .active, forced := heldMembers s 0 rt.members, forcedSince := x.forcedSince || heldMembers s 0 rt.members != 0#8 })
      (linesOf rt.members)).routes
    simp only [State.routeEntry, this]
    show State.routeEntry (s.updRouteEntry r _) q = _
    rw [State.updRouteEntry_routeEntry]
    split
    · rename_i e
      subst e
      have h' : (s.routeEntry r).route = some rt := h
      rw [h, h']
      rfl
    · rfl

theorem grantBase_routes (c : ClaimSlot) (cl : Claim) (r : RouteSlot) (s : State) :
    (grantBase c cl r s).routes = (takeEntry r (grantedRoute s cl) s).routes := by
  rw [grantBase, settleGranted_routes, (takeLines_keeps _ _ _).routes]

/-- A grant fills the entry it is given, under the next generation, with a DRIVER route of the claim's owner and members; no other
entry changes. -/
theorem grant_routeEntry (own : Option ClaimSlot) {c : ClaimSlot} {r : RouteSlot} {s : State} {cl : Claim} (h : s.claim? c = some cl)
    (q : RouteSlot) :
    (r ≠ q → (grant own c r s).1.routeEntry q = s.routeEntry q) ∧
    (r = q → ((grant own c r s).1.routeEntry q).generation = (s.routeEntry q).generation + 1#8 ∧
      ∃ rt, ((grant own c r s).1.routeEntry q).route = some rt ∧ rt.owner = cl.owner ∧ rt.kind = .driver cl.priority cl.mode ∧
        rt.members = cl.members ∧ rt.lease = leaseFor s cl.leaseRequested (linesOf cl.members) ∧ rt.leaseClamped = false ∧
        rt.live = true) := by
  obtain ⟨t, u, ht, hu, hg⟩ := grant_cases (own := own) (r := r) h
  have tq : t.routeEntry q = (s.updRouteEntry r fun e => { generation := e.generation + 1#8, route := some (grantedRoute s cl) }).routeEntry q := by
    rcases ht with rfl | rfl
    · simp only [State.routeEntry, grantBase_routes]; rfl
    · simp only [State.routeEntry, noteRoute_routes, noteClaim_routes, grantBase_routes]; rfl
  rw [State.updRouteEntry_routeEntry] at tq
  have gq : (grant own c r s).1.routeEntry q = u.routeEntry q := by
    rw [hg]
    simp only [State.routeEntry, (setLineStates_keep u _).routes]
  rw [gq]
  have uq : u.routeEntry q = t.routeEntry q ∨ u.routeEntry q = (activate r t).routeEntry q := by
    rcases hu with rfl | rfl | rfl
    · exact .inl rfl
    · exact .inr rfl
    · exact .inr rfl
  constructor
  · intro hrq
    rw [if_neg hrq] at tq
    rcases uq with e | e <;> rw [e]
    · exact tq
    · rw [activate_routeEntry, if_neg hrq]
      exact tq
  · intro hrq
    rw [if_pos hrq] at tq
    have tq' : t.route? q = some (grantedRoute s cl) := by
      show (t.routeEntry q).route = _
      rw [tq]
    rcases uq with e | e <;> rw [e]
    · rw [tq]
      exact ⟨rfl, _, rfl, rfl, rfl, rfl, rfl, rfl, rfl⟩
    · rw [activate_routeEntry, if_pos hrq, tq', tq]
      exact ⟨rfl, _, rfl, rfl, rfl, rfl, rfl, rfl, rfl⟩

/-- A grant settles its claim GRANTED with a reference to the entry; no other claim changes. -/
theorem grant_claimEntry (own : Option ClaimSlot) {c : ClaimSlot} {r : RouteSlot} {s : State} {cl : Claim} (h : s.claim? c = some cl)
    (d : ClaimSlot) :
    (grant own c r s).1.claimEntry d =
      if c = d then { s.claimEntry d with claim := some { cl with state := .granted r, waitLimit := none, awaiting := false } }
      else s.claimEntry d := by
  obtain ⟨t, u, ht, hu, hg⟩ := grant_cases (own := own) (r := r) h
  have tc : t.claims = (s.updClaim c fun x => { x with state := .granted r, waitLimit := none, awaiting := false }).claims := by
    have k : (grantBase c cl r s).claims = (s.updClaim c fun x => { x with state := .granted r, waitLimit := none, awaiting := false }).claims := by
      rw [grantBase, settleGranted_claims]
      simp only [State.updClaim, State.updClaimEntry, (takeLines_keeps _ r _).claims, takeEntry_claims]
    rcases ht with rfl | rfl
    · exact k
    · rw [noteRoute_claims, noteClaim_claims, k]
  have uc : u.claims = t.claims := by
    rcases hu with rfl | rfl | rfl
    · rfl
    · exact activate_claims _ _
    · rw [noteRoute_claims, activate_claims]
  rw [hg]
  simp only [State.claimEntry, (setLineStates_keep u _).claims, uc, tc]
  show State.claimEntry (s.updClaimEntry c _) d = _
  rw [State.updClaimEntry_claimEntry]
  split
  · rename_i e
    subst e
    have h' : (s.claimEntry c).claim = some cl := h
    rw [h']
    rfl
  · rfl

theorem grant_accepted (own : Option ClaimSlot) {c : ClaimSlot} {r : RouteSlot} {s : State} {cl : Claim} (h : s.claim? c = some cl) :
    (grant own c r s).1.accepted = s.accepted.filter (· ≠ c) := by
  obtain ⟨t, u, ht, hu, hg⟩ := grant_cases (own := own) (r := r) h
  have ta : t.accepted = s.accepted.filter (· ≠ c) := by
    have k : (grantBase c cl r s).accepted = s.accepted.filter (· ≠ c) := by
      rw [grantBase, settleGranted_accepted, (takeLines_keeps _ _ _).accepted]
      rfl
    rcases ht with rfl | rfl
    · exact k
    · rw [noteRoute_accepted, noteClaim_accepted, k]
  rw [hg, (setLineStates_keep u _).accepted]
  rcases hu with rfl | rfl | rfl
  · exact ta
  · rw [activate_accepted, ta]
  · rw [noteRoute_accepted, activate_accepted, ta]

theorem grant_afterChecks (own : Option ClaimSlot) {c : ClaimSlot} {r : RouteSlot} {s : State} {cl : Claim} (h : s.claim? c = some cl)
    (hw : cl.waiting = true) (hr : s.route? r = none) : AfterChecks s (grant own c r s).1 := by
  obtain ⟨t, u, ht, hu, hg⟩ := grant_cases (own := own) (r := r) h
  have base : KeepsRest s (grantBase c cl r s) ∧ SessionsAfterChecks s (grantBase c cl r s) :=
    ⟨((takeEntry_keepsRest s r _).trans (takeLines_keeps _ r _).rest).trans (settleGranted_keepsRest c cl r _),
      SessionsAfterChecks.trans (.of_sessions ((takeLines_keeps _ r _).sessions.trans (takeEntry_sessions s r _)))
        (settleGranted_sessionsAfter c cl r _)⟩
  have tk : KeepsRest s t ∧ SessionsAfterChecks s t := by
    rcases ht with rfl | rfl
    · exact base
    · exact ⟨(base.1.trans (noteClaim_keepsRest ..)).trans (noteRoute_keepsRest ..),
        (base.2.trans (noteClaim_sessionsAfter ..)).trans (noteRoute_sessionsAfter ..)⟩
  have uk : KeepsRest s u ∧ SessionsAfterChecks s u := by
    rcases hu with rfl | rfl | rfl
    · exact tk
    · exact ⟨tk.1.trans (activate_keepsRest ..), tk.2.trans (.of_sessions (activate_sessions ..))⟩
    · exact ⟨(tk.1.trans (activate_keepsRest ..)).trans (noteRoute_keepsRest ..),
        (tk.2.trans (.of_sessions (activate_sessions ..))).trans (noteRoute_sessionsAfter ..)⟩
  refine ⟨?_, ?_, fun q => ?_, fun d => ?_, ?_⟩
  · rw [hg]
    exact uk.1.trans (setLineStates_keep u _).rest
  · rw [hg]
    exact uk.2.trans (.of_sessions (setLineStates_keep u _).sessions)
  · by_cases e : r = q
    · obtain ⟨hgen, rt, hrt, -, hk, -⟩ := (grant_routeEntry own (r := r) h q).2 e
      subst e
      exact .inr (.inr ⟨hr, hgen, rt, hrt, by simp [Route.isDriver, hk]⟩)
    · rw [(grant_routeEntry own (r := r) h q).1 e]
      exact .refl _
  · rw [grant_claimEntry own h]
    split
    · rename_i e
      subst e
      refine ⟨rfl, ?_⟩
      have h' : (s.claimEntry c).claim = some cl := h
      rw [h']
      exact ⟨_, rfl, .inr (.inr ⟨hw, r, rfl⟩)⟩
    · exact .refl _
  · rw [grant_accepted own h]
    exact List.filter_sublist ..

theorem grantAll_afterChecks (own : Option ClaimSlot) (n : Nat) (s : State) : AfterChecks s (grantAll own n s) := by
  induction n generalizing s with
  | zero => exact .refl s
  | succ n ih =>
    unfold grantAll
    split
    · rename_i c r hc hr
      obtain ⟨-, cl, hcl, hw, -⟩ := bestAwaiting_claim hc
      exact ((grant_afterChecks own hcl hw (firstFreeRoute_free hr)).trans (checkAll_afterChecks ..)).trans (ih _)
    · exact .refl s

theorem dropDisplaced_afterChecks (s : State) : AfterChecks s (dropDisplaced s) := by
  refine foldl_rel AfterChecks.refl AfterChecks.trans (fun t c => ?_) s.accepted s
  split
  · exact .refl t
  · rename_i cl hcl
    split
    · rename_i hw
      exact unmarkAwaiting_afterChecks hcl (by simpa using (Bool.and_eq_true_iff.mp hw).1)
    · exact .refl t

/-- All that the Line Arbiter's part of an event can do. -/
theorem arbitrate_afterChecks (own : Option ClaimSlot) (ls : List LineNo) (s : State) : AfterChecks s (arbitrate own ls s) := by
  unfold arbitrate
  dsimp only
  split
  · exact ((dropDisplaced_afterChecks s).trans (checkAll_afterChecks ..)).trans (grantAll_afterChecks ..)
  · exact (((dropDisplaced_afterChecks s).trans (grantCheck_afterChecks ..)).trans (checkAll_afterChecks ..)).trans
      (grantAll_afterChecks ..)

/-! ### No free entry beside an eligible claim -/

/-- The WAITING claims. -/
def waitingSlots (s : State) : List ClaimSlot := (every 32).filter fun c => ((s.claim? c).map Claim.waiting).getD false

/-- Grant checks make no claim WAITING. -/
theorem AfterChecks.waiting {s t : State} (a : AfterChecks s t) (c : ClaimSlot)
    (h : ((t.claim? c).map Claim.waiting).getD false = true) : ((s.claim? c).map Claim.waiting).getD false = true := by
  have k := (a.claims c).2
  have ht : t.claim? c = (t.claimEntry c).claim := rfl
  have hs : s.claim? c = (s.claimEntry c).claim := rfl
  rw [ht] at h
  rw [hs]
  cases hc : (s.claimEntry c).claim with
  | none =>
    simp only [hc] at k
    rw [k] at h
    exact h
  | some cl =>
    simp only [hc] at k
    obtain ⟨cl', hc', hk⟩ := k
    rw [hc'] at h
    rcases hk with rfl | ⟨hw, -⟩ | ⟨hw, -⟩
    · exact h
    · exact hw
    · exact hw

theorem AfterChecks.waitingSlots_sublist {s t : State} (a : AfterChecks s t) : (waitingSlots t).Sublist (waitingSlots s) := by
  unfold waitingSlots
  exact List.monotone_filter_right _ fun c h => a.waiting c h

/-- After enough rounds there is no free entry beside an eligible claim. -/
theorem grantAll_noIdleEntry (own : Option ClaimSlot) (n : Nat) (s : State) (h : (waitingSlots s).length < n) :
    NoIdleEntry (grantAll own n s) := by
  induction n generalizing s with
  | zero => exact absurd h (Nat.not_lt_zero _)
  | succ n ih =>
    unfold grantAll
    split
    · rename_i c r hc hr
      refine ih _ (Nat.lt_of_lt_of_le ?_ (Nat.lt_succ_iff.mp h))
      obtain ⟨-, cl, hcl, hw, -⟩ := bestAwaiting_claim hc
      have a₁ := grant_afterChecks own (r := r) hcl hw (firstFreeRoute_free hr)
      have a := a₁.trans (checkAll_afterChecks checkRounds (grant own c r s).2 (grant own c r s).1)
      have sub := a.waitingSlots_sublist
      refine lt_of_le_of_ne sub.length_le fun e => ?_
      have eq := sub.eq_of_length e
      have hin : c ∈ waitingSlots s := List.mem_filter.mpr ⟨mem_every c, by simp [hcl, hw]⟩
      rw [← eq] at hin
      have hin₂ := (checkAll_afterChecks checkRounds (grant own c r s).2 (grant own c r s).1).waitingSlots_sublist.subset hin
      have k := (List.mem_filter.mp hin₂).2
      rw [show (grant own c r s).1.claim? c = ((grant own c r s).1.claimEntry c).claim from rfl, grant_claimEntry own hcl] at k
      simp [Claim.waiting] at k
    · rename_i h'
      by_cases hr : firstFreeRoute s = none
      · exact .inl hr
      · by_cases hc : bestAwaiting s = none
        · exact .inr hc
        · obtain ⟨c, hc⟩ := Option.ne_none_iff_exists'.mp hc
          obtain ⟨r, hr⟩ := Option.ne_none_iff_exists'.mp hr
          exact absurd hr (h' c r hc)

theorem arbitrate_noIdleEntry (own : Option ClaimSlot) (ls : List LineNo) (s : State) : NoIdleEntry (arbitrate own ls s) := by
  have small : ∀ t, (waitingSlots t).length < grantRounds := fun t => by
    have := List.length_filter_le (fun c => ((t.claim? c).map Claim.waiting).getD false) (every 32)
    rw [show (every 32).length = 32 from rfl] at this
    exact Nat.lt_succ_of_le this
  exact grantAll_noIdleEntry _ _ _ (small _)

end Sys2Proof.Machine
end

