-- ==== Sys2Proof/Laws/Groups.lean ====
section
/-! SUPPORT. Laws/Groups.lean: what handing on a change of held status can do, what a fault input does, and the kinds and bytes of a
transaction. -/

namespace Sys2Proof.Machine

/-! ### Held status -/

/-- Held status follows from policies and groups alone. -/
theorem State.held_congr {s t : State} (hp : t.policies = s.policies) (hg : t.groups = s.groups) (l : LineNo) : t.held l = s.held l := by
  simp only [State.held, State.policy, State.group, hp, hg]

section

variable (s : State) (l : LineNo)

/-- Where no ACTIVE DRIVER route has a member on the line, nothing is handed on. -/
theorem passHeldOn_idle (h : ∀ r rt, lineDriver s l = some (r, rt) → rt.active = false) : passHeldOn l s = s := by
  unfold passHeldOn
  split
  · rfl
  · rename_i r rt d
    rw [h r rt d]
    rfl

/-- All that handing on one line's held status can do: nothing, or the member's bit set or cleared and the route told. -/
theorem passHeldOn_cases : passHeldOn l s = s ∨ ∃ r rt i, lineDriver s l = some (r, rt) ∧ rt.active = true ∧
    memberIndex rt.members l = some i ∧ passHeldOn l s = noteRoute rt.owner r (s.updRoute r fun x =>
      if s.held l then { x with forced := x.forced ||| memberBit i, forcedSince := true }
      else { x with forced := x.forced &&& ~~~memberBit i }) := by
  unfold passHeldOn
  split
  · exact .inl rfl
  · rename_i r rt d
    split
    · rename_i active
      split
      · exact .inl rfl
      · rename_i i m
        exact .inr ⟨r, rt, i, d, active, m, rfl⟩
    · exact .inl rfl

theorem passHeldOn_keepsRest : KeepsRest s (passHeldOn l s) := by
  obtain h | ⟨r, rt, i, -, -, -, h⟩ := passHeldOn_cases s l
  · rw [h]
    exact .refl s
  · rw [h]
    constructor <;> rfl

@[simp] theorem passHeldOn_claims : (passHeldOn l s).claims = s.claims := by
  obtain h | ⟨_, _, _, -, -, -, h⟩ := passHeldOn_cases s l
  · rw [h]
  · rw [h]
    rfl

@[simp] theorem passHeldOn_accepted : (passHeldOn l s).accepted = s.accepted := by
  obtain h | ⟨_, _, _, -, -, -, h⟩ := passHeldOn_cases s l
  · rw [h]
  · rw [h]
    rfl

@[simp] theorem passHeldOn_lines : (passHeldOn l s).lines = s.lines := by
  obtain h | ⟨_, _, _, -, -, -, h⟩ := passHeldOn_cases s l
  · rw [h]
  · rw [h]
    rfl

end

section

variable (before s : State)

theorem passHeldChanges_keepsRest : KeepsRest s (passHeldChanges before s) :=
  foldl_rel KeepsRest.refl (fun a b => a.trans b) (fun t l => passHeldOn_keepsRest t l) _ s

@[simp] theorem passHeldChanges_claims : (passHeldChanges before s).claims = s.claims :=
  foldl_keeps State.claims passHeldOn_claims _ s

@[simp] theorem passHeldChanges_accepted : (passHeldChanges before s).accepted = s.accepted :=
  foldl_keeps State.accepted passHeldOn_accepted _ s

@[simp] theorem passHeldChanges_lines : (passHeldChanges before s).lines = s.lines :=
  foldl_keeps State.lines passHeldOn_lines _ s

@[simp] theorem passHeldChanges_held (l : LineNo) : (passHeldChanges before s).held l = s.held l :=
  State.held_congr (passHeldChanges_keepsRest before s).policies (passHeldChanges_keepsRest before s).groups l

end

/-! ### Fault inputs -/

/-- All that a change at a fault pin does to its qualifier (R106). -/
theorem faultPin_qualifier (g : GroupNo) (level : Level) (s : State) : (faultPin g level s).qualifier g =
    if (s.qualifier g).pin = level then s.qualifier g
    else if s.inReset then { s.qualifier g with pin := level, due := [], count := none }
    else { s.qualifier g with due := (s.qualifier g).dueOnReturn }.recount level :=
  State.updQualifier_qualifier_same s g _

@[simp] theorem Qualifier.recount_pin (level : Level) (q : Qualifier) : (q.recount level).pin = level := rfl
@[simp] theorem Qualifier.recount_qualified (level : Level) (q : Qualifier) : (q.recount level).qualified = q.qualified := rfl
@[simp] theorem Qualifier.recount_due (level : Level) (q : Qualifier) : (q.recount level).due = q.due := rfl

theorem Qualifier.dueOnReturn_running {q : Qualifier} (h : q.count ≠ some 0) : q.dueOnReturn = q.due := if_neg h

theorem Qualifier.dueOnReturn_ended {q : Qualifier} (h : q.count = some 0) : q.dueOnReturn = q.due ++ [q.pin] := if_pos h

theorem Qualifier.lastDue_none {q : Qualifier} (h : q.due = []) : q.lastDue = q.qualified := by
  unfold Qualifier.lastDue
  rw [h]
  rfl

theorem Qualifier.lastDue_append {q : Qualifier} {ls : List Level} {l : Level} (h : q.due = ls ++ [l]) : q.lastDue = l := by
  unfold Qualifier.lastDue
  rw [h, List.getLast?_append]
  rfl

/-! ### Transactions -/

@[simp] theorem Transaction.none_sent (i : Nat) : Transaction.none.sent i = Option.none := by cases i <;> rfl
@[simp] theorem Transaction.begun_sent_zero (st : Byte) : (Transaction.begun st).sent 0 = some st := rfl
@[simp] theorem Transaction.begun_sent_succ (st : Byte) (i : Nat) : (Transaction.begun st).sent (i + 1) = some 0x00#8 := rfl
@[simp] theorem Transaction.sending_sent_zero (st : Byte) (bs : List Byte) : (Transaction.sending st bs).sent 0 = some st := rfl
@[simp] theorem Transaction.sending_sent_succ (st : Byte) (bs : List Byte) (i : Nat) :
    (Transaction.sending st bs).sent (i + 1) = some (bs.getD i 0x00#8) := rfl

/-- What the deassertion of SELn can do: judge the frame of a transaction without a kind yet, or end the transaction and nothing else. -/
theorem endTransaction_cases (frame : Option (List Byte)) (p : Port) :
    (∃ st bytes, p.transaction = .begun st ∧ frame = some bytes ∧ endTransaction frame p = writeFrame bytes p) ∨
      ((frame = none ∨ ∀ st, p.transaction ≠ .begun st) ∧ endTransaction frame p = p.deselect) := by
  unfold endTransaction
  cases frame with
  | none => exact .inr ⟨.inl rfl, by split <;> first | rfl | contradiction⟩
  | some bytes =>
    cases h : p.transaction with
    | begun st => exact .inl ⟨st, bytes, rfl, rfl, rfl⟩
    | none => exact .inr ⟨.inr (fun _ e => by cases e), rfl⟩
    | sending st bs => exact .inr ⟨.inr (fun _ e => by cases e), rfl⟩

@[simp] theorem endTransaction_transaction (frame : Option (List Byte)) (p : Port) :
    (endTransaction frame p).transaction = .none := by
  obtain ⟨_, _, _, _, h⟩ | ⟨_, h⟩ := endTransaction_cases frame p <;> rw [h] <;> rfl

@[simp] theorem endTransaction_replies (frame : Option (List Byte)) (p : Port) : (endTransaction frame p).replies = p.replies := by
  obtain ⟨_, _, _, _, h⟩ | ⟨_, h⟩ := endTransaction_cases frame p <;> rw [h] <;> rfl

@[simp] theorem endTransaction_lastRead (frame : Option (List Byte)) (p : Port) : (endTransaction frame p).lastRead = p.lastRead := by
  obtain ⟨_, _, _, _, h⟩ | ⟨_, h⟩ := endTransaction_cases frame p <;> rw [h] <;> rfl

/-- The bytes that the table of R133 does not name are of unknown kind. -/
theorem kindOf_unknown {kind : Byte} : kindOf kind = .unknown ↔ kind ∉ [0x31#8, 0x32#8, 0x33#8, 0x3C#8] := by
  unfold kindOf
  repeat' split
  all_goals simp_all

end Sys2Proof.Machine
end

