-- ==== Sys2Proof/Laws/Grants.lean ====
section
/-! SUPPORT. Laws/Grants.lean: every grant that the Line Arbiter's part of an event makes (arbitrate_grants): the route it creates, the
entry it takes and the references it places. -/

namespace Sys2Proof.Machine

/-! ### What a grant reads -/

theorem longestBreak_congr {s t : State} (h : t.policies = s.policies) (ls : List LineNo) : longestBreak t ls = longestBreak s ls := by
  simp only [longestBreak, State.policy, h]

theorem leaseFor_congr {s t : State} (h : t.policies = s.policies) (n : Nat) (ls : List LineNo) : leaseFor t n ls = leaseFor s n ls := by
  cases s
  cases t
  simp only at h
  subst h
  rfl

theorem heldMembers_congr {s t : State} (hp : t.policies = s.policies) (hg : t.groups = s.groups) (i : Nat) (ms : List Member) :
    heldMembers t i ms = heldMembers s i ms := by
  induction ms generalizing i with
  | nil => rfl
  | cons m ms ih => simp only [heldMembers, State.held_congr hp hg, ih]

/-! ### Checks grant nothing -/

/-- No claim settles and no entry is taken. -/
structure NoGrants (s t : State) : Prop where
  state : ∀ c, (t.claim? c).map (·.state) = (s.claim? c).map (·.state)
  generation : ∀ r, (t.routeEntry r).generation = (s.routeEntry r).generation

theorem NoGrants.refl (s : State) : NoGrants s s := ⟨fun _ => rfl, fun _ => rfl⟩

theorem NoGrants.trans {s t u : State} (a : NoGrants s t) (b : NoGrants t u) : NoGrants s u :=
  ⟨fun c => (b.state c).trans (a.state c), fun r => (b.generation r).trans (a.generation r)⟩

theorem KeepsAllButLines.noGrants {s t : State} (h : KeepsAllButLines s t) : NoGrants s t :=
  ⟨fun c => by simp only [State.claim?, State.claimEntry, h.claims], fun r => by simp only [State.routeEntry, h.routes]⟩

theorem updClaim_awaiting_noGrants (s : State) (c : ClaimSlot) (b : Bool) :
    NoGrants s (s.updClaim c fun cl => { cl with awaiting := b }) := by
  refine ⟨fun d => ?_, fun _ => rfl⟩
  show (State.claimEntry (s.updClaimEntry c _) d).claim.map _ = _
  rw [State.updClaimEntry_claimEntry]
  split
  · simp only [Option.map_map]
    rfl
  · rfl

theorem closeRoute_noGrants (s : State) (r : RouteSlot) (why : CloseReason) : NoGrants s (closeRoute why r s) := by
  refine ⟨fun c => by simp only [State.claim?, State.claimEntry, closeRoute_claims], fun q => ?_⟩
  by_cases k : ∃ rt, s.route? r = some rt ∧ rt.live = true
  · obtain ⟨rt, hrt, hl⟩ := k
    rw [closeRoute_routeEntry hrt hl]
    split
    · rename_i e
      rw [e]
    · rfl
  · rw [closeRoute_idle fun rt hrt => ?_]
    cases hl : rt.live with
    | false => rfl
    | true => exact absurd ⟨rt, hrt, hl⟩ k

theorem grantCheck_noGrants (s : State) (c : ClaimSlot) : NoGrants s (grantCheck c s).1 := by
  unfold grantCheck
  split
  · exact .refl s
  · dsimp only
    split
    · exact .refl s
    · split
      · exact updClaim_awaiting_noGrants s c false
      · split
        · exact updClaim_awaiting_noGrants s c true
        · split
          · exact (foldl_rel NoGrants.refl NoGrants.trans (fun t (p : RouteSlot × Route) => closeRoute_noGrants t p.1 _) _ s).trans
              (updClaim_awaiting_noGrants _ c true)
          · exact .refl s

theorem checkLine_noGrants (s : State) (l : LineNo) : NoGrants s (checkLine l s).1 := by
  have a := (setLineState_keeps s l).noGrants
  unfold checkLine
  dsimp only
  split
  · exact a
  · exact a.trans (grantCheck_noGrants _ _)

theorem checkLines_noGrants (s : State) (ls : List LineNo) : NoGrants s (checkLines ls s).1 := by
  induction ls generalizing s with
  | nil => exact .refl s
  | cons l ls ih => exact (checkLine_noGrants s l).trans (ih _)

theorem checkAll_noGrants (n : Nat) (ls : List LineNo) (s : State) : NoGrants s (checkAll n ls s) := by
  induction n generalizing ls s with
  | zero => exact .refl s
  | succ n ih =>
    cases ls with
    | nil => exact .refl s
    | cons l ls => exact (checkLines_noGrants s (l :: ls)).trans (ih _ _)

theorem dropDisplaced_noGrants (s : State) : NoGrants s (dropDisplaced s) := by
  refine foldl_rel NoGrants.refl NoGrants.trans (fun t c => ?_) s.accepted s
  split
  · exact .refl t
  · split
    · exact updClaim_awaiting_noGrants t c false
    · exact .refl t

/-! ### Grants, one after the other -/

/-- All grants between two moments of an event; the claim `own` alone is not told of its grant. -/
structure GrantSteps (own : Option ClaimSlot) (s t : State) : Prop where
  route : ∀ c cl r, Granted s t c cl r → GrantedRoute s t cl r
  told : ∀ c cl r, Granted s t c cl r → own ≠ some c →
    c ∈ (t.session cl.owner).changes.claims ∧ r ∈ (t.session cl.owner).changes.routes
  claimed : ∀ r rt, NewDriver s t r rt → ∃ c cl, Granted s t c cl r
  lowest : ∀ r rt, NewDriver s t r rt → ∀ q, q < r → (t.route? q).isSome

theorem NoGrants.grantSteps {s t : State} (own : Option ClaimSlot) (n : NoGrants s t) : GrantSteps own s t := by
  have none : ∀ c cl r, ¬ Granted s t c cl r := by
    rintro c cl r ⟨⟨cl₀, h₀, hw⟩, h, hs⟩
    have k := n.state c
    rw [h, h₀] at k
    simp only [Option.map_some, Option.some.injEq] at k
    simp [Claim.waiting, ← k, hs] at hw
  exact ⟨fun c cl r g => absurd g (none c cl r), fun c cl r g => absurd g (none c cl r),
    fun r _ d => absurd (n.generation r) d.1, fun r _ d => absurd (n.generation r) d.1⟩

theorem succ_ne_self (x : Byte) : x + 1#8 ≠ x := by
  intro h
  have := congrArg BitVec.toNat h
  simp [BitVec.toNat_add] at this
  omega

/-- Grant checks free no entry. -/
theorem AfterChecks.inUse {s t : State} (a : AfterChecks s t) {r : RouteSlot} (h : (s.route? r).isSome) : (t.route? r).isSome := by
  show (t.routeEntry r).route.isSome
  rcases a.routes r with e | ⟨_, _, _, _, e⟩ | ⟨_, _, rt, e, _⟩
  · rw [e]
    exact h
  · rw [e]
    rfl
  · rw [e]
    rfl

/-- An entry whose generation moves was free, and holds a DRIVER route. -/
theorem AfterChecks.taken {s t : State} (a : AfterChecks s t) {r : RouteSlot}
    (h : (t.routeEntry r).generation ≠ (s.routeEntry r).generation) :
    s.route? r = none ∧ (t.routeEntry r).generation = (s.routeEntry r).generation + 1#8 ∧ ∃ rt, t.route? r = some rt ∧ rt.isDriver = true := by
  rcases a.routes r with e | ⟨_, _, _, _, e⟩ | e
  · rw [e] at h
    exact absurd rfl h
  · rw [e] at h
    exact absurd rfl h
  · exact e

/-- A settled claim stays as it is through grant checks. -/
theorem AfterChecks.settled {s t : State} (a : AfterChecks s t) {c : ClaimSlot} {cl : Claim} (h : s.claim? c = some cl)
    (hs : cl.waiting = false) : t.claim? c = some cl := by
  have k := (a.claims c).2
  rw [show (s.claimEntry c).claim = some cl from h] at k
  obtain ⟨cl', h', e | ⟨hw, _⟩ | ⟨hw, _⟩⟩ := k
  · rw [← e]
    exact h'
  · simp [hs] at hw
  · simp [hs] at hw

/-- The route of a grant after later checks: as it was, or preempted. -/
theorem GrantedRoute.later {s t u : State} {cl : Claim} {r : RouteSlot} (g : GrantedRoute s t cl r) (a : AfterChecks t u) :
    GrantedRoute s u cl r := by
  obtain ⟨rt, e, ho, hk, hm, hc, hs⟩ := g
  have ht : t.route? r = some rt := by
    show (t.routeEntry r).route = _
    rw [e]
  rcases a.routes r with e' | ⟨x, hx, -, -, e'⟩ | ⟨e', -⟩
  · refine ⟨rt, by rw [e', e], ho, hk, hm, hc, ?_⟩
    rw [leaseFor_congr a.rest.policies, longestBreak_congr a.rest.policies, heldMembers_congr a.rest.policies a.rest.groups]
    exact hs
  · rw [show (t.routeEntry r).route = some rt from ht] at hx
    cases hx
    exact ⟨{ rt with state := .closed .preempted, lease := none, forced := 0#8 }, by rw [e', e], ho, hk, hm, hc, .inl rfl⟩
  · rw [show (t.routeEntry r).route = some rt from ht] at e'
    cases e'

/-- The route of a grant that follows checks, seen from before them. -/
theorem GrantedRoute.earlier {s t u : State} {cl : Claim} {r : RouteSlot} (g : GrantedRoute t u cl r) (a : AfterChecks s t)
    (b : AfterChecks t u) : GrantedRoute s u cl r := by
  obtain ⟨rt, e, rest⟩ := g
  by_cases k : (t.routeEntry r).generation = (s.routeEntry r).generation
  · exact ⟨rt, by rw [e, k], rest⟩
  · obtain ⟨_, _, x, hx, _⟩ := a.taken k
    have moved : (u.routeEntry r).generation ≠ (t.routeEntry r).generation := by
      rw [e]
      exact succ_ne_self _
    rw [(b.taken moved).1] at hx
    cases hx

/-- A grant between two moments was made before or after a moment between them. -/
theorem Granted.split {s t u : State} (a : AfterChecks s t) (b : AfterChecks t u) {c : ClaimSlot} {cl : Claim} {r : RouteSlot}
    (g : Granted s u c cl r) : Granted s t c cl r ∨ Granted t u c cl r := by
  obtain ⟨⟨cl₀, h₀, hw⟩, hu, hs⟩ := g
  have k := (a.claims c).2
  rw [show (s.claimEntry c).claim = some cl₀ from h₀] at k
  obtain ⟨cl₁, h₁, -⟩ := k
  cases hw₁ : cl₁.waiting with
  | true => exact .inr ⟨⟨cl₁, h₁, hw₁⟩, hu, hs⟩
  | false =>
    have := b.settled h₁ hw₁
    rw [hu] at this
    cases this
    exact .inl ⟨⟨cl₀, h₀, hw⟩, h₁, hs⟩

theorem Granted.later {s t u : State} (b : AfterChecks t u) {c : ClaimSlot} {cl : Claim} {r : RouteSlot} (g : Granted s t c cl r) :
    Granted s u c cl r :=
  ⟨g.1, b.settled g.2.1 (by simp [Claim.waiting, g.2.2]), g.2.2⟩

theorem Granted.earlier {s t u : State} (a : AfterChecks s t) {c : ClaimSlot} {cl : Claim} {r : RouteSlot} (g : Granted t u c cl r) :
    Granted s u c cl r := by
  obtain ⟨⟨cl₁, h₁, hw⟩, rest⟩ := g
  have k := a.waiting c (by simp [h₁, hw])
  refine ⟨?_, rest⟩
  cases h : s.claim? c with
  | none => simp [h] at k
  | some cl₀ => exact ⟨cl₀, rfl, by simpa [h] using k⟩

theorem GrantSteps.trans {own : Option ClaimSlot} {s t u : State} (a : AfterChecks s t) (b : AfterChecks t u) (x : GrantSteps own s t)
    (y : GrantSteps own t u) : GrantSteps own s u := by
  have new : ∀ r rt, NewDriver s u r rt → (∃ rt', NewDriver s t r rt') ∨ NewDriver t u r rt := by
    rintro r rt ⟨hg, hr, hd⟩
    by_cases k : (t.routeEntry r).generation = (s.routeEntry r).generation
    · exact .inr ⟨k ▸ hg, hr, hd⟩
    · obtain ⟨-, -, rt', h', d'⟩ := a.taken k
      exact .inl ⟨rt', k, h', d'⟩
  refine ⟨fun c cl r g => ?_, fun c cl r g ho => ?_, fun r rt d => ?_, fun r rt d q hq => ?_⟩
  · rcases g.split a b with g | g
    · exact (x.route c cl r g).later b
    · exact (y.route c cl r g).earlier a b
  · rcases g.split a b with g | g
    · exact ⟨b.sessions.notedClaims _ (x.told c cl r g ho).1, b.sessions.notedRoutes _ (x.told c cl r g ho).2⟩
    · exact y.told c cl r g ho
  · rcases new r rt d with ⟨rt', d⟩ | d
    · obtain ⟨c, cl, g⟩ := x.claimed r rt' d
      exact ⟨c, cl, g.later b⟩
    · obtain ⟨c, cl, g⟩ := y.claimed r rt d
      exact ⟨c, cl, g.earlier a⟩
  · rcases new r rt d with ⟨rt', d⟩ | d
    · exact b.inUse (x.lowest r rt' d q hq)
    · exact y.lowest r rt d q hq

/-! ### One grant -/

/-- The references a grant places: those of its claim and its route in the owner's set, unless it is told in a reply. -/
theorem grant_told {own : Option ClaimSlot} {c : ClaimSlot} {r : RouteSlot} {s : State} {cl : Claim} (h : s.claim? c = some cl)
    (ho : own ≠ some c) :
    c ∈ ((grant own c r s).1.session cl.owner).changes.claims ∧ r ∈ ((grant own c r s).1.session cl.owner).changes.routes := by
  have base : c ∈ ((noteRoute cl.owner r (noteClaim cl.owner c (grantBase c cl r s))).session cl.owner).changes.claims ∧
      r ∈ ((noteRoute cl.owner r (noteClaim cl.owner c (grantBase c cl r s))).session cl.owner).changes.routes := by
    simp [noteRoute, noteClaim]
  have sub : SessionsAfterChecks (noteRoute cl.owner r (noteClaim cl.owner c (grantBase c cl r s))) (grant own c r s).1 := by
    unfold grant
    simp only [h, ho, if_false]
    refine SessionsAfterChecks.trans ?_ (.of_sessions (setLineStates_keep _ _).sessions)
    split <;> split
    all_goals first
      | exact SessionsAfterChecks.trans (.of_sessions (activate_sessions _ _)) (noteRoute_sessionsAfter _ _ _)
      | exact .of_sessions (activate_sessions _ _)
      | exact noteRoute_sessionsAfter _ _ _
      | exact .refl _
  exact ⟨sub.notedClaims _ base.1, sub.notedRoutes _ base.2⟩

/-- The route a grant creates. -/
theorem grant_grantedRoute (own : Option ClaimSlot) {c : ClaimSlot} {r : RouteSlot} {s : State} {cl : Claim} (h : s.claim? c = some cl)
    (hw : cl.waiting = true) (hr : s.route? r = none) :
    GrantedRoute s (grant own c r s).1 { cl with state := .granted r, waitLimit := none, awaiting := false } r := by
  have a := grant_afterChecks own h hw hr
  show ∃ rt, _
  simp only [leaseFor_congr a.rest.policies, longestBreak_congr a.rest.policies, heldMembers_congr a.rest.policies a.rest.groups]
  obtain ⟨t, ht⟩ : ∃ t, t = if own = some c then grantBase c cl r s else noteRoute cl.owner r (noteClaim cl.owner c (grantBase c cl r s)) :=
    ⟨_, rfl⟩
  have troutes : t.routes = (takeEntry r (grantedRoute s cl) s).routes := by
    rw [ht]
    split
    · exact grantBase_routes c cl r s
    · simp only [noteRoute_routes, noteClaim_routes, grantBase_routes]
  have tr : t.routeEntry r = ⟨(s.routeEntry r).generation + 1#8, some (grantedRoute s cl)⟩ := by
    simp only [State.routeEntry, troutes]
    exact State.updRouteEntry_routeEntry_same ..
  have tr' : t.route? r = some (grantedRoute s cl) := by
    show (t.routeEntry r).route = _
    rw [tr]
  have tk : t.policies = s.policies ∧ t.groups = s.groups := by
    have base := ((takeEntry_keepsRest s r (grantedRoute s cl)).trans (takeLines_keeps _ r (linesOf cl.members)).rest).trans
      (settleGranted_keepsRest c cl r _)
    rw [ht]
    split
    · exact ⟨base.policies, base.groups⟩
    · exact ⟨((base.trans (noteClaim_keepsRest ..)).trans (noteRoute_keepsRest ..)).policies,
        ((base.trans (noteClaim_keepsRest ..)).trans (noteRoute_keepsRest ..)).groups⟩
  by_cases hb : longestBreak s (linesOf cl.members) = 0
  · have ge : (grant own c r s).1.routeEntry r = (activate r t).routeEntry r := by
      unfold grant
      simp only [h, hb, decide_true, Bool.true_and, if_true]
      rw [show ∀ u : State, ((linesOf cl.members).foldl (fun t l => setLineState l t) u).routeEntry r = u.routeEntry r from
        fun u => by simp only [State.routeEntry, (setLineStates_keep u _).routes]]
      subst ht
      split <;> split <;> rfl
    rw [ge, activate_routeEntry, if_pos rfl, tr', tr]
    refine ⟨_, rfl, rfl, rfl, rfl, rfl, .inr ⟨rfl, ?_⟩⟩
    rw [if_pos hb]
    exact ⟨rfl, heldMembers_congr tk.1 tk.2 _ _⟩
  · have ge : (grant own c r s).1.routeEntry r = t.routeEntry r := by
      unfold grant
      simp only [h, hb, decide_false, Bool.false_and, if_false, Bool.false_eq_true]
      rw [show ∀ u : State, ((linesOf cl.members).foldl (fun t l => setLineState l t) u).routeEntry r = u.routeEntry r from
        fun u => by simp only [State.routeEntry, (setLineStates_keep u _).routes]]
      subst ht
      rfl
    rw [ge, tr]
    refine ⟨_, rfl, rfl, rfl, rfl, rfl, .inr ⟨rfl, ?_⟩⟩
    rw [if_neg hb]
    exact ⟨rfl, rfl⟩

theorem firstFreeRoute_lowest {s : State} {r : RouteSlot} (h : firstFreeRoute s = some r) (q : RouteSlot) (hq : q < r) :
    (s.route? q).isSome := by
  cases k : s.route? q with
  | some rt => rfl
  | none =>
    obtain ⟨_, as, bs, e, hb⟩ := List.find?_eq_some_iff_append.mp h
    have sorted : (every 96).Pairwise (· < ·) := List.pairwise_lt_finRange 96
    have hin := mem_every q
    rw [e] at hin sorted
    rcases List.mem_append.mp hin with m | m
    · have := hb q m
      simp [k] at this
    · have tail := (List.pairwise_append.mp sorted).2.1
      rcases List.mem_cons.mp m with rfl | m
      · exact absurd hq (lt_irrefl _)
      · exact absurd hq (not_lt.mpr (le_of_lt ((List.pairwise_cons.mp tail).1 q m)))

theorem grant_grantSteps (own : Option ClaimSlot) {c : ClaimSlot} {r : RouteSlot} {s : State} (hc : bestAwaiting s = some c)
    (hr : firstFreeRoute s = some r) : GrantSteps own s (grant own c r s).1 := by
  obtain ⟨-, cl, h, hw, -⟩ := bestAwaiting_claim hc
  have free := firstFreeRoute_free hr
  have a := grant_afterChecks own h hw free
  have only : ∀ d dl q, Granted s (grant own c r s).1 d dl q →
      d = c ∧ q = r ∧ dl = { cl with state := .granted r, waitLimit := none, awaiting := false } := by
    rintro d dl q ⟨⟨d₀, h₀, hw₀⟩, h₁, hs⟩
    rw [show (grant own c r s).1.claim? d = ((grant own c r s).1.claimEntry d).claim from rfl, grant_claimEntry own h] at h₁
    split at h₁
    · rename_i e
      cases h₁
      cases hs
      exact ⟨e.symm, rfl, rfl⟩
    · rw [show (s.claimEntry d).claim = some d₀ from h₀] at h₁
      cases h₁
      simp [Claim.waiting, hs] at hw₀
  have here : Granted s (grant own c r s).1 c { cl with state := .granted r, waitLimit := none, awaiting := false } r := by
    refine ⟨⟨cl, h, hw⟩, ?_, rfl⟩
    rw [show (grant own c r s).1.claim? c = ((grant own c r s).1.claimEntry c).claim from rfl, grant_claimEntry own h, if_pos rfl]
  have new : ∀ q rt, NewDriver s (grant own c r s).1 q rt → q = r := by
    rintro q rt ⟨hg, -⟩
    by_contra k
    rw [(grant_routeEntry own h q).1 (Ne.symm k)] at hg
    exact hg rfl
  refine ⟨fun d dl q g => ?_, fun d dl q g ho => ?_, fun q rt d => ?_, fun q rt d p hp => ?_⟩
  · obtain ⟨rfl, rfl, rfl⟩ := only d dl q g
    exact grant_grantedRoute own h hw free
  · obtain ⟨rfl, rfl, rfl⟩ := only d dl q g
    have k := grant_told (r := q) h ho
    exact k
  · rw [new q rt d]
    exact ⟨c, _, here⟩
  · rw [new q rt d] at hp
    exact a.inUse (firstFreeRoute_lowest hr p hp)

theorem grantAll_grants (own : Option ClaimSlot) (n : Nat) (s : State) : GrantSteps own s (grantAll own n s) := by
  induction n generalizing s with
  | zero => exact (NoGrants.refl s).grantSteps own
  | succ n ih =>
    unfold grantAll
    split
    · rename_i c r hc hr
      obtain ⟨-, cl, h, hw, -⟩ := bestAwaiting_claim hc
      have a := grant_afterChecks own h hw (firstFreeRoute_free hr)
      have b := checkAll_afterChecks checkRounds (grant own c r s).2 (grant own c r s).1
      have x := GrantSteps.trans a b (grant_grantSteps own hc hr) ((checkAll_noGrants ..).grantSteps own)
      exact GrantSteps.trans (a.trans b) (grantAll_afterChecks ..) x (ih _)
    · exact (NoGrants.refl s).grantSteps own

/-- Every grant of an event's part in the Line Arbiter: the route it creates, the entry it takes, and the references it places. -/
theorem arbitrate_grants (own : Option ClaimSlot) (ls : List LineNo) (s : State) : GrantSteps own s (arbitrate own ls s) := by
  unfold arbitrate
  dsimp only
  split
  · exact GrantSteps.trans ((dropDisplaced_afterChecks s).trans (checkAll_afterChecks ..)) (grantAll_afterChecks ..)
      (((dropDisplaced_noGrants s).trans (checkAll_noGrants ..)).grantSteps none) (grantAll_grants ..)
  · rename_i c
    exact GrantSteps.trans (((dropDisplaced_afterChecks s).trans (grantCheck_afterChecks ..)).trans (checkAll_afterChecks ..))
      (grantAll_afterChecks ..)
      ((((dropDisplaced_noGrants s).trans (grantCheck_noGrants ..)).trans (checkAll_noGrants ..)).grantSteps (some c))
      (grantAll_grants ..)

end Sys2Proof.Machine
end

