-- ==== Sys2Proof/Laws/Requests.lean ====
section
/-! SUPPORT. Laws/Requests.lean: what the settling of the pins, the taking of a frame and the queueing of a reply do, and what a request
that is taken, or not taken, makes of the state. -/

namespace Sys2Proof.Machine

/-! ### The line pins follow an event -/

/-- What the part applies at a pin follows from policies, groups, routes, line records and terminals alone. -/
theorem pinDrive_congr {s t : State} (hp : t.policies = s.policies) (hr : t.routes = s.routes) (hl : t.lines = s.lines)
    (hg : t.groups = s.groups) (ht : t.terminals = s.terminals) (l : LineNo) : pinDrive t l = pinDrive s l := by
  cases s
  cases t
  simp only at hp hr hl hg ht
  subst hp hr hl hg ht
  rfl

section

variable (s t : State)
@[simp] theorem settle_inReset : (settle s t).inReset = t.inReset := by unfold settle; rfl
@[simp] theorem settle_supervisor : (settle s t).supervisor = t.supervisor := by unfold settle; rfl
@[simp] theorem settle_policies : (settle s t).policies = t.policies := by unfold settle; rfl
@[simp] theorem settle_sessions : (settle s t).sessions = t.sessions := by unfold settle; rfl
@[simp] theorem settle_routes : (settle s t).routes = t.routes := by unfold settle; rfl
@[simp] theorem settle_claims : (settle s t).claims = t.claims := by unfold settle; rfl
@[simp] theorem settle_accepted : (settle s t).accepted = t.accepted := by unfold settle; rfl
@[simp] theorem settle_lines : (settle s t).lines = t.lines := by unfold settle; rfl
@[simp] theorem settle_groups : (settle s t).groups = t.groups := by unfold settle; rfl
@[simp] theorem settle_qualifiers : (settle s t).qualifiers = t.qualifiers := by unfold settle; rfl
@[simp] theorem settle_terminals : (settle s t).terminals = t.terminals := by unfold settle; rfl
@[simp] theorem settle_ports : (settle s t).ports = t.ports := by unfold settle; rfl
@[simp] theorem settle_pending : (settle s t).pending = t.pending := by unfold settle; rfl

theorem settle_pin (l : LineNo) : (settle s t).pin l =
    if pinDrive s l = pinDrive t l ∧ (s.pin l).board = (t.pin l).board then t.pin l else repin l (pinDrive t l) (t.pin l) := by
  unfold settle
  simp only [State.pin, look_tab]

@[simp] theorem settle_board (l : LineNo) : ((settle s t).pin l).board = (t.pin l).board := by
  rw [settle_pin]
  split <;> rfl

@[simp] theorem settle_pinDrive (l : LineNo) : pinDrive (settle s t) l = pinDrive t l :=
  pinDrive_congr (settle_policies s t) (settle_routes s t) (settle_lines s t) (settle_groups s t) (settle_terminals s t) l

/-- Where nothing acts differently on any pin, the pins stay. -/
theorem settle_same (h : ∀ l, pinDrive s l = pinDrive t l ∧ (s.pin l).board = (t.pin l).board) : settle s t = t := by
  have : (settle s t).pins = t.pins := ext_look fun l => by
    have k := settle_pin s t l
    rwa [if_pos (h l)] at k
  have e : settle s t = { t with pins := (settle s t).pins } := by
    unfold settle
    rfl
  rw [e, this]

theorem settle_pinsFollow (h : t.pins = s.pins) : PinsFollow s (settle s t) := by
  intro l hd hb
  have k : t.pin l = s.pin l := by simp only [State.pin, h]
  rw [settle_pinDrive] at hd
  rw [settle_pin, if_pos ⟨hd, by rw [k]⟩, k]

end

/-! ### Frames and replies -/

section

variable (s : State) (h : HostId) (f : List Byte) (a : Answer)
@[simp] theorem popFrame_inReset : (popFrame h s).inReset = s.inReset := rfl
@[simp] theorem popFrame_supervisor : (popFrame h s).supervisor = s.supervisor := rfl
@[simp] theorem popFrame_policies : (popFrame h s).policies = s.policies := rfl
@[simp] theorem popFrame_sessions : (popFrame h s).sessions = s.sessions := rfl
@[simp] theorem popFrame_routes : (popFrame h s).routes = s.routes := rfl
@[simp] theorem popFrame_claims : (popFrame h s).claims = s.claims := rfl
@[simp] theorem popFrame_accepted : (popFrame h s).accepted = s.accepted := rfl
@[simp] theorem popFrame_lines : (popFrame h s).lines = s.lines := rfl
@[simp] theorem popFrame_groups : (popFrame h s).groups = s.groups := rfl
@[simp] theorem popFrame_qualifiers : (popFrame h s).qualifiers = s.qualifiers := rfl
@[simp] theorem popFrame_pins : (popFrame h s).pins = s.pins := rfl
@[simp] theorem popFrame_terminals : (popFrame h s).terminals = s.terminals := rfl
@[simp] theorem popFrame_pending : (popFrame h s).pending = s.pending := rfl
@[simp] theorem queueReply_inReset : (queueReply h f a s).inReset = s.inReset := rfl
@[simp] theorem queueReply_supervisor : (queueReply h f a s).supervisor = s.supervisor := rfl
@[simp] theorem queueReply_policies : (queueReply h f a s).policies = s.policies := rfl
@[simp] theorem queueReply_sessions : (queueReply h f a s).sessions = s.sessions := rfl
@[simp] theorem queueReply_routes : (queueReply h f a s).routes = s.routes := rfl
@[simp] theorem queueReply_claims : (queueReply h f a s).claims = s.claims := rfl
@[simp] theorem queueReply_accepted : (queueReply h f a s).accepted = s.accepted := rfl
@[simp] theorem queueReply_lines : (queueReply h f a s).lines = s.lines := rfl
@[simp] theorem queueReply_groups : (queueReply h f a s).groups = s.groups := rfl
@[simp] theorem queueReply_qualifiers : (queueReply h f a s).qualifiers = s.qualifiers := rfl
@[simp] theorem queueReply_pins : (queueReply h f a s).pins = s.pins := rfl
@[simp] theorem queueReply_terminals : (queueReply h f a s).terminals = s.terminals := rfl
@[simp] theorem queueReply_pending : (queueReply h f a s).pending = s.pending := rfl

theorem popFrame_port (k : HostId) :
    (popFrame h s).port k = if h = k then { s.port k with inbound := (s.port k).inbound.tail } else s.port k :=
  look_upd _ _ _ _

theorem queueReply_port (k : HostId) :
    (queueReply h f a s).port k = if h = k then
        { s.port k with replies := (s.port k).replies ++ [replyFrame (frameTag f) (frameCode f) (s.session h).epoch a] }
      else s.port k :=
  look_upd _ _ _ _

@[simp] theorem popFrame_pinDrive (l : LineNo) : pinDrive (popFrame h s) l = pinDrive s l := rfl
@[simp] theorem queueReply_pinDrive (l : LineNo) : pinDrive (queueReply h f a s) l = pinDrive s l := rfl

end

/-! ### Taking a request -/

variable {s : State} {h : HostId} {code : ReqCode} {f : List Byte}

theorem Offers.takeable (o : Offers s h code f) : takeableFrame s h = some f := by
  unfold takeableFrame
  rw [if_pos o.room, o.head]

/-- A request that the link offers: the outcome of its checks and of its block, the reply queued, the pins following. -/
theorem Offers.takeRequest (o : Offers s h code f) (act : HostId → List Byte → State → State × Answer) :
    takeRequest code act h s =
      settle s (queueReply h f (carryOut code act h (frameParams f) (popFrame h s)).2
        (carryOut code act h (frameParams f) (popFrame h s)).1) := by
  unfold Machine.takeRequest
  rw [o.takeable]
  simp only [o.code, if_true]

/-- The common checks read no port, so taking the frame out of the queue changes none of them. -/
theorem commonRefusal_popFrame (ps : List Byte) : commonRefusal code h ps (popFrame h s) = commonRefusal code h ps s := rfl

theorem Offers.running' (o : Offers s h code f) (g : State → State) : whileRunning g s = .next (g s) := by
  unfold whileRunning
  simp [o.running]

/-- An admitted request: its block carries it out. -/
theorem Offers.admitted (o : Offers s h code f) (ad : Admitted s h code f)
    (act : HostId → List Byte → State → State × Answer) :
    Machine.takeRequest code act h s =
      settle s (queueReply h f (act h (frameParams f) (popFrame h s)).2 (act h (frameParams f) (popFrame h s)).1) := by
  rw [o.takeRequest]
  unfold carryOut
  rw [commonRefusal_popFrame, show commonRefusal code h (frameParams f) s = none from ad]

/-- What the port of the link and the other ports look like after a taken request whose block leaves the ports. -/
theorem answered_of (f : List Byte) {u : State} (hu : u.ports = (popFrame h s).ports) (a : Answer) :
    Answered s (settle s (queueReply h f a u)) h f a := by
  have p : ∀ k, (settle s (queueReply h f a u)).port k =
      if h = k then { u.port k with replies := (u.port k).replies ++ [replyFrame (frameTag f) (frameCode f) (u.session h).epoch a] }
      else u.port k := fun k => by
    rw [← queueReply_port]
    simp only [State.port, settle_ports]
  have q : ∀ k, u.port k = (popFrame h s).port k := fun k => by simp only [State.port, hu]
  have e : ((settle s (queueReply h f a u)).session h).epoch = (u.session h).epoch := by
    simp only [State.session, settle_sessions, queueReply_sessions]
  have ph := p h
  rw [if_pos rfl, q h, popFrame_port, if_pos rfl] at ph
  constructor
  · rw [ph]
  · rw [ph, e]
  · rw [ph]
  · rw [ph]
  · rw [ph]
  · intro k hk
    rw [p k, if_neg (Ne.symm hk), q k, popFrame_port, if_neg (Ne.symm hk)]

/-- A taken request whose block leaves the board circuits, the supervisor and the queue. -/
theorem keepsOutside_of {u : State} (a : Answer) (h₁ : u.inReset = s.inReset) (h₂ : u.supervisor = s.supervisor)
    (h₃ : u.pending = s.pending) (h₄ : u.terminals = s.terminals) (h₅ : u.pins = s.pins) :
    KeepsOutside s (settle s (queueReply h f a u)) :=
  ⟨by simpa using h₁, by simpa using h₂, by simpa using h₃, by simpa using h₄, fun l => by
    rw [settle_board]
    simp only [State.pin, queueReply_pins, h₅]⟩

/-! ### The request commands -/

/-- The block that owns a request. -/
def ReqCode.act : ReqCode → HostId → List Byte → State → State × Answer
  | .attach => attachAct
  | .detach => detachAct
  | .collect => collectAct
  | .readLevels => readLevelsAct
  | .queryLine => queryLineAct
  | .setPolicy => setPolicyAct
  | .queryPolicy => queryPolicyAct
  | .listen => listenAct
  | .release => releaseAct
  | .renew => renewAct
  | .revoke => revokeAct
  | .queryRoute => queryRouteAct
  | .claim => claimAct
  | .amend => amendAct
  | .cancel => cancelAct
  | .queryClaim => queryClaimAct
  | .setGroup => setGroupAct
  | .trip => tripAct
  | .rearm => rearmAct
  | .queryGroup => queryGroupAct

theorem exec_command (code : ReqCode) (h : HostId) (s : State) :
    exec (code.command h) s = whileRunning (Machine.takeRequest code code.act h) s := by
  cases code <;> rfl

/-- A request that is offered and admitted: what its block makes of the state without the frame, with the reply queued. -/
theorem Offers.exec (o : Offers s h code f) (ad : Admitted s h code f) {u : State} {a : Answer}
    (k : code.act h (frameParams f) (popFrame h s) = (u, a)) :
    Machine.exec (code.command h) s = .next (settle s (queueReply h f a u)) := by
  rw [exec_command, o.running', o.admitted ad, k]

/-- A request refused by the common checks. -/
theorem Offers.exec_refused (o : Offers s h code f) {st : Status} (k : commonRefusal code h (frameParams f) s = some st) :
    Machine.exec (code.command h) s = .next (settle s (queueReply h f ⟨st, []⟩ (popFrame h s))) := by
  rw [exec_command, o.running', o.takeRequest]
  unfold carryOut
  rw [commonRefusal_popFrame, k]
  rfl

/-- An answer that changes no record changes nothing but the port. -/
theorem onlyAnswered_of (s : State) (h : HostId) (f : List Byte) (a : Answer) :
    OnlyAnswered s (settle s (queueReply h f a (popFrame h s))) h f a := by
  have e : settle s (queueReply h f a (popFrame h s)) = queueReply h f a (popFrame h s) :=
    settle_same _ _ fun _ => ⟨rfl, rfl⟩
  refine ⟨answered_of f rfl a, keepsOutside_of a rfl rfl rfl rfl rfl, ?_, ?_, ?_⟩ <;> rw [e]
  · constructor <;> rfl
  · constructor <;> rfl
  · rfl

/-- A request whose block only answers. -/
theorem Offers.only_answers (o : Offers s h code f) (ad : Admitted s h code f) {a : Answer}
    (k : code.act h (frameParams f) (popFrame h s) = (popFrame h s, a)) :
    ∃ t, Machine.exec (code.command h) s = .next t ∧ OnlyAnswered s t h f a :=
  ⟨_, o.exec ad k, onlyAnswered_of s h f a⟩

/-- A request whose block keeps what a shared operation keeps. -/
theorem answeredWithin_of (f : List Byte) {u : State} (k : KeepsRest (popFrame h s) u) (a : Answer) :
    AnsweredWithin s (settle s (queueReply h f a u)) h f a :=
  ⟨answered_of f k.ports a, keepsOutside_of a k.inReset k.supervisor k.pending k.terminals k.pins,
    settle_pinsFollow _ _ k.pins⟩

/-- A command that the link does not offer does nothing. -/
theorem exec_idle (code : ReqCode) (h : HostId) (s : State) (k : takeableFrame s h = none) :
    Machine.exec (code.command h) s = .next s := by
  rw [exec_command]
  unfold whileRunning Machine.takeRequest
  rw [k]
  simp

end Sys2Proof.Machine
end

