-- ==== Sys2Proof/WellFormed.lean ====
section
/-! DEFINITION. WellFormed.lean: what a command must satisfy beyond the types of its operands. -/

namespace Sys2Proof

/-- The kind bytes the part knows: WRITE, READ, READ_AGAIN and LINK_RESET (R133). -/
def knownKinds : List Byte := [0x31#8, 0x32#8, 0x33#8, 0x3C#8]

/-- The numbers of hosts, lines, terminals, groups and slots are in range by their types. One operand has a range of its own: the
kind byte of an unknown transaction is none of the four known ones (R133). -/
def Instr.wellFormed : Instr → Bool
  | .unknownKind _ kind => !knownKinds.contains kind
  | _ => true

end Sys2Proof
end

