-- ==== Sys2Proof/Tests/Slice0.lean ====
section
/-! SUPPORT. Tests/Slice0.lean: one step of each command against the spec's own figures, and for each statement a state that meets its
hypotheses. -/

namespace Sys2Proof.Tests

open Sys2Proof.Machine

set_option Elab.async false

/-! ### Helpers -/

/-- The state after a command. -/
def after (c : Instr) (s : State) : State :=
  match exec c s with
  | .next t => t
  | _ => s

/-- The command has a next state. -/
def completes (c : Instr) (s : State) : Bool :=
  match exec c s with
  | .next _ => true
  | _ => false

theorem exec_after {c : Instr} {s : State} (h : completes c s = true) : exec c s = .next (after c s) := by
  unfold completes at h
  unfold after
  split at h
  · simp_all
  · simp at h

/-- The next state of a step. -/
def stepped (s : State) : State :=
  match step s with
  | .next t => t
  | _ => s

def steps (s : State) : Bool :=
  match step s with
  | .next _ => true
  | _ => false

theorem step_stepped {s : State} (h : steps s = true) : step s = .next (stepped s) := by
  unfold steps at h
  unfold stepped
  split at h
  · simp_all
  · simp at h

/-- The last reply of a link, without its CHECK. -/
def reply (t : State) (h : HostId) : List Byte := ((t.port h).replies.getLastD []).dropLast.dropLast

/-- A request of a host at the head of its inbound queue, with tag 41h. -/
def offered (h : HostId) (code : ReqCode) (ps : List Byte) (s : State) : State :=
  s.updPort h fun p => { p with inbound := [requestFrame 0x41#8 code.byte ps] }

/-- The frame that offered puts there. -/
def frameOf (code : ReqCode) (ps : List Byte) : List Byte := requestFrame 0x41#8 code.byte ps

theorem offers_of {s : State} {h : HostId} {code : ReqCode} {f : List Byte}
    (ok : (!s.inReset && (s.port h).replies.length < 4 && (s.port h).inbound.head? = some f && frameCode f = code.byte) = true) :
    Offers s h code f := by
  simp only [Bool.and_eq_true, Bool.not_eq_true', decide_eq_true_eq] at ok
  exact ⟨ok.1.1.1, ok.1.1.2, ok.1.2, ok.2⟩

/-- Four ATTACHED hosts under epoch 3, host 0 the supervisor; every host may drive every line, host 2 may preempt. -/
def base : State :=
  { State.reset with
    inReset := false
    policies := Vector.replicate 40 { Policy.reset 0 with driverMask := 0xF#4, preemptMask := 4#4, restPosture := .low }
    sessions := Vector.replicate 4 { Session.reset with attached := true, epoch := 3#8 } }

/-- Host 0's link in a transaction whose status byte is 24h. -/
def begun (s : State) : State := s.updPort 0 fun p => { p with transaction := .begun 0x24#8 }

def wireOne : Route where
  owner := 1
  kind := .driver 1 .pushPull
  state := .active
  members := [⟨18, 3⟩]
  forced := 0#8
  forcedSince := false
  leaseClamped := false
  lease := some 2000000

def waitThree : Claim where
  owner := 3
  state := .waiting
  priority := 1
  mode := .pushPull
  members := [⟨18, 5⟩]
  leaseRequested := 500
  waitLimit := some 3000000
  awaiting := false

def closedTwo : Route where
  owner := 2
  kind := .listener
  state := .closed .expired
  members := [⟨4, 0⟩]
  forced := 0#8
  forcedSince := false
  leaseClamped := false
  lease := none

def droppedTwo : Claim where
  owner := 2
  state := .dropped .timedOut
  priority := 0
  mode := .openDrain
  members := [⟨4, 1⟩]
  leaseRequested := 0
  waitLimit := none
  awaiting := false

/-- As in the brake example (11.1): host 1 drives line 18 by route (8, 2), host 3 waits for it with claim (1, 1). Host 2 has a CLOSED
listener route (9, 1) and a DROPPED claim (2, 1) to collect. -/
def busy : State :=
  { base with
    routes := upd (upd base.routes 8 fun _ => ⟨2#8, some wireOne⟩) 9 fun _ => ⟨1#8, some closedTwo⟩
    claims := upd (upd base.claims 1 fun _ => ⟨1#8, some waitThree⟩) 2 fun _ => ⟨1#8, some droppedTwo⟩
    accepted := [1]
    lines := upd base.lines 18 fun _ => ⟨.driven, some 8, [1]⟩
    sessions := upd (upd (upd base.sessions 1 fun e =>
        { e with routesInUse := 1, bindings := upd e.bindings 3 fun _ => some (.route 8 0) }) 3 fun e =>
        { e with waitingClaims := 1, claimRecords := 1, bindings := upd e.bindings 5 fun _ => some (.claim 1 0) }) 2 fun e =>
        { e with routesInUse := 1, claimRecords := 1, changes := ⟨[2], [9]⟩ } }

/-- The route of host 1 in the busy state, changed. -/
def routeAs (f : Route → Route) : State := busy.updRoute 8 f

/-- The claim of host 3 in the busy state, changed. -/
def claimAs (f : Claim → Claim) : State := busy.updClaim 1 f

/-- A CLAIM of line 33 through terminal 2 at priority 1, as in 10.7. -/
def claimLine33 : List Byte := [0x01#8, 0x10#8, 0x00#8, 0x00#8, 0x00#8, 0x00#8, 0x21#8, 0x02#8]

/-- SET_POLICY of line 18 with driver mask {0, 2, 3}, no preempt mask, both modes, LOW over FLOAT, a break of 20 µs. -/
def withdrawLine18 : List Byte := [18#8, 18#8, 0xDF#8, 0x03#8, 0x02#8, 0x00#8, 0x00#8, 0x00#8, 0x00#8, 0x14#8]

/-- The busy state with host 1's route CONNECTING for d microseconds more. -/
def connecting (d : Nat) : State :=
  { routeAs fun rt => { rt with state := .connecting d } with lines := upd busy.lines 18 fun l => { l with state := .connecting } }

/-- A WAITING claim that awaits an entry. -/
def awaitingClaim (h : HostId) (p : Priority) (l : LineNo) : Claim :=
  { waitThree with owner := h, priority := p, members := [⟨l, 5⟩], waitLimit := none, awaiting := true }

/-- No entry is free: all 96 hold CLOSED routes of host 2. Claims 1, 3 and 4 await an entry, accepted in that order, claim 1 at priority 1
and the others at priority 2. -/
def full : State :=
  { base with
    routes := Vector.replicate 96 ⟨1#8, some closedTwo⟩
    claims := upd (upd (upd base.claims 1 fun _ => ⟨1#8, some (awaitingClaim 3 1 18)⟩) 3 fun _ => ⟨1#8, some (awaitingClaim 1 2 20)⟩) 4
      fun _ => ⟨1#8, some (awaitingClaim 0 2 22)⟩
    accepted := [1, 3, 4]
    lines := upd (upd (upd base.lines 18 fun _ => ⟨.pending, none, [1]⟩) 20 fun _ => ⟨.pending, none, [3]⟩) 22
      fun _ => ⟨.pending, none, [4]⟩
    sessions := upd base.sessions 2 fun e => { e with changes := ⟨[], [9, 40, 41]⟩ } }

/-! ### Syntax and layouts -/

theorem test_known_kinds_are_ill_formed :
    (∀ kind ∈ [0x31#8, 0x32#8, 0x33#8, 0x3C#8], (Instr.unknownKind 0 kind).wellFormed = false) ∧
      (Instr.unknownKind 0 0x30#8).wellFormed = true := by decide

/-- The check value of R136. -/
theorem test_crc_of_digits :
    crc [0x31#8, 0x32#8, 0x33#8, 0x34#8, 0x35#8, 0x36#8, 0x37#8, 0x38#8, 0x39#8] = 0x29B1#16 := by decide +kernel

theorem test_no_word_spells_a_command : decodeTableWord 8 0x31 = none := by decide

/-! ### One step of each command -/

/-- R15, R17, R33: the reset values, whatever stood there. -/
theorem test_device_reset : let t := after .deviceReset busy
    t.inReset = true ∧ t.route? 8 = none ∧ (t.session 1).epoch = 0#8 ∧ lineShows t 18 = .posture .pullUp := by decide +kernel

/-- R34: SUPSEL1 high and SUPSEL0 low name host 2. -/
theorem test_leave_reset : let t := after (.leaveReset .high .low) State.reset
    t.inReset = false ∧ t.supervisor = 2 ∧ (t.policy 39).driverMask = 4#4 := by decide +kernel

/-- 10.1: an attached host with an idle port receives 24h. -/
theorem test_status_of_an_idle_port :
    ((after (.transactionBegin 1) base).port 1).transaction = .begun 0x24#8 := by decide +kernel

/-- 10.1: rejected REJECTED_FULL, the inbound queue full and a reply waiting, is AFh. -/
theorem test_status_of_a_full_port :
    ((after (.transactionBegin 1) (base.updPort 1 fun p =>
      { p with inbound := [[], [], [], []], replies := [[]], lastWrite := .rejectedFull })).port 1).transaction =
      .begun 0xAF#8 := by decide +kernel

/-- R135: a sound frame joins the inbound queue. -/
theorem test_write_accepts : let t := after (.write 0 (some (frameOf .queryLine [33#8]))) (begun base)
    (t.port 0).lastWrite = .accepted ∧ (t.port 0).inbound.length = 1 := by decide +kernel

/-- 9.9, transaction 2: one CHECK bit flipped. -/
theorem test_write_rejects_a_flipped_bit :
    ((after (.write 0 (some ((frameOf .queryLine [33#8]).dropLast ++ [0x00#8]))) (begun base)).port 0).lastWrite = .rejectedCheck := by
  decide +kernel

/-- 9.9, transaction 3: the READ takes the one reply, which becomes the last-read reply. -/
theorem test_read : let t := after (.read 0) (begun (base.updPort 0 fun p => { p with replies := [[0x04#8]] }))
    (t.port 0).replies = [] ∧ (t.port 0).lastRead = some [0x04#8] := by decide +kernel

/-- 9.9, transaction 4: READ_AGAIN sends the same bytes. -/
theorem test_read_again :
    ((after (.readAgain 0) (begun (base.updPort 0 fun p => { p with lastRead := some [0x04#8] }))).port 0).transaction =
      .sending 0x24#8 [0x04#8] := by decide +kernel

/-- R141, R142: the session ends and the epoch stays. -/
theorem test_link_reset : let t := after (.linkReset 0) (begun base)
    (t.session 0).attached = false ∧ (t.session 0).epoch = 3#8 := by decide +kernel

/-- R133. -/
theorem test_unknown_kind : ((after (.unknownKind 0 0x99#8) (begun base)).port 0).lastWrite = .rejectedKind := by decide +kernel

/-- R133: while a reply is read, SDOn carries the status byte, the reply, and 00h after its end; it is at high impedance after a WRITE and
after the deassertion of SELn that ends the READ or a transaction without a kind. -/
theorem test_bytes_on_sdo : let t := after (.read 0) (begun (base.updPort 0 fun p => { p with replies := [[0x04#8, 0x41#8]] }))
    (List.range 4).map (t.port 0).transaction.sent = [some 0x24#8, some 0x04#8, some 0x41#8, some 0x00#8] ∧
      ((after (.write 0 (some [])) (begun base)).port 0).transaction.sent 0 = none ∧
      ((after (.write 0 none) t).port 0).transaction.sent 0 = none ∧ ((after (.write 0 none) t).port 0).lastRead = (t.port 0).lastRead ∧
      (after (.write 0 none) (begun base)).port 0 = base.port 0 := by decide +kernel

/-- R143, 10.5: UNKNOWN_REQUEST is 10h. -/
theorem test_unknown_request :
    reply (after (.unknownRequest 0) (base.updPort 0 fun p => { p with inbound := [requestFrame 0x07#8 0x60#8 []] })) 0 =
      [0x04#8, 0x07#8, 0x60#8, 0x10#8, 0x03#8] := by decide +kernel

/-- R37: a second ATTACH ends the session first; the new epoch is 4 and one claim record was freed. -/
theorem test_attach : let t := after (.attach 3) (offered 3 .attach [] busy)
    reply t 3 = [0x08#8, 0x41#8, 0x10#8, 0x00#8, 0x04#8, 0x00#8, 0x01#8, 0x00#8, 0x01#8] ∧ (t.line 18).queue = [] := by
  decide +kernel

/-- R35: the epoch after 255 is 1. -/
theorem test_attach_wraps_the_epoch :
    ((after (.attach 3) (offered 3 .attach [] (base.updSession 3 fun e => { e with attached := false, epoch := 0xFF#8 }))).session
      3).epoch = 1#8 := by decide +kernel

/-- R38, R44: host 1 leaves; its line passes to host 3. -/
theorem test_detach : let t := after (.detach 1) (offered 1 .detach [] busy)
    (t.session 1).attached = false ∧ ((t.route? 0).map (·.owner)) = some 3 ∧ (t.line 18).driver = some 0 := by decide +kernel

/-- R127: the claim first, then the route, both freed. -/
theorem test_collect : let t := after (.collect 2) (offered 2 .collect [] busy)
    reply t 2 = [0x0C#8, 0x41#8, 0x12#8, 0x00#8, 0x03#8, 0x40#8, 0x02#8, 0x01#8, 0x00#8, 0xE0#8, 0x09#8, 0x01#8, 0x00#8] ∧
      t.route? 9 = none ∧ t.claim? 2 = none := by decide +kernel

/-- R14, 10.6: 40 sampled levels, 40 held lines; line 9 low and no line held. -/
theorem test_read_levels :
    reply (after (.readLevels 0) (offered 0 .readLevels [] { base with pins := upd base.pins 9 fun p => { p with level := .low } })) 0 =
      [0x0E#8, 0x41#8, 0x20#8, 0x00#8, 0x03#8, 0xFF#8, 0xFD#8, 0xFF#8, 0xFF#8, 0xFF#8, 0#8, 0#8, 0#8, 0#8, 0#8] := by decide +kernel

/-- R105, 10.6: line 18 DRIVEN by route (8, 2) of host 1 at priority 1, claim (1, 1) of host 3 waiting. -/
theorem test_query_line : reply (after (.queryLine 0) (offered 0 .queryLine [18#8] busy)) 0 =
    [0x0E#8, 0x41#8, 0x21#8, 0x00#8, 0x03#8, 0x12#8, 0xC0#8, 0x08#8, 0x02#8, 0x50#8, 0x00#8, 0x00#8, 0x01#8, 0x01#8, 0xD0#8] := by
  decide +kernel

/-- R23: line 18 is withdrawn from host 1 and its route closed with reason POLICY. -/
theorem test_set_policy : let t := after (.setPolicy 0) (offered 0 .setPolicy withdrawLine18 busy)
    (t.route? 8).map (·.state) = some (.closed .policy) ∧
      reply t 0 = [0x07#8, 0x41#8, 0x28#8, 0x00#8, 0x03#8, 0x01#8, 0x00#8, 0x00#8] := by decide +kernel

/-- R32, 10.4: driver mask Fh, listener mask Fh, preempt mask {2}, both modes, LOW over FLOAT, a break of 20 µs. -/
theorem test_query_policy : reply (after (.queryPolicy 0) (offered 0 .queryPolicy [18#8] busy)) 0 =
    [0x0D#8, 0x41#8, 0x29#8, 0x00#8, 0x03#8, 0x12#8, 0xFF#8, 0x43#8, 0x02#8, 0x00#8, 0x00#8, 0x00#8, 0x00#8, 0x14#8] := by
  decide +kernel

/-- R48, R56: the lowest free entry, 0, under generation 1, with the lease asked for. -/
theorem test_listen : let t := after (.listen 1) (offered 1 .listen [0x01#8, 0x01#8, 0x2C#8, 0x21#8, 0x02#8] base)
    reply t 1 = [0x08#8, 0x41#8, 0x30#8, 0x00#8, 0x03#8, 0x00#8, 0x01#8, 0x01#8, 0x2C#8] ∧
      terminalShows t 1 2 = .drives .high := by decide +kernel

/-- R59: host 1 gives its ACTIVE route back; its entry is free at the same generation. -/
theorem test_release : let t := after (.release 1) (offered 1 .release [8#8, 2#8] busy)
    t.routeEntry 8 = ⟨2#8, none⟩ ∧ reply t 1 = [0x05#8, 0x41#8, 0x31#8, 0x00#8, 0x03#8, 0x01#8] := by decide +kernel

/-- R60: no max lease, so the lease of 300 ms is as asked. -/
theorem test_renew : ((after (.renew 1) (offered 1 .renew [8#8, 2#8, 0x01#8, 0x2C#8] busy)).route? 8).map (·.lease) =
    some (some 300000) := by decide +kernel

/-- R61: the supervisor closes host 1's route, which keeps its entry and is told to host 1. -/
theorem test_revoke : let t := after (.revoke 0) (offered 0 .revoke [8#8, 2#8] busy)
    (t.route? 8).map (·.state) = some (.closed .revoked) ∧ (t.session 1).changes.routes = [8] ∧ attn t 1 = true := by decide +kernel

/-- R62, 10.6: host 1, DRIVER, ACTIVE, priority 1, a lease of 2000 ms, member (18, T1.3). -/
theorem test_query_route : reply (after (.queryRoute 0) (offered 0 .queryRoute [8#8, 2#8] busy)) 0 =
    [0x0E#8, 0x41#8, 0x34#8, 0x00#8, 0x03#8, 0x08#8, 0x02#8, 0x48#8, 0x40#8, 0x07#8, 0xD0#8, 0x00#8, 0x00#8, 0x12#8, 0x03#8] := by
  decide +kernel

/-- The frames of 10.7: entry 5 is the lowest free one. -/
theorem test_claim_reply_of_10_7 :
    reply (after (.claim 1) (offered 1 .claim claimLine33
      { base with routes := tab fun r => if r.val < 5 then ⟨0#8, some closedTwo⟩ else ⟨0#8, none⟩ })) 1 =
      [0x09#8, 0x41#8, 0x40#8, 0x01#8, 0x03#8, 0x05#8, 0x01#8, 0x00#8, 0x00#8, 0x00#8] := by decide +kernel

/-- R94: host 2 preempts host 1's route of priority 1. -/
theorem test_claim_preempts : ((after (.claim 2) (offered 2 .claim
      [0x01#8, 0x30#8, 0x00#8, 0x00#8, 0x00#8, 0x00#8, 0x12#8, 0x02#8] busy)).route? 8).map (·.state) =
    some (.closed .preempted) := by decide +kernel

/-- R78: priority 2 and no wait limit. -/
theorem test_amend : ((after (.amend 3) (offered 3 .amend [1#8, 1#8, 2#8, 0#8, 0#8] busy)).claim? 1).map
    (fun cl => (cl.priority, cl.waitLimit)) = some (2, none) := by decide +kernel

/-- R80: the record is free and the queue empty. -/
theorem test_cancel : let t := after (.cancel 3) (offered 3 .cancel [1#8, 1#8] busy)
    t.claimEntry 1 = ⟨1#8, none⟩ ∧ (t.line 18).queue = [] ∧ (t.session 3).waitingClaims = 0 := by decide +kernel

/-- R84, 10.6: host 3, WAITING, priority 1, 500 ms asked, 3000 ms to wait, first in line 18's queue through T3.5. -/
theorem test_query_claim : reply (after (.queryClaim 0) (offered 0 .queryClaim [1#8, 1#8] busy)) 0 =
    [0x0D#8, 0x41#8, 0x43#8, 0x00#8, 0x03#8, 0x01#8, 0x01#8, 0xC4#8, 0x01#8, 0xF4#8, 0x0B#8, 0xB8#8, 0x12#8, 0x05#8] := by
  decide +kernel

/-- R116: enabled under ACTIVE_HIGH with its input high, the group trips at once. -/
theorem test_set_group : let t := after (.setGroup 0) (offered 0 .setGroup [4#8, 0xC4#8, 0x00#8, 0x64#8] base)
    (t.group 4).state = .tripped ∧ reply t 0 = [0x05#8, 0x41#8, 0x50#8, 0x00#8, 0x03#8, 0x11#8] ∧ fltstat t = true := by
  decide +kernel

/-- Group 2 enabled, with line 18 in it. -/
def guarded : State :=
  { busy with
    groups := upd busy.groups 2 fun g => { g with enabled := true, rearmMask := 8#4 }
    policies := upd busy.policies 18 fun p => { p with groupSet := 4#8 } }

/-- R118: group 2 trips; line 18 is held and the route's one member forced. -/
theorem test_trip : let t := after (.trip 0) (offered 0 .trip [2#8] guarded)
    (t.group 2).softTrip = true ∧ t.held 18 = true ∧ (t.route? 8).map (·.forced) = some 1#8 ∧
      lineShows t 18 = .posture .float := by decide +kernel

/-- R119: host 3, in the rearm mask, clears the soft trip; the line follows host 1 again. -/
theorem test_rearm : let s := { guarded with groups := upd guarded.groups 2 fun g => { g with state := .tripped, softTrip := true } }
    let t := after (.rearm 3) (offered 3 .rearm [2#8] s)
    (t.group 2).softTrip = false ∧ (t.group 2).state = .clear ∧ t.held 18 = false ∧ lineShows t 18 = .terminal 1 3 .pushPull := by
  decide +kernel

/-- R120, 10.6: group 2 with line 18 as its one member. -/
theorem test_query_group : reply (after (.queryGroup 0) (offered 0 .queryGroup [2#8] guarded)) 0 =
    [0x15#8, 0x41#8, 0x53#8, 0x00#8, 0x03#8, 0x02#8, 0x88#8, 0x00#8, 0x64#8, 0x00#8, 0x00#8, 0x00#8,
      0x00#8, 0x00#8, 0x04#8, 0x00#8, 0x00#8, 0x00#8, 0x00#8, 0x00#8, 0x00#8, 0x00#8] := by decide +kernel

/-- 11.1: the lease of host 1's route ends and line 18 passes to host 3, the claim GRANTED. -/
theorem test_lease_expiry : let t := after (.leaseExpiry 8) busy
    (t.route? 8).map (·.state) = some (.closed .expired) ∧ (t.claim? 1).map (·.state) = some (.granted 0) ∧
      (t.line 18).state = .connecting := by decide +kernel

/-- R97: the break is over. -/
theorem test_break_expiry : let t := after (.breakExpiry 8) (connecting 20)
    (t.line 18).state = .driven ∧ (t.session 1).changes.routes = [8] := by decide +kernel

/-- R76: DROPPED, TIMED_OUT. -/
theorem test_wait_limit_expiry : let t := after (.waitLimitExpiry 1) busy
    (t.claim? 1).map (·.state) = some (.dropped .timedOut) ∧ (t.line 18).queue = [] := by decide +kernel

/-- R111. -/
theorem test_settle_expiry :
    ((after (.settleExpiry 2) { guarded with groups := upd guarded.groups 2 fun g => { g with state := .settling 7 } }).group 2).state =
      .clear := by decide +kernel

/-- R106: the new level counts after 2 µs. -/
theorem test_fault_pin_change : let t := after (.faultPinChange 2 .low) guarded
    (t.qualifier 2).count = some 2 ∧ (t.group 2).state = .clear := by decide +kernel

/-- R106: a LOW pulse of 2 µs or more counts although the pin is HIGH again when its event is taken; the return counts anew. -/
theorem test_long_pulse_counts :
    let held := { guarded with qualifiers := upd guarded.qualifiers 2 fun _ => ⟨.low, .high, [], some 0⟩ }
    let t := after (.qualifiedLevelChange 2) (after (.faultPinChange 2 .high) held)
    (t.group 2).state = .tripped ∧ t.qualifier 2 = ⟨.high, .low, [], some 2⟩ := by decide +kernel

/-- R107, R110: the input of an enabled ACTIVE_LOW group asserts. -/
theorem test_qualified_level_change :
    let t := after (.qualifiedLevelChange 2) { guarded with qualifiers := upd guarded.qualifiers 2 fun _ => ⟨.low, .high, [], some 0⟩ }
    (t.group 2).state = .tripped ∧ (t.group 2).inputAsserted = true ∧ (t.group 2).softTrip = false := by decide +kernel

/-- R3: line 18 carries T1.3. -/
theorem test_terminal_level_change :
    sampled (after (.terminalLevelChange 1 3 (some .low)) (after (.terminalLevelChange 1 3 (some .high)) busy)) 18 = .low := by
  decide +kernel

/-- R2: a board circuit pulls a floating line low. -/
theorem test_board_line_level_change :
    sampled (after (.boardLineLevelChange 7 (some .low))
      { base with policies := upd base.policies 7 fun p => { p with restPosture := .float } }) 7 = .low := by decide +kernel

/-- R54: the one entry freed goes to the claim of priority 2 accepted first; the others go on awaiting. R65: both references are told. -/
theorem test_entry_arbiter : let t := after (.release 2) (offered 2 .release [9#8, 1#8] full)
    (t.claim? 3).map (·.state) = some (.granted 9) ∧ t.claim? 1 = full.claim? 1 ∧ t.claim? 4 = full.claim? 4 ∧
      (t.session 1).changes = ⟨[3], [9]⟩ ∧ (t.route? 9).map (·.kind) = some (.driver 2 .pushPull) := by decide +kernel

/-- R93: three entries freed by a COLLECT go out by priority, then by acceptance, the lowest first. -/
theorem test_entries_in_order : let t := after (.collect 2) (offered 2 .collect [] full)
    ([3, 4, 1].map fun c => (t.claim? c).map (·.state)) = [some (.granted 9), some (.granted 40), some (.granted 41)] := by decide +kernel

/-! ### Properties of the busy state -/

/-- The acceptance order and the member lists, checked over the tables of a concrete state. -/
def recordsChecked (s : State) : Bool :=
  decide s.accepted.Nodup && decide (∀ c, c ∈ s.accepted ↔ ∃ cl ∈ s.claim? c, cl.waiting = true) &&
  decide (∀ r, ∀ rt ∈ s.route? r, rt.members.length ≤ 8 ∧ (linesOf rt.members).Nodup) &&
  decide (∀ c, ∀ cl ∈ s.claim? c, cl.members.length ≤ 8 ∧ (linesOf cl.members).Nodup)

/-- Drivers and line states, checked over the tables of a concrete state. -/
def driversChecked (s : State) : Bool :=
  decide (∀ l, ∀ r ∈ (s.line l).driver, ∃ rt ∈ s.route? r, rt.live = true ∧ rt.isDriver = true ∧ l ∈ linesOf rt.members) &&
  decide (∀ r, ∀ rt ∈ s.route? r, rt.live = true → rt.isDriver = true → ∀ l ∈ linesOf rt.members, (s.line l).driver = some r) &&
  decide (∀ l, (s.line l).state = lineStateOf s l)

/-- The line queues, checked over the tables of a concrete state. -/
def queuesChecked (s : State) : Bool :=
  decide (∀ l c, c ∈ (s.line l).queue ↔ ∃ cl ∈ s.claim? c, cl.waiting = true ∧ l ∈ linesOf cl.members) &&
  decide (∀ l, (s.line l).queue.Pairwise fun c d => ahead s c d = true) &&
  decide (∀ c, ∀ cl ∈ s.claim? c, cl.waiting = true → cl.awaiting = true →
    headsAll s c (linesOf cl.members) = true ∧ driversOn s (linesOf cl.members) = [])

/-- The three checks together give LinesAgree. -/
theorem linesAgree_of {s : State} (h : (recordsChecked s && driversChecked s && queuesChecked s) = true) : LinesAgree s := by
  simp only [recordsChecked, driversChecked, queuesChecked, Bool.and_eq_true, decide_eq_true_eq] at h
  obtain ⟨⟨⟨⟨⟨once, waiting⟩, routes⟩, claims⟩, ⟨driver, driven⟩, state⟩, ⟨queue, order⟩, awaiting⟩ := h
  exact ⟨⟨once, waiting⟩, routes, claims, driver, driven, queue, order, awaiting, state⟩

theorem busy_linesAgree : LinesAgree busy := linesAgree_of (by decide +kernel)

theorem full_linesAgree : LinesAgree full := linesAgree_of (by decide +kernel)

/-- A request in an inbound queue is no part of the line records. -/
theorem offered_linesAgree {s : State} (a : LinesAgree s) (h : HostId) (code : ReqCode) (ps : List Byte) :
    LinesAgree (offered h code ps s) :=
  ⟨⟨a.accepted.once, a.accepted.waiting⟩, a.routeMembers, a.claimMembers, a.driver, a.driven, a.queue, a.order, a.awaiting, a.state⟩

theorem busy_acceptanceExact : AcceptanceExact busy := busy_linesAgree.accepted

theorem busy_forcedExact : ForcedExact busy := by
  have a : ∀ r, ∀ rt ∈ busy.route? r, rt.isDriver = false → ∃ why, rt.state = .closed why := by
    intro r rt h hd
    have k : ∀ r, ∀ rt ∈ busy.route? r, rt.isDriver = false → rt.state = .closed .expired := by decide +kernel
    exact ⟨_, k r rt h hd⟩
  have b : ∀ r, ∀ rt ∈ busy.route? r, rt.members.length = 1 ∧ rt.forced = 0#8 := by decide +kernel
  have c : ∀ l, busy.held l = false := by decide +kernel
  refine ⟨busy_linesAgree, fun r rt h hd t e => ?_, fun r rt h _ _ i m _ => ?_, fun r rt h _ => (b r rt h).2⟩
  · obtain ⟨why, k⟩ := a r rt h hd
    rw [k] at e
    cases e
  · rw [(b r rt h).2, c]
    simp

theorem busy_bindingsExact : BindingsExact busy := by
  have a : ∀ h t, ∀ x ∈ look (busy.session h).bindings t, (h = 1 ∧ t = 3 ∧ x = .route 8 0) ∨ (h = 3 ∧ t = 5 ∧ x = .claim 1 0) := by
    decide +kernel
  have b : ∀ r, ∀ rt ∈ busy.route? r, rt.live = true → r = 8 ∧ rt = wireOne := by decide +kernel
  have c : ∀ c, ∀ cl ∈ busy.claim? c, cl.waiting = true → c = 1 ∧ cl = waitThree := by decide +kernel
  have d : busy.route? 8 = some wireOne := by decide +kernel
  have e : busy.claim? 1 = some waitThree := by decide +kernel
  refine ⟨fun h t r i x => ?_, fun h t r i x => ?_, fun r rt x live i m k => ?_, fun r rt x live i m k => ?_⟩
  · obtain ⟨rfl, rfl, y⟩ | ⟨-, -, y⟩ := a h t _ x
    · cases y
      exact ⟨wireOne, ⟨18, 3⟩, d, rfl, rfl, rfl, rfl⟩
    · cases y
  · obtain ⟨-, -, y⟩ | ⟨rfl, rfl, y⟩ := a h t _ x
    · cases y
    · cases y
      exact ⟨waitThree, ⟨18, 5⟩, e, rfl, rfl, rfl, rfl⟩
  · obtain ⟨rfl, rfl⟩ := b r rt x live
    match i, k with
    | 0, k =>
      cases k
      decide +kernel
    | n + 1, k => simp [wireOne] at k
  · obtain ⟨rfl, rfl⟩ := c r rt x live
    match i, k with
    | 0, k =>
      cases k
      decide +kernel
    | n + 1, k => simp [waitThree] at k

/-! ### States that meet the hypotheses of the statements

Each theorem below names its statement; a statement of several clauses has a witness for each. -/

/-- Host h's request is offered in a state where the common checks pass. -/
def admits (s : State) (h : HostId) (code : ReqCode) (ps : List Byte) : Bool :=
  !(offered h code ps s).inReset && ((offered h code ps s).port h).replies.length < 4 &&
    ((offered h code ps s).port h).inbound.head? = some (frameOf code ps) && frameCode (frameOf code ps) = code.byte &&
    (commonRefusal code h (frameParams (frameOf code ps)) (offered h code ps s)).isNone

/-- That request of host h is offered, and its common checks pass. -/
def Posed (h : HostId) (code : ReqCode) (ps : List Byte) (s : State) : Prop :=
  Offers (offered h code ps s) h code (frameOf code ps) ∧ Admitted (offered h code ps s) h code (frameOf code ps)

theorem admitted_of {s : State} {h : HostId} {code : ReqCode} {ps : List Byte} (ok : admits s h code ps = true) :
    Posed h code ps s := by
  unfold admits at ok
  rw [Bool.and_eq_true] at ok
  exact ⟨offers_of ok.1, Option.isNone_iff_eq_none.mp ok.2⟩

theorem test_meets_EmptyQueuePassesAMicrosecond : busy.pending = [] := by decide +kernel

theorem test_meets_DeviceResetSetsEveryRecord : State.reset.inReset = true ∧ actsInReset (.read 0) = false := by decide +kernel

theorem test_meets_LeaveResetSamplesTheStraps : State.reset.inReset = true ∧ base.inReset = false := by decide +kernel

theorem test_meets_TransactionBeginCapturesStatus : busy.inReset = false := by decide +kernel

/-- WRITE at the least and the greatest LEN, with room for one frame more and with none; SELn deasserted after a READ_AGAIN, with bytes that
are ignored, and in no transaction. -/
theorem test_meets_WriteJudgesTheFrame :
    (begun base).inReset = false ∧ ((begun base).port 0).transaction = .begun 0x24#8 ∧
      frameLengthOk (requestFrame 1#8 0x10#8 []) = true ∧
      frameLengthOk (requestFrame 1#8 0x40#8 (List.replicate 24 0#8)) = true ∧
      frameLengthOk (requestFrame 1#8 0x40#8 (List.replicate 25 0#8)) = false ∧
      let three := begun (base.updPort 0 fun p => { p with inbound := [[], [], []] })
      ((after (.write 0 (some (frameOf .collect []))) three).port 0).lastWrite = .accepted ∧
        let four := begun (base.updPort 0 fun p => { p with inbound := [[], [], [], []] })
        ((after (.write 0 (some (frameOf .collect []))) four).port 0).lastWrite = .rejectedFull ∧
      let sent := after (.readAgain 0) (begun base)
      sent.inReset = false ∧ (sent.port 0).transaction = .sending 0x24#8 [0x00#8] ∧
        ((after (.write 0 (some (frameOf .collect []))) sent).port 0).inbound = [] ∧ (base.port 0).transaction = .none := by
  decide +kernel

theorem test_meets_ReadTakesTheOldestReply : let s := begun (base.updPort 0 fun p => { p with replies := [[0x04#8]] })
    s.inReset = false ∧ (s.port 0).transaction = .begun 0x24#8 ∧ (s.port 0).replies = [[0x04#8]] ∧
      ((begun base).port 0).replies = [] := by decide +kernel

theorem test_meets_ReadAgainResends : let s := begun (base.updPort 0 fun p => { p with lastRead := some [] })
    exec (.linkReset 0) s = .next (after (.linkReset 0) s) ∧ ((after (.linkReset 0) s).port 0).lastRead ≠ (s.port 0).lastRead ∧
      s.inReset = false ∧ (s.port 0).transaction = .begun 0x24#8 :=
  ⟨exec_after (by decide +kernel), by decide +kernel⟩

theorem test_meets_LinkResetClearsPortAndSession :
    (begun busy).inReset = false ∧ ((begun busy).port 0).transaction = .begun 0x24#8 ∧ ((begun busy).session 0).attached = true ∧
      let s := begun (base.updSession 0 fun e => { e with attached := false })
      s.inReset = false ∧ (s.port 0).transaction = .begun 0x24#8 ∧ (s.session 0).attached = false := by decide +kernel

theorem test_meets_UnknownKindIsRejected :
    (begun base).inReset = false ∧ ((begun base).port 0).transaction = .begun 0x24#8 ∧
      0x30#8 ∉ [0x31#8, 0x32#8, 0x33#8, 0x3C#8] ∧ 0x3C#8 ∈ [0x31#8, 0x32#8, 0x33#8, 0x3C#8] := by decide +kernel

theorem test_meets_CrcIsComputedBitwise : let f := frameOf .attach []
    exec (.write 0 (some f)) (begun base) = .next (after (.write 0 (some f)) (begun base)) ∧
      ((after (.write 0 (some f)) (begun base)).port 0).lastWrite = .accepted ∧ 5 ≤ f.length ∧ frameCheckOk f = true ∧
      (begun base).inReset = false ∧ ((begun base).port 0).transaction = .begun 0x24#8 :=
  ⟨exec_after (by decide +kernel), by decide +kernel⟩

theorem test_meets_UnknownRequestIsAnswered : let s := base.updPort 0 fun p => { p with inbound := [requestFrame 7#8 0x54#8 []] }
    s.inReset = false ∧ (s.port 0).replies.length < 4 ∧ (s.port 0).inbound.head? = some (requestFrame 7#8 0x54#8 []) ∧
      ∀ code ∈ allCodes, frameCode (requestFrame 7#8 0x54#8 []) ≠ code.byte := by decide +kernel

/-- Every request code is one of the list. -/
theorem test_all_codes_are_listed : ∀ code : ReqCode, code ∈ allCodes := by
  intro code
  cases code <;> decide

theorem test_meets_StalledLinkTakesNothing :
    (base.port 0).inbound = [] ∧
      4 ≤ ((base.updPort 0 fun p => { p with replies := [[], [], [], []], inbound := [frameOf .attach []] }).port 0).replies.length := by
  decide +kernel

/-- One request that fails each common check, and one that passes them: a COLLECT with a parameter byte, a COLLECT of a DETACHED host, a
TRIP of host 1, a TRIP of the supervisor. -/
theorem test_meets_CommonChecksDecideInOrder :
    let out := base.updSession 1 fun e => { e with attached := false }
    (Offers (offered 1 .collect [0#8] out) 1 .collect (frameOf .collect [0#8]) ∧
      Offers (offered 1 .collect [] out) 1 .collect (frameOf .collect []) ∧
      Offers (offered 1 .trip [0#8] base) 1 .trip (frameOf .trip [0#8])) ∧
    Posed 0 .trip [0#8] base ∧
    ReqCode.lengthOk .collect (frameParams (frameOf .collect [0#8])) = false ∧
      ((offered 1 .collect [] out).session 1).attached = false ∧
      ((offered 1 .trip [0#8] base).session 1).attached = true ∧ (1 : HostId) ≠ (offered 1 .trip [0#8] base).supervisor :=
  ⟨⟨offers_of (by decide +kernel), offers_of (by decide +kernel), offers_of (by decide +kernel)⟩, admitted_of (by decide +kernel),
    by decide +kernel⟩

/-- Line 40 is out of range, line 39 is in it. -/
theorem test_meets_RangeChecksRefuse :
    (Posed 0 .queryLine [40#8] base ∧
      ¬ ReqCode.InRange .queryLine (frameParams (frameOf .queryLine [40#8]))) ∧
    Posed 0 .queryLine [39#8] base ∧
      ReqCode.InRange .queryLine (frameParams (frameOf .queryLine [39#8])) := by
  simp only [ReqCode.InRange]
  exact ⟨⟨admitted_of (by decide +kernel), by decide +kernel⟩, admitted_of (by decide +kernel), by decide +kernel⟩

/-- 10.3, 10.4: a break interval of 1000 µs and of 1001 µs; no drive mode; rest posture 4 and 5; a settle interval of 4095 ms and of 0. -/
theorem test_ranges_at_their_bounds :
    (ReqCode.InRange .setPolicy [0#8, 39#8, 0#8, 0xF1#8, 0x44#8, 0#8, 0#8, 0#8, 0x03#8, 0xE8#8] ∧
      ¬ ReqCode.InRange .setPolicy [0#8, 39#8, 0#8, 0xF1#8, 0x44#8, 0#8, 0#8, 0#8, 0x03#8, 0xE9#8] ∧
      ¬ ReqCode.InRange .setPolicy [0#8, 39#8, 0#8, 0xF0#8, 0x44#8, 0#8, 0#8, 0#8, 0#8, 0#8] ∧
      ¬ ReqCode.InRange .setPolicy [0#8, 39#8, 0#8, 0xF1#8, 0x54#8, 0#8, 0#8, 0#8, 0#8, 0#8]) ∧
    ReqCode.InRange .setGroup [7#8, 0xEF#8, 0x0F#8, 0xFF#8] ∧ ¬ ReqCode.InRange .setGroup [7#8, 0xEF#8, 0#8, 0#8] := by
  simp only [ReqCode.InRange, PolicyInRange]
  decide

/-- 10.4: two members; a line twice; a terminal of 12; no member. -/
theorem test_member_ranges :
    ReqCode.InRange .claim [2#8, 0x31#8, 0#8, 0#8, 0#8, 0#8, 39#8, 11#8, 0#8, 0#8] ∧
      ¬ ReqCode.InRange .claim [2#8, 0x31#8, 0#8, 0#8, 0#8, 0#8, 39#8, 11#8, 39#8, 0#8] ∧
      ¬ ReqCode.InRange .listen [1#8, 0#8, 0#8, 39#8, 12#8] ∧ ¬ ReqCode.InRange .listen [0#8, 0#8, 0#8] := by
  simp only [ReqCode.InRange, MembersInRange]
  refine ⟨?_, ?_, ?_, ?_⟩ <;> decide

/-- A route reference of an old generation, of a free slot, and of another host; then claim references likewise, and a settled claim. -/
theorem test_meets_ReferencesAreChecked :
    (Posed 1 .release [8#8, 1#8] busy ∧
      ReqCode.routeReference? .release (frameParams (frameOf .release [8#8, 1#8])) = some (8, 1#8) ∧
      (busy.routeEntry 8).generation ≠ 1#8 ∧ busy.route? 95 = none) ∧
    (Posed 3 .renew [8#8, 2#8, 0#8, 0#8] busy ∧
      ReqCode.routeReference? .renew (frameParams (frameOf .renew [8#8, 2#8, 0#8, 0#8])) = some (8, 2#8) ∧
      NamesRoute (offered 3 .renew [8#8, 2#8, 0#8, 0#8] busy) 8 2#8 wireOne ∧ wireOne.owner ≠ 3) ∧
    (Posed 3 .queryClaim [31#8, 0#8] busy ∧
      ReqCode.claimReference? .queryClaim (frameParams (frameOf .queryClaim [31#8, 0#8])) = some (31, 0#8) ∧
      busy.claim? 31 = none) ∧
    (Posed 0 .cancel [1#8, 1#8] busy ∧
      ReqCode.claimReference? .cancel (frameParams (frameOf .cancel [1#8, 1#8])) = some (1, 1#8) ∧
      NamesClaim (offered 0 .cancel [1#8, 1#8] busy) 1 1#8 waitThree ∧ waitThree.owner ≠ 0) ∧
    Posed 2 .amend [2#8, 1#8, 0#8, 0#8, 0#8] busy ∧
      ReqCode.claimReference? .amend (frameParams (frameOf .amend [2#8, 1#8, 0#8, 0#8, 0#8])) = some (2, 1#8) ∧
      NamesClaim (offered 2 .amend [2#8, 1#8, 0#8, 0#8, 0#8] busy) 2 1#8 droppedTwo ∧ droppedTwo.owner = 2 ∧
      droppedTwo.waiting = false :=
  ⟨⟨admitted_of (by decide +kernel), by decide +kernel⟩,
    ⟨admitted_of (by decide +kernel), by decide +kernel⟩,
    ⟨admitted_of (by decide +kernel), by decide +kernel⟩,
    ⟨admitted_of (by decide +kernel), by decide +kernel⟩,
    admitted_of (by decide +kernel), by decide +kernel⟩

/-- LISTEN of a line the host may not listen to; CLAIM through a bound terminal. -/
theorem test_meets_ListenAndClaimChecksInOrder :
    let ps : List Byte := [1#8, 0#8, 0#8, 5#8, 0#8]
    let s := { base with policies := upd base.policies 5 fun p => { p with listenerMask := 0#4 } }
    (Posed 1 .listen ps s ∧
      listenParams? (frameParams (frameOf .listen ps)) = some (0, [⟨5, 0⟩]) ∧
      firstFailing (listenChecks (offered 1 .listen ps s) 1 [⟨5, 0⟩]) = some .lineNotPermitted) ∧
    let qs : List Byte := [1#8, 0#8, 0#8, 0#8, 0#8, 0#8, 5#8, 3#8]
    Posed 1 .claim qs busy ∧
      claimParams? (frameParams (frameOf .claim qs)) = some ⟨0, .pushPull, 0, 0, [⟨5, 3⟩]⟩ ∧
      firstFailing (claimChecks (offered 1 .claim qs busy) 1 ⟨0, .pushPull, 0, 0, [⟨5, 3⟩]⟩) = some .terminalBusy :=
  ⟨⟨admitted_of (by decide +kernel), by decide +kernel⟩, admitted_of (by decide +kernel), by decide +kernel⟩

theorem test_meets_AttachOpensASession :
    let s := offered 3 .attach [] (base.updSession 3 fun e => { e with attached := false })
    Offers s 3 .attach (frameOf .attach []) ∧ frameParams (frameOf .attach []) = [] ∧ (s.session 3).attached = false :=
  ⟨offers_of (by decide +kernel), by decide +kernel⟩

theorem test_meets_AttachAndDetachEndTheSession :
    ((offered 3 .attach [] busy).session 3).attached = true ∧ frameParams (frameOf .attach []) = [] ∧
      Offers (offered 3 .attach [] busy) 3 .attach (frameOf .attach []) ∧
      ((offered 1 .detach [] busy).session 1).attached = true ∧ frameParams (frameOf .detach []) = [] ∧
      Offers (offered 1 .detach [] busy) 1 .detach (frameOf .detach []) :=
  ⟨by decide +kernel, by decide +kernel, offers_of (by decide +kernel), by decide +kernel, by decide +kernel, offers_of (by decide +kernel)⟩

theorem test_meets_EpochRule :
    Offers (offered 3 .attach [] busy) 3 .attach (frameOf .attach []) ∧ frameParams (frameOf .attach []) = [] ∧
      exec (.collect 2) busy = .next (after (.collect 2) busy) ∧ (∀ h, Instr.collect 2 ≠ .attach h) ∧
      (∀ k, (busy.session k).attached = true → (busy.session k).epoch ≠ 0#8) ∧ (0xFF#8 : Byte) ≠ 0#8 :=
  ⟨offers_of (by decide +kernel), by decide +kernel, exec_after (by decide +kernel), by decide, by decide +kernel, by decide⟩

theorem changeSetsExact_of {s : State}
    (sets : ∀ h, (s.session h).changes.claims.Pairwise (· < ·) ∧ (s.session h).changes.routes.Pairwise (· < ·) ∧
      (∀ c ∈ (s.session h).changes.claims, ∃ cl ∈ s.claim? c, cl.owner = h) ∧
      ∀ r ∈ (s.session h).changes.routes, ∃ rt ∈ s.route? r, rt.owner = h)
    (settled : ∀ c, ∀ cl ∈ s.claim? c, cl.waiting = false → c ∈ (s.session cl.owner).changes.claims)
    (closed : ∀ r, ∀ rt ∈ s.route? r, rt.live = false → r ∈ (s.session rt.owner).changes.routes) : ChangeSetsExact s :=
  ⟨fun h => (sets h).1, fun h => (sets h).2.1, fun h => (sets h).2.2.1, fun h => (sets h).2.2.2, settled, closed⟩

theorem busy_changeSetsExact : ChangeSetsExact busy :=
  changeSetsExact_of (by decide +kernel) (by decide +kernel) (by decide +kernel)

theorem countsExact_of {s : State} {h : HostId}
    (ok : ((s.session h).routesInUse = (routesOf s h).length ∧ (s.session h).claimRecords = (claimsOf s h).length ∧
      (s.session h).waitingClaims = (waitingOf s h).length) ∧ (s.session h).routesInUse + (s.session h).waitingClaims ≤ 32 ∧
      (s.session h).claimRecords ≤ 8) : CountsExact s h :=
  ⟨ok.1.1, ok.1.2.1, ok.1.2.2, ok.2.1, ok.2.2⟩

theorem busy_countsExact : ∀ h, CountsExact busy h := by
  have ok : ∀ h, ((busy.session h).routesInUse = (routesOf busy h).length ∧ (busy.session h).claimRecords = (claimsOf busy h).length ∧
      (busy.session h).waitingClaims = (waitingOf busy h).length) ∧ (busy.session h).routesInUse + (busy.session h).waitingClaims ≤ 32 ∧
      (busy.session h).claimRecords ≤ 8 := by decide +kernel
  exact fun h => countsExact_of (ok h)

/-- A request that only offers a frame changes no session and no record. -/
theorem offered_changeSetsExact {h : HostId} {code : ReqCode} {ps : List Byte} {s : State} (ok : ChangeSetsExact s) :
    ChangeSetsExact (offered h code ps s) :=
  ⟨ok.claimsOnce, ok.routesOnce, ok.claimsOwn, ok.routesOwn, ok.settled, ok.closed⟩

theorem offered_countsExact {h k : HostId} {code : ReqCode} {ps : List Byte} {s : State} (ok : CountsExact s k) :
    CountsExact (offered h code ps s) k := ⟨ok.routes, ok.records, ok.waiting, ok.routeLimit, ok.claimLimit⟩

/-- Seven CLOSED routes of host 2, all in its change set: one more than a COLLECT reports. -/
def crowded : State :=
  { base with
    routes := tab fun r => if r.val < 7 then ⟨1#8, some closedTwo⟩ else ⟨0#8, none⟩
    sessions := upd base.sessions 2 fun e => { e with routesInUse := 7, changes := ⟨[], [0, 1, 2, 3, 4, 5, 6]⟩ } }

/-- Host 2 has a claim and a route to collect, or seven routes; host 0 has nothing, and no entry waits. -/
theorem test_meets_CollectReportsAndClears :
    (Posed 2 .collect [] busy ∧
      ChangeSetsExact (offered 2 .collect [] busy) ∧ CountsExact (offered 2 .collect [] busy) 2 ∧
      (busy.session 2).changes = ⟨[2], [9]⟩) ∧
    (Posed 2 .collect [] crowded ∧
      ChangeSetsExact (offered 2 .collect [] crowded) ∧ CountsExact (offered 2 .collect [] crowded) 2 ∧
      (crowded.session 2).changes.routes.length = 7) ∧
    Posed 0 .collect [] busy ∧
      ChangeSetsExact (offered 0 .collect [] busy) ∧ CountsExact (offered 0 .collect [] busy) 0 ∧
      NoIdleEntry (offered 0 .collect [] busy) ∧ ((offered 0 .collect [] busy).session 0).changes = ⟨[], []⟩ ∧
      ∀ c ∈ busy.accepted, ∀ cl ∈ busy.claim? c, cl.awaiting = true → headsAll busy c (linesOf cl.members) = true :=
  ⟨⟨admitted_of (by decide +kernel), offered_changeSetsExact busy_changeSetsExact, offered_countsExact (busy_countsExact 2),
      by decide +kernel⟩,
    ⟨admitted_of (by decide +kernel),
      offered_changeSetsExact (changeSetsExact_of (by decide +kernel) (by decide +kernel) (by decide +kernel)),
      offered_countsExact (countsExact_of (by decide +kernel)), by decide +kernel⟩,
    admitted_of (by decide +kernel), offered_changeSetsExact busy_changeSetsExact, offered_countsExact (busy_countsExact 0),
    .inr (by decide +kernel), by decide +kernel⟩

theorem test_meets_ReadLevelsReportsEveryLine :
    Offers (offered 0 .readLevels [] busy) 0 .readLevels (frameOf .readLevels []) ∧ frameParams (frameOf .readLevels []) = [] :=
  ⟨offers_of (by decide +kernel), by decide +kernel⟩

/-- Line 18 with its driver and its queue, while the route is ACTIVE and while it is CONNECTING, and line 17 without a driver; a PENDING
line whose head awaits an entry; an ACTIVE route, a CONNECTING one, one without a lease, and a CLOSED LISTENER route; a WAITING claim with
and without a wait limit, a GRANTED one and a DROPPED one. -/
theorem test_meets_LineRouteAndClaimQueries :
    let pend := { busy with
      claims := upd busy.claims 1 fun _ => ⟨1#8, some { waitThree with awaiting := true }⟩
      lines := upd busy.lines 18 fun _ => ⟨.pending, none, [1]⟩ }
    (Offers (offered 0 .queryLine [18#8] busy) 0 .queryLine (frameOf .queryLine [18#8]) ∧
      frameParams (frameOf .queryLine [18#8]) = [18#8] ∧ lineDriver (offered 0 .queryLine [18#8] busy) 18 = some (8, wireOne) ∧
      wireOne.kind = .driver 1 .pushPull ∧ memberIndex wireOne.members 18 = some 0 ∧ wireOne.state = .active ∧
      lineDriver (connecting 20) 18 = some (8, { wireOne with state := .connecting 20 }) ∧ lineDriver busy 17 = none ∧
      ((pend.line 18).state = .pending ∧ (pend.line 18).queue.head? = some 1 ∧
        pend.claim? 1 = some { waitThree with awaiting := true }) ∧
      ∀ c ∈ ((offered 0 .queryLine [18#8] busy).line 18).queue, (busy.claim? c).isSome) ∧
    (Offers (offered 0 .queryRoute [8#8, 2#8] busy) 0 .queryRoute (frameOf .queryRoute [8#8, 2#8]) ∧
      frameParams (frameOf .queryRoute [8#8, 2#8]) = [8#8, 2#8] ∧
      NamesRoute (offered 0 .queryRoute [8#8, 2#8] busy) 8 2#8 wireOne ∧ wireOne.live = true ∧ wireOne.lease = some 2000000 ∧
      NamesRoute (offered 0 .queryRoute [8#8, 2#8] (routeAs fun rt => { rt with lease := none })) 8 2#8 { wireOne with lease := none } ∧
      NamesRoute (offered 0 .queryRoute [9#8, 1#8] busy) 9 1#8 closedTwo ∧ closedTwo.live = false ∧ closedTwo.kind = .listener ∧
      NamesRoute (offered 0 .queryRoute [8#8, 2#8] (connecting 20)) 8 2#8 { wireOne with state := .connecting 20 }) ∧
    Offers (offered 0 .queryClaim [1#8, 1#8] busy) 0 .queryClaim (frameOf .queryClaim [1#8, 1#8]) ∧
      frameParams (frameOf .queryClaim [1#8, 1#8]) = [1#8, 1#8] ∧
      NamesClaim (offered 0 .queryClaim [1#8, 1#8] busy) 1 1#8 waitThree ∧ waitThree.leaseRequested < 65536 ∧
      (waitThree.waiting = true ∧ waitThree.waitLimit = some 3000000 ∧ (busy.line 18).queue.idxOf 1 < 4) ∧
      NamesClaim (offered 0 .queryClaim [1#8, 1#8] (claimAs fun cl => { cl with waitLimit := none })) 1 1#8
        { waitThree with waitLimit := none } ∧
      NamesClaim (offered 0 .queryClaim [2#8, 1#8] busy) 2 1#8 droppedTwo ∧ droppedTwo.state = .dropped .timedOut ∧
      NamesClaim (offered 0 .queryClaim [1#8, 1#8] (claimAs fun cl => { cl with state := .granted 8 })) 1 1#8
        { waitThree with state := .granted 8 } :=
  ⟨⟨offers_of (by decide +kernel), by decide +kernel⟩, ⟨offers_of (by decide +kernel), by decide +kernel⟩,
    offers_of (by decide +kernel), by decide +kernel⟩

theorem test_meets_PolicyAndGroupQueries :
    (Offers (offered 0 .queryPolicy [18#8] busy) 0 .queryPolicy (frameOf .queryPolicy [18#8]) ∧
      frameParams (frameOf .queryPolicy [18#8]) = [18#8] ∧ ((offered 0 .queryPolicy [18#8] busy).policy 18).modes ≠ 0#2 ∧
      (busy.policy 18).maxLease < 65536 ∧ (busy.policy 18).breakInterval ≤ 1000) ∧
    Offers (offered 0 .queryGroup [2#8] guarded) 0 .queryGroup (frameOf .queryGroup [2#8]) ∧
      frameParams (frameOf .queryGroup [2#8]) = [2#8] ∧ 1 ≤ ((offered 0 .queryGroup [2#8] guarded).group 2).settleInterval ∧
      ((offered 0 .queryGroup [2#8] guarded).group 2).settleInterval ≤ 4095 :=
  ⟨⟨offers_of (by decide +kernel), by decide +kernel⟩,
    offers_of (by decide +kernel), by decide +kernel⟩

/-- The state with group 2 TRIPPED by a TRIP. -/
def tripped : State := { guarded with groups := upd guarded.groups 2 fun g => { g with state := .tripped, softTrip := true } }

/-- SET_POLICY of line 18 that leaves every host permitted, with a max lease of 1 ms and no host in the preempt mask. -/
def clampLine18 : List Byte := [18#8, 18#8, 0xFF#8, 0x03#8, 0x02#8, 0x00#8, 0x00#8, 0x01#8, 0x00#8, 0x14#8]

def clampedPolicy : Policy := { look base.policies 18 with preemptMask := 0#4, maxLease := 1 }

/-- The busy state with host 3's claim at priority 3, and that request. -/
def preempting : State := offered 0 .setPolicy clampLine18 (claimAs fun cl => { cl with priority := 3 })

/-- Line 18 is withdrawn from host 1, whose live route has a member on it; host 2's CLOSED route has none in the range. Line 18, held by
group 2, leaves the group by another SET_POLICY, and its member is released. -/
theorem test_meets_SetPolicyWritesAndCloses :
    Posed 0 .setPolicy withdrawLine18 busy ∧
      setPolicyParams? (frameParams (frameOf .setPolicy withdrawLine18)) =
        some (18, 18, { clampedPolicy with driverMask := 0xD#4, maxLease := 0 }) ∧
      busy.route? 8 = some wireOne ∧ wireOne.live = true ∧ (∃ m ∈ wireOne.members, 18 ≤ m.line ∧ m.line ≤ 18) ∧
      routePermitted (after (.setPolicy 0) (offered 0 .setPolicy withdrawLine18 busy)) wireOne = false ∧
      (∀ rt ∈ busy.route? 9, rt.live = true → ∀ m ∈ rt.members, ¬ (18 ≤ m.line ∧ m.line ≤ 18)) ∧
      let s := offered 0 .setPolicy clampLine18 tripped
      ForcingOn s (after (.setPolicy 0) s) 18 8 wireOne 0 ∧
        ((after (.setPolicy 0) s).route? 8).map (·.active) = some true :=
  ⟨admitted_of (by decide +kernel), by decide +kernel⟩

/-- Line 18 withdrawn from host 3 drops its claim; with no preempt mask a claim of priority 3 is demoted and one of priority 1 left; a
claim and a route off the range; a lease of 2 s against a max of 1 ms, and one of 1 ms, which stays. -/
theorem test_meets_SetPolicyDropsDemotesAndClamps :
    Posed 0 .setPolicy clampLine18 busy ∧
      setPolicyParams? (frameParams (frameOf .setPolicy clampLine18)) = some (18, 18, clampedPolicy) ∧
      busy.claim? 1 = some waitThree ∧ waitThree.waiting = true ∧ (∃ m ∈ waitThree.members, 18 ≤ m.line ∧ m.line ≤ 18) ∧
      claimPermitted (after (.setPolicy 0) (offered 0 .setPolicy clampLine18 busy)) waitThree = true ∧ waitThree.priority ≠ 3 ∧
      claimPermitted (after (.setPolicy 0) (offered 0 .setPolicy (clampLine18.set 2 0x7F#8) busy)) waitThree = false ∧
      (preempting.claim? 1 = some { waitThree with priority := 3 } ∧
        mayPreempt (after (.setPolicy 0) preempting) 3 (linesOf waitThree.members) = false) ∧
      (∀ cl ∈ busy.claim? 2, cl.waiting = true → ∀ m ∈ cl.members, ¬ (18 ≤ m.line ∧ m.line ≤ 18)) ∧
      busy.route? 8 = some wireOne ∧ routePermitted (after (.setPolicy 0) (offered 0 .setPolicy clampLine18 busy)) wireOne = true ∧
      ((after (.setPolicy 0) (offered 0 .setPolicy clampLine18 busy)).route? 8).map (·.lease) = some (some 1000) ∧
      ((after (.setPolicy 0) (offered 0 .setPolicy clampLine18 (routeAs fun rt => { rt with lease := some 1000 }))).route? 8).map
        (·.leaseClamped) = some false :=
  ⟨admitted_of (by decide +kernel), by decide +kernel⟩

/-- R19 over two lines, one without a limit and one of 2000 ms; the largest lease. -/
theorem test_meets_LeaseResolution :
    let s := { base with policies := upd base.policies 18 fun p => { p with maxLease := 2000 } }
    (∀ l ∈ [(3 : LineNo), 4], (s.policy l).maxLease = 0) ∧ (∃ l ∈ [(3 : LineNo), 18], (s.policy l).maxLease ≠ 0) ∧
      effectiveMax s [3, 18] = 2000 ∧ resolveLease 65535 2000 = 2000 ∧ resolveLease 500 2000 = 500 ∧ resolveLease 2000 2000 = 2000 := by
  decide +kernel

def listenLine39 : List Byte := [1#8, 0#8, 0#8, 39#8, 11#8]

/-- Entry 0 is free; and in another state entry 95 is the only free one. -/
theorem test_meets_ListenCreatesARoute :
    let last := { busy with routes := tab fun r => if r.val < 95 then ⟨1#8, some closedTwo⟩ else ⟨0xFF#8, none⟩ }
    (Posed 1 .listen listenLine39 busy ∧
      listenParams? (frameParams (frameOf .listen listenLine39)) = some (0, [⟨39, 11⟩]) ∧
      firstFailing (listenChecks (offered 1 .listen listenLine39 busy) 1 [⟨39, 11⟩]) = none ∧ busy.route? 0 = none ∧
      ∀ q : RouteSlot, q < 0 → (busy.route? q).isSome) ∧
    Posed 1 .listen listenLine39 last ∧
      firstFailing (listenChecks (offered 1 .listen listenLine39 last) 1 [⟨39, 11⟩]) = none ∧ last.route? 95 = none ∧
      ∀ q : RouteSlot, q < 95 → (last.route? q).isSome :=
  ⟨⟨admitted_of (by decide +kernel), by decide +kernel⟩,
    admitted_of (by decide +kernel), by decide +kernel⟩

/-- An ACTIVE, a CONNECTING and a CLOSED route of the host that releases it, and a CLOSED one whose entry three claims await. -/
theorem test_meets_ReleaseFreesTheRoute :
    (Posed 1 .release [8#8, 2#8] busy ∧
      frameParams (frameOf .release [8#8, 2#8]) = [8#8, 2#8] ∧
      NamesRoute (offered 1 .release [8#8, 2#8] busy) 8 2#8 wireOne ∧ wireOne.owner = 1 ∧ wireOne.state = .active) ∧
    NamesRoute (offered 1 .release [8#8, 2#8] (connecting 20)) 8 2#8 { wireOne with state := .connecting 20 } ∧
    Posed 2 .release [9#8, 1#8] busy ∧
      (NamesRoute (offered 2 .release [9#8, 1#8] busy) 9 1#8 closedTwo ∧ closedTwo.owner = 2 ∧ closedTwo.state = .closed .expired) ∧
    Posed 2 .release [9#8, 1#8] full ∧
      (let s := offered 2 .release [9#8, 1#8] full
      NamesRoute s 9 1#8 closedTwo ∧ closedTwo.live = false ∧ (∀ q, q ≠ 9 → (s.route? q).isSome) ∧
        (∀ c ∈ s.accepted, ∀ cl ∈ s.claim? c, headsAll s c (linesOf cl.members) = true) ∧
        3 ∈ s.accepted ∧ s.claim? 3 = some (awaitingClaim 1 2 20) ∧
        ∀ d ∈ s.accepted, ∀ dl ∈ s.claim? d, d ≠ 3 →
          dl.priority < 2 ∨ (2 = dl.priority ∧ s.accepted.idxOf 3 < s.accepted.idxOf d)) :=
  ⟨⟨admitted_of (by decide +kernel), by decide +kernel⟩,
    by decide +kernel, admitted_of (by decide +kernel), by decide +kernel, admitted_of (by decide +kernel), by decide +kernel⟩

theorem test_meets_RenewReplacesTheLease :
    (Posed 1 .renew [8#8, 2#8, 0xFF#8, 0xFF#8] busy ∧
      renewParams? (frameParams (frameOf .renew [8#8, 2#8, 0xFF#8, 0xFF#8])) = some (8, 2#8, 65535) ∧
      NamesRoute (offered 1 .renew [8#8, 2#8, 0xFF#8, 0xFF#8] busy) 8 2#8 wireOne ∧ wireOne.owner = 1 ∧ wireOne.live = true) ∧
    Posed 2 .renew [9#8, 1#8, 0#8, 0#8] busy ∧
      renewParams? (frameParams (frameOf .renew [9#8, 1#8, 0#8, 0#8])) = some (9, 1#8, 0) ∧
      NamesRoute (offered 2 .renew [9#8, 1#8, 0#8, 0#8] busy) 9 1#8 closedTwo ∧ closedTwo.state = .closed .expired :=
  ⟨⟨admitted_of (by decide +kernel), by decide +kernel⟩,
    admitted_of (by decide +kernel), by decide +kernel⟩

theorem test_meets_RevokeClosesTheRoute :
    (Posed 0 .revoke [8#8, 2#8] busy ∧
      frameParams (frameOf .revoke [8#8, 2#8]) = [8#8, 2#8] ∧
      NamesRoute (offered 0 .revoke [8#8, 2#8] busy) 8 2#8 wireOne ∧ wireOne.live = true) ∧
    Posed 0 .revoke [9#8, 1#8] busy ∧
      NamesRoute (offered 0 .revoke [9#8, 1#8] busy) 9 1#8 closedTwo ∧ closedTwo.state = .closed .expired :=
  ⟨⟨admitted_of (by decide +kernel), by decide +kernel⟩,
    admitted_of (by decide +kernel), by decide +kernel⟩

/-- The claim of 10.7 where the record 0 is free, and where only the record 31 is. -/
theorem test_meets_ClaimIsGrantedOrQueued :
    let last := { busy with claims := tab fun c => if c.val < 31 then ⟨0#8, some droppedTwo⟩ else ⟨0#8, none⟩ }
    let p : ClaimParams := ⟨1, .pushPull, 0, 0, [⟨33, 2⟩]⟩
    (Posed 1 .claim claimLine33 busy ∧
      claimParams? (frameParams (frameOf .claim claimLine33)) = some p ∧
      firstFailing (claimChecks (offered 1 .claim claimLine33 busy) 1 p) = none ∧ busy.claim? 0 = none ∧
      ∀ d : ClaimSlot, d < 0 → (busy.claim? d).isSome) ∧
    Posed 1 .claim claimLine33 last ∧
      firstFailing (claimChecks (offered 1 .claim claimLine33 last) 1 p) = none ∧ last.claim? 31 = none ∧
      ∀ d : ClaimSlot, d < 31 → (last.claim? d).isSome :=
  ⟨⟨admitted_of (by decide +kernel), by decide +kernel⟩,
    admitted_of (by decide +kernel), by decide +kernel⟩

/-- Line 33 without driver and queue, its break interval 20 µs; and 0 in another state. -/
theorem test_meets_ClaimOnFreeLinesIsGranted :
    let none' := { busy with policies := upd busy.policies 33 fun p => { p with breakInterval := 0 } }
    let p : ClaimParams := ⟨1, .pushPull, 0, 0, [⟨33, 2⟩]⟩
    (Posed 1 .claim claimLine33 busy ∧
      claimParams? (frameParams (frameOf .claim claimLine33)) = some p ∧
      firstFailing (claimChecks (offered 1 .claim claimLine33 busy) 1 p) = none ∧
      (∀ m ∈ p.members, (busy.line m.line).driver = none ∧ (busy.line m.line).queue = []) ∧
      busy.claim? 0 = none ∧ busy.route? 0 = none ∧ bestAwaiting (offered 1 .claim claimLine33 busy) = none ∧
      (∃ m ∈ p.members, (busy.policy m.line).breakInterval = 20)) ∧
    Posed 1 .claim claimLine33 none' ∧
      firstFailing (claimChecks (offered 1 .claim claimLine33 none') 1 p) = none ∧
      ∀ m ∈ p.members, (none'.policy m.line).breakInterval = 0 :=
  ⟨⟨admitted_of (by decide +kernel), by decide +kernel⟩,
    admitted_of (by decide +kernel), by decide +kernel⟩

/-- Host 2 claims line 18 at priority 3 while host 1 drives it at priority 1 and host 3 waits for it at priority 2. -/
theorem test_meets_PriorityThreePreempts :
    let ps : List Byte := [1#8, 0x30#8, 0#8, 0#8, 0#8, 0#8, 18#8, 2#8]
    let p : ClaimParams := ⟨3, .pushPull, 0, 0, [⟨18, 2⟩]⟩
    let s := claimAs fun cl => { cl with priority := 2 }
    Posed 2 .claim ps s ∧
      claimParams? (frameParams (frameOf .claim ps)) = some p ∧ firstFailing (claimChecks (offered 2 .claim ps s) 2 p) = none ∧
      s.claim? 0 = none ∧ p.priority = 3 ∧ (∀ m ∈ p.members, (s.line m.line).queue = [1]) ∧ (s.claim? 1).map (·.priority) = some 2 ∧
      lineDriver s 18 = some (8, wireOne) ∧ wireOne.kind = .driver 1 .pushPull :=
  ⟨admitted_of (by decide +kernel), by decide +kernel⟩

/-- Host 3 asks for priority 3, which it may not have, and for priority 2. -/
theorem test_meets_AmendChangesPriorityAndWait :
    let ps : List Byte := [1#8, 1#8, 3#8, 0#8, 0#8]
    let qs : List Byte := [1#8, 1#8, 2#8, 0#8, 5#8]
    (Posed 3 .amend ps busy ∧
      amendParams? (frameParams (frameOf .amend ps)) = some (1, 1#8, 3, 0) ∧ NamesClaim (offered 3 .amend ps busy) 1 1#8 waitThree ∧
      waitThree.owner = 3 ∧ waitThree.waiting = true ∧ mayPreempt (offered 3 .amend ps busy) 3 (linesOf waitThree.members) = false) ∧
    Posed 3 .amend qs busy ∧
      amendParams? (frameParams (frameOf .amend qs)) = some (1, 1#8, 2, 5) ∧ NamesClaim (offered 3 .amend qs busy) 1 1#8 waitThree :=
  ⟨⟨admitted_of (by decide +kernel), by decide +kernel⟩,
    admitted_of (by decide +kernel), by decide +kernel⟩

/-- Claim (1, 1) of host 3, which has no other. -/
theorem test_meets_CancelFreesTheClaim : let s := offered 3 .cancel [1#8, 1#8] busy
    Posed 3 .cancel [1#8, 1#8] busy ∧ BindingsExact s ∧ CountsExact s 3 ∧ frameParams (frameOf .cancel [1#8, 1#8]) = [1#8, 1#8] ∧
      NamesClaim s 1 1#8 waitThree ∧ waitThree.owner = 3 ∧ waitThree.waiting = true ∧
      ∀ d, ∀ x ∈ s.claim? d, d ≠ 1 → x.owner = 3 → x.waiting = false :=
  ⟨admitted_of (by decide +kernel),
    ⟨busy_bindingsExact.toRoute, busy_bindingsExact.toClaim, busy_bindingsExact.ofRoute, busy_bindingsExact.ofClaim⟩,
    offered_countsExact (busy_countsExact 3), by decide +kernel⟩

/-- A settle interval of 4095 ms for a CLEAR group; a TRIPPED one; a polarity that asserts the input, forcing host 1's member. -/
theorem test_meets_SetGroupConfigures :
    let ps : List Byte := [2#8, 0xA0#8, 0x0F#8, 0xFF#8]
    let qs : List Byte := [2#8, 0xC0#8, 0x00#8, 0x01#8]
    (Posed 0 .setGroup ps guarded ∧
      setGroupParams? (frameParams (frameOf .setGroup ps)) = some (2, ⟨true, .activeLow, .auto, 4095, 0#4⟩) ∧
      ((offered 0 .setGroup ps guarded).group 2).state = .clear) ∧
    (Posed 0 .setGroup qs guarded ∧
      ForcingOn (offered 0 .setGroup qs guarded) (after (.setGroup 0) (offered 0 .setGroup qs guarded)) 18 8 wireOne 0) ∧
    Posed 0 .setGroup ps tripped ∧ ((offered 0 .setGroup ps tripped).group 2).state ≠ .clear :=
  ⟨⟨admitted_of (by decide +kernel), by decide +kernel⟩, ⟨admitted_of (by decide +kernel), by decide +kernel⟩,
    admitted_of (by decide +kernel), by decide +kernel⟩

/-- TRIP of an enabled group, which forces host 1's member, and of one that is not enabled; REARM by host 3, which is in the rearm mask, by
host 1, which is not, and with the input still asserted. -/
theorem test_meets_TripAndRearm :
    let present := { tripped with groups := upd tripped.groups 2 fun g => { g with inputAsserted := true } }
    (Posed 0 .trip [2#8] guarded ∧ frameParams (frameOf .trip [2#8]) = [2#8] ∧ (guarded.group 2).enabled = true ∧
      ForcingOn (offered 0 .trip [2#8] guarded) (after (.trip 0) (offered 0 .trip [2#8] guarded)) 18 8 wireOne 0) ∧
    (Posed 0 .trip [7#8] guarded ∧ (guarded.group 7).enabled = false) ∧
    (Posed 3 .rearm [2#8] tripped ∧ frameParams (frameOf .rearm [2#8]) = [2#8] ∧ (tripped.group 2).rearmMask.getLsbD 3 = true ∧
      ¬ ((tripped.group 2).state = .tripped ∧ (tripped.group 2).inputAsserted = true) ∧
      ForcingOn (offered 3 .rearm [2#8] tripped) (after (.rearm 3) (offered 3 .rearm [2#8] tripped)) 18 8 wireOne 0) ∧
    (Posed 1 .rearm [2#8] tripped ∧ (1 : HostId) ≠ (offered 1 .rearm [2#8] tripped).supervisor ∧
      (tripped.group 2).rearmMask.getLsbD 1 = false) ∧
    Posed 0 .rearm [2#8] present ∧ (0 : HostId) = (offered 0 .rearm [2#8] present).supervisor ∧
      (present.group 2).state = .tripped ∧ (present.group 2).inputAsserted = true :=
  ⟨⟨admitted_of (by decide +kernel), by decide +kernel⟩, ⟨admitted_of (by decide +kernel), by decide +kernel⟩,
    ⟨admitted_of (by decide +kernel), by decide +kernel⟩, ⟨admitted_of (by decide +kernel), by decide +kernel⟩,
    admitted_of (by decide +kernel), by decide +kernel⟩

theorem guarded_groupsAgree : GroupsAgree guarded := by
  have k : ∀ g, (guarded.group g).state = .clear ∧ (guarded.group g).softTrip = false ∧ (guarded.group g).inputAsserted = false ∧
      (guarded.group g).inputAsserted = assertedOf (guarded.group g).polarity (guarded.qualifier g).qualified := by decide +kernel
  refine ⟨fun g => ?_, fun h => by cases h⟩
  obtain ⟨state, soft, flag, follows⟩ := k g
  refine ⟨follows, fun _ => state, fun h => ?_, fun h => ?_, fun _ _ => flag, fun t h => ?_⟩
  · exact absurd (soft.symm.trans h) (by decide)
  · exact absurd (state.symm.trans h) (by decide)
  · cases state.symm.trans h

/-- TRIP sets the soft trip, REARM clears it. -/
theorem test_meets_SoftTripRule :
    let s := offered 0 .trip [2#8] guarded
    let u := offered 3 .rearm [2#8] tripped
    Posed 0 .trip [2#8] guarded ∧ GroupsAgree s ∧ exec (.trip 0) s = .next (after (.trip 0) s) ∧
      exec (.rearm 3) u = .next (after (.rearm 3) u) ∧
      frameParams (frameOf .trip [2#8]) = [2#8] ∧ (s.group 2).enabled = true ∧ (s.group 2).softTrip = false ∧
      ((after (.trip 0) s).group 2).softTrip = true ∧ (u.group 2).softTrip = true ∧ (u.group 2).state = .tripped ∧
      ((after (.rearm 3) u).group 2).state = .clear ∧ ((after (.rearm 3) u).group 2).softTrip = false :=
  ⟨admitted_of (by decide +kernel), ⟨guarded_groupsAgree.agree, guarded_groupsAgree.inReset⟩, exec_after (by decide +kernel),
    exec_after (by decide +kernel), by decide +kernel⟩

/-- A fall of a pin whose qualified level is HIGH, the same in reset, its return with 1 µs left and with none, a return while an event is
due, and a level the pin has. -/
theorem test_meets_FaultPinRestartsTheCount :
    let fallen := fun (due : List Level) (n : Nat) =>
      { guarded with qualifiers := upd guarded.qualifiers 2 fun _ => ⟨.low, .high, due, some n⟩ }
    (Level.low ≠ (guarded.qualifier 2).pin ∧ guarded.inReset = false ∧ guarded.qualifier 2 = ⟨.high, .high, [], none⟩) ∧
      (Level.low ≠ (State.reset.qualifier 2).pin ∧ State.reset.inReset = true) ∧
      (Level.high ≠ ((fallen [] 1).qualifier 2).pin ∧ ((fallen [] 1).qualifier 2).count ≠ some 0) ∧
      (Level.high ≠ ((fallen [] 0).qualifier 2).pin ∧ ((fallen [] 0).qualifier 2).count = some 0) ∧
      (Level.high ≠ ((fallen [.low, .high] 1).qualifier 2).pin ∧ ((fallen [.low, .high] 1).qualifier 2).due = [.low] ++ [.high]) ∧
      exec (.faultPinChange 2 .low) guarded = .next (after (.faultPinChange 2 .low) guarded) ∧
      Level.high = (guarded.qualifier 2).pin :=
  ⟨by decide +kernel, by decide +kernel, by decide +kernel, by decide +kernel, by decide +kernel, exec_after (by decide +kernel),
    by decide +kernel⟩

/-- The input of group 2 asserts, from the pin's level and from a level due; that of a group in TRIPPED deasserts; a group that is not
enabled. -/
theorem test_meets_QualifiedLevelDecidesTheGroup :
    let falls := { guarded with qualifiers := upd guarded.qualifiers 2 fun _ => ⟨.low, .high, [], some 0⟩ }
    let fell := { guarded with qualifiers := upd guarded.qualifiers 2 fun _ => ⟨.high, .high, [.low], some 1⟩ }
    let rises := { guarded with
      qualifiers := upd guarded.qualifiers 2 fun _ => ⟨.high, .low, [], some 0⟩
      groups := upd guarded.groups 2 fun g => { g with state := .tripped, inputAsserted := true } }
    let off := { base with qualifiers := upd guarded.qualifiers 7 fun _ => ⟨.low, .high, [], some 0⟩ }
    (falls.inReset = false ∧ (falls.qualifier 2).due = [] ∧ (falls.qualifier 2).count = some 0 ∧ (falls.group 2).enabled = true ∧
        (falls.group 2).inputAsserted = false ∧ ((after (.qualifiedLevelChange 2) falls).group 2).inputAsserted = true ∧
        ForcingOn falls (after (.qualifiedLevelChange 2) falls) 18 8 wireOne 0) ∧
      (fell.inReset = false ∧ (fell.qualifier 2).due = .low :: [] ∧
        ((after (.qualifiedLevelChange 2) fell).group 2).inputAsserted = true) ∧
      (rises.inReset = false ∧ (rises.qualifier 2).count = some 0 ∧ (rises.group 2).enabled = true ∧
        (rises.group 2).inputAsserted = true ∧ (rises.group 2).state = .tripped ∧
        ((after (.qualifiedLevelChange 2) rises).group 2).inputAsserted = false ∧
        ((after (.qualifiedLevelChange 2) rises).group 2).state = .latched) ∧
      off.inReset = false ∧ (off.qualifier 7).count = some 0 ∧ (off.group 7).enabled = false := by decide +kernel

theorem test_meets_SettleExpiryClearsTheGroup :
    let s := { guarded with groups := upd guarded.groups 2 fun g => { g with state := .settling 0 } }
    s.inReset = false ∧ (s.group 2).state = .settling 0 ∧ s.held 18 = true ∧
      ForcingOn s (after (.settleExpiry 2) s) 18 8 wireOne 0 := by decide +kernel

/-- The lease of route (8, 2) at its end; the CLOSED route (9, 1) has none that runs. -/
theorem test_meets_LeaseExpiryClosesTheRoute :
    let s := routeAs fun rt => { rt with lease := some 0 }
    s.inReset = false ∧ s.route? 8 = some { wireOne with lease := some 0 } ∧ wireOne.state = .active ∧
      ∀ rt ∈ s.route? 9, rt.state = .active → rt.lease = none := by decide +kernel

theorem test_meets_BreakExpiryActivatesTheRoute :
    (connecting 0).inReset = false ∧ (connecting 0).route? 8 = some { wireOne with state := .connecting 0 } ∧ wireOne.isDriver = true ∧
      wireOne.members.length ≤ 8 ∧ ∀ m ∈ wireOne.members, ((connecting 0).line m.line).driver = some 8 := by decide +kernel

/-- The wait limit of claim (1, 1) at its end; the DROPPED claim (2, 1) has none. -/
theorem test_meets_WaitLimitExpiryDropsTheClaim :
    let s := claimAs fun cl => { cl with waitLimit := some 0 }
    s.inReset = false ∧ s.claim? 1 = some { waitThree with waitLimit := some 0 } ∧ waitThree.waiting = true ∧
      ∀ cl ∈ s.claim? 2, cl.waiting = true → cl.waitLimit = none := by decide +kernel

/-- T1.3 drives line 18 PUSH_PULL, and OPEN_DRAIN in another state, low and high; a board circuit takes a line that floats and one that is
pulled, and leaves it; line 18 held and line 17 not DRIVEN; a change at a pin that the board leaves alone; terminals bound to nothing, to a
claim, to a route CONNECTING, ACTIVE, ACTIVE with the member forced, and listening. -/
theorem test_meets_PinsFollowTerminalsAndBoard :
    let wired := routeAs fun rt => { rt with kind := .driver 1 .openDrain }
    let high := after (.terminalLevelChange 1 3 (some .high)) wired
    let rests := fun p => { base with policies := upd base.policies 7 fun x => { x with restPosture := p } }
    let driven := fun p => after (.boardLineLevelChange 7 (some .low)) (rests p)
    ForcedExact busy ∧ exec (.trip 0) (offered 0 .trip [2#8] guarded) = .next (after (.trip 0) (offered 0 .trip [2#8] guarded)) ∧
    ((lineShows busy 18 = .terminal 1 3 .pushPull ∧ (busy.pin 18).board = none ∧
        pinDrive busy 18 ≠ pinDrive (after (.terminalLevelChange 1 3 (some .high)) busy) 18) ∧
      (lineShows high 18 = .terminal 1 3 .openDrain ∧ (high.pin 18).board = none ∧ (high.terminal 1 3).getD .low = .high ∧
        pinDrive high 18 ≠ pinDrive (after (.terminalLevelChange 1 3 (some .low)) high) 18) ∧
      (lineShows wired 18 = .terminal 1 3 .openDrain ∧ (wired.terminal 1 3).getD .low = .low)) ∧
    (((pinDrive (rests .float) 7).strong = none ∧ some Level.low ≠ ((rests .float).pin 7).board) ∧
      pinDrive (driven .float) 7 = ⟨none, none⟩ ∧ pinDrive (driven .pullUp) 7 = ⟨none, some .high⟩ ∧
      none ≠ ((driven .pullUp).pin 7).board) ∧
    (tripped.held 18 = true ∧ busy.held 17 = false ∧ (busy.line 17).state ≠ .driven ∧ lineShows busy 17 = .posture .low) ∧
    (busy.held 18 = false ∧ busy.route? 8 = some wireOne ∧ wireOne.state = .active ∧ wireOne.kind = .driver 1 .pushPull ∧
      ⟨18, 3⟩ ∈ wireOne.members) ∧
    (pinDrive (offered 0 .trip [2#8] guarded) 18 ≠ pinDrive (after (.trip 0) (offered 0 .trip [2#8] guarded)) 18 ∧
      ((after (.trip 0) (offered 0 .trip [2#8] guarded)).pin 18).board = none) ∧
    (look (busy.session 1).bindings 4 = none ∧ look (busy.session 3).bindings 5 = some (.claim 1 0) ∧
      look (busy.session 1).bindings 3 = some (.route 8 0) ∧ wireOne.members[0]? = some ⟨18, 3⟩ ∧ wireOne.isDriver = true) ∧
    terminalShows (connecting 20) 1 3 = .readOnly ∧ terminalShows busy 1 3 = .carried 18 ∧
      terminalShows (routeAs fun rt => { rt with forced := 1#8 }) 1 3 = .readOnly ∧
      terminalShows (routeAs fun rt => { rt with kind := .listener }) 1 3 = .drives .high :=
  ⟨busy_forcedExact, exec_after (by decide +kernel), by decide +kernel⟩

/-- SET_POLICY changes a record, SET_GROUP a group, the end of reset the supervisor. -/
theorem test_meets_OnlyTheSupervisorConfigures :
    let s := offered 0 .setPolicy withdrawLine18 busy
    let g := offered 0 .setGroup [2#8, 0xA0#8, 0x00#8, 0x01#8] guarded
    exec (.setPolicy 0) s = .next (after (.setPolicy 0) s) ∧ (after (.setPolicy 0) s).policies ≠ s.policies ∧
      exec (.setGroup 0) g = .next (after (.setGroup 0) g) ∧ ((after (.setGroup 0) g).group 2).recovery ≠ (g.group 2).recovery ∧
      exec (.leaveReset .high .high) State.reset = .next (after (.leaveReset .high .high) State.reset) ∧
      (after (.leaveReset .high .high) State.reset).supervisor ≠ State.reset.supervisor :=
  ⟨exec_after (by decide +kernel), by decide +kernel, exec_after (by decide +kernel), by decide +kernel, exec_after (by decide +kernel),
    by decide +kernel⟩

theorem test_meets_GenerationsAdvanceAndSettledRecordsStand :
    exec (.leaseExpiry 8) busy = .next (after (.leaseExpiry 8) busy) ∧ Instr.leaseExpiry 8 ≠ .deviceReset ∧
      (busy.route? 9 = some closedTwo ∧ closedTwo.live = false ∧ busy.claim? 2 = some droppedTwo ∧ droppedTwo.waiting = false) ∧
      (∃ cl, Granted busy (after (.leaseExpiry 8) busy) 1 cl 0) ∧ ∃ rt, NewDriver busy (after (.leaseExpiry 8) busy) 0 rt :=
  ⟨exec_after (by decide +kernel), by decide, by decide +kernel,
    ⟨{ waitThree with state := .granted 0, waitLimit := none }, ⟨waitThree, by decide +kernel⟩, by decide +kernel⟩,
    ⟨grantedRoute busy waitThree, by decide +kernel⟩⟩

/-- Claims 3, 4 and 1 are granted entries 9, 40 and 41 by a COLLECT; by a RELEASE claim 3 is granted entry 9, claims 1 and 4 await on. -/
theorem test_meets_entriesInOrder :
    let s := offered 2 .collect [] full
    let t := after (.collect 2) s
    let u := offered 2 .release [9#8, 1#8] full
    let v := after (.release 2) u
    (LinesAgree s ∧ exec (.collect 2) s = .next t) ∧
      (GrantedAt (.collect 2) s t 3 2 9 ∧ GrantedAt (.collect 2) s t 4 2 40 ∧ GrantedAt (.collect 2) s t 1 1 41 ∧
        Outranks (acceptanceAt (.collect 2) s) 3 2 4 2 ∧ Outranks (acceptanceAt (.collect 2) s) 4 2 1 1) ∧
      (LinesAgree u ∧ exec (.release 2) u = .next v) ∧
      GrantedAt (.release 2) u v 3 2 9 ∧ v.claim? 1 = some (awaitingClaim 3 1 18) ∧ v.claim? 4 = some (awaitingClaim 0 2 22) := by
  have g : ∀ {s t : State} {i : Instr} {c : ClaimSlot} {r : RouteSlot} {x : Claim}, s.claim? c = some x → x.waiting = true →
      t.claim? c = some { x with state := .granted r, waitLimit := none, awaiting := false } → GrantedAt i s t c x.priority r :=
    fun h w k => .inl ⟨_, ⟨⟨_, h, w⟩, k, rfl⟩, rfl⟩
  refine ⟨⟨offered_linesAgree full_linesAgree _ _ _, exec_after (by decide +kernel)⟩,
    ⟨g (x := awaitingClaim 1 2 20) (by decide +kernel) rfl (by decide +kernel),
      g (x := awaitingClaim 0 2 22) (by decide +kernel) rfl (by decide +kernel),
      g (x := awaitingClaim 3 1 18) (by decide +kernel) rfl (by decide +kernel), .inr ⟨rfl, by decide +kernel⟩, .inl (by decide)⟩,
    ⟨offered_linesAgree full_linesAgree _ _ _, exec_after (by decide +kernel)⟩,
    g (x := awaitingClaim 1 2 20) (by decide +kernel) rfl (by decide +kernel), by decide +kernel⟩

/-- A CLAIM granted in its own reply: host 1 claims line 33, and the reply names entry 0. -/
theorem test_meets_grantedInReply :
    let s := offered 1 .claim claimLine33 busy
    let t := after (.claim 1) s
    exec (.claim 1) s = .next t ∧ GrantedInReply (.claim 1) s t 1 0 ∧ ownClaim? (.claim 1) s = some (0, 1) ∧
      GrantedAt (.claim 1) s t 0 1 0 := by
  have k : GrantedInReply (.claim 1) (offered 1 .claim claimLine33 busy) (after (.claim 1) (offered 1 .claim claimLine33 busy)) 1 0 :=
    ⟨.inl rfl, ((after (.claim 1) (offered 1 .claim claimLine33 busy)).port 1).replies.getLastD [], by decide +kernel⟩
  exact ⟨exec_after (by decide +kernel), k, by decide +kernel, .inr ⟨by decide +kernel, 1, k⟩⟩

/-! ### A busy state that meets every invariant, and its step -/

/-- The next command of the busy state is the lease expiry of route (8, 2). -/
def waiting : State := { busy with pending := [.leaseExpiry 8] }

theorem test_meets_GroupsAgreeKept :
    GroupsAgree { guarded with pending := [.faultPinChange 2 .low] } ∧
      step { guarded with pending := [.faultPinChange 2 .low] } = .next (stepped { guarded with pending := [.faultPinChange 2 .low] }) :=
  ⟨⟨guarded_groupsAgree.agree, guarded_groupsAgree.inReset⟩, step_stepped (by decide +kernel)⟩

theorem test_meets_CountsAndQueuesBoundedKept :
    (∀ h, CountsExact waiting h ∧ PortBounded (waiting.port h)) ∧ step waiting = .next (stepped waiting) := by
  have ports : ∀ h, PortBounded (waiting.port h) := by
    unfold PortBounded
    decide +kernel
  exact ⟨fun h => ⟨⟨(busy_countsExact h).routes, (busy_countsExact h).records, (busy_countsExact h).waiting,
    (busy_countsExact h).routeLimit, (busy_countsExact h).claimLimit⟩, ports h⟩, step_stepped (by decide +kernel)⟩

theorem test_meets_NoIdleEntryKept : NoIdleEntry waiting ∧ step waiting = .next (stepped waiting) :=
  ⟨.inr (by decide +kernel), step_stepped (by decide +kernel)⟩

theorem test_meets_SessionsSoundKept : SessionsSound waiting ∧ step waiting = .next (stepped waiting) := by
  have a : ∀ r, ∀ rt ∈ waiting.route? r, (waiting.session rt.owner).attached = true := by decide +kernel
  have b : ∀ c, ∀ cl ∈ waiting.claim? c, (waiting.session cl.owner).attached = true := by decide +kernel
  have c : (∀ h, (waiting.session h).attached = false → waiting.session h = { Session.reset with epoch := (waiting.session h).epoch }) ∧
      ∀ h, (waiting.session h).attached = true → (waiting.session h).epoch ≠ 0#8 := by decide +kernel
  exact ⟨⟨a, b, c.1, c.2⟩, step_stepped (by decide +kernel)⟩

theorem test_meets_ChangeSetsExactKept : ChangeSetsExact waiting ∧ step waiting = .next (stepped waiting) :=
  ⟨⟨busy_changeSetsExact.claimsOnce, busy_changeSetsExact.routesOnce, busy_changeSetsExact.claimsOwn, busy_changeSetsExact.routesOwn,
    busy_changeSetsExact.settled, busy_changeSetsExact.closed⟩, step_stepped (by decide +kernel)⟩

theorem test_meets_PoliciesHoldKept : PoliciesHold waiting ∧ step waiting = .next (stepped waiting) := by
  have a : ∀ r, ∀ rt ∈ waiting.route? r, rt.live = true → routePermitted waiting rt = true := by decide +kernel
  have b : ∀ r, ∀ rt ∈ waiting.route? r, rt.live = true → effectiveMax waiting (linesOf rt.members) = 0 := by decide +kernel
  have c : ∀ c, ∀ cl ∈ waiting.claim? c, cl.waiting = true → claimPermitted waiting cl = true ∧ losesPreempt waiting cl = false := by
    decide +kernel
  exact ⟨⟨a, fun r rt h live ne => absurd (b r rt h live) ne, c, fun h => by cases h⟩, step_stepped (by decide +kernel)⟩

theorem test_meets_AcceptanceExactKept : AcceptanceExact waiting ∧ step waiting = .next (stepped waiting) :=
  ⟨⟨busy_acceptanceExact.once, busy_acceptanceExact.waiting⟩, step_stepped (by decide +kernel)⟩

theorem waiting_linesAgree : LinesAgree waiting :=
  ⟨⟨busy_acceptanceExact.once, busy_acceptanceExact.waiting⟩, busy_linesAgree.routeMembers, busy_linesAgree.claimMembers,
    busy_linesAgree.driver, busy_linesAgree.driven, busy_linesAgree.queue, busy_linesAgree.order, busy_linesAgree.awaiting,
    busy_linesAgree.state⟩

theorem test_meets_LinesAgreeKept : LinesAgree waiting ∧ GrantsChecked waiting ∧ step waiting = .next (stepped waiting) := by
  have a : ∀ c, ∀ cl ∈ waiting.claim? c, cl.waiting = true → driversOn waiting (linesOf cl.members) = [(8, wireOne)] ∧
      cl.priority = 1 := by decide +kernel
  refine ⟨waiting_linesAgree, ⟨fun c cl h w _ d => ?_, fun c cl h w _ p _ => ?_⟩, step_stepped (by decide +kernel)⟩
  · rw [(a c cl h w).1] at d
    cases d
  · rw [(a c cl h w).2] at p
    cases p

theorem test_meets_ForcedExactKept : ForcedExact waiting ∧ step waiting = .next (stepped waiting) :=
  ⟨⟨waiting_linesAgree, busy_forcedExact.listener, busy_forcedExact.active, busy_forcedExact.other⟩, step_stepped (by decide +kernel)⟩

theorem test_meets_BindingsExactKept : BindingsExact waiting ∧ step waiting = .next (stepped waiting) :=
  ⟨⟨busy_bindingsExact.toRoute, busy_bindingsExact.toClaim, busy_bindingsExact.ofRoute, busy_bindingsExact.ofClaim⟩,
    step_stepped (by decide +kernel)⟩

end Sys2Proof.Tests
end

/-! The state of device reset: what its records hold, and that it meets every invariant (O60). -/

namespace Sys2Proof.Machine

/-! ### The records that reset leaves -/

section

@[simp] theorem reset_policy (l : LineNo) : State.reset.policy l = Policy.reset 0 := look_replicate _ _
@[simp] theorem reset_session (h : HostId) : State.reset.session h = Session.reset := look_replicate _ _
@[simp] theorem reset_routeEntry (r : RouteSlot) : State.reset.routeEntry r = ⟨0#8, none⟩ := look_replicate _ _
@[simp] theorem reset_claimEntry (c : ClaimSlot) : State.reset.claimEntry c = ⟨0#8, none⟩ := look_replicate _ _
@[simp] theorem reset_line (l : LineNo) : State.reset.line l = ⟨.free, none, []⟩ := look_replicate _ _
@[simp] theorem reset_group (g : GroupNo) : State.reset.group g = Group.reset := look_replicate _ _
@[simp] theorem reset_qualifier (g : GroupNo) : State.reset.qualifier g = ⟨.high, .high, [], none⟩ := look_replicate _ _
@[simp] theorem reset_port (h : HostId) : State.reset.port h = Port.reset := look_replicate _ _

@[simp] theorem reset_accepted : State.reset.accepted = [] := rfl

@[simp] theorem reset_route? (r : RouteSlot) : State.reset.route? r = none := by simp [State.route?]
@[simp] theorem reset_claim? (c : ClaimSlot) : State.reset.claim? c = none := by simp [State.claim?]

@[simp] theorem Session.reset_binding (n : TermNo) : look Session.reset.bindings n = none := look_replicate _ _

@[simp] theorem reset_lineDriver (l : LineNo) : lineDriver State.reset l = none := by
  simp [lineDriver]

theorem reset_fltstat : fltstat State.reset = false := by
  simp [fltstat, Group.reset, GroupState.isClear]

theorem reset_attn (h : HostId) : attn State.reset h = false := by
  simp [attn, Session.reset, Port.reset, ChangeSet.isEmpty]

end

/-! ### The invariants at reset -/

theorem reset_groupsAgree : GroupsAgree State.reset := by
  refine ⟨fun g => ?_, fun _ g => ?_⟩
  · constructor <;> simp [Group.reset, assertedOf]
  · simp [Group.reset]

theorem reset_routesOf (h : HostId) : routesOf State.reset h = [] := by
  simp [routesOf, ownsRoute]

theorem reset_claimsOf (h : HostId) : claimsOf State.reset h = [] := by
  simp [claimsOf, ownsClaim]

theorem reset_countsExact (h : HostId) : CountsExact State.reset h := by
  constructor <;> simp [Session.reset, waitingOf, reset_routesOf, reset_claimsOf]

/-- No claim waits at reset, so none awaits an entry. -/
theorem reset_noIdleEntry : NoIdleEntry State.reset := .inr (by simp [bestAwaiting])

theorem reset_sessionsSound : SessionsSound State.reset := by
  constructor <;> simp [Session.reset]

theorem reset_portBounded (h : HostId) : PortBounded (State.reset.port h) := by
  simp [PortBounded, Port.reset]

theorem reset_changeSetsExact : ChangeSetsExact State.reset := by
  constructor <;> simp [Session.reset, Ascending]

theorem reset_policiesHold : PoliciesHold State.reset := by
  constructor <;> simp

theorem reset_acceptanceExact : AcceptanceExact State.reset := by
  constructor <;> simp

theorem reset_linesAgree : LinesAgree State.reset where
  accepted := reset_acceptanceExact
  routeMembers := by simp
  claimMembers := by simp
  driver := by simp
  driven := by simp
  queue := by simp
  order := by simp
  awaiting := by simp
  state := by simp [lineStateOf]

theorem reset_grantsChecked : GrantsChecked State.reset := by
  constructor <;> simp

theorem reset_forcedExact : ForcedExact State.reset where
  lines := reset_linesAgree
  listener := by simp
  active := by simp
  other := by simp

theorem reset_bindingsExact : BindingsExact State.reset := by
  constructor <;> simp

/-- Settles O60. No record is in use at reset, so most properties speak of nothing; the groups are disabled with their inputs clear. -/
theorem resetMeetsEveryInvariant : Obligations.ResetMeetsEveryInvariant :=
  ⟨reset_groupsAgree, reset_countsExact, reset_noIdleEntry, reset_sessionsSound, reset_portBounded, reset_changeSetsExact,
    reset_policiesHold, reset_acceptanceExact, reset_linesAgree, reset_grantsChecked, reset_forcedExact, reset_bindingsExact⟩

end Sys2Proof.Machine

/-! What a line shows; the part in device reset and as it leaves reset (O4, O5). -/

namespace Sys2Proof.Machine

/-! ### What a line shows -/

section

variable {s : State} {l : LineNo}

theorem lineShows_held (h : s.held l = true) : lineShows s l = .posture (s.policy l).safePosture := by
  unfold lineShows
  rw [if_pos h]

theorem lineShows_rest (h : s.held l = false) (k : (s.line l).state ≠ .driven ∨ lineDriver s l = none) :
    lineShows s l = .posture (s.policy l).restPosture := by
  unfold lineShows
  rw [if_neg (by simp [h])]
  split
  · rename_i hs hd
    simp [hs, hd] at k
  · rfl

/-- A DRIVEN line not held shows the terminal of its driver's member, unless that member is forced (R1). -/
theorem lineShows_driven {r : RouteSlot} {rt : Route} {p : Priority} {mode : DriveMode} {i : Nat} {m : Member}
    (h : s.held l = false) (hs : (s.line l).state = .driven) (hd : lineDriver s l = some (r, rt)) (hk : rt.kind = .driver p mode)
    (ha : rt.active = true) (hi : memberIndex rt.members l = some i) (hm : rt.members[i]? = some m)
    (hf : rt.forced.getLsbD i = false) : lineShows s l = .terminal rt.owner m.terminal mode := by
  simp [lineShows, h, hs, hd, hk, hi, ha, hf, hm]

end

/-- The pins themselves do not decide what the part applies to them. -/
theorem pinDrive_pins (s : State) (v : Vector LinePin 40) (l : LineNo) : pinDrive { s with pins := v } l = pinDrive s l := rfl

/-! ### Device reset -/

section

variable (s : State)

@[simp] theorem deviceReset_policy (l : LineNo) : (deviceReset s).policy l = Policy.reset 0 := reset_policy l
@[simp] theorem deviceReset_session (h : HostId) : (deviceReset s).session h = Session.reset := reset_session h
@[simp] theorem deviceReset_routeEntry (r : RouteSlot) : (deviceReset s).routeEntry r = ⟨0#8, none⟩ := reset_routeEntry r
@[simp] theorem deviceReset_claimEntry (c : ClaimSlot) : (deviceReset s).claimEntry c = ⟨0#8, none⟩ := reset_claimEntry c
@[simp] theorem deviceReset_line (l : LineNo) : (deviceReset s).line l = ⟨.free, none, []⟩ := reset_line l
@[simp] theorem deviceReset_group (g : GroupNo) : (deviceReset s).group g = Group.reset := reset_group g
@[simp] theorem deviceReset_port (h : HostId) : (deviceReset s).port h = Port.reset := reset_port h

@[simp] theorem deviceReset_qualifier (g : GroupNo) :
    (deviceReset s).qualifier g = { pin := (s.qualifier g).pin, qualified := .high, due := [], count := none } := by
  simp only [State.qualifier, deviceReset, look_map]

theorem deviceReset_pins :
    (deviceReset s).pins = tab fun l => repin l (pinDrive { deviceReset s with pins := s.pins } l) (s.pin l) := by
  unfold deviceReset
  rfl

/-- Every pin is driven anew, by what the reset records apply there. -/
theorem deviceReset_pin (l : LineNo) : (deviceReset s).pin l = repin l (pinDrive (deviceReset s) l) (s.pin l) := by
  rw [State.pin, deviceReset_pins, look_tab, pinDrive_pins]

theorem deviceReset_lineShows (l : LineNo) : lineShows (deviceReset s) l = .posture .pullUp := by
  have held : (deviceReset s).held l = false := by simp [State.held, Policy.reset]
  rw [lineShows_rest held (.inl (by simp)), deviceReset_policy]
  rfl

theorem deviceReset_terminalShows (h : HostId) (n : TermNo) : terminalShows (deviceReset s) h n = .idle := by
  simp [terminalShows]

theorem deviceReset_fltstat : fltstat (deviceReset s) = false := reset_fltstat

theorem deviceReset_attn (h : HostId) : attn (deviceReset s) h = false := reset_attn h

end

/-! ### While reset lasts -/

/-- What the part makes of a command outside reset, where reset excludes the command. -/
def reaction : Instr → State → State
  | .transactionBegin h => beginTransaction h
  | .write h frame => fun s => s.updPort h (endTransaction frame)
  | .read h => onKind h fun st s => s.updPort h (readReply st)
  | .readAgain h => onKind h fun st s => s.updPort h (readReplyAgain st)
  | .linkReset h => onKind h fun st s => settle s (resetLink h st s)
  | .unknownKind h kind => fun s => if kindOf kind = .unknown then onKind h (fun st t => t.updPort h (rejectKind st)) s else s
  | .unknownRequest h => takeUnknown h
  | .attach h => takeRequest .attach attachAct h
  | .detach h => takeRequest .detach detachAct h
  | .collect h => takeRequest .collect collectAct h
  | .readLevels h => takeRequest .readLevels readLevelsAct h
  | .queryLine h => takeRequest .queryLine queryLineAct h
  | .setPolicy h => takeRequest .setPolicy setPolicyAct h
  | .queryPolicy h => takeRequest .queryPolicy queryPolicyAct h
  | .listen h => takeRequest .listen listenAct h
  | .release h => takeRequest .release releaseAct h
  | .renew h => takeRequest .renew renewAct h
  | .revoke h => takeRequest .revoke revokeAct h
  | .queryRoute h => takeRequest .queryRoute queryRouteAct h
  | .claim h => takeRequest .claim claimAct h
  | .amend h => takeRequest .amend amendAct h
  | .cancel h => takeRequest .cancel cancelAct h
  | .queryClaim h => takeRequest .queryClaim queryClaimAct h
  | .setGroup h => takeRequest .setGroup setGroupAct h
  | .trip h => takeRequest .trip tripAct h
  | .rearm h => takeRequest .rearm rearmAct h
  | .queryGroup h => takeRequest .queryGroup queryGroupAct h
  | .leaseExpiry r => fun s => settle s (leaseEnd r s)
  | .breakExpiry r => fun s => settle s (breakEnd r s)
  | .waitLimitExpiry c => fun s => settle s (waitEnd c s)
  | .settleExpiry g => fun s => settle s (settleEnd g s)
  | .qualifiedLevelChange g => fun s => settle s (qualify g s)
  | .deviceReset | .leaveReset .. | .faultPinChange .. | .terminalLevelChange .. | .boardLineLevelChange .. => id

theorem exec_reaction {c : Instr} (hc : actsInReset c = false) (s : State) : exec c s = whileRunning (reaction c) s := by
  cases c with
  | deviceReset | leaveReset | faultPinChange | terminalLevelChange | boardLineLevelChange => cases hc
  | _ => rfl

theorem exec_inReset {c : Instr} {s : State} (hs : s.inReset = true) (hc : actsInReset c = false) : exec c s = .next s := by
  rw [exec_reaction hc, whileRunning, if_pos hs]

/-- Settles O4. The reset state's own facts hold of the part after DEVICE_RESET, which differs from it only in what outside circuits
drive and in the level and count of each pin; and every command but the five runs under `whileRunning`. -/
theorem deviceResetSetsEveryRecord : Obligations.DeviceResetSetsEveryRecord := by
  refine ⟨fun s => ⟨deviceReset s, rfl, rfl, rfl, rfl, fun l => ?policy, deviceReset_session s, deviceReset_routeEntry s,
    deviceReset_claimEntry s, rfl, deviceReset_line s, deviceReset_group s, fun g => ?qualifier, fun l => ?board,
    deviceReset_port s, deviceReset_lineShows s, deviceReset_terminalShows s, deviceReset_fltstat s, deviceReset_attn s⟩,
    fun c s hs hc => exec_inReset hs hc⟩
  case policy => simp [Policy.reset]
  case qualifier => simp
  case board =>
    rw [deviceReset_pin]
    rfl

/-! ### The end of reset -/

theorem onlyHost_getLsbD (k h : HostId) : (onlyHost k).getLsbD h.val = decide (h = k) := by
  revert k h
  decide

theorem strappedHost_val (a b : Level) :
    (strappedHost a b).val = (if a = .high then 2 else 0) + (if b = .high then 1 else 0) := by
  cases a <;> cases b <;> rfl

section

variable (a b : Level) (s : State)

@[simp] theorem leaveReset_policy (l : LineNo) :
    (leaveReset a b s).policy l = { s.policy l with driverMask := onlyHost (strappedHost a b) } :=
  look_map _ _ _

@[simp] theorem leaveReset_qualifier (g : GroupNo) : (leaveReset a b s).qualifier g =
    { pin := (s.qualifier g).pin, qualified := (s.qualifier g).pin, due := [], count := none } :=
  look_map _ _ _

@[simp] theorem leaveReset_group (g : GroupNo) : (leaveReset a b s).group g =
    { s.group g with inputAsserted := assertedOf (s.group g).polarity (s.qualifier g).pin } :=
  look_tab _ _

theorem exec_leaveReset (hs : s.inReset = true) : exec (.leaveReset a b) s = .next (settle s (leaveReset a b s)) := by
  show execLeaveReset a b s = _
  simp [execLeaveReset, hs]

theorem exec_leaveReset_running (hs : s.inReset = false) : exec (.leaveReset a b) s = .next s := by
  show execLeaveReset a b s = _
  simp [execLeaveReset, hs]

end

/-- The settling of the pins changes no policy, group or fault input. -/
@[simp] theorem settle_policy (s t : State) (l : LineNo) : (settle s t).policy l = t.policy l := by
  simp only [State.policy, settle_policies]
@[simp] theorem settle_group (s t : State) (g : GroupNo) : (settle s t).group g = t.group g := by
  simp only [State.group, settle_groups]
@[simp] theorem settle_qualifier (s t : State) (g : GroupNo) : (settle s t).qualifier g = t.qualifier g := by
  simp only [State.qualifier, settle_qualifiers]

theorem leaveReset_keepsRecords (a b : Level) (s : State) : KeepsRecords s (settle s (leaveReset a b s)) :=
  ⟨settle_sessions _ _, settle_routes _ _, settle_claims _ _, settle_accepted _ _, settle_lines _ _⟩

/-- Settles O5. `leaveReset` says what becomes of policies, fault inputs and groups, and the settling of the pins leaves all three. -/
theorem leaveResetSamplesTheStraps : Obligations.LeaveResetSamplesTheStraps := by
  refine ⟨fun a b s hs => ⟨_, exec_leaveReset a b s hs, settle_inReset _ _, ?supervisor, fun l => ⟨by simp, fun h => ?mask⟩,
    fun g => by simp, leaveReset_keepsRecords a b s, settle_pinsFollow _ _ rfl, settle_ports _ _, settle_terminals _ _,
    settle_pending _ _⟩, exec_leaveReset_running⟩
  case supervisor =>
    rw [settle_supervisor]
    exact strappedHost_val a b
  case mask =>
    rw [settle_policy, leaveReset_policy, settle_supervisor]
    exact onlyHost_getLsbD _ h

end Sys2Proof.Machine

/-! Line sets and READ_LEVELS (O23). -/

namespace Sys2Proof.Machine

/-! ### Line sets -/

/-- A flag placed at bit i is bit i and no other. -/
theorem flagAt_getLsbD (b : Bool) (i k : Nat) (hk : k < 8) : (flagAt b i).getLsbD k = (b && decide (i = k)) := by
  cases b with
  | false => simp [flagAt, place]
  | true =>
    simp only [flagAt, place, BitVec.getLsbD_shiftLeft, Bool.toNat_true, BitVec.getLsbD_one, hk]
    by_cases h : k < i
    · simp [h]; omega
    · simp [h]; omega

/-- A bit of a byte gathered from flags: it was set before, or a flag placed there is. -/
theorem foldl_flagAt_getLsbD (p : Fin 8 → Bool) (is : List (Fin 8)) (acc : Byte) (k : Fin 8) :
    (is.foldl (fun acc i => acc ||| flagAt (p i) i.val) acc).getLsbD k.val =
      (acc.getLsbD k.val || is.any fun i => p i && decide (i.val = k.val)) := by
  induction is generalizing acc with
  | nil => simp
  | cons i is ih =>
    rw [List.foldl_cons, ih, BitVec.getLsbD_or, flagAt_getLsbD _ _ _ k.isLt, List.any_cons, Bool.or_assoc]

theorem lineSet_length (f : LineNo → Bool) : (lineSet f).length = 5 := by simp [lineSet]

/-- Byte l / 8, bit l % 8 of a line set stands for line l (10.3). -/
theorem lineSet_getLsbD (f : LineNo → Bool) (l : LineNo) : ((lineSet f).getD (l.val / 8) 0#8).getLsbD (l.val % 8) = f l := by
  have hj : l.val / 8 < 5 := by omega
  have hk : l.val % 8 < 8 := by omega
  have he : Fin.ofNat 40 (8 * (l.val / 8) + l.val % 8) = l := by
    rw [Nat.div_add_mod]
    exact Fin.ext (Nat.mod_eq_of_lt l.isLt)
  rw [List.getD_eq_getElem _ _ (by rwa [lineSet_length])]
  simp only [lineSet, List.getElem_map, List.getElem_finRange]
  have := foldl_flagAt_getLsbD (fun i => f (Fin.ofNat 40 (8 * (l.val / 8) + i.val))) (List.finRange 8) 0#8 ⟨l.val % 8, hk⟩
  refine this.trans ?_
  rw [Bool.eq_iff_iff]
  simp only [BitVec.getLsbD_zero, Bool.false_or, List.any_eq_true, List.mem_finRange, true_and, Bool.and_eq_true, decide_eq_true_eq]
  constructor
  · rintro ⟨i, hf, hi⟩
    rwa [hi, he] at hf
  · intro hf
    exact ⟨⟨l.val % 8, hk⟩, by rwa [he], rfl⟩

/-! ### READ_LEVELS -/

/-- A line is held when a group of its group set is not CLEAR (R114). -/
theorem held_iff (s : State) (l : LineNo) :
    s.held l = true ↔ ∃ g : GroupNo, (s.policy l).groupSet.getLsbD g.val = true ∧ (s.group g).state ≠ .clear := by
  have clear_iff : ∀ st : GroupState, st.isClear = true ↔ st = .clear := fun st => by cases st <;> simp [GroupState.isClear]
  simp only [State.held, List.any_eq_true, mem_every, true_and, Bool.and_eq_true, Bool.not_eq_true', ← Bool.not_eq_true, clear_iff, ne_eq]

/-- Two line sets one after the other: the first stands in bytes 0 to 4, the second in bytes 5 to 9. -/
theorem lineSets_getLsbD (f g : LineNo → Bool) (l : LineNo) :
    ((lineSet f ++ lineSet g).getD (l.val / 8) 0#8).getLsbD (l.val % 8) = f l ∧
      ((lineSet f ++ lineSet g).getD (5 + l.val / 8) 0#8).getLsbD (l.val % 8) = g l := by
  have hf := lineSet_length f
  rw [List.getD_append _ _ _ _ (by omega), List.getD_append_right _ _ _ _ (by omega), hf, Nat.add_sub_cancel_left]
  exact ⟨lineSet_getLsbD f l, lineSet_getLsbD g l⟩

/-- READ_LEVELS without parameters passes the common checks, of a DETACHED host too (R39). -/
theorem readLevels_admitted {h : HostId} {f : List Byte} (s : State) (hp : frameParams f = []) : Admitted s h .readLevels f := by
  show commonRefusal .readLevels h (frameParams f) s = none
  simp [commonRefusal, hp, ReqCode.lengthOk, ReqCode.needsAttachment, ReqCode.needsSupervisor]

/-- Settles O23. The block answers two line sets and changes no record, and taking the frame changes no pin, policy or group. -/
theorem readLevelsReportsEveryLine : Obligations.ReadLevelsReportsEveryLine := by
  intro h f s offers hp
  obtain ⟨t, ht, answered⟩ := offers.only_answers (readLevels_admitted s hp)
    (a := ⟨.ok, lineSet (fun l => sampled s l = .high) ++ lineSet s.held⟩) rfl
  refine ⟨t, _, ht, answered, rfl, by simp [lineSet_length], fun l => ?_⟩
  obtain ⟨levels, held⟩ := lineSets_getLsbD (fun l => sampled s l = .high) s.held l
  exact ⟨levels, by rw [held, held_iff]⟩

end Sys2Proof.Machine

/-! What the blocks of the requests and the expiries leave as it was. -/

namespace Sys2Proof.Machine

/-! ### What the blocks of the requests leave as it was -/

/-- What no request touches: outside circuits, pins, ports, supervisor and queue; and the part stays in or out of reset. -/
structure KeepsSurroundings (s t : State) : Prop where
  inReset : t.inReset = s.inReset
  supervisor : t.supervisor = s.supervisor
  pins : t.pins = s.pins
  terminals : t.terminals = s.terminals
  ports : t.ports = s.ports
  pending : t.pending = s.pending

theorem KeepsSurroundings.trans {s t u : State} (a : KeepsSurroundings s t) (b : KeepsSurroundings t u) : KeepsSurroundings s u :=
  ⟨b.inReset.trans a.inReset, b.supervisor.trans a.supervisor, b.pins.trans a.pins, b.terminals.trans a.terminals,
    b.ports.trans a.ports, b.pending.trans a.pending⟩

theorem KeepsRest.surroundings {s t : State} (k : KeepsRest s t) : KeepsSurroundings s t :=
  ⟨k.inReset, k.supervisor, k.pins, k.terminals, k.ports, k.pending⟩

section

variable (h : HostId) (ps : List Byte) (s : State)

/-- A fold keeps the rest where each of its steps does. -/
theorem foldl_keepsRest {α : Type} {f : State → α → State} (k : ∀ t a, KeepsRest t (f t a)) (xs : List α) :
    KeepsRest s (xs.foldl f s) :=
  foldl_rel KeepsRest.refl KeepsRest.trans k xs s

theorem arbitrate_keepsRest (own : Option ClaimSlot) (ls : List LineNo) : KeepsRest s (arbitrate own ls s) :=
  (arbitrate_afterChecks own ls s).rest

theorem endSession_keepsRest : KeepsRest s (endSession h s) :=
  (by constructor <;> rfl : KeepsRest s (clearHost h s)).trans (arbitrate_keepsRest _ _ _)

theorem updSession_keepsRest (f : Session → Session) : KeepsRest s (s.updSession h f) := by constructor <;> rfl

theorem openSession_keepsRest : KeepsRest s (openSession h s) := by constructor <;> rfl

theorem attachAct_keepsRest : KeepsRest s (attachAct h ps s).1 := by
  unfold attachAct
  split
  · exact (endSession_keepsRest h s).trans (openSession_keepsRest h _)
  · exact openSession_keepsRest h s

theorem reportRef_keepsRest (ref : ChangeRef) : KeepsRest s (reportRef h ref s) := by
  cases ref with
  | claim c =>
    unfold reportRef
    dsimp only
    split
    · exact unnoteClaim_keepsRest s h c
    · split
      · exact unnoteClaim_keepsRest s h c
      · exact freeClaim_keepsRest s c
  | route r =>
    unfold reportRef
    dsimp only
    split
    · exact unnoteRoute_keepsRest s h r
    · split
      · constructor <;> rfl
      · exact freeRoute_keepsRest s r

theorem collectAct_keepsRest : KeepsRest s (collectAct h ps s).1 := by
  unfold collectAct
  dsimp only
  exact (foldl_keepsRest s (fun t ref => reportRef_keepsRest h t ref) _).trans (arbitrate_keepsRest _ _ _)

theorem queryLineAct_state : (queryLineAct h ps s).1 = s := by
  unfold queryLineAct
  split <;> rfl

theorem queryPolicyAct_state : (queryPolicyAct h ps s).1 = s := by
  unfold queryPolicyAct
  split <;> rfl

theorem queryRouteAct_state : (queryRouteAct h ps s).1 = s := by
  unfold queryRouteAct
  split
  · rfl
  · split <;> rfl

theorem queryClaimAct_state : (queryClaimAct h ps s).1 = s := by
  unfold queryClaimAct
  split
  · rfl
  · split <;> rfl

theorem queryGroupAct_state : (queryGroupAct h ps s).1 = s := by
  unfold queryGroupAct
  split <;> rfl

theorem listenAct_keepsRest : KeepsRest s (listenAct h ps s).1 := by
  unfold listenAct
  split
  · exact .refl s
  · split
    · exact .refl s
    · exact .refl s
    · constructor <;> rfl

theorem releaseRoute_keepsRest (r : RouteSlot) (rt : Route) : KeepsRest s (releaseRoute r rt s).1 := by
  unfold releaseRoute
  dsimp only
  exact (freeRoute_keepsRest s r).trans (arbitrate_keepsRest _ _ _)

theorem releaseAct_keepsRest : KeepsRest s (releaseAct h ps s).1 := by
  unfold releaseAct
  split
  · exact .refl s
  · split
    · exact .refl s
    · split
      · exact .refl s
      · exact releaseRoute_keepsRest s _ _

theorem renewAct_keepsRest : KeepsRest s (renewAct h ps s).1 := by
  unfold renewAct
  split
  · exact .refl s
  · split
    · exact .refl s
    · split
      · exact .refl s
      · split
        · exact .refl s
        · constructor <;> rfl

theorem revokeAct_keepsRest : KeepsRest s (revokeAct h ps s).1 := by
  unfold revokeAct
  split
  · exact .refl s
  · split
    · exact .refl s
    · split
      · exact .refl s
      · dsimp only
        exact (closeRoute_keepsRest s _ _).trans (arbitrate_keepsRest _ _ _)

theorem answerClaim_keepsRest (c : ClaimSlot) : KeepsRest s (answerClaim c s).1 := by
  unfold answerClaim
  split
  · exact .refl s
  · split
    · exact freeClaim_keepsRest s c
    · exact .refl s

theorem acceptClaim_keepsRest (p : ClaimParams) (c : ClaimSlot) : KeepsRest s (acceptClaim h p c s) := by
  unfold acceptClaim
  dsimp only
  refine (KeepsRest.trans ?_ (joinQueues_keeps _ c _).rest).trans
    ((bindMembers_keepsRest _ h _ _).trans (updSession_keepsRest h _ _))
  constructor <;> rfl

theorem claimAct_keepsRest : KeepsRest s (claimAct h ps s).1 := by
  unfold claimAct
  split
  · exact .refl s
  · split
    · exact .refl s
    · exact .refl s
    · exact (acceptClaim_keepsRest h s _ _).trans ((arbitrate_keepsRest _ _ _).trans (answerClaim_keepsRest _ _))

theorem reprioritise_keepsRest (c : ClaimSlot) (cl : Claim) (p : Priority) : KeepsRest s (reprioritise c cl p s) := by
  unfold reprioritise
  split
  · exact .refl s
  · exact (leaveQueues_keeps s c _).rest.trans (KeepsRest.trans (by constructor <;> rfl) (joinQueues_keeps _ c _).rest)

theorem amendClaim_keepsRest (c : ClaimSlot) (cl : Claim) (p : Priority) (limit : Nat) :
    KeepsRest s (amendClaim c cl p limit s).1 := by
  unfold amendClaim
  dsimp only
  exact KeepsRest.trans (by constructor <;> rfl)
    ((reprioritise_keepsRest _ c cl p).trans ((arbitrate_keepsRest _ _ _).trans (answerClaim_keepsRest _ c)))

theorem amendAct_keepsRest : KeepsRest s (amendAct h ps s).1 := by
  unfold amendAct
  split
  · exact .refl s
  · split
    · exact .refl s
    · exact .refl s
    · split
      · exact .refl s
      · exact amendClaim_keepsRest s _ _ _ _

theorem cancelClaim_keepsRest (c : ClaimSlot) (cl : Claim) : KeepsRest s (cancelClaim c cl s).1 := by
  unfold cancelClaim
  dsimp only
  exact (withdrawClaim_keepsRest s c cl).trans ((freeClaim_keepsRest _ c).trans (arbitrate_keepsRest _ _ _))

theorem cancelAct_keepsRest : KeepsRest s (cancelAct h ps s).1 := by
  unfold cancelAct
  split
  · exact .refl s
  · split
    · exact .refl s
    · exact .refl s
    · exact cancelClaim_keepsRest s _ _

theorem demote_keepsRest (c : ClaimSlot) (cl : Claim) : KeepsRest s (demote c cl s) :=
  (leaveQueues_keeps s c _).rest.trans (KeepsRest.trans (by constructor <;> rfl)
    ((joinQueues_keeps _ c _).rest.trans (noteClaim_keepsRest _ _ c)))

theorem clampRoute_keepsRest (r : RouteSlot) : KeepsRest s (clampRoute r s) := by
  unfold clampRoute
  split
  · exact .refl s
  · dsimp only
    split
    · constructor <;> rfl
    · exact .refl s

/-- Once the policies are written, a SET_POLICY changes only what any event may. -/
theorem applyPolicy_keepsRest (first last : LineNo) (p : Policy) :
    KeepsRest (writePolicies first last p s) (applyPolicy first last p s).1 := by
  unfold applyPolicy
  dsimp only
  refine KeepsRest.trans ?_ (arbitrate_keepsRest _ _ _)
  refine KeepsRest.trans ?_ (passHeldChanges_keepsRest s _)
  refine KeepsRest.trans ?_ (foldl_keepsRest _ (fun t x => clampRoute_keepsRest t _) _)
  refine KeepsRest.trans ?_ (foldl_keepsRest _ (fun t x => demote_keepsRest t _ _) _)
  refine KeepsRest.trans ?_ (foldl_keepsRest _ (fun t x => dropClaim_keepsRest t _ _) _)
  exact foldl_keepsRest _ (fun t x => closeRoute_keepsRest t _ _) _

theorem writePolicies_keepsSurroundings (first last : LineNo) (p : Policy) :
    KeepsSurroundings s (writePolicies first last p s) := by
  unfold writePolicies
  constructor <;> rfl

theorem applyPolicy_keepsSurroundings (first last : LineNo) (p : Policy) :
    KeepsSurroundings s (applyPolicy first last p s).1 :=
  (writePolicies_keepsSurroundings s first last p).trans (applyPolicy_keepsRest s first last p).surroundings

theorem setPolicyAct_keepsSurroundings : KeepsSurroundings s (setPolicyAct h ps s).1 := by
  unfold setPolicyAct
  split
  · exact (KeepsRest.refl s).surroundings
  · exact applyPolicy_keepsSurroundings s _ _ _

theorem changeGroup_keepsSurroundings (g : GroupNo) (f : Group → Group) : KeepsSurroundings s (changeGroup g f s) :=
  KeepsSurroundings.trans (by constructor <;> rfl) (passHeldChanges_keepsRest s (s.updGroup g f)).surroundings

theorem setGroupAct_keepsSurroundings : KeepsSurroundings s (setGroupAct h ps s).1 := by
  unfold setGroupAct
  split
  · exact (KeepsRest.refl s).surroundings
  · split
    · exact (KeepsRest.refl s).surroundings
    · exact changeGroup_keepsSurroundings s _ _

theorem tripAct_keepsSurroundings : KeepsSurroundings s (tripAct h ps s).1 := by
  unfold tripAct
  split
  · exact (KeepsRest.refl s).surroundings
  · split
    · exact (KeepsRest.refl s).surroundings
    · exact changeGroup_keepsSurroundings s _ _

theorem rearmAct_keepsSurroundings : KeepsSurroundings s (rearmAct h ps s).1 := by
  unfold rearmAct
  split
  · exact (KeepsRest.refl s).surroundings
  · split
    · exact (KeepsRest.refl s).surroundings
    · split
      · exact (KeepsRest.refl s).surroundings
      · exact changeGroup_keepsSurroundings s _ _

theorem act_keepsSurroundings (code : ReqCode) : KeepsSurroundings s (code.act h ps s).1 := by
  have of_state {t : State} (e : t = s) : KeepsSurroundings s t := e ▸ (KeepsRest.refl s).surroundings
  cases code with
  | attach => exact (attachAct_keepsRest h ps s).surroundings
  | detach => exact (endSession_keepsRest h s).surroundings
  | collect => exact (collectAct_keepsRest h ps s).surroundings
  | readLevels => exact of_state rfl
  | queryLine => exact of_state (queryLineAct_state h ps s)
  | setPolicy => exact setPolicyAct_keepsSurroundings h ps s
  | queryPolicy => exact of_state (queryPolicyAct_state h ps s)
  | listen => exact (listenAct_keepsRest h ps s).surroundings
  | release => exact (releaseAct_keepsRest h ps s).surroundings
  | renew => exact (renewAct_keepsRest h ps s).surroundings
  | revoke => exact (revokeAct_keepsRest h ps s).surroundings
  | queryRoute => exact of_state (queryRouteAct_state h ps s)
  | claim => exact (claimAct_keepsRest h ps s).surroundings
  | amend => exact (amendAct_keepsRest h ps s).surroundings
  | cancel => exact (cancelAct_keepsRest h ps s).surroundings
  | queryClaim => exact of_state (queryClaimAct_state h ps s)
  | setGroup => exact setGroupAct_keepsSurroundings h ps s
  | trip => exact tripAct_keepsSurroundings h ps s
  | rearm => exact rearmAct_keepsSurroundings h ps s
  | queryGroup => exact of_state (queryGroupAct_state h ps s)

/-- A request, admitted or refused, leaves the surroundings. -/
theorem carryOut_keepsSurroundings (code : ReqCode) : KeepsSurroundings s (carryOut code code.act h ps s).1 := by
  unfold carryOut
  split
  · exact (KeepsRest.refl s).surroundings
  · exact act_keepsSurroundings h ps s code

end

/-! ### What the timers' events leave as it was -/

section

variable (s : State)

theorem advance_keepsSurroundings (d : Nat) : KeepsSurroundings s (advance d s) := by constructor <;> rfl

theorem leaseEnd_keepsSurroundings (r : RouteSlot) : KeepsSurroundings s (leaseEnd r s) := by
  unfold leaseEnd
  split
  · exact (KeepsRest.refl s).surroundings
  · exact (advance_keepsSurroundings s _).trans ((closeRoute_keepsRest _ r _).trans (arbitrate_keepsRest _ _ _)).surroundings

theorem breakEnd_keepsSurroundings (r : RouteSlot) : KeepsSurroundings s (breakEnd r s) := by
  unfold breakEnd
  split
  · exact (KeepsRest.refl s).surroundings
  · exact (advance_keepsSurroundings s _).trans ((activate_keepsRest _ r).trans (noteRoute_keepsRest _ _ r)).surroundings

theorem expireWait_keepsRest (c : ClaimSlot) (cl : Claim) : KeepsRest s (expireWait c cl s) := by
  unfold expireWait
  dsimp only
  exact (dropClaim_keepsRest s c _).trans (arbitrate_keepsRest _ _ _)

theorem waitEnd_keepsSurroundings (c : ClaimSlot) : KeepsSurroundings s (waitEnd c s) := by
  unfold waitEnd
  split
  · exact (KeepsRest.refl s).surroundings
  · exact (advance_keepsSurroundings s _).trans (expireWait_keepsRest _ c _).surroundings

theorem settleEnd_keepsSurroundings (g : GroupNo) : KeepsSurroundings s (settleEnd g s) := by
  unfold settleEnd
  split
  · exact (advance_keepsSurroundings s _).trans (changeGroup_keepsSurroundings _ g _)
  · exact (KeepsRest.refl s).surroundings

theorem qualifyAs_keepsSurroundings (g : GroupNo) (level : Level) (f : Qualifier → Qualifier) :
    KeepsSurroundings s (qualifyAs g level f s) :=
  KeepsSurroundings.trans (by constructor <;> rfl) (changeGroup_keepsSurroundings _ g _)

theorem qualify_keepsSurroundings (g : GroupNo) : KeepsSurroundings s (qualify g s) := by
  unfold qualify
  split
  · exact qualifyAs_keepsSurroundings s g _ _
  · exact (advance_keepsSurroundings s _).trans (qualifyAs_keepsSurroundings _ g _ _)
  · exact (KeepsRest.refl s).surroundings

end

end Sys2Proof.Machine

/-! The Line Fabric: what acts at line pins and terminals, and how line pins follow it (O47). -/

namespace Sys2Proof.Machine

/-! ### What acts at a line pin -/

/-- Where no two members share a line, a member stands at the index of its line. -/
theorem memberIndex_of_mem {ms : List Member} (nodup : (linesOf ms).Nodup) {m : Member} (hm : m ∈ ms) :
    ∃ i, memberIndex ms m.line = some i ∧ ms[i]? = some m := by
  cases hi : memberIndex ms m.line with
  | none =>
    have none_on_line := List.findIdx?_eq_none_iff.mp hi m hm
    simp at none_on_line
  | some i =>
    obtain ⟨lt, on_line, -⟩ := List.findIdx?_eq_some_iff_getElem.mp hi
    have same : ms[i] = m := List.inj_on_of_nodup_map nodup (List.getElem_mem lt) hm (of_decide_eq_true on_line)
    exact ⟨i, rfl, by rw [List.getElem?_eq_getElem lt, same]⟩

section

variable {s : State} {l : LineNo}

theorem pinDrive_posture {p : Posture} (h : lineShows s l = .posture p) : pinDrive s l = p.drive := by
  simp only [pinDrive, h]

theorem pinDrive_pushPull {h : HostId} {n : TermNo} (k : lineShows s l = .terminal h n .pushPull) :
    pinDrive s l = ⟨some (terminalLevel s h n), none⟩ := by
  simp only [pinDrive, k]

theorem pinDrive_openDrain_low {h : HostId} {n : TermNo} (k : lineShows s l = .terminal h n .openDrain)
    (low : terminalLevel s h n = .low) : pinDrive s l = ⟨some .low, none⟩ := by
  simp only [pinDrive, k, low]

theorem pinDrive_openDrain_released {h : HostId} {n : TermNo} (k : lineShows s l = .terminal h n .openDrain)
    (high : terminalLevel s h n = .high) : pinDrive s l = ⟨none, (s.policy l).restPosture.releasedPull⟩ := by
  simp only [pinDrive, k, high]

/-- A DRIVEN line not held shows the terminal of the member on it: the line record and the forced set say so (R1, R63, R87). -/
theorem ForcedExact.lineShows_member (e : ForcedExact s) (h : s.held l = false) {r : RouteSlot} {rt : Route} {p : Priority}
    {mode : DriveMode} {m : Member} (hr : s.route? r = some rt) (hs : rt.state = .active) (hk : rt.kind = .driver p mode)
    (hm : m ∈ rt.members) (hl : m.line = l) : lineShows s l = .terminal rt.owner m.terminal mode := by
  have active : rt.active = true := by simp only [Route.active, hs]
  have live : rt.live = true := by simp only [Route.live, hs]
  have driver : rt.isDriver = true := by simp only [Route.isDriver, hk]
  have hd : (s.line l).driver = some r := e.lines.driven r rt hr live driver l (hl ▸ List.mem_map_of_mem hm)
  have hld : lineDriver s l = some (r, rt) := by simp [lineDriver, hd, hr, live, driver]
  have hst : (s.line l).state = .driven := by simp [e.lines.state l, lineStateOf, hld, active]
  obtain ⟨i, hi, him⟩ := memberIndex_of_mem (e.lines.routeMembers r rt hr).2 hm
  rw [hl] at hi
  have hf : rt.forced.getLsbD i = false := by rw [e.active r rt hr active driver i m him, hl, h]
  exact lineShows_driven h hst hld hk active hi him hf

end

/-! ### How a line pin follows what acts on it -/

/-- The level a pin takes where no board circuit drives it: the part's driver before its pull, its pull before the hold (R2, R7). -/
theorem repin_level_of_no_board {l : LineNo} {d : PinDrive} {p : LinePin} (h : p.board = none) :
    (repin l d p).level = d.strong.getD (d.pull.getD p.level) := by
  cases hs : d.strong <;> simp [repin, pinLevel, h, hs]

/-- The level a pin takes where the board drives it and the part at most pulls. -/
theorem repin_level_of_board {l : LineNo} {d : PinDrive} {p : LinePin} {x : Level} (h : p.board = some x) (k : d.strong = none) :
    (repin l d p).level = x := by
  simp [repin, pinLevel, h, k]

/-- Where the part comes to apply something else to a pin, the pin is driven anew from the level it had. -/
def DrivesAnew (s t : State) : Prop :=
  ∀ l, pinDrive s l ≠ pinDrive t l → ∃ p : LinePin, p.level = (s.pin l).level ∧ t.pin l = repin l (pinDrive t l) p

/-- So an undriven pin takes the level that follows, or keeps its own. -/
theorem DrivesAnew.level {s t : State} (k : DrivesAnew s t) {l : LineNo} (hd : pinDrive s l ≠ pinDrive t l)
    (hb : (t.pin l).board = none) :
    (t.pin l).level = (pinDrive t l).strong.getD ((pinDrive t l).pull.getD (s.pin l).level) := by
  obtain ⟨p, hp, ht⟩ := k l hd
  have board : p.board = none := by rwa [ht] at hb
  rw [ht, repin_level_of_no_board board, hp]

theorem DrivesAnew.of_same_drive {s t : State} (h : ∀ l, pinDrive t l = pinDrive s l) : DrivesAnew s t :=
  fun l hd => absurd (h l).symm hd

theorem settle_drivesAnew {s t : State} (h : ∀ l, (t.pin l).level = (s.pin l).level) : DrivesAnew s (settle s t) := by
  intro l hd
  rw [settle_pinDrive] at hd ⊢
  exact ⟨t.pin l, h l, by rw [settle_pin, if_neg fun e => hd e.1]⟩

theorem settle_drivesAnew_of_pins {s t : State} (h : t.pins = s.pins) : DrivesAnew s (settle s t) :=
  settle_drivesAnew fun l => by simp only [State.pin, h]

theorem deviceReset_drivesAnew (s : State) : DrivesAnew s (deviceReset s) :=
  fun l _ => ⟨s.pin l, rfl, deviceReset_pin s l⟩

theorem onKind_drivesAnew {h : HostId} {f : Byte → State → State} {s : State} (k : ∀ st, DrivesAnew s (f st s)) :
    DrivesAnew s (onKind h f s) := by
  unfold onKind
  split
  · exact .of_same_drive fun _ => rfl
  · exact k _

theorem takeUnknown_drivesAnew (h : HostId) (s : State) : DrivesAnew s (takeUnknown h s) := by
  unfold takeUnknown
  split
  · exact .of_same_drive fun _ => rfl
  · split <;> exact .of_same_drive fun _ => rfl

theorem resetLink_pins (h : HostId) (st : Byte) (s : State) : (resetLink h st s).pins = s.pins := by
  unfold resetLink
  dsimp only
  split
  · exact (endSession_keepsRest h s).pins
  · rfl

/-- A request: the block that owns it changes no pin, and the pins settle after the reply is queued. -/
theorem takeRequest_drivesAnew (code : ReqCode) (h : HostId) (s : State) : DrivesAnew s (takeRequest code code.act h s) := by
  unfold takeRequest
  split
  · exact .of_same_drive fun _ => rfl
  · split
    · exact settle_drivesAnew_of_pins (carryOut_keepsSurroundings h _ (popFrame h s) code).pins
    · exact .of_same_drive fun _ => rfl

theorem reaction_drivesAnew (c : Instr) (s : State) : DrivesAnew s (reaction c s) := by
  cases c with
  | transactionBegin | write => exact .of_same_drive fun _ => rfl
  | read | readAgain => exact onKind_drivesAnew fun _ => .of_same_drive fun _ => rfl
  | linkReset h => exact onKind_drivesAnew fun st => settle_drivesAnew_of_pins (resetLink_pins h st s)
  | unknownKind =>
    unfold reaction
    dsimp only
    split
    · exact onKind_drivesAnew fun _ => .of_same_drive fun _ => rfl
    · exact .of_same_drive fun _ => rfl
  | unknownRequest h => exact takeUnknown_drivesAnew h s
  | attach h | detach h | collect h | readLevels h | queryLine h | setPolicy h | queryPolicy h | listen h | release h | renew h | revoke h
  | queryRoute h | claim h | amend h | cancel h | queryClaim h | setGroup h | trip h | rearm h | queryGroup h =>
    exact takeRequest_drivesAnew _ h s
  | leaseExpiry r => exact settle_drivesAnew_of_pins (leaseEnd_keepsSurroundings s r).pins
  | breakExpiry r => exact settle_drivesAnew_of_pins (breakEnd_keepsSurroundings s r).pins
  | waitLimitExpiry c => exact settle_drivesAnew_of_pins (waitEnd_keepsSurroundings s c).pins
  | settleExpiry g => exact settle_drivesAnew_of_pins (settleEnd_keepsSurroundings s g).pins
  | qualifiedLevelChange g => exact settle_drivesAnew_of_pins (qualify_keepsSurroundings s g).pins
  | deviceReset | leaveReset | faultPinChange | terminalLevelChange | boardLineLevelChange =>
    exact .of_same_drive fun _ => rfl

theorem driveLine_pin (l : LineNo) (v : Option Level) (s : State) (k : LineNo) :
    (driveLine l v s).pin k = if l = k then { s.pin k with board := v } else s.pin k :=
  look_upd _ _ _ _

theorem driveLine_level (l : LineNo) (v : Option Level) (s : State) (k : LineNo) :
    ((driveLine l v s).pin k).level = (s.pin k).level := by
  rw [driveLine_pin]
  split <;> rfl

theorem exec_drivesAnew {c : Instr} {s t : State} (h : exec c s = .next t) : DrivesAnew s t := by
  by_cases hc : actsInReset c = false
  · rw [exec_reaction hc] at h
    injection h with h
    subst h
    split
    · exact .of_same_drive fun _ => rfl
    · exact reaction_drivesAnew c s
  · cases c with
    | deviceReset =>
      cases h
      exact deviceReset_drivesAnew s
    | leaveReset a b =>
      cases hs : s.inReset with
      | true =>
        rw [exec_leaveReset a b s hs] at h
        cases h
        exact settle_drivesAnew_of_pins rfl
      | false =>
        rw [exec_leaveReset_running a b s hs] at h
        cases h
        exact .of_same_drive fun _ => rfl
    | faultPinChange =>
      cases h
      exact .of_same_drive fun _ => rfl
    | terminalLevelChange =>
      cases h
      exact settle_drivesAnew_of_pins rfl
    | boardLineLevelChange l v =>
      cases h
      exact settle_drivesAnew (driveLine_level l v s)
    | _ => exact absurd rfl hc

/-! ### What a terminal does -/

section

variable {s : State} {h : HostId} {n : TermNo}

theorem terminalShows_unbound (k : look (s.session h).bindings n = none) : terminalShows s h n = .idle := by
  simp only [terminalShows, k]

theorem terminalShows_claim {c : ClaimSlot} {i : Nat} (k : look (s.session h).bindings n = some (.claim c i)) :
    terminalShows s h n = .idle := by
  simp only [terminalShows, k]

variable {r : RouteSlot} {i : Nat} {rt : Route} {m : Member}

theorem terminalShows_connecting (k : look (s.session h).bindings n = some (.route r i)) (hr : s.route? r = some rt)
    (hm : rt.members[i]? = some m) {d : Nat} (hs : rt.state = .connecting d) : terminalShows s h n = .readOnly := by
  simp only [terminalShows, k, hr, hm, hs]

theorem terminalShows_driver (k : look (s.session h).bindings n = some (.route r i)) (hr : s.route? r = some rt)
    (hm : rt.members[i]? = some m) (hs : rt.state = .active) (hd : rt.isDriver = true) :
    terminalShows s h n = if rt.forced.getLsbD i then .readOnly else .carried m.line := by
  cases hk : rt.kind with
  | driver p mode => simp only [terminalShows, k, hr, hm, hs, hk]
  | listener => simp [Route.isDriver, hk] at hd

theorem terminalShows_listener (k : look (s.session h).bindings n = some (.route r i)) (hr : s.route? r = some rt)
    (hm : rt.members[i]? = some m) (hs : rt.state = .active) (hd : rt.isDriver = false) :
    terminalShows s h n = .drives (s.pin m.line).level := by
  cases hk : rt.kind with
  | driver p mode => simp [Route.isDriver, hk] at hd
  | listener => simp only [terminalShows, k, hr, hm, hs, hk, sampled]

end

/-! ### What hosts and board circuits drive -/

section

variable (h : HostId) (n : TermNo) (l : LineNo) (v : Option Level) (s : State)

theorem driveTerminal_terminal_same : (driveTerminal h n v s).terminal h n = v := by
  simp [State.terminal, driveTerminal]

theorem driveTerminal_terminal_other {k : HostId} {m : TermNo} (ne : k ≠ h ∨ m ≠ n) :
    (driveTerminal h n v s).terminal k m = s.terminal k m := by
  simp only [State.terminal, driveTerminal, look_upd]
  split
  · rename_i same
    rw [look_upd_other _ _ (Ne.symm (ne.resolve_left (not_not.mpr same.symm)))]
  · rfl

theorem driveLine_pinDrive (k : LineNo) : pinDrive (driveLine l v s) k = pinDrive s k := rfl

theorem settle_terminal (t : State) : (settle s t).terminal h n = t.terminal h n := by
  simp only [State.terminal, settle_terminals]

theorem settle_eq_of_pins (t : State) : settle s t = { t with pins := (settle s t).pins } := by
  unfold settle
  rfl

/-- The level of a pin whose line shows the terminal, once the host's change acts on it. -/
theorem terminalLevelChange_level {mode : DriveMode} (before : lineShows s l = .terminal h n mode) (hb : (s.pin l).board = none)
    (hd : pinDrive s l ≠ pinDrive (settle s (driveTerminal h n v s)) l) :
    (mode = .pushPull → ((settle s (driveTerminal h n v s)).pin l).level = v.getD .low) ∧
      (mode = .openDrain → v.getD .low = .low → ((settle s (driveTerminal h n v s)).pin l).level = .low) := by
  have after : lineShows (driveTerminal h n v s) l = .terminal h n mode := before
  have presents : terminalLevel (driveTerminal h n v s) h n = v.getD .low := by
    rw [terminalLevel, driveTerminal_terminal_same]
  have level := (settle_drivesAnew_of_pins (s := s) (t := driveTerminal h n v s) rfl).level hd (by rw [settle_board]; exact hb)
  rw [settle_pinDrive] at level
  refine ⟨?_, ?_⟩
  · rintro rfl
    rw [level, pinDrive_pushPull after, presents, Option.getD_some]
  · rintro rfl low
    rw [level, pinDrive_openDrain_low after (presents.trans low), Option.getD_some]

/-- The pin of the line whose board circuit changes. -/
theorem boardLineLevelChange_pin :
    (settle s (driveLine l v s)).pin l =
      if (s.pin l).board = v then { s.pin l with board := v } else repin l (pinDrive s l) { s.pin l with board := v } := by
  rw [settle_pin, driveLine_pinDrive, driveLine_pin, if_pos rfl]
  simp only [true_and]

theorem boardLineLevelChange_other {k : LineNo} (ne : k ≠ l) : (settle s (driveLine l v s)).pin k = s.pin k := by
  have same : (driveLine l v s).pin k = s.pin k := by rw [driveLine_pin, if_neg ne.symm]
  rw [settle_pin, driveLine_pinDrive, same, if_pos ⟨rfl, rfl⟩]

/-- A board circuit that comes to drive the line sets its level where the part does not drive it. -/
theorem boardLineLevelChange_driven {x : Level} (hs : (pinDrive s l).strong = none) (hv : some x ≠ (s.pin l).board) :
    ((settle s (driveLine l (some x) s)).pin l).level = x := by
  rw [boardLineLevelChange_pin, if_neg hv.symm]
  exact repin_level_of_board rfl hs

/-- A board circuit that leaves the line leaves its level to the line hold. -/
theorem boardLineLevelChange_held (hd : pinDrive s l = ⟨none, none⟩) :
    ((settle s (driveLine l none s)).pin l).level = (s.pin l).level := by
  rw [boardLineLevelChange_pin]
  split
  · rfl
  · rw [repin_level_of_no_board rfl, hd]
    rfl

/-- A board circuit that leaves the line leaves its level to the part's pull. -/
theorem boardLineLevelChange_pulled {x : Level} (hd : pinDrive s l = ⟨none, some x⟩) (hv : none ≠ (s.pin l).board) :
    ((settle s (driveLine l none s)).pin l).level = x := by
  rw [boardLineLevelChange_pin, if_neg hv.symm, repin_level_of_no_board rfl, hd]
  rfl

end

/-- Settles O47, part by part: the two pin events, what lines show and apply, the pins after any command, and what terminals do. -/
theorem pinsFollowTerminalsAndBoard : Obligations.PinsFollowTerminalsAndBoard := by
  refine ⟨fun h n v s => ⟨_, rfl, settle_eq_of_pins _ _, settle_pinsFollow _ _ rfl, ?terminal, fun k m ne => ?otherTerminal,
      settle_board _ _, fun l mode shown hb hd => terminalLevelChange_level h n l v s shown hb hd⟩,
    fun l v s => ⟨_, rfl, settle_eq_of_pins _ _, fun k ne => boardLineLevelChange_other l v s ne, ?board, ?driven, ?kept, ?pulled⟩,
    fun s l => ⟨lineShows_held, fun h hs => lineShows_rest h (.inl hs), ?member, fun x h => ?posture, fun h n => pinDrive_pushPull,
      fun h n k => ⟨pinDrive_openDrain_low k, fun high => ?released⟩⟩,
    fun c s t l hc hd hb => ?level,
    fun s h n => ⟨terminalShows_unbound, fun c i => terminalShows_claim, fun r i rt m k hr hm =>
      ⟨fun d => terminalShows_connecting k hr hm, terminalShows_driver k hr hm, terminalShows_listener k hr hm⟩⟩⟩
  case terminal => rw [settle_terminal, driveTerminal_terminal_same]
  case otherTerminal => rw [settle_terminal, driveTerminal_terminal_other h n v s ne]
  case board => rw [settle_board, driveLine_pin, if_pos rfl]
  case driven =>
    rintro x rfl hs hv
    exact boardLineLevelChange_driven l s hs hv
  case kept =>
    rintro rfl hd
    exact boardLineLevelChange_held l s hd
  case pulled =>
    rintro x rfl hd hv
    exact boardLineLevelChange_pulled l s hd hv
  case member =>
    intro e h r rt p mode m hr hs hk hm hl
    exact e.lineShows_member h hr hs hk hm hl
  case posture =>
    rw [pinDrive_posture h]
    cases x <;> rfl
  case released =>
    rw [pinDrive_openDrain_released k high]
    cases (s.policy l).restPosture <;> rfl
  case level =>
    rw [(exec_drivesAnew hc).level hd hb]
    obtain ⟨strong, pull⟩ := pinDrive t l
    cases strong <;> cases pull <;> rfl

end Sys2Proof.Machine

/-! What the policy records permit and the leases they bound (O28). -/

namespace Sys2Proof.Machine

/-! ### The effective max -/

section

variable (s : State)

theorem effectiveMax_cons (l : LineNo) (ls : List LineNo) : effectiveMax s (l :: ls) =
    if (s.policy l).maxLease = 0 then effectiveMax s ls
    else if effectiveMax s ls = 0 then (s.policy l).maxLease
    else min (s.policy l).maxLease (effectiveMax s ls) := rfl

theorem effectiveMax_eq_zero {ls : List LineNo} : effectiveMax s ls = 0 ↔ ∀ l ∈ ls, (s.policy l).maxLease = 0 := by
  induction ls with
  | nil => simp [effectiveMax]
  | cons l ls ih =>
    rw [effectiveMax_cons, List.forall_mem_cons, ← ih]
    split_ifs <;> omega

theorem effectiveMax_attained {ls : List LineNo} (h : effectiveMax s ls ≠ 0) :
    ∃ l ∈ ls, (s.policy l).maxLease = effectiveMax s ls := by
  induction ls with
  | nil => exact absurd rfl h
  | cons l ls ih =>
    rw [effectiveMax_cons] at h ⊢
    have later : effectiveMax s ls ≠ 0 → ∃ k ∈ l :: ls, (s.policy k).maxLease = effectiveMax s ls := fun k =>
      (ih k).imp fun _ ⟨hk, e⟩ => ⟨List.mem_cons_of_mem _ hk, e⟩
    split_ifs at h ⊢ with own rest
    · exact later h
    · exact ⟨l, List.mem_cons_self .., rfl⟩
    · rcases min_choice (s.policy l).maxLease (effectiveMax s ls) with e | e <;> rw [e]
      · exact ⟨l, List.mem_cons_self .., rfl⟩
      · exact later rest

theorem effectiveMax_le {ls : List LineNo} {l : LineNo} (hl : l ∈ ls) (h : (s.policy l).maxLease ≠ 0) :
    effectiveMax s ls ≤ (s.policy l).maxLease := by
  induction ls with
  | nil => cases hl
  | cons k ls ih =>
    rw [effectiveMax_cons]
    rcases List.mem_cons.mp hl with rfl | hl
    · split_ifs <;> omega
    · have rest := ih hl
      have pos : effectiveMax s ls ≠ 0 := fun e => h ((effectiveMax_eq_zero s).mp e l hl)
      split_ifs <;> omega

end

/-- Settles O28. The effective max is 0 just where every max lease is, and else the least of the others; the table of R19 is the
definition's own case split. -/
theorem leaseResolution : Obligations.LeaseResolution := by
  refine ⟨fun s ls => ⟨(effectiveMax_eq_zero s).mpr, fun ⟨l, hl, h⟩ => ?_⟩, rfl, fun m hm => ?_, fun n _ => rfl, fun n m hn hm h => ?_,
    fun n m hm h => ?_, fun s n ls => rfl⟩
  · have pos : effectiveMax s ls ≠ 0 := fun e => h ((effectiveMax_eq_zero s).mp e l hl)
    exact ⟨pos, effectiveMax_attained s pos, fun k hk => effectiveMax_le s hk⟩
  all_goals
    unfold resolveLease
    split_ifs <;> omega

/-! ### What depends on the policies of some lines alone -/

section

variable {s t : State}

theorem all_policy_congr {ls : List LineNo} (h : ∀ l ∈ ls, t.policy l = s.policy l) (f : Policy → Bool) :
    (ls.all fun l => f (t.policy l)) = ls.all fun l => f (s.policy l) := by
  rw [Bool.eq_iff_iff, List.all_eq_true, List.all_eq_true]
  exact forall₂_congr fun l hl => by rw [h l hl]

theorem effectiveMax_congr {ls : List LineNo} (h : ∀ l ∈ ls, t.policy l = s.policy l) : effectiveMax t ls = effectiveMax s ls := by
  induction ls with
  | nil => rfl
  | cons l ls ih =>
    obtain ⟨hl, hls⟩ := List.forall_mem_cons.mp h
    rw [effectiveMax_cons, effectiveMax_cons, hl, ih hls]

theorem mayDrive_congr {ls : List LineNo} (h : ∀ l ∈ ls, t.policy l = s.policy l) (k : HostId) : mayDrive t k ls = mayDrive s k ls :=
  all_policy_congr h fun p => p.driverMask.getLsbD k.val

theorem modeAllowed_congr {ls : List LineNo} (h : ∀ l ∈ ls, t.policy l = s.policy l) (m : DriveMode) :
    modeAllowed t m ls = modeAllowed s m ls :=
  all_policy_congr h fun p => p.modes.getLsbD m.bit

theorem mayListen_congr {ls : List LineNo} (h : ∀ l ∈ ls, t.policy l = s.policy l) (k : HostId) : mayListen t k ls = mayListen s k ls :=
  all_policy_congr h fun p => p.listenerMask.getLsbD k.val

theorem mayPreempt_congr {ls : List LineNo} (h : ∀ l ∈ ls, t.policy l = s.policy l) (k : HostId) :
    mayPreempt t k ls = mayPreempt s k ls :=
  all_policy_congr h fun p => p.preemptMask.getLsbD k.val

theorem routePermitted_congr {rt : Route} (h : ∀ l ∈ linesOf rt.members, t.policy l = s.policy l) :
    routePermitted t rt = routePermitted s rt := by
  unfold routePermitted
  rw [mayListen_congr h]
  simp only [mayDrive_congr h, modeAllowed_congr h]

theorem claimPermitted_congr {cl : Claim} (h : ∀ l ∈ linesOf cl.members, t.policy l = s.policy l) :
    claimPermitted t cl = claimPermitted s cl := by
  unfold claimPermitted
  rw [mayDrive_congr h, modeAllowed_congr h]

theorem losesPreempt_congr {cl : Claim} (h : ∀ l ∈ linesOf cl.members, t.policy l = s.policy l) :
    losesPreempt t cl = losesPreempt s cl := by
  unfold losesPreempt
  rw [mayPreempt_congr h]

theorem leaseWithinMax_congr {rt : Route} (h : ∀ l ∈ linesOf rt.members, t.policy l = s.policy l) :
    LeaseWithinMax t rt ↔ LeaseWithinMax s rt := by
  unfold LeaseWithinMax
  rw [effectiveMax_congr h]

theorem policy_congr (h : t.policies = s.policies) (l : LineNo) : t.policy l = s.policy l := by
  simp only [State.policy, h]

end

/-! ### The leases that requests resolve to -/

theorem resolveLease_bounded {n m : Nat} (h : m ≠ 0) : resolveLease n m ≠ 0 ∧ resolveLease n m ≤ m := by
  unfold resolveLease
  split_ifs <;> omega

theorem timerOfMillis_of_ne {n : Nat} (h : n ≠ 0) : timerOfMillis n = some (n * Config.microsPerMilli) := if_neg h

/-- A resolved lease is none only where the effective max is 0, and else stays within it (R19). -/
theorem leaseFor_withinMax (s : State) (n : Nat) {rt : Route} (h : rt.lease = leaseFor s n (linesOf rt.members)) :
    LeaseWithinMax s rt := by
  intro pos
  obtain ⟨ne, le⟩ := resolveLease_bounded (n := n) pos
  exact ⟨_, h.trans (timerOfMillis_of_ne ne), Nat.mul_le_mul_right _ le⟩

end Sys2Proof.Machine

/-! What a SET_POLICY makes of every record before its grant checks (R22 to R27). -/

namespace Sys2Proof.Machine

/-! ### Folds over numbered records -/

/-- A fold over distinct numbers, each step of which changes the record of its own number alone. -/
theorem foldl_record {n : Nat} {α β : Type} {get : State → Fin n → β} {f : State → α → State} {key : α → Fin n} {g : β → β}
    {Q : State → Prop} (keep : ∀ t a, Q t → Q (f t a))
    (change : ∀ t a i, Q t → get (f t a) i = if key a = i then g (get t i) else get t i)
    {xs : List α} (nodup : (xs.map key).Nodup) {s : State} (hs : Q s) (i : Fin n) :
    get (xs.foldl f s) i = if i ∈ xs.map key then g (get s i) else get s i := by
  induction xs generalizing s with
  | nil => simp
  | cons x xs ih =>
    obtain ⟨fresh, nodup⟩ := List.nodup_cons.mp nodup
    rw [List.foldl_cons, ih nodup (keep s x hs), change s x i hs, List.map_cons]
    by_cases hi : key x = i
    · rw [hi] at fresh
      simp [hi, fresh]
    · simp [hi, Ne.symm hi]

theorem map_fst_filter_filterMap {ι β : Type} {f : ι → Option (ι × β)} (own : ∀ i x, f i = some x → x.1 = i) (q : ι × β → Bool)
    (xs : List ι) : ((xs.filterMap f).filter q).map Prod.fst = xs.filter fun i => (f i).any q := by
  induction xs with
  | nil => rfl
  | cons i xs ih =>
    cases hf : f i with
    | none => simp [hf, ih]
    | some x =>
      have hx := own i x hf
      cases hq : q x <;> simp [hf, hq, hx, ih]

/-! ### The records a range touches -/

section

variable (first last : LineNo) (s : State)

theorem affectedRoutes_slots (q : RouteSlot × Route → Bool) : ((affectedRoutes first last s).filter q).map Prod.fst =
    (every 96).filter fun r => (s.route? r).any fun rt => rt.live && meetsRange first last rt.members && q (r, rt) := by
  unfold affectedRoutes
  rw [map_fst_filter_filterMap]
  · congr 1
    funext r
    cases s.route? r with
    | none => rfl
    | some rt => cases hm : rt.live && meetsRange first last rt.members <;> simp [hm]
  · intro r x hx
    split at hx
    · cases hx
    · split at hx
      · cases hx
        rfl
      · cases hx

theorem affectedClaims_slots (q : ClaimSlot × Claim → Bool) : ((affectedClaims first last s).filter q).map Prod.fst =
    (every 32).filter fun c => (s.claim? c).any fun cl => cl.waiting && meetsRange first last cl.members && q (c, cl) := by
  unfold affectedClaims
  rw [map_fst_filter_filterMap]
  · congr 1
    funext c
    cases s.claim? c with
    | none => rfl
    | some cl => cases hm : cl.waiting && meetsRange first last cl.members <;> simp [hm]
  · intro c x hx
    split at hx
    · cases hx
    · split at hx
      · cases hx
        rfl
      · cases hx

/-- The live routes on the range that the records do not permit (R23). -/
def closures : List (RouteSlot × Route) := (affectedRoutes first last s).filter fun x => !routePermitted s x.2

/-- The WAITING claims on the range that the records do not permit (R24). -/
def drops : List (ClaimSlot × Claim) := (affectedClaims first last s).filter fun x => !claimPermitted s x.2

/-- The WAITING claims on the range that may stay, but not at priority 3 (R25). -/
def demotions : List (ClaimSlot × Claim) :=
  (affectedClaims first last s).filter fun x => claimPermitted s x.2 && losesPreempt s x.2

/-- The routes no longer permitted are CLOSED (R23). -/
def withClosures : State := (closures first last s).foldl (fun t x => closeRoute .policy x.1 t) s

/-- And the claims no longer permitted DROPPED (R24). -/
def withDrops : State := (drops first last s).foldl (fun t x => dropClaim .policy x.1 t) (withClosures first last s)

/-- And the claims that may no longer preempt demoted (R25). -/
def withDemotions : State := (demotions first last s).foldl (fun t x => demote x.1 x.2 t) (withDrops first last s)

/-- And the leases on the range given or shortened (R26). -/
def enforced : State := (affectedRoutes first last s).foldl (fun t x => clampRoute x.1 t) (withDemotions first last s)

/-- The lines that closures, drops and demotions hand over (R28). -/
def linesHandedOver : List LineNo :=
  (closures first last s).flatMap (fun x => linesGivenUp x.2) ++ (drops first last s).flatMap (fun x => linesOf x.2.members) ++
    (demotions first last s).flatMap (fun x => linesOf x.2.members)

/-- A SET_POLICY up to its grant checks: the records are written and enforced, and changes of held status handed on. -/
def policySet (p : Policy) : State := passHeldChanges s (enforced first last (writePolicies first last p s))

theorem applyPolicy_eq (p : Policy) : applyPolicy first last p s =
    (arbitrate none (linesHandedOver first last (writePolicies first last p s)) (policySet first last s p),
      ⟨.ok, [BitVec.ofNat 8 (closures first last (writePolicies first last p s)).length,
        BitVec.ofNat 8 (drops first last (writePolicies first last p s)).length,
        BitVec.ofNat 8 (demotions first last (writePolicies first last p s)).length]⟩) := rfl

theorem nodup_filter_every {n : Nat} (q : Fin n → Bool) : ((every n).filter q).Nodup := (List.nodup_finRange n).filter q

theorem affectedRoutes_map_fst : (affectedRoutes first last s).map Prod.fst =
    (every 96).filter fun r => (s.route? r).any fun rt => rt.live && meetsRange first last rt.members := by
  have := affectedRoutes_slots first last s fun _ => true
  simpa only [List.filter_true, Bool.and_true] using this

theorem mem_affectedRoutes_slots (r : RouteSlot) : r ∈ (affectedRoutes first last s).map Prod.fst ↔
    ∃ rt, s.route? r = some rt ∧ (rt.live && meetsRange first last rt.members) = true := by
  rw [affectedRoutes_map_fst, List.mem_filter, Option.any_eq_true]
  exact and_iff_right (mem_every r)

theorem mem_closures_slots (r : RouteSlot) : r ∈ (closures first last s).map Prod.fst ↔
    ∃ rt, s.route? r = some rt ∧ (rt.live && meetsRange first last rt.members && !routePermitted s rt) = true := by
  rw [closures, affectedRoutes_slots, List.mem_filter, Option.any_eq_true]
  exact and_iff_right (mem_every r)

theorem mem_drops_slots (c : ClaimSlot) : c ∈ (drops first last s).map Prod.fst ↔
    ∃ cl, s.claim? c = some cl ∧ (cl.waiting && meetsRange first last cl.members && !claimPermitted s cl) = true := by
  rw [drops, affectedClaims_slots, List.mem_filter, Option.any_eq_true]
  exact and_iff_right (mem_every c)

theorem mem_demotions_slots (c : ClaimSlot) : c ∈ (demotions first last s).map Prod.fst ↔
    ∃ cl, s.claim? c = some cl ∧ (cl.waiting && meetsRange first last cl.members && (claimPermitted s cl && losesPreempt s cl)) = true := by
  rw [demotions, affectedClaims_slots, List.mem_filter, Option.any_eq_true]
  exact and_iff_right (mem_every c)

end

/-! ### What one step makes of its record -/

/-- An entry with its route changed; a free entry stays. -/
def RouteEntry.onRoute (f : Route → Route) (e : RouteEntry) : RouteEntry := { e with route := e.route.map f }

/-- A record with its claim changed; a free record stays. -/
def ClaimEntry.onClaim (f : Claim → Claim) (e : ClaimEntry) : ClaimEntry := { e with claim := e.claim.map f }

theorem RouteEntry.onRoute_eq {f g : Route → Route} {e : RouteEntry} (h : ∀ rt, e.route = some rt → f rt = g rt) :
    e.onRoute f = e.onRoute g := by
  obtain ⟨gen, _ | rt⟩ := e
  · rfl
  · simp only [onRoute, Option.map_some, h rt rfl]

theorem RouteEntry.onRoute_same {f : Route → Route} {e : RouteEntry} (h : ∀ rt, e.route = some rt → f rt = rt) : e.onRoute f = e := by
  rw [RouteEntry.onRoute_eq (g := id) h, RouteEntry.onRoute, Option.map_id, id]

theorem ClaimEntry.onClaim_eq {f g : Claim → Claim} {e : ClaimEntry} (h : ∀ cl, e.claim = some cl → f cl = g cl) :
    e.onClaim f = e.onClaim g := by
  obtain ⟨gen, _ | cl⟩ := e
  · rfl
  · simp only [onClaim, Option.map_some, h cl rfl]

theorem ClaimEntry.onClaim_same {f : Claim → Claim} {e : ClaimEntry} (h : ∀ cl, e.claim = some cl → f cl = cl) : e.onClaim f = e := by
  rw [ClaimEntry.onClaim_eq (g := id) h, ClaimEntry.onClaim, Option.map_id, id]

theorem updRoute_routeEntry (s : State) (r : RouteSlot) (f : Route → Route) (q : RouteSlot) :
    (s.updRoute r f).routeEntry q = if r = q then (s.routeEntry q).onRoute f else s.routeEntry q :=
  State.updRouteEntry_routeEntry s r _ q

theorem updClaim_claimEntry (s : State) (c : ClaimSlot) (f : Claim → Claim) (d : ClaimSlot) :
    (s.updClaim c f).claimEntry d = if c = d then (s.claimEntry d).onClaim f else s.claimEntry d :=
  State.updClaimEntry_claimEntry s c _ d

/-- A route after its closing: a CLOSED one stays (R51, R52). -/
def Route.close (why : CloseReason) (rt : Route) : Route :=
  if rt.live then { rt with state := .closed why, lease := none, forced := 0#8 } else rt

/-- A claim after its dropping (R82). -/
def Claim.drop (why : DropReason) (cl : Claim) : Claim := { cl with state := .dropped why, waitLimit := none, awaiting := false }

/-- A route after its lease is held to the effective max of its lines (R26). -/
def Route.clamp (s : State) (rt : Route) : Route :=
  let lease := clampLease (effectiveMax s (linesOf rt.members) * Config.microsPerMilli) rt.lease
  if rt.live && effectiveMax s (linesOf rt.members) ≠ 0 && lease ≠ rt.lease then { rt with lease := lease, leaseClamped := true } else rt

section

variable (s : State)

theorem closeRoute_entry (why : CloseReason) (r q : RouteSlot) :
    (closeRoute why r s).routeEntry q = if r = q then (s.routeEntry q).onRoute (Route.close why) else s.routeEntry q := by
  by_cases live : ∃ rt, s.route? r = some rt ∧ rt.live = true
  · obtain ⟨rt, hr, hl⟩ := live
    rw [closeRoute_routeEntry hr hl]
    split
    · rename_i e
      subst e
      simp only [RouteEntry.onRoute, show (s.routeEntry r).route = some rt from hr, Option.map_some, Route.close, hl, if_true]
    · rfl
  · have closed : ∀ rt, s.route? r = some rt → rt.live = false := fun rt hr => by
      simpa using fun hl => live ⟨rt, hr, hl⟩
    rw [closeRoute_idle closed]
    split
    · rename_i e
      subst e
      exact (RouteEntry.onRoute_same fun rt hr => by simp [Route.close, closed rt hr]).symm
    · rfl

theorem clampRoute_entry (r q : RouteSlot) :
    (clampRoute r s).routeEntry q = if r = q then (s.routeEntry q).onRoute (Route.clamp s) else s.routeEntry q := by
  have kept (h : ∀ rt, s.route? r = some rt → rt.clamp s = rt) :
      s.routeEntry q = if r = q then (s.routeEntry q).onRoute (Route.clamp s) else s.routeEntry q := by
    split
    · rename_i e
      subst e
      exact (RouteEntry.onRoute_same h).symm
    · rfl
  unfold clampRoute
  split
  · rename_i hr
    exact kept fun rt h => by simp [hr] at h
  · rename_i rt hr
    dsimp only
    split
    · rename_i short
      show State.routeEntry (s.updRoute r _) q = _
      rw [updRoute_routeEntry]
      split
      · rename_i e
        subst e
        refine RouteEntry.onRoute_eq fun x hx => ?_
        cases hr.symm.trans hx
        exact (if_pos short).symm
      · rfl
    · rename_i fits
      refine kept fun x hx => ?_
      cases hr.symm.trans hx
      exact if_neg fits

theorem dropClaim_entry (why : DropReason) (c d : ClaimSlot) :
    (dropClaim why c s).claimEntry d = if c = d then (s.claimEntry d).onClaim (Claim.drop why) else s.claimEntry d := by
  unfold dropClaim
  split
  · rename_i hc
    split
    · rename_i e
      subst e
      exact (ClaimEntry.onClaim_same fun cl h => by simp [State.claim?, h] at hc).symm
    · rfl
  · show State.claimEntry ((withdrawClaim c _ s).updClaim c _) d = _
    rw [updClaim_claimEntry]
    simp only [State.claimEntry, withdrawClaim_claims]
    rfl

theorem demote_entry (c : ClaimSlot) (cl : Claim) (d : ClaimSlot) : (demote c cl s).claimEntry d =
    if c = d then (s.claimEntry d).onClaim fun x => { x with priority := 2 } else s.claimEntry d := by
  unfold demote
  have same : (joinQueues c (linesOf cl.members) ((leaveQueues c (linesOf cl.members) s).updClaim c fun x => { x with priority := 2 })).claims =
      (s.updClaim c fun x => { x with priority := 2 }).claims := by
    rw [(joinQueues_keeps _ _ _).claims]
    simp only [State.updClaim, State.updClaimEntry, (leaveQueues_keeps s c _).claims]
  simp only [State.claimEntry, noteClaim_claims, same]
  exact updClaim_claimEntry s c _ d

@[simp] theorem demote_routes (c : ClaimSlot) (cl : Claim) : (demote c cl s).routes = s.routes :=
  (joinQueues_keeps _ c _).routes.trans (leaveQueues_keeps s c _).routes

@[simp] theorem demote_accepted (c : ClaimSlot) (cl : Claim) : (demote c cl s).accepted = s.accepted :=
  (joinQueues_keeps _ c _).accepted.trans (leaveQueues_keeps s c _).accepted

@[simp] theorem clampRoute_claims (r : RouteSlot) : (clampRoute r s).claims = s.claims := by
  unfold clampRoute
  split
  · rfl
  · dsimp only
    split <;> rfl

@[simp] theorem clampRoute_accepted (r : RouteSlot) : (clampRoute r s).accepted = s.accepted := by
  unfold clampRoute
  split
  · rfl
  · dsimp only
    split <;> rfl

@[simp] theorem clampRoute_lines (r : RouteSlot) : (clampRoute r s).lines = s.lines := by
  unfold clampRoute
  split
  · rfl
  · dsimp only
    split <;> rfl

theorem dropClaim_accepted (why : DropReason) (c : ClaimSlot) :
    (dropClaim why c s).accepted = if (s.claim? c).isSome then s.accepted.filter (· ≠ c) else s.accepted := by
  unfold dropClaim
  split
  · rename_i hc
    simp [hc]
  · rename_i cl hc
    rw [noteClaim_accepted, State.updClaim_accepted, withdrawClaim_accepted]
    simp [hc]

theorem Route.clamp_congr {t : State} (h : t.policies = s.policies) : Route.clamp t = Route.clamp s := by
  funext rt
  simp only [Route.clamp, effectiveMax_congr fun l _ => policy_congr h l]

end

/-! ### Every record after closures, drops, demotions and clamps -/

/-- A route under the records of its lines: a live one with a member in the range is CLOSED, or keeps to the effective max. -/
def Route.enforced (first last : LineNo) (s : State) (rt : Route) : Route :=
  if rt.live && meetsRange first last rt.members then (if routePermitted s rt then rt.clamp s else rt.close .policy) else rt

/-- A claim under the records of its lines: a WAITING one that names a line of the range is DROPPED or demoted, or stays. -/
def Claim.enforced (first last : LineNo) (s : State) (cl : Claim) : Claim :=
  if cl.waiting && meetsRange first last cl.members then
    (if claimPermitted s cl then (if losesPreempt s cl then { cl with priority := 2 } else cl) else cl.drop .policy)
  else cl

section

variable (first last : LineNo) (s : State)

theorem withClosures_entry (r : RouteSlot) : (withClosures first last s).routeEntry r =
    if r ∈ (closures first last s).map Prod.fst then (s.routeEntry r).onRoute (Route.close .policy) else s.routeEntry r :=
  foldl_record (Q := fun _ => True) (key := Prod.fst) (fun _ _ _ => trivial) (fun t x q _ => closeRoute_entry t .policy x.1 q)
    (by rw [closures, affectedRoutes_slots]; exact nodup_filter_every _) trivial r

theorem withDemotions_routes : (withDemotions first last s).routes = (withClosures first last s).routes := by
  unfold withDemotions withDrops
  rw [foldl_keeps State.routes fun t (x : ClaimSlot × Claim) => demote_routes t x.1 x.2,
    foldl_keeps State.routes fun t (x : ClaimSlot × Claim) => dropClaim_routes t x.1 .policy]

theorem withDemotions_keepsRest : KeepsRest s (withDemotions first last s) := by
  unfold withDemotions withDrops withClosures
  refine KeepsRest.trans ?_ (foldl_keepsRest _ (fun t x => demote_keepsRest t _ _) _)
  refine KeepsRest.trans ?_ (foldl_keepsRest _ (fun t x => dropClaim_keepsRest t _ _) _)
  exact foldl_keepsRest _ (fun t x => closeRoute_keepsRest t _ _) _

theorem enforced_keepsRest : KeepsRest s (enforced first last s) := by
  unfold enforced
  exact (withDemotions_keepsRest first last s).trans (foldl_keepsRest _ (fun t x => clampRoute_keepsRest t _) _)

/-- Every entry once the records are enforced. -/
theorem enforced_routeEntry (r : RouteSlot) :
    (enforced first last s).routeEntry r = (s.routeEntry r).onRoute (Route.enforced first last s) := by
  have clamps : (enforced first last s).routeEntry r = if r ∈ (affectedRoutes first last s).map Prod.fst then
      ((withDemotions first last s).routeEntry r).onRoute (Route.clamp s) else (withDemotions first last s).routeEntry r :=
    foldl_record (Q := fun t => t.policies = s.policies) (key := Prod.fst)
      (fun t x h => (clampRoute_keepsRest t x.1).policies.trans h)
      (fun t x q h => by rw [clampRoute_entry, Route.clamp_congr s h])
      (by rw [affectedRoutes_map_fst]; exact nodup_filter_every _) (withDemotions_keepsRest first last s).policies r
  have before : (withDemotions first last s).routeEntry r = (withClosures first last s).routeEntry r := by
    simp only [State.routeEntry, withDemotions_routes]
  rw [clamps, before, withClosures_entry, if_congr (mem_affectedRoutes_slots first last s r) rfl rfl,
    if_congr (mem_closures_slots first last s r) rfl rfl]
  obtain ⟨⟨gen, route⟩, he⟩ : ∃ e, s.routeEntry r = e := ⟨_, rfl⟩
  have hroute : s.route? r = route := by rw [State.route?, he]
  rw [hroute, he]
  cases route with
  | none => simp [RouteEntry.onRoute]
  | some rt =>
    have clamp_close : (rt.close .policy).clamp s = rt.close .policy := by
      cases hl : rt.live <;> simp [Route.close, Route.clamp, hl]
      simp [Route.live]
    simp only [Option.some.injEq, exists_eq_left', RouteEntry.onRoute, Option.map_some, Route.enforced]
    cases rt.live && meetsRange first last rt.members <;> cases routePermitted s rt <;> simp [clamp_close]

theorem withDrops_entry (c : ClaimSlot) : (withDrops first last s).claimEntry c =
    if c ∈ (drops first last s).map Prod.fst then (s.claimEntry c).onClaim (Claim.drop .policy) else s.claimEntry c := by
  have claims : (withClosures first last s).claimEntry c = s.claimEntry c := by
    simp only [State.claimEntry, withClosures, foldl_keeps State.claims (fun t (x : RouteSlot × Route) => closeRoute_claims t x.1 .policy)]
  have folded : (withDrops first last s).claimEntry c = if c ∈ (drops first last s).map Prod.fst then
      ((withClosures first last s).claimEntry c).onClaim (Claim.drop .policy) else (withClosures first last s).claimEntry c :=
    foldl_record (Q := fun _ => True) (key := Prod.fst) (fun _ _ _ => trivial) (fun t x d _ => dropClaim_entry t .policy x.1 d)
      (by rw [drops, affectedClaims_slots]; exact nodup_filter_every _) trivial c
  rw [folded, claims]

/-- Every claim record once the policy records are enforced. -/
theorem enforced_claimEntry (c : ClaimSlot) :
    (enforced first last s).claimEntry c = (s.claimEntry c).onClaim (Claim.enforced first last s) := by
  have after : (enforced first last s).claimEntry c = (withDemotions first last s).claimEntry c := by
    simp only [State.claimEntry, enforced, foldl_keeps State.claims (fun t (x : RouteSlot × Route) => clampRoute_claims t x.1)]
  have demoted : (withDemotions first last s).claimEntry c = if c ∈ (demotions first last s).map Prod.fst then
      ((withDrops first last s).claimEntry c).onClaim (fun x => { x with priority := 2 }) else (withDrops first last s).claimEntry c :=
    foldl_record (Q := fun _ => True) (key := Prod.fst) (fun _ _ _ => trivial) (fun t x d _ => demote_entry t x.1 x.2 d)
      (by rw [demotions, affectedClaims_slots]; exact nodup_filter_every _) trivial c
  rw [after, demoted, withDrops_entry, if_congr (mem_drops_slots first last s c) rfl rfl,
    if_congr (mem_demotions_slots first last s c) rfl rfl]
  obtain ⟨⟨gen, claim⟩, he⟩ : ∃ e, s.claimEntry c = e := ⟨_, rfl⟩
  have hclaim : s.claim? c = claim := by rw [State.claim?, he]
  rw [hclaim, he]
  cases claim with
  | none => simp [ClaimEntry.onClaim]
  | some cl =>
    simp only [Option.some.injEq, exists_eq_left', ClaimEntry.onClaim, Option.map_some, Claim.enforced]
    cases cl.waiting && meetsRange first last cl.members <;> cases claimPermitted s cl <;> cases losesPreempt s cl <;> simp

end

end Sys2Proof.Machine

/-! Who is told of what a SET_POLICY does, and what the changes of held status make of the routes (R23 to R27, R63). -/

namespace Sys2Proof.Machine

/-! ### Every record that changes is told to its owner -/

/-- Between two moments no host is attached or detached, nothing leaves a change set, no claim comes or goes or changes hands, and
every record in use that changes is told to its owner. -/
structure Told (s t : State) : Prop where
  sessions : SessionsAfterChecks s t
  owners : ∀ c, (t.claim? c).map (·.owner) = (s.claim? c).map (·.owner)
  routes : ∀ r rt, s.route? r = some rt → t.routeEntry r = s.routeEntry r ∨ r ∈ (t.session rt.owner).changes.routes
  claims : ∀ c cl, s.claim? c = some cl → t.claimEntry c = s.claimEntry c ∨ c ∈ (t.session cl.owner).changes.claims

theorem Told.refl (s : State) : Told s s := ⟨.refl s, fun _ => rfl, fun _ _ _ => .inl rfl, fun _ _ _ => .inl rfl⟩

theorem Told.trans {s t u : State} (a : Told s t) (b : Told t u) : Told s u := by
  refine ⟨a.sessions.trans b.sessions, fun c => (b.owners c).trans (a.owners c), fun r rt h => ?_, fun c cl h => ?_⟩
  · rcases a.routes r rt h with e | noted
    · rw [← e]
      exact b.routes r rt (by rw [State.route?, e]; exact h)
    · exact .inr (b.sessions.notedRoutes _ noted)
  · rcases a.claims c cl h with e | noted
    · rw [← e]
      exact b.claims c cl (by rw [State.claim?, e]; exact h)
    · exact .inr (b.sessions.notedClaims _ noted)

theorem mem_noteRoute (s : State) (h : HostId) (r : RouteSlot) : r ∈ ((noteRoute h r s).session h).changes.routes := by
  simp [noteRoute]

theorem mem_noteClaim (s : State) (h : HostId) (c : ClaimSlot) : c ∈ ((noteClaim h c s).session h).changes.claims := by
  simp [noteClaim]

/-- A change of one route, told to the owner, where claims stay. -/
theorem told_of_route {s t : State} (sessions : SessionsAfterChecks s t) (claims : t.claims = s.claims) {r : RouteSlot} {rt : Route}
    (hr : s.route? r = some rt) (noted : r ∈ (t.session rt.owner).changes.routes)
    (others : ∀ q, r ≠ q → t.routeEntry q = s.routeEntry q) : Told s t := by
  refine ⟨sessions, fun c => by simp only [State.claim?, State.claimEntry, claims], fun q x hq => ?_,
    fun c cl _ => .inl (by simp only [State.claimEntry, claims])⟩
  by_cases e : r = q
  · subst e
    cases hr.symm.trans hq
    exact .inr noted
  · exact .inl (others q e)

/-- A change of one claim, told to the owner, where routes stay. -/
theorem told_of_claim {s t : State} (sessions : SessionsAfterChecks s t) (routes : t.routes = s.routes) {c : ClaimSlot} {cl : Claim}
    (hc : s.claim? c = some cl) (noted : c ∈ (t.session cl.owner).changes.claims) {f : Claim → Claim} (owner : ∀ x, (f x).owner = x.owner)
    (entry : ∀ d, t.claimEntry d = if c = d then (s.claimEntry d).onClaim f else s.claimEntry d) : Told s t := by
  refine ⟨sessions, fun d => ?_, fun q x _ => .inl (by simp only [State.routeEntry, routes]), fun d x hd => ?_⟩
  · simp only [State.claim?, entry]
    split
    · simp only [ClaimEntry.onClaim, Option.map_map, Function.comp_def, owner]
    · rfl
  · by_cases e : c = d
    · subst e
      cases hc.symm.trans hd
      exact .inr noted
    · exact .inl (by rw [entry, if_neg e])

section

variable (s : State)

theorem updRoute_noteRoute_sessionsAfter (r : RouteSlot) (f : Route → Route) (h : HostId) (q : RouteSlot) :
    SessionsAfterChecks s (noteRoute h q (s.updRoute r f)) := by
  refine SessionsAfterChecks.trans ?_ (noteRoute_sessionsAfter _ _ _)
  exact .of_sessions rfl

theorem closeRoute_told (why : CloseReason) (r : RouteSlot) : Told s (closeRoute why r s) := by
  by_cases live : ∃ rt, s.route? r = some rt ∧ rt.live = true
  · obtain ⟨rt, hr, hl⟩ := live
    refine told_of_route (closeRoute_sessionsAfter s r why) (closeRoute_claims s r why) hr ?_ fun q ne => ?_
    · simp only [closeRoute, hr, hl, if_true]
      exact mem_noteRoute _ _ _
    · rw [closeRoute_entry, if_neg ne]
  · rw [closeRoute_idle fun rt hr => by simpa using fun hl => live ⟨rt, hr, hl⟩]
    exact .refl s

theorem withdrawClaim_sessionsAfter (c : ClaimSlot) (cl : Claim) : SessionsAfterChecks s (withdrawClaim c cl s) := by
  unfold withdrawClaim
  dsimp only
  refine SessionsAfterChecks.trans (SessionsAfterChecks.trans (.of_sessions ?_) (unbindMembers_sessionsAfter _ _ _))
    (updSession_afterChecks _ _ _ (fun _ => rfl) (fun _ => rfl) (fun _ => List.Subset.refl _) (fun _ => List.Subset.refl _))
  rw [leaveAccepted_sessions, (leaveQueues_keeps s c _).sessions]

theorem dropClaim_told (why : DropReason) (c : ClaimSlot) : Told s (dropClaim why c s) := by
  cases hc : s.claim? c with
  | none =>
    rw [show dropClaim why c s = s by simp only [dropClaim, hc]]
    exact .refl s
  | some cl =>
    refine told_of_claim (f := Claim.drop why) ?_ (dropClaim_routes s c why) hc ?_ (fun _ => rfl) (dropClaim_entry s why c)
    all_goals simp only [dropClaim, hc]
    · refine SessionsAfterChecks.trans ?_ (noteClaim_sessionsAfter _ _ _)
      exact (withdrawClaim_sessionsAfter s c cl).trans (.of_sessions rfl)
    · exact mem_noteClaim _ _ _

/-- A demotion is told to the owner that the demoted claim names. -/
theorem demote_told {c : ClaimSlot} {cl x : Claim} (hx : s.claim? c = some x) (owner : x.owner = cl.owner) : Told s (demote c cl s) := by
  refine told_of_claim (f := fun x => { x with priority := 2 }) ?_ (demote_routes s c cl) hx (owner ▸ mem_noteClaim _ _ _) (fun _ => rfl)
    (demote_entry s c cl)
  refine SessionsAfterChecks.trans (.of_sessions ?_) (noteClaim_sessionsAfter _ _ _)
  exact (joinQueues_keeps _ c _).sessions.trans (leaveQueues_keeps s c _).sessions

theorem clampRoute_told (r : RouteSlot) : Told s (clampRoute r s) := by
  have others : ∀ q, r ≠ q → (clampRoute r s).routeEntry q = s.routeEntry q := fun q ne => by rw [clampRoute_entry, if_neg ne]
  unfold clampRoute at others ⊢
  split
  · exact .refl s
  · rename_i rt hr
    simp only [hr] at others
    dsimp only at others ⊢
    split
    · rename_i short
      rw [if_pos short] at others
      exact told_of_route (updRoute_noteRoute_sessionsAfter s r _ _ _) rfl hr (mem_noteRoute _ _ _) others
    · exact .refl s

theorem mem_affectedClaims {first last : LineNo} {x : ClaimSlot × Claim} (h : x ∈ affectedClaims first last s) :
    s.claim? x.1 = some x.2 := by
  obtain ⟨c, -, hc⟩ := List.mem_filterMap.mp h
  split at hc
  · cases hc
  · rename_i cl hcl
    split at hc
    · cases hc
      exact hcl
    · cases hc

/-- Closures, drops, demotions and clamps are told. -/
theorem enforced_told (first last : LineNo) : Told s (enforced first last s) := by
  have closed : Told s (withClosures first last s) :=
    foldl_rel Told.refl Told.trans (fun t (x : RouteSlot × Route) => closeRoute_told t .policy x.1) _ s
  have dropped : Told s (withDrops first last s) :=
    closed.trans (foldl_rel Told.refl Told.trans (fun t (x : ClaimSlot × Claim) => dropClaim_told t .policy x.1) _ _)
  have demoted : Told s (withDemotions first last s) := by
    refine List.foldlRecOn _ _ dropped fun t told x hx => told.trans ?_
    have owner := told.owners x.1
    rw [mem_affectedClaims s (List.mem_of_mem_filter hx)] at owner
    obtain ⟨y, hy, e⟩ := Option.map_eq_some_iff.mp owner
    exact demote_told t hy e
  exact demoted.trans (foldl_rel Told.refl Told.trans (fun t (x : RouteSlot × Route) => clampRoute_told t x.1) _ _)

end

/-! ### The lines keep the drivers that stay -/

theorem foldl_updLine_driver {f : LineRecord → LineRecord} (h : ∀ e, (f e).driver = e.driver) (ls : List LineNo) (s : State) (l : LineNo) :
    ((ls.foldl (fun t k => t.updLine k f) s).line l).driver = (s.line l).driver :=
  foldl_keeps (fun t => (t.line l).driver) (fun t k => by
    rw [State.updLine_line]
    split
    · exact h _
    · rfl) ls s

section

variable (s : State) (l : LineNo)

theorem leaveQueues_driver (c : ClaimSlot) (ls : List LineNo) : ((leaveQueues c ls s).line l).driver = (s.line l).driver :=
  foldl_updLine_driver (f := fun e => { e with queue := e.queue.filter (· ≠ c) }) (fun _ => rfl) ls s l

theorem joinQueues_driver (c : ClaimSlot) (ls : List LineNo) : ((joinQueues c ls s).line l).driver = (s.line l).driver :=
  foldl_updLine_driver (f := fun e => { e with queue := placeInQueue s c e.queue }) (fun _ => rfl) ls s l

theorem dropClaim_driver (why : DropReason) (c : ClaimSlot) : ((dropClaim why c s).line l).driver = (s.line l).driver := by
  unfold dropClaim
  split
  · rfl
  · exact leaveQueues_driver s l c _

theorem demote_driver (c : ClaimSlot) (cl : Claim) : ((demote c cl s).line l).driver = (s.line l).driver :=
  (joinQueues_driver _ l c _).trans (leaveQueues_driver s l c _)

variable {s l}

/-- The closing of another route leaves a line its driver. -/
theorem closeRoute_driver {r q : RouteSlot} (why : CloseReason) (ne : q ≠ r) (h : (s.line l).driver = some r) :
    ((closeRoute why q s).line l).driver = some r := by
  unfold closeRoute
  split
  · exact h
  · split
    · refine List.foldlRecOn (motive := fun t : State => (t.line l).driver = some r) _ _ h fun t ht k _ => ?_
      rw [State.updLine_line]
      split
      · rw [if_neg (by simp [ht, Ne.symm ne])]
        exact ht
      · exact ht
    · exact h

/-- A line keeps its driver, where that is not CLOSED. -/
theorem enforced_driver {first last : LineNo} {r : RouteSlot} (open_ : r ∉ (closures first last s).map Prod.fst)
    (h : (s.line l).driver = some r) : ((enforced first last s).line l).driver = some r := by
  have closed : ((withClosures first last s).line l).driver = some r :=
    List.foldlRecOn (motive := fun t : State => (t.line l).driver = some r) _ _ h fun t ht x hx => closeRoute_driver .policy (fun e => open_ (List.mem_map.mpr ⟨x, hx, e⟩)) ht
  have demoted : ((withDemotions first last s).line l).driver = some r := by
    unfold withDemotions withDrops
    rw [foldl_keeps (fun t : State => (t.line l).driver) fun t (x : ClaimSlot × Claim) => demote_driver t l x.1 x.2,
      foldl_keeps (fun t : State => (t.line l).driver) fun t (x : ClaimSlot × Claim) => dropClaim_driver t l .policy x.1]
    exact closed
  unfold enforced
  rw [foldl_keeps (fun t : State => (t.line l).driver) fun t (x : RouteSlot × Route) => by simp only [State.line, clampRoute_lines]]
  exact demoted

/-- A claim that is dropped leaves the acceptance order. -/
theorem enforced_accepted {first last : LineNo} {c : ClaimSlot} (h : c ∈ (drops first last s).map Prod.fst) :
    c ∉ (enforced first last s).accepted := by
  obtain ⟨cl, hc, gone⟩ := (mem_drops_slots first last s c).mp h
  have waits : cl.waiting = true := by simp only [Bool.and_eq_true] at gone; exact gone.1.1
  have either : (withDrops first last s).claimEntry c = s.claimEntry c ∨ c ∉ (withDrops first last s).accepted := by
    refine List.foldlRecOn (motive := fun t : State => t.claimEntry c = s.claimEntry c ∨ c ∉ t.accepted) _ _ (.inl ?_) fun t ht x _ => ?_
    · simp only [State.claimEntry, withClosures, foldl_keeps State.claims (fun t (x : RouteSlot × Route) => closeRoute_claims t x.1 .policy)]
    · by_cases same : x.1 = c
      · refine .inr fun mem => ?_
        rw [same, dropClaim_accepted] at mem
        rcases ht with e | out
        · rw [State.claim?, e, ← State.claim?, hc] at mem
          simp at mem
        · split at mem
          · exact out (List.mem_of_mem_filter mem)
          · exact out mem
      · refine ht.imp (fun e => by rw [dropClaim_entry, if_neg same, e]) fun out mem => out ?_
        rw [dropClaim_accepted] at mem
        split at mem
        · exact List.mem_of_mem_filter mem
        · exact mem
  have dropped : c ∉ (withDrops first last s).accepted := by
    refine either.resolve_left fun e => ?_
    rw [withDrops_entry, if_pos h] at e
    have same : some (cl.drop .policy) = some cl := by
      have := congrArg ClaimEntry.claim e
      rwa [ClaimEntry.onClaim, show (s.claimEntry c).claim = some cl from hc] at this
    have := congrArg Claim.waiting (Option.some.inj same)
    rw [waits] at this
    cases this
  unfold enforced withDemotions
  rw [foldl_keeps State.accepted fun t (x : RouteSlot × Route) => clampRoute_accepted t x.1,
    foldl_keeps State.accepted fun t (x : ClaimSlot × Claim) => demote_accepted t x.1 x.2]
  exact dropped

end

/-! ### Held status: what its changes make of routes -/

theorem memberIndex_line {ms : List Member} {l : LineNo} {i : Nat} (h : memberIndex ms l = some i) : ∃ m, ms[i]? = some m ∧ m.line = l := by
  obtain ⟨lt, on_line, -⟩ := List.findIdx?_eq_some_iff_getElem.mp h
  exact ⟨ms[i], List.getElem?_eq_getElem lt, of_decide_eq_true on_line⟩

theorem memberIndex_mem {ms : List Member} {l : LineNo} {i : Nat} (h : memberIndex ms l = some i) : l ∈ linesOf ms := by
  obtain ⟨m, hm, rfl⟩ := memberIndex_line h
  exact List.mem_map_of_mem (List.mem_of_getElem? hm)

theorem memberBit_getLsbD (i j : Nat) (h : i < 8) : (memberBit j).getLsbD i = decide (i = j) := by
  rw [memberBit, BitVec.getLsbD_shiftLeft, BitVec.getLsbD_one, Bool.eq_iff_iff]
  simp only [Bool.and_eq_true, decide_eq_true_eq, Bool.not_eq_true', decide_eq_false_iff_not]
  omega

/-- A member's bit after another, or itself, is forced or released. -/
theorem getLsbD_forcing (held : Bool) (x : BitVec 8) (i j : Nat) (h : i < 8) :
    (if held then x ||| memberBit j else x &&& ~~~memberBit j).getLsbD i = if i = j then held else x.getLsbD i := by
  cases held
  · rw [if_neg Bool.false_ne_true, BitVec.getLsbD_and, BitVec.getLsbD_not, memberBit_getLsbD i j h]
    split <;> simp_all
  · rw [if_pos rfl, BitVec.getLsbD_or, memberBit_getLsbD i j h]
    split <;> simp_all

/-- A route of the same life with another forced set. -/
def Route.withForced (forced : BitVec 8) (since : Bool) (rt : Route) : Route := { rt with forced := forced, forcedSince := since }

/-- No route changes but in its forced set and forced-since. -/
def OnlyForcings (s t : State) : Prop := ∀ r, ∃ f b, t.routeEntry r = (s.routeEntry r).onRoute (Route.withForced f b)

theorem OnlyForcings.refl (s : State) : OnlyForcings s s := fun r =>
  match h : (s.routeEntry r).route with
  | none => ⟨0#8, false, (RouteEntry.onRoute_same fun rt k => by rw [h] at k; cases k).symm⟩
  | some rt => ⟨rt.forced, rt.forcedSince, (RouteEntry.onRoute_same fun x k => by rw [h] at k; cases k; rfl).symm⟩

theorem OnlyForcings.trans {s t u : State} (a : OnlyForcings s t) (b : OnlyForcings t u) : OnlyForcings s u := fun r => by
  obtain ⟨f, x, hf⟩ := a r
  obtain ⟨g, y, hg⟩ := b r
  refine ⟨g, y, ?_⟩
  rw [hg, hf, RouteEntry.onRoute, RouteEntry.onRoute, Option.map_map]
  rfl

theorem OnlyForcings.route {s t : State} (k : OnlyForcings s t) {r : RouteSlot} {rt : Route} (h : s.route? r = some rt) :
    ∃ f b, t.routeEntry r = { s.routeEntry r with route := some (rt.withForced f b) } := by
  obtain ⟨f, b, e⟩ := k r
  exact ⟨f, b, by rw [e, RouteEntry.onRoute, show (s.routeEntry r).route = some rt from h]; rfl⟩

section

variable (s : State) (l : LineNo)

/-- What handing on one line's held status makes of each entry. -/
theorem passHeldOn_entry : passHeldOn l s = s ∨ ∃ r rt i f b, lineDriver s l = some (r, rt) ∧ rt.active = true ∧
    memberIndex rt.members l = some i ∧ f = (if s.held l then rt.forced ||| memberBit i else rt.forced &&& ~~~memberBit i) ∧
    b = (s.held l || rt.forcedSince) ∧ r ∈ ((passHeldOn l s).session rt.owner).changes.routes ∧
    SessionsAfterChecks s (passHeldOn l s) ∧
    ∀ q, (passHeldOn l s).routeEntry q = if r = q then { s.routeEntry q with route := some (rt.withForced f b) } else s.routeEntry q := by
  obtain same | ⟨r, rt, i, hd, ha, hi, e⟩ := passHeldOn_cases s l
  · exact .inl same
  · refine .inr ⟨r, rt, i, _, _, hd, ha, hi, rfl, rfl, ?_, ?_, fun q => ?_⟩
    · rw [e]
      exact mem_noteRoute _ _ _
    · rw [e]
      exact updRoute_noteRoute_sessionsAfter s r _ _ _
    · rw [e]
      show State.routeEntry (s.updRoute r _) q = _
      rw [updRoute_routeEntry]
      split
      · rename_i same
        subst same
        rw [RouteEntry.onRoute, show (s.routeEntry r).route = some rt from (lineDriver_route hd).2.1]
        cases s.held l <;> rfl
      · rfl

theorem passHeldOn_onlyForcings : OnlyForcings s (passHeldOn l s) := by
  obtain same | ⟨r, rt, i, f, b, hd, -, -, -, -, -, -, e⟩ := passHeldOn_entry s l
  · rw [same]
    exact .refl s
  · intro q
    rw [e]
    split
    · rename_i same
      subst same
      exact ⟨f, b, by rw [RouteEntry.onRoute, show (s.routeEntry r).route = some rt from (lineDriver_route hd).2.1]; rfl⟩
    · exact OnlyForcings.refl s q

theorem passHeldOn_told : Told s (passHeldOn l s) := by
  obtain same | ⟨r, rt, i, f, b, hd, -, -, -, -, noted, sessions, e⟩ := passHeldOn_entry s l
  · rw [same]
    exact .refl s
  · exact told_of_route sessions (passHeldOn_claims s l) (lineDriver_route hd).2.1 noted fun q ne => by rw [e, if_neg ne]

/-- Nothing changes for a route that is not ACTIVE, or has no member on the line. -/
theorem passHeldOn_other {r : RouteSlot} (h : ∀ rt, s.route? r = some rt → rt.active = true → l ∉ linesOf rt.members) :
    (passHeldOn l s).routeEntry r = s.routeEntry r := by
  obtain same | ⟨q, rt, i, f, b, hd, ha, hi, -, -, -, -, e⟩ := passHeldOn_entry s l
  · rw [same]
  · rw [e]
    split
    · rename_i same
      subst same
      exact absurd (memberIndex_mem hi) (h rt (lineDriver_route hd).2.1 ha)
    · rfl

end

section

variable (before s : State)

theorem passHeldChanges_onlyForcings : OnlyForcings s (passHeldChanges before s) :=
  foldl_rel OnlyForcings.refl OnlyForcings.trans (fun t l => passHeldOn_onlyForcings t l) _ s

theorem passHeldChanges_told : Told s (passHeldChanges before s) :=
  foldl_rel Told.refl Told.trans (fun t l => passHeldOn_told t l) _ s

/-- Nothing changes for a route that is not ACTIVE, or has no member on a line whose held status changes. -/
theorem passHeldChanges_other {r : RouteSlot}
    (h : ∀ rt, s.route? r = some rt → rt.active = true → ∀ l ∈ linesOf rt.members, before.held l = s.held l) :
    (passHeldChanges before s).routeEntry r = s.routeEntry r := by
  refine List.foldlRecOn (motive := fun t : State => t.routeEntry r = s.routeEntry r) _ _ rfl fun t same l hl => ?_
  rw [passHeldOn_other, same]
  intro rt hr ha on_line
  rw [State.route?, same] at hr
  have := of_decide_eq_true (List.mem_filter.mp hl).2
  exact this (h rt hr ha l on_line)

end

/-! ### Forcings and releases -/

/-- The ACTIVE DRIVER route in entry r, of owner o and members ms, is the driver of line l. -/
def DrivesLine (l : LineNo) (r : RouteSlot) (o : HostId) (ms : List Member) (s : State) : Prop :=
  (s.line l).driver = some r ∧ ∃ rt, s.route? r = some rt ∧ rt.active = true ∧ rt.isDriver = true ∧ rt.owner = o ∧ rt.members = ms

/-- The route in entry r is told, and its member of index i is forced just as its line is held. -/
def MemberForced (held : Bool) (r : RouteSlot) (o : HostId) (ms : List Member) (i : Nat) (s : State) : Prop :=
  r ∈ (s.session o).changes.routes ∧ ∃ rt, s.route? r = some rt ∧ rt.members = ms ∧ rt.forced.getLsbD i = held ∧
    (held = true → rt.forcedSince = true)

theorem Route.live_of_active {rt : Route} (h : rt.active = true) : rt.live = true := by
  unfold Route.active at h
  unfold Route.live
  split at h
  · rename_i e
    rw [e]
  · cases h

section

variable {s : State} {l k : LineNo} {r : RouteSlot} {o : HostId} {ms : List Member} {i : Nat}

theorem DrivesLine.lineDriver (d : DrivesLine l r o ms s) :
    ∃ rt, Machine.lineDriver s l = some (r, rt) ∧ rt.active = true ∧ rt.owner = o ∧ rt.members = ms := by
  obtain ⟨hd, rt, hr, ha, hk, ho, hm⟩ := d
  exact ⟨rt, by simp [Machine.lineDriver, hd, hr, hk, Route.live_of_active ha], ha, ho, hm⟩

theorem DrivesLine.passHeldOn (d : DrivesLine l r o ms s) : DrivesLine l r o ms (passHeldOn k s) := by
  obtain ⟨hd, rt, hr, ha, hk, ho, hm⟩ := d
  obtain ⟨f, b, e⟩ := (passHeldOn_onlyForcings s k).route hr
  exact ⟨by simpa only [State.line, passHeldOn_lines] using hd, rt.withForced f b, by rw [State.route?, e], ha, hk, ho, hm⟩

/-- Handing on a line's held status forces or releases its driver's member. -/
theorem DrivesLine.forces (d : DrivesLine l r o ms s) (hi : memberIndex ms l = some i) (small : i < 8) :
    MemberForced (s.held l) r o ms i (Machine.passHeldOn l s) := by
  obtain ⟨rt, hd, ha, rfl, rfl⟩ := d.lineDriver
  have e : Machine.passHeldOn l s = noteRoute rt.owner r (s.updRoute r fun x =>
      if s.held l then { x with forced := x.forced ||| memberBit i, forcedSince := true }
      else { x with forced := x.forced &&& ~~~memberBit i }) := by
    simp only [Machine.passHeldOn, hd, ha, hi, if_true]
  refine ⟨by rw [e]; exact mem_noteRoute _ _ _, ?_⟩
  have hr : (Machine.passHeldOn l s).route? r = some (if s.held l then { rt with forced := rt.forced ||| memberBit i, forcedSince := true }
      else { rt with forced := rt.forced &&& ~~~memberBit i }) := by
    rw [e]
    show State.route? (s.updRoute r _) r = _
    rw [State.updRoute_route?, if_pos rfl, (lineDriver_route hd).2.1]
    rfl
  have bit := getLsbD_forcing (s.held l) rt.forced i i small
  rw [if_pos rfl] at bit
  refine ⟨_, hr, ?_, ?_, ?_⟩ <;> cases hh : s.held l <;> simp_all

/-- Handing on another line's held status leaves that, for it has another member; and the same line's says the same again. -/
theorem MemberForced.passHeldOn {held : Bool} (m : MemberForced held r o ms i s) (hi : memberIndex ms l = some i) (small : i < 8)
    (hl : s.held l = held) : MemberForced held r o ms i (passHeldOn k s) := by
  obtain ⟨noted, rt, hr, hm, hf, hs⟩ := m
  obtain same | ⟨q, x, j, f, b, hd, -, hj, hf', hb, -, sessions, e⟩ := passHeldOn_entry s k
  · rw [same]
    exact ⟨noted, rt, hr, hm, hf, hs⟩
  · refine ⟨sessions.notedRoutes _ noted, ?_⟩
    by_cases hq : q = r
    · subst hq
      cases hr.symm.trans (lineDriver_route hd).2.1
      refine ⟨rt.withForced f b, by rw [State.route?, e, if_pos rfl], hm, ?_, fun h => by simp [Route.withForced, hb, hs h]⟩
      show f.getLsbD i = held
      rw [hm] at hj
      by_cases hij : i = j
      · subst hij
        have hk : k = l := by
          obtain ⟨m, hm, rfl⟩ := memberIndex_line hi
          obtain ⟨m', hm', rfl⟩ := memberIndex_line hj
          rw [Option.some.inj (hm.symm.trans hm')]
        subst hk
        rw [hf', getLsbD_forcing _ _ _ _ small, if_pos rfl, hl]
      · rw [hf', getLsbD_forcing _ _ _ _ small, if_neg hij, hf]
    · exact ⟨rt, by rw [State.route?, e, if_neg hq]; exact hr, hm, hf, hs⟩

/-- Every change of held status forces or releases the member on its line. -/
theorem DrivesLine.forced (d : DrivesLine l r o ms s) (hi : memberIndex ms l = some i) (small : i < 8) {before : State}
    (changed : before.held l ≠ s.held l) : MemberForced (s.held l) r o ms i (passHeldChanges before s) := by
  have inList : l ∈ (every 40).filter fun l => before.held l ≠ s.held l := List.mem_filter.mpr ⟨mem_every l, decide_eq_true changed⟩
  unfold passHeldChanges
  generalize (every 40).filter _ = ls at inList
  clear changed
  induction ls generalizing s with
  | nil => cases inList
  | cons k ls ih =>
    have held : (Machine.passHeldOn k s).held l = s.held l :=
      State.held_congr (passHeldOn_keepsRest s k).policies (passHeldOn_keepsRest s k).groups l
    rw [List.foldl_cons]
    rcases List.mem_cons.mp inList with rfl | later
    · refine (List.foldlRecOn (motive := fun t : State => MemberForced (s.held l) r o ms i t ∧ t.held l = s.held l) _ _
        ⟨d.forces hi small, held⟩ fun t ht k _ => ⟨ht.1.passHeldOn hi small ht.2, ?_⟩).1
      exact (State.held_congr (passHeldOn_keepsRest t k).policies (passHeldOn_keepsRest t k).groups l).trans ht.2
    · exact held ▸ ih d.passHeldOn later

end

end Sys2Proof.Machine

/-! SET_POLICY: what it writes, closes, drops, demotes and clamps (O26, O27). -/

namespace Sys2Proof.Machine

/-! ### The lines of a range -/

theorem meetsRange_eq (first last : LineNo) (ms : List Member) :
    meetsRange first last ms = ms.any fun m => first ≤ m.line && m.line ≤ last := by
  rw [meetsRange, linesOf, List.any_map]
  rfl

theorem meetsRange_iff {first last : LineNo} {ms : List Member} :
    meetsRange first last ms = true ↔ ∃ m ∈ ms, first ≤ m.line ∧ m.line ≤ last := by
  simp [meetsRange_eq]

theorem writePolicies_policy (first last : LineNo) (p : Policy) (s : State) (l : LineNo) :
    (writePolicies first last p s).policy l = if inRange first last l then p else s.policy l :=
  look_tab _ _

/-- Records with no line in the range find their policies as they were. -/
theorem writePolicies_outside {first last : LineNo} {ms : List Member} (h : meetsRange first last ms = false) (p : Policy) (s : State) :
    ∀ l ∈ linesOf ms, (writePolicies first last p s).policy l = s.policy l := by
  intro l hl
  have out : ¬ inRange first last l = true := List.any_eq_false.mp h l hl
  rw [writePolicies_policy, if_neg out]

/-- Held status follows from a line's policy and the groups. -/
theorem held_of_policy {s t : State} {l : LineNo} (hp : t.policy l = s.policy l) (hg : t.groups = s.groups) : t.held l = s.held l := by
  simp only [State.held, State.group, hp, hg]

/-! ### What closing and clamping leave of a route -/

section

variable (s : State) (first last : LineNo) (rt : Route)

theorem Route.clamp_cases : rt.clamp s = rt ∨ ∃ lease, lease ≠ rt.lease ∧ rt.clamp s = { rt with lease := lease, leaseClamped := true } := by
  unfold Route.clamp
  dsimp only
  split
  · rename_i short
    simp only [Bool.and_eq_true, decide_eq_true_eq] at short
    exact .inr ⟨_, short.2, rfl⟩
  · exact .inl rfl

@[simp] theorem Route.clamp_owner : (rt.clamp s).owner = rt.owner := by
  obtain e | ⟨_, -, e⟩ := rt.clamp_cases s <;> rw [e]
@[simp] theorem Route.clamp_kind : (rt.clamp s).kind = rt.kind := by
  obtain e | ⟨_, -, e⟩ := rt.clamp_cases s <;> rw [e]
@[simp] theorem Route.clamp_state : (rt.clamp s).state = rt.state := by
  obtain e | ⟨_, -, e⟩ := rt.clamp_cases s <;> rw [e]
@[simp] theorem Route.clamp_members : (rt.clamp s).members = rt.members := by
  obtain e | ⟨_, -, e⟩ := rt.clamp_cases s <;> rw [e]

/-- The lease of a live route once it keeps to the effective max of its lines (R26). -/
theorem Route.clamp_lease (live : rt.live = true) : (rt.clamp s).lease =
    if effectiveMax s (linesOf rt.members) = 0 then rt.lease
    else clampLease (effectiveMax s (linesOf rt.members) * Config.microsPerMilli) rt.lease := by
  by_cases none : effectiveMax s (linesOf rt.members) = 0
  · simp [Route.clamp, none]
  · by_cases fits : clampLease (effectiveMax s (linesOf rt.members) * Config.microsPerMilli) rt.lease = rt.lease <;>
      simp [Route.clamp, live, none, fits]

theorem Route.close_live (why : CloseReason) (live : rt.live = true) :
    rt.close why = { rt with state := .closed why, lease := none, forced := 0#8 } := if_pos live

variable {first last rt}

theorem Route.enforced_outside (h : rt.live = true → meetsRange first last rt.members = false) : rt.enforced first last s = rt :=
  if_neg (by cases hl : rt.live <;> simp_all)

theorem Route.enforced_permitted (live : rt.live = true) (meets : meetsRange first last rt.members = true)
    (permitted : routePermitted s rt = true) : rt.enforced first last s = rt.clamp s := by
  simp [Route.enforced, live, meets, permitted]

theorem Route.enforced_closed (live : rt.live = true) (meets : meetsRange first last rt.members = true)
    (forbidden : routePermitted s rt = false) : rt.enforced first last s = rt.close .policy := by
  simp [Route.enforced, live, meets, forbidden]

variable {cl : Claim}

theorem Claim.enforced_outside (h : cl.waiting = true → meetsRange first last cl.members = false) : cl.enforced first last s = cl :=
  if_neg (by cases hl : cl.waiting <;> simp_all)

theorem Claim.enforced_dropped (waits : cl.waiting = true) (meets : meetsRange first last cl.members = true)
    (forbidden : claimPermitted s cl = false) : cl.enforced first last s = cl.drop .policy := by
  simp [Claim.enforced, waits, meets, forbidden]

theorem Claim.enforced_demoted (waits : cl.waiting = true) (meets : meetsRange first last cl.members = true)
    (permitted : claimPermitted s cl = true) (loses : losesPreempt s cl = true) : cl.enforced first last s = { cl with priority := 2 } := by
  simp [Claim.enforced, waits, meets, permitted, loses]

theorem Claim.enforced_kept (waits : cl.waiting = true) (meets : meetsRange first last cl.members = true)
    (permitted : claimPermitted s cl = true) (keeps : losesPreempt s cl = false) : cl.enforced first last s = cl := by
  simp [Claim.enforced, waits, meets, permitted, keeps]

end

/-! ### The records before the grant checks of a SET_POLICY -/

section

variable (first last : LineNo) (s : State) (p : Policy)

@[simp] theorem writePolicies_sessions : (writePolicies first last p s).sessions = s.sessions := by unfold writePolicies; rfl
@[simp] theorem writePolicies_routes : (writePolicies first last p s).routes = s.routes := by unfold writePolicies; rfl
@[simp] theorem writePolicies_claims : (writePolicies first last p s).claims = s.claims := by unfold writePolicies; rfl
@[simp] theorem writePolicies_lines : (writePolicies first last p s).lines = s.lines := by unfold writePolicies; rfl
@[simp] theorem writePolicies_groups : (writePolicies first last p s).groups = s.groups := by unfold writePolicies; rfl

@[simp] theorem writePolicies_routeEntry (r : RouteSlot) : (writePolicies first last p s).routeEntry r = s.routeEntry r :=
  congrArg (look · r) (writePolicies_routes first last s p)

@[simp] theorem writePolicies_claimEntry (c : ClaimSlot) : (writePolicies first last p s).claimEntry c = s.claimEntry c :=
  congrArg (look · c) (writePolicies_claims first last s p)

@[simp] theorem writePolicies_line (l : LineNo) : (writePolicies first last p s).line l = s.line l :=
  congrArg (look · l) (writePolicies_lines first last s p)

@[simp] theorem writePolicies_route? (r : RouteSlot) : (writePolicies first last p s).route? r = s.route? r := by
  rw [State.route?, writePolicies_routeEntry, State.route?]

@[simp] theorem writePolicies_claim? (c : ClaimSlot) : (writePolicies first last p s).claim? c = s.claim? c := by
  rw [State.claim?, writePolicies_claimEntry, State.claim?]

theorem writePolicies_told : Told s (writePolicies first last p s) :=
  ⟨.of_sessions (writePolicies_sessions first last s p), fun c => by rw [writePolicies_claim?],
    fun r _ _ => .inl (writePolicies_routeEntry first last s p r), fun c _ _ => .inl (writePolicies_claimEntry first last s p c)⟩

theorem policySet_told : Told s (policySet first last s p) := by
  unfold policySet
  exact ((writePolicies_told first last s p).trans (enforced_told (writePolicies first last p s) first last)).trans
    (passHeldChanges_told s (enforced first last (writePolicies first last p s)))

theorem policySet_keepsRest : KeepsRest (writePolicies first last p s) (policySet first last s p) := by
  unfold policySet
  exact (enforced_keepsRest first last (writePolicies first last p s)).trans
    (passHeldChanges_keepsRest s (enforced first last (writePolicies first last p s)))

/-- Every claim record before the grant checks of a SET_POLICY. -/
theorem policySet_claimEntry (c : ClaimSlot) :
    (policySet first last s p).claimEntry c = (s.claimEntry c).onClaim (Claim.enforced first last (writePolicies first last p s)) := by
  have kept : (policySet first last s p).claimEntry c = (enforced first last (writePolicies first last p s)).claimEntry c := by
    simp only [State.claimEntry, policySet, passHeldChanges_claims]
  rw [kept, enforced_claimEntry, writePolicies_claimEntry]

theorem enforced_entry (r : RouteSlot) : (enforced first last (writePolicies first last p s)).routeEntry r =
    (s.routeEntry r).onRoute (Route.enforced first last (writePolicies first last p s)) := by
  rw [enforced_routeEntry, writePolicies_routeEntry]

variable {first last s p} {r : RouteSlot} {rt : Route}

theorem onRoute_of_route? {f : Route → Route} (h : s.route? r = some rt) :
    (s.routeEntry r).onRoute f = { s.routeEntry r with route := some (f rt) } := by
  rw [RouteEntry.onRoute, show (s.routeEntry r).route = some rt from h]
  rfl

theorem onClaim_of_claim? {f : Claim → Claim} {c : ClaimSlot} {cl : Claim} (h : s.claim? c = some cl) :
    (s.claimEntry c).onClaim f = { s.claimEntry c with claim := some (f cl) } := by
  rw [ClaimEntry.onClaim, show (s.claimEntry c).claim = some cl from h]
  rfl

/-- A route on the range that the new records do not permit is CLOSED, and held status does not touch it (R23, R63). -/
theorem policySet_closed (h : s.route? r = some rt) (live : rt.live = true) (meets : meetsRange first last rt.members = true)
    (forbidden : routePermitted (writePolicies first last p s) rt = false) :
    (policySet first last s p).routeEntry r = closedEntry (s.routeEntry r) rt .policy := by
  have entry := enforced_entry first last s p r
  rw [onRoute_of_route? h, Route.enforced_closed _ live meets forbidden, Route.close_live _ _ live] at entry
  rw [policySet, passHeldChanges_other, entry]
  · rfl
  · intro x hx active
    rw [State.route?, entry] at hx
    cases hx
    cases active

/-- A route without a live member in the range is left alone (R23, R26, R63). -/
theorem policySet_outside (h : ∀ rt, s.route? r = some rt → rt.live = true → meetsRange first last rt.members = false) :
    (policySet first last s p).routeEntry r = s.routeEntry r := by
  have entry := enforced_entry first last s p r
  rw [RouteEntry.onRoute_same fun rt hr => Route.enforced_outside _ (h rt hr)] at entry
  rw [policySet, passHeldChanges_other, entry]
  intro rt hr active l hl
  rw [State.route?, entry] at hr
  have rest := enforced_keepsRest first last (writePolicies first last p s)
  refine (held_of_policy ?_ (rest.groups.trans (writePolicies_groups first last s p))).symm
  exact (policy_congr rest.policies l).trans (writePolicies_outside (h rt hr (Route.live_of_active active)) p s l hl)

/-- A route on the range that the new records permit keeps to the effective max of its lines, and may be forced or released. -/
theorem policySet_permitted (h : s.route? r = some rt) (live : rt.live = true) (meets : meetsRange first last rt.members = true)
    (permitted : routePermitted (writePolicies first last p s) rt = true) :
    ∃ f b, (policySet first last s p).routeEntry r =
      { s.routeEntry r with route := some ((rt.clamp (writePolicies first last p s)).withForced f b) } := by
  have entry := enforced_entry first last s p r
  rw [onRoute_of_route? h, Route.enforced_permitted _ live meets permitted] at entry
  obtain ⟨f, b, e⟩ := (passHeldChanges_onlyForcings s (enforced first last (writePolicies first last p s))).route
    (show State.route? _ r = some _ by rw [State.route?, entry])
  exact ⟨f, b, by rw [policySet, e, entry]⟩

/-- A member whose line's held status changes is forced or released, if its route stays (R63). -/
theorem policySet_forced {l : LineNo} {i : Nat} (hd : lineDriver s l = some (r, rt)) (active : rt.active = true)
    (hi : memberIndex rt.members l = some i) (small : i < 8)
    (stays : ¬ (meetsRange first last rt.members = true ∧ routePermitted (writePolicies first last p s) rt = false))
    (changed : s.held l ≠ (policySet first last s p).held l) :
    MemberForced ((policySet first last s p).held l) r rt.owner rt.members i (policySet first last s p) := by
  obtain ⟨driver, hr, live, kind⟩ := lineDriver_route hd
  have held : (policySet first last s p).held l = (enforced first last (writePolicies first last p s)).held l :=
    passHeldChanges_held _ _ l
  rw [held] at changed ⊢
  have open_ : r ∉ (closures first last (writePolicies first last p s)).map Prod.fst := by
    rw [mem_closures_slots]
    rintro ⟨x, hx, closes⟩
    rw [writePolicies_route?, hr] at hx
    cases hx
    simp only [Bool.and_eq_true, Bool.not_eq_true'] at closes
    exact stays ⟨closes.1.2, closes.2⟩
  have route : rt.enforced first last (writePolicies first last p s) = rt ∨
      rt.enforced first last (writePolicies first last p s) = rt.clamp (writePolicies first last p s) := by
    cases meets : meetsRange first last rt.members with
    | false => exact .inl (Route.enforced_outside _ fun _ => meets)
    | true =>
      refine .inr (Route.enforced_permitted _ live meets ?_)
      cases permitted : routePermitted (writePolicies first last p s) rt with
      | true => rfl
      | false => exact absurd ⟨meets, permitted⟩ stays
  have drives : DrivesLine l r rt.owner rt.members (enforced first last (writePolicies first last p s)) := by
    refine ⟨enforced_driver open_ (by rwa [writePolicies_line]), rt.enforced first last (writePolicies first last p s), ?_, ?_⟩
    · rw [State.route?, enforced_entry, onRoute_of_route? hr]
    · rcases route with e | e <;> rw [e]
      · exact ⟨active, kind, rfl, rfl⟩
      · exact ⟨by rwa [Route.active, Route.clamp_state], by rwa [Route.isDriver, Route.clamp_kind], Route.clamp_owner .., Route.clamp_members ..⟩
  exact drives.forced hi small changed

end

/-! ### What later grant checks leave of them -/

section

variable {s t : State} (a : AfterChecks s t)
include a

theorem AfterChecks.closedRoute {r : RouteSlot} {rt : Route} (h : s.route? r = some rt) (closed : rt.live = false) :
    t.routeEntry r = s.routeEntry r := by
  have h' : (s.routeEntry r).route = some rt := h
  rcases a.routes r with e | ⟨x, hx, live, -⟩ | ⟨e, -⟩
  · exact e
  · cases h'.symm.trans hx
    simp [closed] at live
  · simp [h'] at e

/-- A live route stays as it is or is preempted. -/
theorem AfterChecks.liveRoute {r : RouteSlot} {rt : Route} (h : s.route? r = some rt) :
    t.routeEntry r = s.routeEntry r ∨ t.routeEntry r = closedEntry (s.routeEntry r) rt .preempted := by
  have h' : (s.routeEntry r).route = some rt := h
  rcases a.routes r with e | ⟨x, hx, -, -, e⟩ | ⟨e, -⟩
  · exact .inl e
  · cases h'.symm.trans hx
    exact .inr e
  · simp [h'] at e

theorem AfterChecks.settledEntry {c : ClaimSlot} {cl : Claim} (h : s.claim? c = some cl) (settled : cl.waiting = false) :
    t.claimEntry c = s.claimEntry c := by
  have claim : (t.claimEntry c).claim = (s.claimEntry c).claim := (a.settled h settled).trans h.symm
  have generation := (a.claims c).1
  cases hs : s.claimEntry c
  cases ht : t.claimEntry c
  simp_all

end

/-! ### SET_POLICY as a whole -/

section

variable (first last : LineNo) (s : State) (p : Policy)

theorem applyPolicy_afterChecks : AfterChecks (policySet first last s p) (applyPolicy first last p s).1 := by
  have state : (applyPolicy first last p s).1 =
      arbitrate none (linesHandedOver first last (writePolicies first last p s)) (policySet first last s p) :=
    congrArg Prod.fst (applyPolicy_eq first last s p)
  rw [state]
  exact arbitrate_afterChecks none _ (policySet first last s p)

/-- The counts of the reply, over the records before the request and the policies after it (R30). -/
theorem applyPolicy_results {t : State} (ht : t.policies = (writePolicies first last p s).policies) :
    (applyPolicy first last p s).2.results = [
      BitVec.ofNat 8 ((every 96).filter fun r => (s.route? r).any fun rt =>
        rt.live && rt.members.any (fun m => first ≤ m.line && m.line ≤ last) && !routePermitted t rt).length,
      BitVec.ofNat 8 ((every 32).filter fun c => (s.claim? c).any fun cl =>
        cl.waiting && cl.members.any (fun m => first ≤ m.line && m.line ≤ last) && !claimPermitted t cl).length,
      BitVec.ofNat 8 ((every 32).filter fun c => (s.claim? c).any fun cl =>
        cl.waiting && cl.members.any (fun m => first ≤ m.line && m.line ≤ last) && claimPermitted t cl &&
          cl.priority == 3 && !mayPreempt t cl.owner (linesOf cl.members)).length] := by
  have pol : ∀ l, t.policy l = (writePolicies first last p s).policy l := fun l => policy_congr ht l
  rw [applyPolicy_eq, ← List.length_map (f := Prod.fst), ← List.length_map (f := Prod.fst) (as := drops ..),
    ← List.length_map (f := Prod.fst) (as := demotions ..), closures, drops, demotions, affectedRoutes_slots, affectedClaims_slots,
    affectedClaims_slots]
  simp only [meetsRange_eq, losesPreempt, Bool.and_assoc, routePermitted_congr fun l _ => pol l, claimPermitted_congr fun l _ => pol l,
    mayPreempt_congr fun l _ => pol l, beq_eq_decide, writePolicies_route?, writePolicies_claim?]

variable {first last s p}

/-- A SET_POLICY that its link offers and that passes its checks. -/
theorem exec_setPolicy {h : HostId} {f : List Byte} (o : Offers s h .setPolicy f) (ad : Admitted s h .setPolicy f)
    (hp : setPolicyParams? (frameParams f) = some (first, last, p)) :
    exec (.setPolicy h) s = .next (settle s (queueReply h f (applyPolicy first last p (popFrame h s)).2
      (applyPolicy first last p (popFrame h s)).1)) := by
  refine o.exec ad ?_
  show setPolicyAct h (frameParams f) (popFrame h s) = _
  simp only [setPolicyAct, hp]

/-- Every forcing and release of a SET_POLICY is told (R63, R65). -/
theorem applyPolicy_forcingTold : ForcingTold s (applyPolicy first last p s).1 := by
  rintro l r rt i ⟨changed, hd, active, hi, small⟩
  have after := applyPolicy_afterChecks first last s p
  have held : (applyPolicy first last p s).1.held l = (policySet first last s p).held l :=
    State.held_congr after.rest.policies after.rest.groups l
  obtain ⟨-, hr, live, -⟩ := lineDriver_route hd
  by_cases closes : meetsRange first last rt.members = true ∧ routePermitted (writePolicies first last p s) rt = false
  · have entry := policySet_closed hr live closes.1 closes.2
    have kept : (applyPolicy first last p s).1.routeEntry r = _ := (after.closedRoute (by rw [State.route?, entry, closedEntry]) rfl).trans entry
    refine ⟨?_, fun rt' hr' active' => ?_⟩
    · refine after.sessions.notedRoutes _ (((policySet_told first last s p).routes r rt hr).resolve_left fun same => ?_)
      rw [entry] at same
      have closed := congrArg (fun e => e.route.map Route.live) same
      rw [show (s.routeEntry r).route = some rt from hr] at closed
      rw [Option.map_some, live] at closed
      cases closed
    · rw [State.route?, kept] at hr'
      cases hr'
      cases active'
  · rw [held] at changed ⊢
    obtain ⟨noted, x, hx, -, bit, since⟩ := policySet_forced hd active hi small closes changed
    refine ⟨after.sessions.notedRoutes _ noted, fun rt' hr' active' => ?_⟩
    rw [State.route?] at hr'
    rcases after.liveRoute hx with same | preempted
    · rw [same, show ((policySet first last s p).routeEntry r).route = some x from hx] at hr'
      cases hr'
      exact ⟨bit, since⟩
    · rw [preempted] at hr'
      cases hr'
      cases active'

end

end Sys2Proof.Machine

/-! SET_POLICY as its reply and the records show it (O26, O27). -/

namespace Sys2Proof.Machine

/-! ### The records after a taken request are those its block leaves -/

section

variable (s u : State) (h : HostId) (f : List Byte) (a : Answer)

@[simp] theorem taken_routeEntry (r : RouteSlot) : (settle s (queueReply h f a u)).routeEntry r = u.routeEntry r := by
  simp only [State.routeEntry, settle_routes, queueReply_routes]
@[simp] theorem taken_route? (r : RouteSlot) : (settle s (queueReply h f a u)).route? r = u.route? r := by
  simp only [State.route?, taken_routeEntry]
@[simp] theorem taken_claimEntry (c : ClaimSlot) : (settle s (queueReply h f a u)).claimEntry c = u.claimEntry c := by
  simp only [State.claimEntry, settle_claims, queueReply_claims]
@[simp] theorem taken_claim? (c : ClaimSlot) : (settle s (queueReply h f a u)).claim? c = u.claim? c := by
  simp only [State.claim?, taken_claimEntry]
@[simp] theorem taken_session (k : HostId) : (settle s (queueReply h f a u)).session k = u.session k := by
  simp only [State.session, settle_sessions, queueReply_sessions]
@[simp] theorem taken_line (l : LineNo) : (settle s (queueReply h f a u)).line l = u.line l := by
  simp only [State.line, settle_lines, queueReply_lines]
@[simp] theorem taken_policies : (settle s (queueReply h f a u)).policies = u.policies := by
  simp only [settle_policies, queueReply_policies]
@[simp] theorem taken_accepted : (settle s (queueReply h f a u)).accepted = u.accepted := by
  simp only [settle_accepted, queueReply_accepted]
@[simp] theorem taken_held (l : LineNo) : (settle s (queueReply h f a u)).held l = u.held l :=
  State.held_congr (by simp) (by simp) l

@[simp] theorem popFrame_routeEntry (r : RouteSlot) : (popFrame h s).routeEntry r = s.routeEntry r := rfl
@[simp] theorem popFrame_route? (r : RouteSlot) : (popFrame h s).route? r = s.route? r := rfl
@[simp] theorem popFrame_claimEntry (c : ClaimSlot) : (popFrame h s).claimEntry c = s.claimEntry c := rfl
@[simp] theorem popFrame_claim? (c : ClaimSlot) : (popFrame h s).claim? c = s.claim? c := rfl
@[simp] theorem popFrame_session (k : HostId) : (popFrame h s).session k = s.session k := rfl
@[simp] theorem popFrame_line (l : LineNo) : (popFrame h s).line l = s.line l := rfl
@[simp] theorem popFrame_policy (l : LineNo) : (popFrame h s).policy l = s.policy l := rfl
@[simp] theorem popFrame_held (l : LineNo) : (popFrame h s).held l = s.held l := rfl
@[simp] theorem popFrame_lineDriver (l : LineNo) : lineDriver (popFrame h s) l = lineDriver s l := rfl

end

/-- A request whose block leaves the surroundings is answered within them. -/
theorem KeepsSurroundings.answeredWithin {s u : State} {h : HostId} (k : KeepsSurroundings (popFrame h s) u) (f : List Byte) (a : Answer) :
    AnsweredWithin s (settle s (queueReply h f a u)) h f a :=
  ⟨answered_of f k.ports a, keepsOutside_of a k.inReset k.supervisor k.pending k.terminals k.pins, settle_pinsFollow _ _ k.pins⟩

theorem ForcingTold.taken {s u : State} {h : HostId} (k : ForcingTold (popFrame h s) u) (f : List Byte) (a : Answer) :
    ForcingTold s (settle s (queueReply h f a u)) := by
  rintro l r rt i ⟨changed, rest⟩
  rw [taken_held] at changed ⊢
  rw [taken_session, taken_route?]
  exact k l r rt i ⟨changed, rest⟩

/-! ### Routes and claims after a SET_POLICY -/

section

variable {first last : LineNo} {s : State} {p : Policy} {r : RouteSlot} {rt : Route}

/-- A route on the range that the new records do not permit ends CLOSED with reason POLICY, and its owner is told (R23). -/
theorem applyPolicy_closes (hr : s.route? r = some rt) (live : rt.live = true) (meets : meetsRange first last rt.members = true)
    (forbidden : routePermitted (writePolicies first last p s) rt = false) :
    (applyPolicy first last p s).1.routeEntry r = closedEntry (s.routeEntry r) rt .policy ∧
      r ∈ ((applyPolicy first last p s).1.session rt.owner).changes.routes := by
  have after := applyPolicy_afterChecks first last s p
  have entry := policySet_closed hr live meets forbidden
  refine ⟨(after.closedRoute (by rw [State.route?, entry, closedEntry]) rfl).trans entry, after.sessions.notedRoutes _ ?_⟩
  refine ((policySet_told first last s p).routes r rt hr).resolve_left fun same => ?_
  have closed := congrArg (fun e => e.route.map Route.live) (entry.symm.trans same)
  rw [show (s.routeEntry r).route = some rt from hr, Option.map_some, live] at closed
  cases closed

theorem applyPolicy_outside (h : ∀ rt, s.route? r = some rt → rt.live = true → meetsRange first last rt.members = false) :
    EntryAfterChecks (s.routeEntry r) ((applyPolicy first last p s).1.routeEntry r) := by
  have := (applyPolicy_afterChecks first last s p).routes r
  rwa [policySet_outside h] at this

/-- A route on the range that the new records permit: its lease is given or shortened, marked and told; and it may be preempted in the
grant checks (R26, R28). -/
theorem applyPolicy_clamps (hr : s.route? r = some rt) (live : rt.live = true) (meets : meetsRange first last rt.members = true)
    (permitted : routePermitted (writePolicies first last p s) rt = true) :
    ∃ rt', (applyPolicy first last p s).1.route? r = some rt' ∧ rt'.owner = rt.owner ∧ rt'.kind = rt.kind ∧ rt'.members = rt.members ∧
      (rt'.state = rt.state ∨ rt'.state = .closed .preempted) ∧
      (rt'.live = true → rt'.lease = (rt.clamp (writePolicies first last p s)).lease) ∧
      (rt'.live = true → rt'.lease ≠ rt.lease →
        rt'.leaseClamped = true ∧ r ∈ ((applyPolicy first last p s).1.session rt.owner).changes.routes) ∧
      (rt'.live = true → rt'.lease = rt.lease → rt'.leaseClamped = rt.leaseClamped) := by
  have after := applyPolicy_afterChecks first last s p
  obtain ⟨fs, b, entry⟩ := policySet_permitted hr live meets permitted
  rcases after.liveRoute (by rw [State.route?, entry]) with same | preempted
  · refine ⟨(rt.clamp (writePolicies first last p s)).withForced fs b, by rw [State.route?, same, entry], Route.clamp_owner .., Route.clamp_kind .., Route.clamp_members ..,
      .inl (Route.clamp_state ..), fun _ => rfl, fun _ changed => ⟨?_, after.sessions.notedRoutes _ ?_⟩, fun _ kept => ?_⟩
    · obtain e | ⟨_, -, e⟩ := rt.clamp_cases (writePolicies first last p s)
      · exact absurd (congrArg Route.lease e) changed
      · exact congrArg Route.leaseClamped e
    · refine ((policySet_told first last s p).routes r rt hr).resolve_left fun unchanged => changed ?_
      have lease := congrArg (fun e => e.route.map Route.lease) (entry.symm.trans unchanged)
      rw [show (s.routeEntry r).route = some rt from hr] at lease
      exact Option.some.inj lease
    · obtain e | ⟨_, ne, e⟩ := rt.clamp_cases (writePolicies first last p s)
      · exact congrArg (fun x => (x.withForced fs b).leaseClamped) e
      · exact absurd ((congrArg Route.lease e).symm.trans kept) ne
  · refine ⟨{ (rt.clamp (writePolicies first last p s)).withForced fs b with state := .closed .preempted, lease := none, forced := 0#8 },
      by rw [State.route?, preempted, closedEntry], Route.clamp_owner .., Route.clamp_kind .., Route.clamp_members .., .inr rfl, ?_, ?_,
      ?_⟩ <;> exact fun closed => absurd closed (by simp [Route.live])

variable {c : ClaimSlot} {cl : Claim}

/-- A claim on the range that the new records do not permit ends DROPPED with reason POLICY, and its owner is told (R24). -/
theorem applyPolicy_drops (hc : s.claim? c = some cl) (waits : cl.waiting = true) (meets : meetsRange first last cl.members = true)
    (forbidden : claimPermitted (writePolicies first last p s) cl = false) :
    (applyPolicy first last p s).1.claimEntry c = { s.claimEntry c with claim := some (cl.drop .policy) } ∧
      c ∉ (applyPolicy first last p s).1.accepted ∧ c ∈ ((applyPolicy first last p s).1.session cl.owner).changes.claims := by
  have after := applyPolicy_afterChecks first last s p
  have entry := policySet_claimEntry first last s p c
  rw [onClaim_of_claim? hc, Claim.enforced_dropped _ waits meets forbidden] at entry
  refine ⟨(after.settledEntry (by rw [State.claim?, entry]) rfl).trans entry, fun mem => ?_, after.sessions.notedClaims _ ?_⟩
  · have early := after.accepted.subset mem
    rw [policySet, passHeldChanges_accepted] at early
    refine enforced_accepted ?_ early
    rw [mem_drops_slots]
    exact ⟨cl, by rw [writePolicies_claim?, hc], by simp [waits, meets, forbidden]⟩
  · refine ((policySet_told first last s p).claims c cl hc).resolve_left fun same => ?_
    have settled := congrArg (fun e => e.claim.map Claim.waiting) (entry.symm.trans same)
    rw [show (s.claimEntry c).claim = some cl from hc, Option.map_some, Option.map_some, waits] at settled
    cases settled

/-- A claim of priority 3 on the range that may no longer preempt goes on at priority 2, and its owner is told (R25). -/
theorem applyPolicy_demotes (hc : s.claim? c = some cl) (waits : cl.waiting = true) (meets : meetsRange first last cl.members = true)
    (permitted : claimPermitted (writePolicies first last p s) cl = true) (loses : losesPreempt (writePolicies first last p s) cl = true) :
    RecordAfterChecks { s.claimEntry c with claim := some { cl with priority := 2 } } ((applyPolicy first last p s).1.claimEntry c) ∧
      c ∈ ((applyPolicy first last p s).1.session cl.owner).changes.claims := by
  have after := applyPolicy_afterChecks first last s p
  have entry := policySet_claimEntry first last s p c
  rw [onClaim_of_claim? hc, Claim.enforced_demoted _ waits meets permitted loses] at entry
  refine ⟨entry ▸ after.claims c, after.sessions.notedClaims _ ?_⟩
  refine ((policySet_told first last s p).claims c cl hc).resolve_left fun same => ?_
  have three : cl.priority = 3 := by simp only [losesPreempt, Bool.and_eq_true, decide_eq_true_eq] at loses; exact loses.1
  have two := congrArg (fun e => e.claim.map Claim.priority) (entry.symm.trans same)
  rw [show (s.claimEntry c).claim = some cl from hc, Option.map_some, Option.map_some, three] at two
  cases two

/-- Any other claim is left to the grant checks. -/
theorem applyPolicy_claim_kept
    (h : ∀ cl, s.claim? c = some cl → cl.enforced first last (writePolicies first last p s) = cl) :
    RecordAfterChecks (s.claimEntry c) ((applyPolicy first last p s).1.claimEntry c) := by
  have := (applyPolicy_afterChecks first last s p).claims c
  rwa [policySet_claimEntry, ClaimEntry.onClaim_same h] at this

theorem applyPolicy_policies (first last : LineNo) (p : Policy) (s : State) :
    (applyPolicy first last p s).1.policies = (writePolicies first last p s).policies :=
  (applyPolicy_keepsRest s first last p).policies

end

/-- Settles O26. The state before the grant checks is known entry by entry, and the grant checks leave CLOSED routes alone. -/
theorem setPolicyWritesAndCloses : Obligations.SetPolicyWritesAndCloses := by
  intro h f s first last p offers admitted params
  have policies := applyPolicy_policies first last p (popFrame h s)
  have rest := applyPolicy_keepsRest (popFrame h s) first last p
  have same (t : State) (ht : t.policies = (applyPolicy first last p (popFrame h s)).1.policies) (l : LineNo) :
      t.policy l = (writePolicies first last p (popFrame h s)).policy l := policy_congr (ht.trans policies) l
  refine ⟨_, _, exec_setPolicy offers admitted params, (applyPolicy_keepsSurroundings _ first last p).answeredWithin f _, rfl,
    applyPolicy_results first last (popFrame h s) p ((taken_policies ..).trans policies), applyPolicy_forcingTold.taken f _,
    ?groups, ?qualifiers, fun l => ?policy, fun r rt hr live meets forbidden => ?closed, fun r outside => ?outside, fun k => ?sessions⟩
  case groups =>
    rw [settle_groups, queueReply_groups, rest.groups, writePolicies_groups, popFrame_groups]
  case qualifiers =>
    rw [settle_qualifiers, queueReply_qualifiers, rest.qualifiers]
    unfold writePolicies
    rfl
  case policy =>
    rw [same _ (taken_policies ..), writePolicies_policy, popFrame_policy]
    simp only [inRange, Bool.and_eq_true, decide_eq_true_eq]
  case closed =>
    rw [taken_routeEntry, taken_session]
    rw [routePermitted_congr fun l _ => same _ (taken_policies ..) l] at forbidden
    exact applyPolicy_closes (s := popFrame h s) hr live (meetsRange_iff.mpr meets) forbidden
  case outside =>
    rw [taken_routeEntry]
    refine applyPolicy_outside (s := popFrame h s) fun rt hr live => ?_
    rw [← Bool.not_eq_true, meetsRange_iff]
    rintro ⟨m, hm, on⟩
    exact outside rt hr live m hm on
  case sessions =>
    rw [taken_session]
    have sessions := (policySet_told first last (popFrame h s) p).sessions.trans (applyPolicy_afterChecks ..).sessions
    exact ⟨sessions.attached k, sessions.epoch k⟩

/-- Settles O27. Each claim and each route is found entry by entry in the state before the grant checks. -/
theorem setPolicyDropsDemotesAndClamps : Obligations.SetPolicyDropsDemotesAndClamps := by
  intro h f s first last p offers admitted params
  have same (t : State) (ht : t.policies = (applyPolicy first last p (popFrame h s)).1.policies) (l : LineNo) :
      t.policy l = (writePolicies first last p (popFrame h s)).policy l :=
    policy_congr (ht.trans (applyPolicy_policies first last p (popFrame h s))) l
  refine ⟨_, exec_setPolicy offers admitted params, fun c cl hc waits meets => ?claims, fun c outside => ?outside,
    fun r rt hr live meets permitted => ?routes⟩
  case claims =>
    have meets := meetsRange_iff.mpr meets
    rw [claimPermitted_congr fun l _ => same _ (taken_policies ..) l, mayPreempt_congr fun l _ => same _ (taken_policies ..) l,
      taken_claimEntry, taken_accepted, taken_session]
    refine ⟨fun forbidden => applyPolicy_drops (s := popFrame h s) hc waits meets forbidden, fun permitted three loses => ?_,
      fun permitted keeps => ?_⟩
    · exact applyPolicy_demotes (s := popFrame h s) hc waits meets permitted (by simp [losesPreempt, three, loses])
    · refine applyPolicy_claim_kept (s := popFrame h s) fun x hx => ?_
      cases hc.symm.trans hx
      refine Claim.enforced_kept _ waits meets permitted ?_
      rcases keeps with ne | may
      · simp [losesPreempt, ne]
      · simp [losesPreempt, may]
  case outside =>
    rw [taken_claimEntry]
    refine applyPolicy_claim_kept (s := popFrame h s) fun cl hc => Claim.enforced_outside _ fun waits => ?_
    rw [← Bool.not_eq_true, meetsRange_iff]
    rintro ⟨m, hm, on⟩
    exact outside cl hc waits m hm on
  case routes =>
    rw [routePermitted_congr fun l _ => same _ (taken_policies ..) l] at permitted
    obtain ⟨rt', hr', owner, kind, members, state, lease, clamped, kept⟩ :=
      applyPolicy_clamps (s := popFrame h s) hr live (meetsRange_iff.mpr meets) permitted
    rw [taken_route?, taken_session, effectiveMax_congr fun l _ => same _ (taken_policies ..) l]
    refine ⟨rt', hr', owner, kind, members, state, fun live' => ?_, clamped, kept⟩
    rw [lease live', Route.clamp_lease _ _ live]
    cases rt.lease <;> rfl

end Sys2Proof.Machine

/-! Every step keeps live routes, leases and WAITING claims within the policies (O55). -/

namespace Sys2Proof.Machine

/-! ### What the policies allow of one record -/

/-- The policies permit the route while it is live, and its lease keeps to the effective max of its lines. -/
def RouteAllowed (s : State) (rt : Route) : Prop := rt.live = true → routePermitted s rt = true ∧ LeaseWithinMax s rt

/-- The policies permit the claim with its priority while it is WAITING. -/
def ClaimAllowed (s : State) (cl : Claim) : Prop := cl.waiting = true → claimPermitted s cl = true ∧ losesPreempt s cl = false

theorem policiesHold_iff {s : State} : PoliciesHold s ↔ (∀ r rt, s.route? r = some rt → RouteAllowed s rt) ∧
    (∀ c cl, s.claim? c = some cl → ClaimAllowed s cl) ∧
    (s.inReset = true → (∀ r, s.route? r = none) ∧ ∀ c, s.claim? c = none) :=
  ⟨fun h => ⟨fun r rt hr live => ⟨h.routes r rt hr live, h.leases r rt hr live⟩, h.claims, h.inReset⟩,
    fun ⟨routes, claims, reset⟩ => ⟨fun r rt hr live => (routes r rt hr live).1, fun r rt hr live => (routes r rt hr live).2, claims, reset⟩⟩

theorem routeAllowed_congr {s t : State} {rt : Route} (h : ∀ l ∈ linesOf rt.members, t.policy l = s.policy l) :
    RouteAllowed t rt ↔ RouteAllowed s rt := by
  rw [RouteAllowed, RouteAllowed, routePermitted_congr h, leaseWithinMax_congr h]

theorem claimAllowed_congr {s t : State} {cl : Claim} (h : ∀ l ∈ linesOf cl.members, t.policy l = s.policy l) :
    ClaimAllowed t cl ↔ ClaimAllowed s cl := by
  rw [ClaimAllowed, ClaimAllowed, claimPermitted_congr h, losesPreempt_congr h]

/-! ### Records that ask no more than before -/

/-- rt' has the owner, kind and members of rt, is live only if rt is, and then has no longer lease. -/
structure Route.Within (rt rt' : Route) : Prop where
  owner : rt'.owner = rt.owner
  kind : rt'.kind = rt.kind
  members : rt'.members = rt.members
  live : rt'.live = true → rt.live = true
  lease : rt'.live = true → ∀ d, rt.lease = some d → ∃ d', rt'.lease = some d' ∧ d' ≤ d

/-- cl' has the owner, mode and members of cl, is WAITING only if cl is, and has priority 3 only if cl does. -/
structure Claim.Within (cl cl' : Claim) : Prop where
  owner : cl'.owner = cl.owner
  mode : cl'.mode = cl.mode
  members : cl'.members = cl.members
  waiting : cl'.waiting = true → cl.waiting = true
  priority : cl'.priority = 3 → cl.priority = 3

theorem Route.Within.refl (rt : Route) : rt.Within rt := ⟨rfl, rfl, rfl, id, fun _ d h => ⟨d, h, Nat.le_refl d⟩⟩

theorem Route.Within.trans {a b c : Route} (h : a.Within b) (k : b.Within c) : a.Within c := by
  refine ⟨k.owner.trans h.owner, k.kind.trans h.kind, k.members.trans h.members, fun live => h.live (k.live live), fun live d hd => ?_⟩
  obtain ⟨d', hd', le⟩ := h.lease (k.live live) d hd
  obtain ⟨d'', hd'', le'⟩ := k.lease live d' hd'
  exact ⟨d'', hd'', le'.trans le⟩

theorem Claim.Within.refl (cl : Claim) : cl.Within cl := ⟨rfl, rfl, rfl, id, id⟩

theorem Claim.Within.trans {a b c : Claim} (h : a.Within b) (k : b.Within c) : a.Within c :=
  ⟨k.owner.trans h.owner, k.mode.trans h.mode, k.members.trans h.members, h.waiting ∘ k.waiting, h.priority ∘ k.priority⟩

theorem RouteAllowed.within {s : State} {rt rt' : Route} (a : RouteAllowed s rt) (w : rt.Within rt') : RouteAllowed s rt' := by
  intro live
  obtain ⟨permitted, lease⟩ := a (w.live live)
  refine ⟨?_, fun pos => ?_⟩
  · simpa only [routePermitted, w.kind, w.owner, w.members] using permitted
  · rw [w.members] at pos ⊢
    obtain ⟨d, hd, le⟩ := lease pos
    obtain ⟨d', hd', le'⟩ := w.lease live d hd
    exact ⟨d', hd', le'.trans le⟩

theorem ClaimAllowed.within {s : State} {cl cl' : Claim} (a : ClaimAllowed s cl) (w : cl.Within cl') : ClaimAllowed s cl' := by
  intro waits
  obtain ⟨permitted, keeps⟩ := a (w.waiting waits)
  refine ⟨by simpa only [claimPermitted, w.mode, w.owner, w.members] using permitted, ?_⟩
  simp only [losesPreempt, w.owner, w.members, Bool.and_eq_false_iff, decide_eq_false_iff_not] at keeps ⊢
  exact keeps.imp_left fun ne three => ne (w.priority three)

theorem Route.closed_within (why : CloseReason) (rt : Route) : rt.Within { rt with state := .closed why, lease := none, forced := 0#8 } :=
  ⟨rfl, rfl, rfl, fun live => absurd live (by simp [Route.live]), fun live => absurd live (by simp [Route.live])⟩

theorem Route.withForced_within (f : BitVec 8) (b : Bool) (rt : Route) : rt.Within (rt.withForced f b) :=
  ⟨rfl, rfl, rfl, id, fun _ d h => ⟨d, h, Nat.le_refl d⟩⟩

theorem ClaimAfterChecks.within {cl cl' : Claim} (h : ClaimAfterChecks cl cl') : cl.Within cl' := by
  rcases h with rfl | ⟨waits, b, rfl⟩ | ⟨waits, r, rfl⟩
  · exact .refl _
  · exact ⟨rfl, rfl, rfl, id, id⟩
  · exact ⟨rfl, rfl, rfl, fun _ => waits, id⟩

/-- Under the same policies, every route and claim in use comes from one that asked no less. -/
structure AsksNoMore (s t : State) : Prop where
  policies : t.policies = s.policies
  inReset : t.inReset = s.inReset
  routes : ∀ r rt', t.route? r = some rt' → ∃ rt, s.route? r = some rt ∧ rt.Within rt'
  claims : ∀ c cl', t.claim? c = some cl' → ∃ cl, s.claim? c = some cl ∧ cl.Within cl'

theorem AsksNoMore.trans {s t u : State} (a : AsksNoMore s t) (b : AsksNoMore t u) : AsksNoMore s u := by
  refine ⟨b.policies.trans a.policies, b.inReset.trans a.inReset, fun r x hx => ?_, fun c x hx => ?_⟩
  · obtain ⟨y, hy, xy⟩ := b.routes r x hx
    obtain ⟨z, hz, yz⟩ := a.routes r y hy
    exact ⟨z, hz, yz.trans xy⟩
  · obtain ⟨y, hy, xy⟩ := b.claims c x hx
    obtain ⟨z, hz, yz⟩ := a.claims c y hy
    exact ⟨z, hz, yz.trans xy⟩

theorem none_of_source {α : Type} {P : α → α → Prop} {a b : Option α} (h : ∀ x, b = some x → ∃ y, a = some y ∧ P y x) (ha : a = none) :
    b = none := by
  cases hb : b with
  | none => rfl
  | some x =>
    obtain ⟨y, hy, -⟩ := h x hb
    rw [ha] at hy
    cases hy

theorem PoliciesHold.asksNoMore {s t : State} (h : PoliciesHold s) (k : AsksNoMore s t) : PoliciesHold t := by
  obtain ⟨routes, claims, reset⟩ := policiesHold_iff.mp h
  refine policiesHold_iff.mpr ⟨fun r rt' hr => ?_, fun c cl' hc => ?_, fun on => ?_⟩
  · obtain ⟨rt, hrt, w⟩ := k.routes r rt' hr
    exact (routeAllowed_congr fun l _ => policy_congr k.policies l).mpr ((routes r rt hrt).within w)
  · obtain ⟨cl, hcl, w⟩ := k.claims c cl' hc
    exact (claimAllowed_congr fun l _ => policy_congr k.policies l).mpr ((claims c cl hcl).within w)
  · obtain ⟨noRoute, noClaim⟩ := reset (k.inReset.symm.trans on)
    exact ⟨fun r => none_of_source (k.routes r) (noRoute r), fun c => none_of_source (k.claims c) (noClaim c)⟩

/-! ### Operations that ask no more -/

section

variable {s t : State}

/-- No route and no claim changes. -/
theorem asksNoMore_of_same (policies : t.policies = s.policies) (inReset : t.inReset = s.inReset) (routes : t.routes = s.routes)
    (claims : t.claims = s.claims) : AsksNoMore s t :=
  ⟨policies, inReset, fun r rt hr => ⟨rt, by rwa [State.route?, State.routeEntry, routes] at hr, .refl rt⟩,
    fun c cl hc => ⟨cl, by rwa [State.claim?, State.claimEntry, claims] at hc, .refl cl⟩⟩

theorem AsksNoMore.refl (s : State) : AsksNoMore s s := asksNoMore_of_same rfl rfl rfl rfl

/-- Routes alone change. -/
theorem asksNoMore_of_routes (rest : KeepsRest s t) (claims : t.claims = s.claims)
    (routes : ∀ r rt', t.route? r = some rt' → ∃ rt, s.route? r = some rt ∧ rt.Within rt') : AsksNoMore s t :=
  ⟨rest.policies, rest.inReset, routes, fun c cl hc => ⟨cl, by rwa [State.claim?, State.claimEntry, claims] at hc, .refl cl⟩⟩

/-- Claims alone change. -/
theorem asksNoMore_of_claims (rest : KeepsRest s t) (routes : t.routes = s.routes)
    (claims : ∀ c cl', t.claim? c = some cl' → ∃ cl, s.claim? c = some cl ∧ cl.Within cl') : AsksNoMore s t :=
  ⟨rest.policies, rest.inReset, fun r rt hr => ⟨rt, by rwa [State.route?, State.routeEntry, routes] at hr, .refl rt⟩, claims⟩

theorem KeepsRest.asksNoMore (rest : KeepsRest s t) (routes : t.routes = s.routes) (claims : t.claims = s.claims) : AsksNoMore s t :=
  asksNoMore_of_same rest.policies rest.inReset routes claims

theorem onRoute_within {f : Route → Route} (h : ∀ rt : Route, rt.Within (f rt)) {e : RouteEntry} {rt' : Route}
    (hr : (e.onRoute f).route = some rt') : ∃ rt, e.route = some rt ∧ rt.Within rt' := by
  obtain ⟨rt, he, rfl⟩ := Option.map_eq_some_iff.mp hr
  exact ⟨rt, he, h rt⟩

theorem onClaim_within {f : Claim → Claim} (h : ∀ cl : Claim, cl.Within (f cl)) {e : ClaimEntry} {cl' : Claim}
    (hc : (e.onClaim f).claim = some cl') : ∃ cl, e.claim = some cl ∧ cl.Within cl' := by
  obtain ⟨cl, he, rfl⟩ := Option.map_eq_some_iff.mp hc
  exact ⟨cl, he, h cl⟩

variable (s)

theorem closeRoute_asksNoMore (why : CloseReason) (r : RouteSlot) : AsksNoMore s (closeRoute why r s) := by
  refine asksNoMore_of_routes (closeRoute_keepsRest s r why) (closeRoute_claims s r why) fun q rt' hq => ?_
  rw [State.route?, closeRoute_entry] at hq
  split at hq
  · refine onRoute_within (fun rt => ?_) hq
    unfold Route.close
    split
    · exact rt.closed_within why
    · exact .refl rt
  · exact ⟨rt', hq, .refl rt'⟩

theorem freeRoute_asksNoMore (r : RouteSlot) : AsksNoMore s (freeRoute r s) := by
  refine asksNoMore_of_routes (freeRoute_keepsRest s r) (freeRoute_claims s r) fun q rt' hq => ⟨rt', ?_, .refl rt'⟩
  unfold freeRoute at hq
  split at hq
  · exact hq
  · rename_i rt hr
    dsimp only at hq
    rw [State.route?, State.updRouteEntry_routeEntry] at hq
    split at hq
    · cases hq
    · split at hq
      · rwa [State.routeEntry, State.updSession_routes, unnoteRoute_routes, giveUp_routes] at hq
      · exact hq

theorem freeClaim_asksNoMore (c : ClaimSlot) : AsksNoMore s (freeClaim c s) := by
  refine asksNoMore_of_claims (freeClaim_keepsRest s c) (freeClaim_routes s c) fun d cl' hd => ⟨cl', ?_, .refl cl'⟩
  unfold freeClaim at hd
  split at hd
  · exact hd
  · dsimp only at hd
    rw [State.claim?, State.updClaimEntry_claimEntry] at hd
    split at hd
    · cases hd
    · exact hd

theorem withdrawClaim_asksNoMore (c : ClaimSlot) (cl : Claim) : AsksNoMore s (withdrawClaim c cl s) :=
  (withdrawClaim_keepsRest s c cl).asksNoMore (withdrawClaim_routes s c cl) (withdrawClaim_claims s c cl)

theorem dropClaim_asksNoMore (why : DropReason) (c : ClaimSlot) : AsksNoMore s (dropClaim why c s) := by
  refine asksNoMore_of_claims (dropClaim_keepsRest s c why) (dropClaim_routes s c why) fun d cl' hd => ?_
  rw [State.claim?, dropClaim_entry] at hd
  split at hd
  · exact onClaim_within (f := Claim.drop why) (fun cl => ⟨rfl, rfl, rfl, fun waits => absurd waits (by simp [Claim.drop, Claim.waiting]), id⟩) hd
  · exact ⟨cl', hd, .refl cl'⟩

theorem updRoute_asksNoMore (r : RouteSlot) {f : Route → Route} (h : ∀ rt : Route, rt.Within (f rt)) : AsksNoMore s (s.updRoute r f) := by
  refine asksNoMore_of_routes (by constructor <;> rfl) rfl fun q rt' hq => ?_
  rw [State.route?, updRoute_routeEntry] at hq
  split at hq
  · exact onRoute_within h hq
  · exact ⟨rt', hq, .refl rt'⟩

theorem noteRoute_asksNoMore (h : HostId) (r : RouteSlot) : AsksNoMore s (noteRoute h r s) :=
  (noteRoute_keepsRest s h r).asksNoMore rfl rfl

/-- The break interval that ends is that of a CONNECTING route. -/
theorem activate_asksNoMore {r : RouteSlot} (h : ∀ rt, s.route? r = some rt → rt.live = true) : AsksNoMore s (activate r s) := by
  refine asksNoMore_of_routes (activate_keepsRest s r) (activate_claims s r) fun q rt' hq => ?_
  rw [State.route?, activate_routeEntry] at hq
  split at hq
  · rename_i e
    subst e
    obtain ⟨rt, hr, rfl⟩ := Option.map_eq_some_iff.mp hq
    exact ⟨rt, hr, rfl, rfl, rfl, fun _ => h rt hr, fun _ d hd => ⟨d, hd, Nat.le_refl d⟩⟩
  · exact ⟨rt', hq, .refl rt'⟩

theorem clearHost_asksNoMore (h : HostId) : AsksNoMore s (clearHost h s) := by
  refine ⟨rfl, rfl, fun r rt hr => ⟨rt, ?_, .refl rt⟩, fun c cl hc => ⟨cl, ?_, .refl cl⟩⟩
  · rw [State.route?, State.routeEntry, clearHost, look_map] at hr
    split at hr
    · cases hr
    · exact hr
  · rw [State.claim?, State.claimEntry, clearHost, look_map] at hc
    split at hc
    · cases hc
    · exact hc

theorem Route.after_within (d : Nat) (rt : Route) : rt.Within (rt.after d) := by
  unfold Route.after
  split
  · rename_i e
    exact ⟨rfl, rfl, rfl, fun _ => by simp [Route.live, e], fun _ t h => ⟨t, h, Nat.le_refl t⟩⟩
  · exact ⟨rfl, rfl, rfl, id, fun _ t h => ⟨t - d, by simp [h], Nat.sub_le t d⟩⟩
  · exact .refl rt

theorem Claim.after_within (d : Nat) (cl : Claim) : cl.Within (cl.after d) := by
  unfold Claim.after
  split
  · exact ⟨rfl, rfl, rfl, id, id⟩
  · exact .refl cl

theorem advance_asksNoMore (d : Nat) : AsksNoMore s (advance d s) := by
  refine ⟨rfl, rfl, fun r rt' hr => ?_, fun c cl' hc => ?_⟩
  · rw [State.route?, State.routeEntry, advance, look_map] at hr
    exact onRoute_within (Route.after_within d) hr
  · rw [State.claim?, State.claimEntry, advance, look_map] at hc
    exact onClaim_within (Claim.after_within d) hc

theorem passHeldChanges_asksNoMore (before : State) : AsksNoMore s (passHeldChanges before s) := by
  refine asksNoMore_of_routes (passHeldChanges_keepsRest before s) (passHeldChanges_claims before s) fun r rt' hr => ?_
  obtain ⟨f, b, e⟩ := passHeldChanges_onlyForcings before s r
  rw [State.route?, e] at hr
  exact onRoute_within (Route.withForced_within f b) hr

theorem changeGroup_asksNoMore (g : GroupNo) (f : Group → Group) : AsksNoMore s (changeGroup g f s) := by
  refine AsksNoMore.trans ?_ (passHeldChanges_asksNoMore (s.updGroup g f) s)
  exact asksNoMore_of_same rfl rfl rfl rfl

theorem settle_asksNoMore (t : State) : AsksNoMore t (settle s t) :=
  asksNoMore_of_same (settle_policies s t) (settle_inReset s t) (settle_routes s t) (settle_claims s t)

theorem updPort_asksNoMore (h : HostId) (f : Port → Port) : AsksNoMore s (s.updPort h f) := asksNoMore_of_same rfl rfl rfl rfl

theorem reportRef_asksNoMore (h : HostId) (ref : ChangeRef) : AsksNoMore s (reportRef h ref s) := by
  cases ref with
  | claim c =>
    unfold reportRef
    dsimp only
    split
    · exact (unnoteClaim_keepsRest s h c).asksNoMore rfl rfl
    · split
      · exact (unnoteClaim_keepsRest s h c).asksNoMore rfl rfl
      · exact freeClaim_asksNoMore s c
  | route r =>
    unfold reportRef
    dsimp only
    split
    · exact (unnoteRoute_keepsRest s h r).asksNoMore rfl rfl
    · split
      · refine AsksNoMore.trans ((unnoteRoute_keepsRest s h r).asksNoMore rfl rfl) (updRoute_asksNoMore _ r fun rt => ?_)
        exact ⟨rfl, rfl, rfl, id, fun _ d hd => ⟨d, hd, Nat.le_refl d⟩⟩
      · exact freeRoute_asksNoMore s r

end

/-! ### Grant checks and grants -/

/-- A route granted to a claim that the policies permit is permitted, and its resolved lease keeps to the effective max (R19, R49). -/
theorem GrantedRoute.allowed {s t : State} {cl : Claim} {r : RouteSlot} (g : GrantedRoute s t cl r) (permitted : claimPermitted t cl = true)
    {rt : Route} (hr : t.route? r = some rt) : RouteAllowed t rt := by
  obtain ⟨x, e, owner, kind, members, -, life⟩ := g
  rw [State.route?, e] at hr
  cases hr
  intro live
  rcases life with closed | ⟨lease, -⟩
  · simp [Route.live, closed] at live
  · refine ⟨?_, leaseFor_withinMax t cl.leaseRequested (by rw [lease, members])⟩
    simpa only [routePermitted, claimPermitted, kind, owner, members] using permitted

theorem arbitrate_policiesHold {s : State} (h : PoliciesHold s) (own : Option ClaimSlot) (ls : List LineNo) :
    PoliciesHold (arbitrate own ls s) := by
  have after := arbitrate_afterChecks own ls s
  have grants := arbitrate_grants own ls s
  generalize arbitrate own ls s = t at after grants
  obtain ⟨routes, claims, reset⟩ := policiesHold_iff.mp h
  have same := fun l => policy_congr after.rest.policies l
  have from_claim : ∀ c cl', t.claim? c = some cl' → ∃ cl, s.claim? c = some cl ∧ cl.Within cl' := by
    intro c cl' hc
    have record := (after.claims c).2
    split at record
    · exact absurd (hc.symm.trans record) (by simp)
    · rename_i cl hcl
      obtain ⟨x, hx, checks⟩ := record
      cases hc.symm.trans hx
      exact ⟨cl, hcl, checks.within⟩
  by_cases on : s.inReset = true
  · obtain ⟨noRoute, noClaim⟩ := reset on
    have noClaim' : ∀ c, t.claim? c = none := fun c => none_of_source (from_claim c) (noClaim c)
    have noRoute' : ∀ r, t.route? r = none := fun r => by
      rcases after.routes r with e | ⟨rt, hr, -⟩ | ⟨-, moved, rt, hr, driver⟩
      · rw [State.route?, e]
        exact noRoute r
      · exact absurd (hr.symm.trans (noRoute r)) (by simp)
      · obtain ⟨c, cl, ⟨cl₀, h₀, -⟩, -⟩ := grants.claimed r rt ⟨by rw [moved]; exact succ_ne_self _, hr, driver⟩
        exact absurd (h₀.symm.trans (noClaim c)) (by simp)
    exact policiesHold_iff.mpr ⟨fun r rt hr => by simp [noRoute' r] at hr, fun c cl hc => by simp [noClaim' c] at hc,
      fun _ => ⟨noRoute', noClaim'⟩⟩
  · refine policiesHold_iff.mpr ⟨fun r rt hr => ?_, fun c cl' hc => ?_, fun on' => absurd (after.rest.inReset.symm.trans on') on⟩
    · rcases after.routes r with e | ⟨x, hx, -, -, e⟩ | ⟨-, moved, x, hx, driver⟩
      · rw [State.route?, e] at hr
        exact (routeAllowed_congr fun l _ => same l).mpr (routes r rt hr)
      · rw [State.route?, e] at hr
        cases hr
        exact (routeAllowed_congr fun l _ => same l).mpr ((routes r x hx).within (x.closed_within _))
      · obtain ⟨c, cl, granted⟩ := grants.claimed r x ⟨by rw [moved]; exact succ_ne_self _, hx, driver⟩
        refine (grants.route c cl r granted).allowed ?_ hr
        obtain ⟨⟨cl₀, h₀, waits⟩, hcl, -⟩ := granted
        obtain ⟨y, hy, w⟩ := from_claim c cl hcl
        cases h₀.symm.trans hy
        rw [claimPermitted_congr fun l _ => same l]
        have permitted := (claims c cl₀ h₀ waits).1
        simpa only [claimPermitted, w.owner, w.mode, w.members] using permitted
    · obtain ⟨cl, hcl, w⟩ := from_claim c cl' hc
      exact (claimAllowed_congr fun l _ => same l).mpr ((claims c cl hcl).within w)

/-! ### New records and new terms, checked against the policies -/

section

variable {s : State} (hold : PoliciesHold s) {t : State}
include hold

/-- One route is made or changed, as the policies allow. -/
theorem PoliciesHold.changeRoute (rest : KeepsRest s t) (running : s.inReset = false) (claims : t.claims = s.claims) {r : RouteSlot}
    (others : ∀ q, q ≠ r → t.route? q = s.route? q) (allowed : ∀ rt, t.route? r = some rt → RouteAllowed s rt) : PoliciesHold t := by
  obtain ⟨routes, held, -⟩ := policiesHold_iff.mp hold
  refine policiesHold_iff.mpr ⟨fun q rt hq => (routeAllowed_congr fun l _ => policy_congr rest.policies l).mpr ?_, fun c cl hc =>
    (claimAllowed_congr fun l _ => policy_congr rest.policies l).mpr (held c cl ?_), fun on => by simp [rest.inReset, running] at on⟩
  · by_cases e : q = r
    · subst e
      exact allowed rt hq
    · exact routes q rt (others q e ▸ hq)
  · rwa [State.claim?, State.claimEntry, claims] at hc

/-- One claim is made or changed, as the policies allow. -/
theorem PoliciesHold.changeClaim (rest : KeepsRest s t) (running : s.inReset = false) (routes : t.routes = s.routes) {c : ClaimSlot}
    (others : ∀ d, d ≠ c → t.claim? d = s.claim? d) (allowed : ∀ cl, t.claim? c = some cl → ClaimAllowed s cl) : PoliciesHold t := by
  obtain ⟨held, claims, -⟩ := policiesHold_iff.mp hold
  refine policiesHold_iff.mpr ⟨fun r rt hr => (routeAllowed_congr fun l _ => policy_congr rest.policies l).mpr (held r rt ?_), fun d cl hd =>
    (claimAllowed_congr fun l _ => policy_congr rest.policies l).mpr ?_, fun on => by simp [rest.inReset, running] at on⟩
  · rwa [State.route?, State.routeEntry, routes] at hr
  · by_cases e : d = c
    · subst e
      exact allowed cl hd
    · exact claims d cl (others d e ▸ hd)

theorem answerClaim_policiesHold (c : ClaimSlot) : PoliciesHold (answerClaim c s).1 := by
  unfold answerClaim
  split
  · exact hold
  · split
    · exact hold.asksNoMore (freeClaim_asksNoMore s c)
    · exact hold

variable (running : s.inReset = false)
include running

theorem listenAct_policiesHold (h : HostId) (ps : List Byte) : PoliciesHold (listenAct h ps s).1 := by
  have rest := listenAct_keepsRest h ps s
  unfold listenAct at rest ⊢
  split
  · exact hold
  · rename_i lease ms _
    split
    · exact hold
    · exact hold
    · rename_i r passed _
      have may : mayListen s h (linesOf ms) = true := by
        unfold listenRefusal at passed
        split at passed
        · cases passed
        · rename_i may
          simpa using may
      have entry : ∀ q, (createListener h lease ms r s).route? q = if r = q then some (listenerRoute s h lease ms) else s.route? q := fun q => by
        show ((s.updRouteEntry r _).routeEntry q).route = _
        rw [State.updRouteEntry_routeEntry]
        split <;> rfl
      refine hold.changeRoute (t := createListener h lease ms r s) (by constructor <;> rfl) running rfl (r := r)
        (fun q ne => by rw [entry, if_neg (Ne.symm ne)]) fun rt hr => ?_
      rw [entry, if_pos rfl] at hr
      cases hr
      exact fun _ => ⟨may, leaseFor_withinMax s lease rfl⟩

theorem renewAct_policiesHold (h : HostId) (ps : List Byte) : PoliciesHold (renewAct h ps s).1 := by
  unfold renewAct
  split
  · exact hold
  · rename_i r gen lease _
    split
    · exact hold
    · split
      · exact hold
      · split
        · exact hold
        · refine hold.changeRoute (r := r) (by constructor <;> rfl) running rfl
            (fun q ne => by rw [State.updRoute_route?, if_neg (Ne.symm ne)]) fun x hx live => ?_
          rw [State.updRoute_route?, if_pos rfl] at hx
          obtain ⟨y, hy, rfl⟩ := Option.map_eq_some_iff.mp hx
          exact ⟨hold.routes r y hy live, leaseFor_withinMax s lease rfl⟩

end

/-! ### CLAIM and AMEND -/

section

variable (s : State)

theorem acceptClaim_claimEntry (h : HostId) (p : ClaimParams) (c d : ClaimSlot) : (acceptClaim h p c s).claimEntry d =
    if c = d then { generation := (s.claimEntry d).generation + 1#8, claim := some (newClaim h p) } else s.claimEntry d := by
  have claims : (acceptClaim h p c s).claims =
      (s.updClaimEntry c fun e => { generation := e.generation + 1#8, claim := some (newClaim h p) }).claims :=
    (joinQueues_keeps _ c _).claims
  rw [State.claimEntry, claims]
  exact State.updClaimEntry_claimEntry ..

theorem acceptClaim_routes (h : HostId) (p : ClaimParams) (c : ClaimSlot) : (acceptClaim h p c s).routes = s.routes :=
  (joinQueues_keeps _ c _).routes

/-- The claim takes the priority, whether it moves for it or has it already (R78). -/
theorem reprioritise_claimEntry {c : ClaimSlot} {cl : Claim} (h : ∀ x, s.claim? c = some x → x.priority = cl.priority) (p : Priority)
    (d : ClaimSlot) : (reprioritise c cl p s).claimEntry d =
      if c = d then (s.claimEntry d).onClaim fun x => { x with priority := p } else s.claimEntry d := by
  unfold reprioritise
  split
  · rename_i e
    split
    · rename_i same
      subst same e
      exact (ClaimEntry.onClaim_same fun x hx => by rw [← h x hx]).symm
    · rfl
  · dsimp only
    have claims : (joinQueues c (linesOf cl.members) ({ leaveAccepted c (leaveQueues c (linesOf cl.members) s) with
        accepted := (leaveAccepted c (leaveQueues c (linesOf cl.members) s)).accepted ++ [c] }.updClaim c fun x =>
          { x with priority := p })).claims = (s.updClaim c fun x => { x with priority := p }).claims := by
      rw [(joinQueues_keeps _ c _).claims]
      simp only [State.updClaim, State.updClaimEntry, leaveAccepted_claims, (leaveQueues_keeps s c _).claims]
    rw [State.claimEntry, claims]
    exact updClaim_claimEntry s c _ d

theorem reprioritise_routes (c : ClaimSlot) (cl : Claim) (p : Priority) : (reprioritise c cl p s).routes = s.routes := by
  unfold reprioritise
  split
  · rfl
  · exact (joinQueues_keeps _ c _).routes.trans (leaveQueues_keeps s c _).routes

/-- The record of a claim that is amended, before the grant checks (R78). -/
theorem amended_claimEntry {c : ClaimSlot} {cl : Claim} (hc : s.claim? c = some cl) (p : Priority) (limit : Nat) (d : ClaimSlot) :
    (reprioritise c cl p (s.updClaim c fun x => { x with waitLimit := timerOfMillis limit })).claimEntry d =
      if c = d then { s.claimEntry d with claim := some { cl with priority := p, waitLimit := timerOfMillis limit } }
      else s.claimEntry d := by
  rw [reprioritise_claimEntry, updClaim_claimEntry]
  · split
    · rename_i same
      subst same
      simp only [ClaimEntry.onClaim, show (s.claimEntry c).claim = some cl from hc, Option.map_some]
    · rfl
  · intro x hx
    rw [State.updClaim_claim?, if_pos rfl, hc] at hx
    cases hx
    rfl

variable {s}

/-- The checks that AMEND and CANCEL share pass for the owner of a WAITING claim alone. -/
theorem claimRefRefusal_none {h : HostId} {x : Option Claim} (passed : claimRefRefusal h x = none) :
    ∃ cl, x = some cl ∧ cl.owner = h ∧ cl.waiting = true := by
  unfold claimRefRefusal at passed
  split at passed
  · cases passed
  · rename_i cl
    split_ifs at passed with owner waits
    exact ⟨cl, rfl, not_not.mp owner, by simpa using waits⟩

theorem claimAt?_some {c : ClaimSlot} {gen : Byte} {cl : Claim} (h : claimAt? s c gen = some cl) :
    s.claim? c = some cl ∧ (s.claimEntry c).generation = gen := by
  unfold claimAt? at h
  split at h
  · rename_i e
    exact ⟨h, e⟩
  · cases h

/-- The claim of a request that passes the checks of R72 is permitted with its priority. -/
theorem newClaim_allowed {h : HostId} {p : ClaimParams} (passed : claimRefusal s h p = none) : ClaimAllowed s (newClaim h p) := by
  intro _
  unfold claimRefusal at passed
  dsimp only at passed
  split_ifs at passed with drive mode preempt
  simp only [Bool.not_eq_true, Bool.not_eq_false'] at drive mode
  exact ⟨by simp [claimPermitted, newClaim, drive, mode], eq_false_of_ne_true preempt⟩

variable (hold : PoliciesHold s) (running : s.inReset = false) (h : HostId) (ps : List Byte)
include hold running

theorem claimAct_policiesHold : PoliciesHold (claimAct h ps s).1 := by
  unfold claimAct
  split
  · exact hold
  · rename_i p _
    split
    · exact hold
    · exact hold
    · rename_i c passed _
      refine answerClaim_policiesHold (arbitrate_policiesHold ?_ _ _) c
      refine hold.changeClaim (c := c) (acceptClaim_keepsRest h s p c) running (acceptClaim_routes s h p c) (fun d ne => ?_) fun cl hc => ?_
      · rw [State.claim?, acceptClaim_claimEntry, if_neg (Ne.symm ne), State.claim?]
      · rw [State.claim?, acceptClaim_claimEntry, if_pos rfl] at hc
        cases hc
        exact newClaim_allowed passed

theorem amendAct_policiesHold : PoliciesHold (amendAct h ps s).1 := by
  unfold amendAct
  split
  · exact hold
  · rename_i c gen p limit _
    split
    · exact hold
    · exact hold
    · rename_i cl passed found
      split
      · exact hold
      · rename_i may
        obtain ⟨x, hx, owner, waits⟩ := claimRefRefusal_none passed
        cases found.symm.trans hx
        obtain ⟨hc, -⟩ := claimAt?_some found
        refine answerClaim_policiesHold (arbitrate_policiesHold ?_ _ _) c
        refine hold.changeClaim (c := c) ?_ running (reprioritise_routes _ c cl p) (fun d ne => ?_) fun y hy _ => ?_
        · exact KeepsRest.trans (by constructor <;> rfl) (reprioritise_keepsRest _ c cl p)
        · rw [State.claim?, amended_claimEntry s hc, if_neg (Ne.symm ne), State.claim?]
        · rw [State.claim?, amended_claimEntry s hc, if_pos rfl] at hy
          cases hy
          exact ⟨(hold.claims c cl hc waits).1, by simpa [losesPreempt, owner] using may⟩

end

/-! ### SET_POLICY -/

theorem Route.clamp_withinMax (s : State) {rt : Route} (live : rt.live = true) : LeaseWithinMax s (rt.clamp s) := by
  intro pos
  rw [Route.clamp_members] at pos ⊢
  rw [Route.clamp_lease s rt live, if_neg pos]
  cases rt.lease with
  | none => exact ⟨_, rfl, Nat.le_refl _⟩
  | some d => exact ⟨_, rfl, Nat.min_le_right ..⟩

section

variable {s : State} (hold : PoliciesHold s) (first last : LineNo) (p : Policy)
include hold

theorem enforcedRoute_allowed {r : RouteSlot} {rt : Route} (hr : s.route? r = some rt) :
    RouteAllowed (writePolicies first last p s) (rt.enforced first last (writePolicies first last p s)) := by
  obtain ⟨routes, -, -⟩ := policiesHold_iff.mp hold
  cases live : rt.live with
  | false =>
    rw [Route.enforced_outside _ fun on => absurd on (by simp [live])]
    exact fun on => absurd on (by simp [live])
  | true =>
    cases meets : meetsRange first last rt.members with
    | false =>
      rw [Route.enforced_outside _ fun _ => meets]
      exact (routeAllowed_congr (writePolicies_outside meets p s)).mpr (routes r rt hr)
    | true =>
      cases permitted : routePermitted (writePolicies first last p s) rt with
      | false =>
        rw [Route.enforced_closed _ live meets permitted, Route.close_live _ _ live]
        exact fun on => absurd on (by simp [Route.live])
      | true =>
        rw [Route.enforced_permitted _ live meets permitted]
        refine fun _ => ⟨?_, Route.clamp_withinMax _ live⟩
        simpa only [routePermitted, Route.clamp_kind, Route.clamp_owner, Route.clamp_members] using permitted

theorem enforcedClaim_allowed {c : ClaimSlot} {cl : Claim} (hc : s.claim? c = some cl) :
    ClaimAllowed (writePolicies first last p s) (cl.enforced first last (writePolicies first last p s)) := by
  cases waits : cl.waiting with
  | false =>
    rw [Claim.enforced_outside _ fun on => absurd on (by simp [waits])]
    exact fun on => absurd on (by simp [waits])
  | true =>
    cases meets : meetsRange first last cl.members with
    | false =>
      rw [Claim.enforced_outside _ fun _ => meets]
      exact (claimAllowed_congr (writePolicies_outside meets p s)).mpr (hold.claims c cl hc)
    | true =>
      cases permitted : claimPermitted (writePolicies first last p s) cl with
      | false =>
        rw [Claim.enforced_dropped _ waits meets permitted]
        exact fun on => absurd on (by simp [Claim.drop, Claim.waiting])
      | true =>
        cases loses : losesPreempt (writePolicies first last p s) cl with
        | false =>
          rw [Claim.enforced_kept _ waits meets permitted loses]
          exact fun _ => ⟨permitted, loses⟩
        | true =>
          rw [Claim.enforced_demoted _ waits meets permitted loses]
          exact fun _ => ⟨permitted, by simp [losesPreempt]⟩

/-- Once the records are enforced, the new policies hold. -/
theorem policySet_policiesHold : PoliciesHold (policySet first last s p) := by
  obtain ⟨-, -, reset⟩ := policiesHold_iff.mp hold
  have rest := policySet_keepsRest first last s p
  have route : ∀ r rt', (policySet first last s p).route? r = some rt' → ∃ rt, s.route? r = some rt ∧
      (rt.enforced first last (writePolicies first last p s)).Within rt' := by
    intro r rt' hr
    obtain ⟨f, b, e⟩ := passHeldChanges_onlyForcings s (enforced first last (writePolicies first last p s)) r
    rw [State.route?, policySet, e] at hr
    obtain ⟨x, hx, w⟩ := onRoute_within (Route.withForced_within f b) hr
    rw [enforced_entry] at hx
    obtain ⟨rt, hrt, rfl⟩ := Option.map_eq_some_iff.mp hx
    exact ⟨rt, hrt, w⟩
  have claim : ∀ c cl', (policySet first last s p).claim? c = some cl' → ∃ cl, s.claim? c = some cl ∧
      cl' = cl.enforced first last (writePolicies first last p s) := by
    intro c cl' hc
    rw [State.claim?, policySet_claimEntry] at hc
    obtain ⟨cl, hcl, rfl⟩ := Option.map_eq_some_iff.mp hc
    exact ⟨cl, hcl, rfl⟩
  refine policiesHold_iff.mpr ⟨fun r rt' hr => ?_, fun c cl' hc => ?_, fun on => ?_⟩
  · obtain ⟨rt, hrt, w⟩ := route r rt' hr
    exact (routeAllowed_congr fun l _ => policy_congr rest.policies l).mpr ((enforcedRoute_allowed hold first last p hrt).within w)
  · obtain ⟨cl, hcl, rfl⟩ := claim c cl' hc
    exact (claimAllowed_congr fun l _ => policy_congr rest.policies l).mpr (enforcedClaim_allowed hold first last p hcl)
  · have stays := (writePolicies_keepsSurroundings s first last p).inReset
    obtain ⟨noRoute, noClaim⟩ := reset ((rest.inReset.trans stays).symm.trans on)
    exact ⟨fun r => none_of_source (P := fun rt rt' => (rt.enforced first last (writePolicies first last p s)).Within rt') (route r) (noRoute r),
      fun c => none_of_source (P := fun cl cl' => cl' = cl.enforced first last (writePolicies first last p s)) (claim c) (noClaim c)⟩

theorem applyPolicy_policiesHold : PoliciesHold (applyPolicy first last p s).1 := by
  have state : (applyPolicy first last p s).1 =
      arbitrate none (linesHandedOver first last (writePolicies first last p s)) (policySet first last s p) :=
    congrArg Prod.fst (applyPolicy_eq first last s p)
  rw [state]
  exact arbitrate_policiesHold (policySet_policiesHold hold first last p) _ _

end

/-! ### Every block and every command -/

theorem qualifyAs_asksNoMore (g : GroupNo) (level : Level) (f : Qualifier → Qualifier) (s : State) :
    AsksNoMore s (qualifyAs g level f s) := by
  refine AsksNoMore.trans ?_ (changeGroup_asksNoMore _ g _)
  exact asksNoMore_of_same rfl rfl rfl rfl

theorem deviceReset_policiesHold (s : State) : PoliciesHold (deviceReset s) := by
  constructor <;> simp [State.route?, State.claim?]

section

variable {s : State} (hold : PoliciesHold s)
include hold

theorem endSession_policiesHold (h : HostId) : PoliciesHold (endSession h s) :=
  arbitrate_policiesHold (hold.asksNoMore (clearHost_asksNoMore s h)) _ _

theorem collectAct_policiesHold (h : HostId) (ps : List Byte) : PoliciesHold (collectAct h ps s).1 := by
  unfold collectAct
  dsimp only
  exact arbitrate_policiesHold (hold.asksNoMore
    (foldl_rel AsksNoMore.refl AsksNoMore.trans (fun t ref => reportRef_asksNoMore t h ref) _ s)) _ _

theorem releaseAct_policiesHold (h : HostId) (ps : List Byte) : PoliciesHold (releaseAct h ps s).1 := by
  unfold releaseAct
  split
  · exact hold
  · split
    · exact hold
    · split
      · exact hold
      · unfold releaseRoute
        dsimp only
        exact arbitrate_policiesHold (hold.asksNoMore (freeRoute_asksNoMore s _)) _ _

theorem revokeAct_policiesHold (h : HostId) (ps : List Byte) : PoliciesHold (revokeAct h ps s).1 := by
  unfold revokeAct
  split
  · exact hold
  · split
    · exact hold
    · split
      · exact hold
      · dsimp only
        exact arbitrate_policiesHold (hold.asksNoMore (closeRoute_asksNoMore s _ _)) _ _

theorem cancelAct_policiesHold (h : HostId) (ps : List Byte) : PoliciesHold (cancelAct h ps s).1 := by
  unfold cancelAct
  split
  · exact hold
  · split
    · exact hold
    · exact hold
    · unfold cancelClaim
      dsimp only
      exact arbitrate_policiesHold (hold.asksNoMore ((withdrawClaim_asksNoMore s _ _).trans (freeClaim_asksNoMore _ _))) _ _

theorem setGroupAct_policiesHold (h : HostId) (ps : List Byte) : PoliciesHold (setGroupAct h ps s).1 := by
  unfold setGroupAct
  split
  · exact hold
  · split
    · exact hold
    · exact hold.asksNoMore (changeGroup_asksNoMore s _ _)

theorem tripAct_policiesHold (h : HostId) (ps : List Byte) : PoliciesHold (tripAct h ps s).1 := by
  unfold tripAct
  split
  · exact hold
  · split
    · exact hold
    · exact hold.asksNoMore (changeGroup_asksNoMore s _ _)

theorem rearmAct_policiesHold (h : HostId) (ps : List Byte) : PoliciesHold (rearmAct h ps s).1 := by
  unfold rearmAct
  split
  · exact hold
  · split
    · exact hold
    · split
      · exact hold
      · exact hold.asksNoMore (changeGroup_asksNoMore s _ _)

theorem openSession_policiesHold (h : HostId) : PoliciesHold (openSession h s) :=
  hold.asksNoMore ((openSession_keepsRest h s).asksNoMore rfl rfl)

theorem act_policiesHold (running : s.inReset = false) (code : ReqCode) (h : HostId) (ps : List Byte) :
    PoliciesHold (code.act h ps s).1 := by
  have of_state {t : State} (e : t = s) : PoliciesHold t := e ▸ hold
  cases code with
  | attach =>
    show PoliciesHold (attachAct h ps s).1
    unfold attachAct
    split
    · exact openSession_policiesHold (endSession_policiesHold hold h) h
    · exact openSession_policiesHold hold h
  | detach => exact endSession_policiesHold hold h
  | collect => exact collectAct_policiesHold hold h ps
  | readLevels => exact hold
  | queryLine => exact of_state (queryLineAct_state h ps s)
  | setPolicy =>
    show PoliciesHold (setPolicyAct h ps s).1
    unfold setPolicyAct
    split
    · exact hold
    · exact applyPolicy_policiesHold hold _ _ _
  | queryPolicy => exact of_state (queryPolicyAct_state h ps s)
  | listen => exact listenAct_policiesHold hold running h ps
  | release => exact releaseAct_policiesHold hold h ps
  | renew => exact renewAct_policiesHold hold running h ps
  | revoke => exact revokeAct_policiesHold hold h ps
  | queryRoute => exact of_state (queryRouteAct_state h ps s)
  | claim => exact claimAct_policiesHold hold running h ps
  | amend => exact amendAct_policiesHold hold running h ps
  | cancel => exact cancelAct_policiesHold hold h ps
  | queryClaim => exact of_state (queryClaimAct_state h ps s)
  | setGroup => exact setGroupAct_policiesHold hold h ps
  | trip => exact tripAct_policiesHold hold h ps
  | rearm => exact rearmAct_policiesHold hold h ps
  | queryGroup => exact of_state (queryGroupAct_state h ps s)

theorem takeRequest_policiesHold (running : s.inReset = false) (code : ReqCode) (h : HostId) :
    PoliciesHold (takeRequest code code.act h s) := by
  unfold takeRequest
  split
  · exact hold
  · split
    · refine PoliciesHold.asksNoMore ?_ ((updPort_asksNoMore _ h _).trans (settle_asksNoMore _ _))
      unfold carryOut
      have popped : PoliciesHold (popFrame h s) := hold.asksNoMore (updPort_asksNoMore s h _)
      split
      · exact popped
      · exact act_policiesHold popped running code h _
    · exact hold

theorem onKind_policiesHold (h : HostId) {f : Byte → State → State} (k : ∀ st, PoliciesHold (f st s)) : PoliciesHold (onKind h f s) := by
  unfold onKind
  split
  · exact hold
  · exact k _

theorem takeUnknown_policiesHold (h : HostId) : PoliciesHold (takeUnknown h s) := by
  unfold takeUnknown
  split
  · exact hold
  · split
    · exact hold
    · exact hold.asksNoMore ((updPort_asksNoMore s h _).trans (updPort_asksNoMore _ h _))

theorem resetLink_policiesHold (h : HostId) (st : Byte) : PoliciesHold (resetLink h st s) := by
  unfold resetLink
  dsimp only
  refine PoliciesHold.asksNoMore ?_ (updPort_asksNoMore _ h _)
  split
  · exact endSession_policiesHold hold h
  · exact hold

theorem leaseEnd_policiesHold (r : RouteSlot) : PoliciesHold (leaseEnd r s) := by
  unfold leaseEnd
  split
  · exact hold
  · exact arbitrate_policiesHold (hold.asksNoMore ((advance_asksNoMore s _).trans (closeRoute_asksNoMore _ _ _))) _ _

theorem breakEnd_policiesHold (r : RouteSlot) : PoliciesHold (breakEnd r s) := by
  unfold breakEnd
  split
  · exact hold
  · rename_i t owner runs
    refine hold.asksNoMore ((advance_asksNoMore s t).trans ((activate_asksNoMore _ fun rt hr => ?_).trans (noteRoute_asksNoMore _ owner r)))
    unfold runningBreak at runs
    split at runs
    · cases runs
    · rename_i x hx
      split at runs
      · rename_i left connecting
        rw [State.route?, State.routeEntry, advance, look_map] at hr
        obtain ⟨y, hy, rfl⟩ := Option.map_eq_some_iff.mp hr
        cases hx.symm.trans hy
        simp only [Route.after, connecting, Route.live]
      · cases runs

theorem waitEnd_policiesHold (c : ClaimSlot) : PoliciesHold (waitEnd c s) := by
  unfold waitEnd
  split
  · exact hold
  · unfold expireWait
    dsimp only
    exact arbitrate_policiesHold (hold.asksNoMore ((advance_asksNoMore s _).trans (dropClaim_asksNoMore _ _ _))) _ _

theorem settleEnd_policiesHold (g : GroupNo) : PoliciesHold (settleEnd g s) := by
  unfold settleEnd
  split
  · exact hold.asksNoMore ((advance_asksNoMore s _).trans (changeGroup_asksNoMore _ g _))
  · exact hold

theorem qualify_policiesHold (g : GroupNo) : PoliciesHold (qualify g s) := by
  unfold qualify
  split
  · exact hold.asksNoMore (qualifyAs_asksNoMore g _ _ s)
  · exact hold.asksNoMore ((advance_asksNoMore s _).trans (qualifyAs_asksNoMore g _ _ _))
  · exact hold

theorem reaction_policiesHold (running : s.inReset = false) (c : Instr) : PoliciesHold (reaction c s) := by
  have port (h : HostId) (f : Port → Port) : PoliciesHold (s.updPort h f) := hold.asksNoMore (updPort_asksNoMore s h f)
  have settled {t : State} (k : PoliciesHold t) : PoliciesHold (settle s t) := k.asksNoMore (settle_asksNoMore s t)
  cases c with
  | transactionBegin h | write h => exact port h _
  | read h => exact onKind_policiesHold hold h (f := fun st t => t.updPort h (readReply st)) fun _ => port h _
  | readAgain h => exact onKind_policiesHold hold h (f := fun st t => t.updPort h (readReplyAgain st)) fun _ => port h _
  | linkReset h =>
    exact onKind_policiesHold hold h (f := fun st t => settle t (resetLink h st t)) fun st => settled (resetLink_policiesHold hold h st)
  | unknownKind h =>
    unfold reaction
    dsimp only
    split
    · exact onKind_policiesHold hold h fun _ => port h _
    · exact hold
  | unknownRequest h => exact takeUnknown_policiesHold hold h
  | attach h | detach h | collect h | readLevels h | queryLine h | setPolicy h | queryPolicy h | listen h | release h | renew h | revoke h
  | queryRoute h | claim h | amend h | cancel h | queryClaim h | setGroup h | trip h | rearm h | queryGroup h =>
    exact takeRequest_policiesHold hold running _ h
  | leaseExpiry r => exact settled (leaseEnd_policiesHold hold r)
  | breakExpiry r => exact settled (breakEnd_policiesHold hold r)
  | waitLimitExpiry c => exact settled (waitEnd_policiesHold hold c)
  | settleExpiry g => exact settled (settleEnd_policiesHold hold g)
  | qualifiedLevelChange g => exact settled (qualify_policiesHold hold g)
  | deviceReset | leaveReset | faultPinChange | terminalLevelChange | boardLineLevelChange => exact hold

/-- With no record in use, any policies hold. -/
theorem leaveReset_policiesHold (on : s.inReset = true) (a b : Level) : PoliciesHold (settle s (leaveReset a b s)) := by
  obtain ⟨noRoute, noClaim⟩ := hold.inReset on
  have kept := leaveReset_keepsRecords a b s
  have noRoute' : ∀ r, (settle s (leaveReset a b s)).route? r = none := fun r => by
    rw [State.route?, State.routeEntry, kept.routes]
    exact noRoute r
  have noClaim' : ∀ c, (settle s (leaveReset a b s)).claim? c = none := fun c => by
    rw [State.claim?, State.claimEntry, kept.claims]
    exact noClaim c
  exact policiesHold_iff.mpr ⟨fun r rt hr => by simp [noRoute' r] at hr, fun c cl hc => by simp [noClaim' c] at hc,
    fun _ => ⟨noRoute', noClaim'⟩⟩

theorem exec_policiesHold {c : Instr} {t : State} (h : exec c s = .next t) : PoliciesHold t := by
  by_cases hc : actsInReset c = false
  · rw [exec_reaction hc] at h
    injection h with h
    subst h
    split
    · exact hold
    · rename_i running
      exact reaction_policiesHold hold (by simpa using running) c
  · cases c with
    | deviceReset =>
      cases h
      exact deviceReset_policiesHold s
    | leaveReset a b =>
      cases on : s.inReset with
      | true =>
        rw [exec_leaveReset a b s on] at h
        cases h
        exact leaveReset_policiesHold hold on a b
      | false =>
        rw [exec_leaveReset_running a b s on] at h
        cases h
        exact hold
    | faultPinChange =>
      cases h
      exact hold.asksNoMore (asksNoMore_of_same rfl rfl rfl rfl)
    | terminalLevelChange k n v =>
      cases h
      have driven : AsksNoMore s (driveTerminal k n v s) := asksNoMore_of_same rfl rfl rfl rfl
      exact hold.asksNoMore (driven.trans (settle_asksNoMore s _))
    | boardLineLevelChange l v =>
      cases h
      have driven : AsksNoMore s (driveLine l v s) := asksNoMore_of_same rfl rfl rfl rfl
      exact hold.asksNoMore (driven.trans (settle_asksNoMore s _))
    | _ => exact absurd rfl hc

end

/-- Settles O55. Most operations only take records away or make them ask for less; LISTEN, CLAIM, AMEND and RENEW check what they add, a
grant makes the route that its claim was permitted, and a SET_POLICY enforces what it writes before its grant checks. -/
theorem policiesHoldKept : Obligations.PoliciesHoldKept := by
  intro s t hold h
  unfold step at h
  split at h
  · cases h
    exact hold.asksNoMore (advance_asksNoMore s 1)
  · rename_i c rest _
    have queued : PoliciesHold { s with pending := rest } := hold.asksNoMore (asksNoMore_of_same rfl rfl rfl rfl)
    exact exec_policiesHold queued h

end Sys2Proof.Machine

/-! RENEW (O31). -/

namespace Sys2Proof.Machine

/-! ### A lease decides nothing at the pins -/

section

variable (s : State) (r : RouteSlot) (g : Route → Option Nat)

theorem updRoute_lease_lineDriver (l : LineNo) : lineDriver (s.updRoute r fun x => { x with lease := g x }) l =
    (lineDriver s l).map fun p => (p.1, if r = p.1 then { p.2 with lease := g p.2 } else p.2) := by
  unfold lineDriver
  rw [show (s.updRoute r fun x => { x with lease := g x }).line l = s.line l from rfl]
  cases (s.line l).driver with
  | none => rfl
  | some q =>
    dsimp only
    rw [State.updRoute_route?]
    by_cases e : r = q
    · subst e
      rw [if_pos rfl]
      cases s.route? r with
      | none => rfl
      | some rt =>
        have live : Route.live { rt with lease := g rt } = rt.live := rfl
        have driver : Route.isDriver { rt with lease := g rt } = rt.isDriver := rfl
        simp only [Option.map_some, live, driver]
        split <;> simp
    · rw [if_neg e]
      cases s.route? q with
      | none => rfl
      | some rt =>
        dsimp only
        split <;> simp [e]

theorem updRoute_lease_lineShows (l : LineNo) : lineShows (s.updRoute r fun x => { x with lease := g x }) l = lineShows s l := by
  have held : (s.updRoute r fun x => { x with lease := g x }).held l = s.held l := State.held_congr rfl rfl l
  unfold lineShows
  rw [held, updRoute_lease_lineDriver]
  rw [show (s.updRoute r fun x => { x with lease := g x }).line l = s.line l from rfl,
    show (s.updRoute r fun x => { x with lease := g x }).policy l = s.policy l from rfl]
  cases lineDriver s l with
  | none => rfl
  | some p =>
    by_cases e : r = p.1
    · simp only [Option.map_some, if_pos e]
      cases (s.line l).state <;> rfl
    · simp only [Option.map_some, if_neg e]

theorem updRoute_lease_pinDrive (l : LineNo) : pinDrive (s.updRoute r fun x => { x with lease := g x }) l = pinDrive s l := by
  unfold pinDrive
  rw [updRoute_lease_lineShows]
  rfl

end

/-! ### The block of RENEW -/

section

variable {s : State} {h : HostId} {ps : List Byte} {r : RouteSlot} {gen : Byte} {rt : Route} {lease : Nat}

theorem routeAt?_of_names (names : NamesRoute s r gen rt) : routeAt? s r gen = some rt := by
  obtain ⟨hr, hg⟩ := names
  rw [routeAt?, if_pos hg, hr]

theorem renewAct_live (params : renewParams? ps = some (r, gen, lease)) (names : NamesRoute s r gen rt) (owner : rt.owner = h)
    (live : rt.live = true) : renewAct h ps s = (s.updRoute r fun x => { x with lease := leaseFor s lease (linesOf x.members) },
      ⟨.ok, bytes16 (resolveLease lease (effectiveMax s (linesOf rt.members)))⟩) := by
  simp only [renewAct, params, routeAt?_of_names names, owner, ne_eq, not_true_eq_false, if_false]
  split
  · rename_i closed
    simp [Route.live, closed] at live
  · rfl

theorem renewAct_closed (params : renewParams? ps = some (r, gen, lease)) (names : NamesRoute s r gen rt) (owner : rt.owner = h)
    {why : CloseReason} (closed : rt.state = .closed why) : renewAct h ps s = (s, alreadyClosed why) := by
  simp only [renewAct, params, routeAt?_of_names names, owner, ne_eq, not_true_eq_false, if_false, closed]

end

/-- Settles O31. The block changes one lease, which no line pin depends on. -/
theorem renewReplacesTheLease : Obligations.RenewReplacesTheLease := by
  intro h f s r gen rt lease offers admitted params names owner
  refine ⟨fun live => ?live, fun why closed => ?closed⟩
  case live =>
    have act := renewAct_live (s := popFrame h s) params names owner live
    have rest : KeepsRest (popFrame h s) ((popFrame h s).updRoute r fun x =>
        { x with lease := leaseFor (popFrame h s) lease (linesOf x.members) }) := by constructor <;> rfl
    have pins : ∀ l, pinDrive s l = pinDrive (queueReply h f ⟨.ok, bytes16 (resolveLease lease (effectiveMax s (linesOf rt.members)))⟩
        ((popFrame h s).updRoute r fun x => { x with lease := leaseFor (popFrame h s) lease (linesOf x.members) })) l := fun l => by
      rw [queueReply_pinDrive, updRoute_lease_pinDrive, popFrame_pinDrive]
    refine ⟨_, offers.exec admitted act, answeredWithin_of f rest _, ?_⟩
    rw [show effectiveMax (popFrame h s) = effectiveMax s from rfl, settle_same _ _ fun l => ⟨pins l, rfl⟩]
    refine ⟨⟨rfl, rfl, rfl⟩, rfl, rfl, rfl, rfl, rfl, ?_, fun q ne => ?_⟩
    · show ((popFrame h s).updRoute r _).routeEntry r = _
      rw [updRoute_routeEntry, if_pos rfl, popFrame_routeEntry, onRoute_of_route? names.1]
      rfl
    · show ((popFrame h s).updRoute r _).routeEntry q = _
      rw [updRoute_routeEntry, if_neg (Ne.symm ne), popFrame_routeEntry]
  case closed =>
    obtain ⟨t, ht, answered⟩ := offers.only_answers admitted (renewAct_closed (s := popFrame h s) params names owner closed)
    exact ⟨t, ht, by simpa [alreadyClosed, place] using answered⟩

end Sys2Proof.Machine

/-! Who configures the part (O48). -/

namespace Sys2Proof.Machine

/-! ### What leaves the configuration -/

/-- The five fields of a group that SET_GROUP writes. -/
def Group.config (x : Group) : GroupConfig := ⟨x.enabled, x.polarity, x.recovery, x.settleInterval, x.rearmMask⟩

/-- Policies, the configured fields of every group, and the supervisor are as they were. -/
structure KeepsConfiguration (s t : State) : Prop where
  policies : t.policies = s.policies
  groups : ∀ g, (t.group g).config = (s.group g).config
  supervisor : t.supervisor = s.supervisor

theorem KeepsConfiguration.refl (s : State) : KeepsConfiguration s s := ⟨rfl, fun _ => rfl, rfl⟩

theorem KeepsConfiguration.trans {s t u : State} (a : KeepsConfiguration s t) (b : KeepsConfiguration t u) : KeepsConfiguration s u :=
  ⟨b.policies.trans a.policies, fun g => (b.groups g).trans (a.groups g), b.supervisor.trans a.supervisor⟩

theorem KeepsRest.configuration {s t : State} (k : KeepsRest s t) : KeepsConfiguration s t :=
  ⟨k.policies, fun g => by simp only [State.group, k.groups], k.supervisor⟩

section

variable (s : State)

theorem settle_keepsConfiguration (t : State) : KeepsConfiguration t (settle s t) :=
  ⟨settle_policies s t, fun g => by rw [settle_group], settle_supervisor s t⟩

theorem updPort_keepsConfiguration (h : HostId) (f : Port → Port) : KeepsConfiguration s (s.updPort h f) := ⟨rfl, fun _ => rfl, rfl⟩

theorem advance_keepsConfiguration (d : Nat) : KeepsConfiguration s (advance d s) := by
  refine ⟨rfl, fun g => ?_, rfl⟩
  rw [State.group, advance, look_map]
  rfl

/-- A change of the state, flag or soft trip of a group is no change of its configuration. -/
theorem changeGroup_keepsConfiguration (g : GroupNo) {f : Group → Group} (h : ∀ x, (f x).config = x.config) :
    KeepsConfiguration s (changeGroup g f s) := by
  refine KeepsConfiguration.trans ?_ (passHeldChanges_keepsRest s (s.updGroup g f)).configuration
  refine ⟨rfl, fun k => ?_, rfl⟩
  rw [State.updGroup_group]
  split
  · exact h _
  · rfl

theorem settleEnd_keepsConfiguration (g : GroupNo) : KeepsConfiguration s (settleEnd g s) := by
  unfold settleEnd
  split
  · exact (advance_keepsConfiguration s _).trans (changeGroup_keepsConfiguration _ g fun _ => rfl)
  · exact .refl s

theorem qualifyAs_keepsConfiguration (g : GroupNo) (level : Level) (f : Qualifier → Qualifier) :
    KeepsConfiguration s (qualifyAs g level f s) := by
  refine KeepsConfiguration.trans ?_ (changeGroup_keepsConfiguration _ g fun _ => rfl)
  exact ⟨rfl, fun _ => rfl, rfl⟩

theorem qualify_keepsConfiguration (g : GroupNo) : KeepsConfiguration s (qualify g s) := by
  unfold qualify
  split
  · exact qualifyAs_keepsConfiguration s g _ _
  · exact (advance_keepsConfiguration s _).trans (qualifyAs_keepsConfiguration _ g _ _)
  · exact .refl s

theorem leaseEnd_keepsConfiguration (r : RouteSlot) : KeepsConfiguration s (leaseEnd r s) := by
  unfold leaseEnd
  split
  · exact .refl s
  · exact (advance_keepsConfiguration s _).trans ((closeRoute_keepsRest _ r _).trans (arbitrate_keepsRest _ _ _)).configuration

theorem breakEnd_keepsConfiguration (r : RouteSlot) : KeepsConfiguration s (breakEnd r s) := by
  unfold breakEnd
  split
  · exact .refl s
  · exact (advance_keepsConfiguration s _).trans ((activate_keepsRest _ r).trans (noteRoute_keepsRest _ _ r)).configuration

theorem waitEnd_keepsConfiguration (c : ClaimSlot) : KeepsConfiguration s (waitEnd c s) := by
  unfold waitEnd
  split
  · exact .refl s
  · exact (advance_keepsConfiguration s _).trans (expireWait_keepsRest _ c _).configuration

theorem resetLink_keepsConfiguration (h : HostId) (st : Byte) : KeepsConfiguration s (resetLink h st s) := by
  unfold resetLink
  dsimp only
  refine KeepsConfiguration.trans ?_ (updPort_keepsConfiguration _ h _)
  split
  · exact (endSession_keepsRest h s).configuration
  · exact .refl s

theorem onKind_keepsConfiguration (h : HostId) {f : Byte → State → State} (k : ∀ st, KeepsConfiguration s (f st s)) :
    KeepsConfiguration s (onKind h f s) := by
  unfold onKind
  split
  · exact .refl s
  · exact k _

theorem takeUnknown_keepsConfiguration (h : HostId) : KeepsConfiguration s (takeUnknown h s) := by
  unfold takeUnknown
  split
  · exact .refl s
  · split
    · exact .refl s
    · exact (updPort_keepsConfiguration s h _).trans (updPort_keepsConfiguration _ h _)

end

/-! ### The blocks of the requests -/

section

variable (h : HostId) (ps : List Byte) (s : State)

/-- No block but those of SET_POLICY and SET_GROUP configures anything. -/
theorem act_keepsConfiguration {code : ReqCode} (notPolicy : code ≠ .setPolicy) (notGroup : code ≠ .setGroup) :
    KeepsConfiguration s (code.act h ps s).1 := by
  have of_state {t : State} (e : t = s) : KeepsConfiguration s t := e ▸ .refl s
  cases code with
  | setPolicy => exact absurd rfl notPolicy
  | setGroup => exact absurd rfl notGroup
  | attach => exact (attachAct_keepsRest h ps s).configuration
  | detach => exact (endSession_keepsRest h s).configuration
  | collect => exact (collectAct_keepsRest h ps s).configuration
  | readLevels => exact .refl s
  | queryLine => exact of_state (queryLineAct_state h ps s)
  | queryPolicy => exact of_state (queryPolicyAct_state h ps s)
  | listen => exact (listenAct_keepsRest h ps s).configuration
  | release => exact (releaseAct_keepsRest h ps s).configuration
  | renew => exact (renewAct_keepsRest h ps s).configuration
  | revoke => exact (revokeAct_keepsRest h ps s).configuration
  | queryRoute => exact of_state (queryRouteAct_state h ps s)
  | claim => exact (claimAct_keepsRest h ps s).configuration
  | amend => exact (amendAct_keepsRest h ps s).configuration
  | cancel => exact (cancelAct_keepsRest h ps s).configuration
  | queryClaim => exact of_state (queryClaimAct_state h ps s)
  | trip =>
    show KeepsConfiguration s (tripAct h ps s).1
    unfold tripAct
    split
    · exact .refl s
    · split
      · exact .refl s
      · exact changeGroup_keepsConfiguration s _ fun _ => rfl
  | rearm =>
    show KeepsConfiguration s (rearmAct h ps s).1
    unfold rearmAct
    split
    · exact .refl s
    · split
      · exact .refl s
      · split
        · exact .refl s
        · exact changeGroup_keepsConfiguration s _ fun _ => rfl
  | queryGroup => exact of_state (queryGroupAct_state h ps s)

/-- SET_POLICY leaves the groups and the supervisor. -/
theorem setPolicyAct_keeps : (∀ g, (((setPolicyAct h ps s).1).group g) = s.group g) ∧ ((setPolicyAct h ps s).1).supervisor = s.supervisor := by
  refine ⟨fun g => ?_, (setPolicyAct_keepsSurroundings h ps s).supervisor⟩
  unfold setPolicyAct
  split
  · rfl
  · rename_i first last p _
    have groups : (applyPolicy first last p s).1.groups = s.groups :=
      (applyPolicy_keepsRest s first last p).groups.trans (writePolicies_groups first last s p)
    simp only [State.group, groups]

/-- SET_GROUP leaves the policies and the supervisor, and writes to no group but a CLEAR one (R116). -/
theorem setGroupAct_keeps : ((setGroupAct h ps s).1).policies = s.policies ∧ ((setGroupAct h ps s).1).supervisor = s.supervisor ∧
    ∀ g, (s.group g).state ≠ .clear → (((setGroupAct h ps s).1).group g) = s.group g := by
  refine ⟨?_, (setGroupAct_keepsSurroundings h ps s).supervisor, fun g busy => ?_⟩ <;> unfold setGroupAct <;> split
  · rfl
  · split
    · rfl
    · exact (passHeldChanges_keepsRest _ _).policies
  · rfl
  · rename_i k cfg _
    split
    · rfl
    · rename_i clear
      have rest := passHeldChanges_keepsRest s (s.updGroup k (configureGroup cfg (s.qualifier k).qualified))
      show State.group (passHeldChanges s (s.updGroup k _)) g = _
      rw [State.group, rest.groups, ← State.group, State.updGroup_group, if_neg]
      rintro rfl
      refine busy ?_
      cases st : (s.group k).state <;> simp_all [GroupState.isClear]

variable {h s}

/-- What taking a request makes of the state: nothing, a refusal, or what the block of an admitted request leaves; in each case up to
ports and pins. -/
theorem takeRequest_cases (code : ReqCode) : takeRequest code code.act h s = s ∨
    (∃ f a, takeRequest code code.act h s = settle s (queueReply h f a (popFrame h s))) ∨
    ∃ f a, Admitted s h code f ∧
      takeRequest code code.act h s = settle s (queueReply h f a (code.act h (frameParams f) (popFrame h s)).1) := by
  unfold takeRequest
  split
  · exact .inl rfl
  · rename_i f _
    split
    · refine .inr ?_
      dsimp only
      unfold carryOut
      split
      · exact .inl ⟨f, _, rfl⟩
      · rename_i passed
        exact .inr ⟨f, _, passed, rfl⟩
    · exact .inl rfl

/-- An admitted request of the supervisor alone comes from the ATTACHED supervisor (R143). -/
theorem admitted_supervisor {code : ReqCode} {f : List Byte} (ad : Admitted s h code f) (attachment : code.needsAttachment = true)
    (supervisor : code.needsSupervisor = true) : h = s.supervisor ∧ (s.session h).attached = true := by
  have passed : commonRefusal code h (frameParams f) s = none := ad
  unfold commonRefusal at passed
  split_ifs at passed with length attached authority
  simp_all

/-- Taking a request leaves the configuration, unless it is an admitted SET_POLICY or SET_GROUP. -/
theorem takeRequest_keepsConfiguration {code : ReqCode} (k : ∀ f, Admitted s h code f →
    KeepsConfiguration (popFrame h s) (code.act h (frameParams f) (popFrame h s)).1) :
    KeepsConfiguration s (takeRequest code code.act h s) := by
  have popped : KeepsConfiguration s (popFrame h s) := updPort_keepsConfiguration s h _
  have queued (f : List Byte) (a : Answer) (u : State) : KeepsConfiguration u (settle s (queueReply h f a u)) :=
    (updPort_keepsConfiguration u h _).trans (settle_keepsConfiguration s _)
  obtain e | ⟨f, a, e⟩ | ⟨f, a, ad, e⟩ := takeRequest_cases (h := h) (s := s) code <;> rw [e]
  · exact .refl s
  · exact popped.trans (queued f a _)
  · exact (popped.trans (k f ad)).trans (queued f a _)

end

/-! ### Every command -/

/-- The command is a SET_POLICY or a SET_GROUP. -/
def configures : Instr → Bool
  | .setPolicy _ | .setGroup _ => true
  | _ => false

theorem reaction_keepsConfiguration {c : Instr} (hc : configures c = false) (s : State) : KeepsConfiguration s (reaction c s) := by
  have port (h : HostId) (f : Port → Port) : KeepsConfiguration s (s.updPort h f) := updPort_keepsConfiguration s h f
  have settled {t : State} (k : KeepsConfiguration s t) : KeepsConfiguration s (settle s t) := k.trans (settle_keepsConfiguration s t)
  cases c with
  | setPolicy | setGroup => cases hc
  | transactionBegin h | write h => exact port h _
  | read h => exact onKind_keepsConfiguration s h (f := fun st t => t.updPort h (readReply st)) fun _ => port h _
  | readAgain h => exact onKind_keepsConfiguration s h (f := fun st t => t.updPort h (readReplyAgain st)) fun _ => port h _
  | linkReset h =>
    exact onKind_keepsConfiguration s h (f := fun st t => settle t (resetLink h st t)) fun st =>
      settled (resetLink_keepsConfiguration s h st)
  | unknownKind h =>
    unfold reaction
    dsimp only
    split
    · exact onKind_keepsConfiguration s h fun _ => port h _
    · exact .refl s
  | unknownRequest h => exact takeUnknown_keepsConfiguration s h
  | attach h | detach h | collect h | readLevels h | queryLine h | queryPolicy h | listen h | release h | renew h | revoke h
  | queryRoute h | claim h | amend h | cancel h | queryClaim h | trip h | rearm h | queryGroup h =>
    exact takeRequest_keepsConfiguration fun f _ => act_keepsConfiguration h _ _ (by decide) (by decide)
  | leaseExpiry r => exact settled (leaseEnd_keepsConfiguration s r)
  | breakExpiry r => exact settled (breakEnd_keepsConfiguration s r)
  | waitLimitExpiry c => exact settled (waitEnd_keepsConfiguration s c)
  | settleExpiry g => exact settled (settleEnd_keepsConfiguration s g)
  | qualifiedLevelChange g => exact settled (qualify_keepsConfiguration s g)
  | deviceReset | leaveReset | faultPinChange | terminalLevelChange | boardLineLevelChange => exact .refl s

/-- A SET_POLICY leaves the configuration but for the policies, which it leaves unless it is the ATTACHED supervisor's. -/
theorem reaction_setPolicy (h : HostId) (s : State) :
    (∀ g, ((reaction (.setPolicy h) s).group g).config = (s.group g).config) ∧ (reaction (.setPolicy h) s).supervisor = s.supervisor ∧
      ((reaction (.setPolicy h) s).policies ≠ s.policies → h = s.supervisor ∧ (s.session h).attached = true) := by
  show (∀ g, ((takeRequest .setPolicy setPolicyAct h s).group g).config = (s.group g).config) ∧
    (takeRequest .setPolicy setPolicyAct h s).supervisor = s.supervisor ∧
    ((takeRequest .setPolicy setPolicyAct h s).policies ≠ s.policies → h = s.supervisor ∧ (s.session h).attached = true)
  obtain e | ⟨f, a, e⟩ | ⟨f, a, ad, e⟩ := takeRequest_cases (h := h) (s := s) .setPolicy <;>
    rw [show takeRequest .setPolicy setPolicyAct h s = _ from e]
  · exact ⟨fun _ => rfl, rfl, fun ne => absurd rfl ne⟩
  · exact ⟨fun g => by rw [settle_group]; rfl, by simp, fun ne => absurd (by simp) ne⟩
  · obtain ⟨groups, supervisor⟩ := setPolicyAct_keeps h (frameParams f) (popFrame h s)
    refine ⟨fun g => ?_, ?_, fun _ => admitted_supervisor ad rfl rfl⟩
    · rw [settle_group]
      exact congrArg Group.config (groups g)
    · rw [settle_supervisor]
      exact supervisor

/-- A SET_GROUP leaves the configuration but for a CLEAR group, and only the ATTACHED supervisor's changes that. -/
theorem reaction_setGroup (h : HostId) (s : State) :
    (reaction (.setGroup h) s).policies = s.policies ∧ (reaction (.setGroup h) s).supervisor = s.supervisor ∧
      ∀ g, ((reaction (.setGroup h) s).group g).config ≠ (s.group g).config →
        h = s.supervisor ∧ (s.session h).attached = true ∧ (s.group g).state = .clear := by
  show (takeRequest .setGroup setGroupAct h s).policies = s.policies ∧ (takeRequest .setGroup setGroupAct h s).supervisor = s.supervisor ∧
    ∀ g, ((takeRequest .setGroup setGroupAct h s).group g).config ≠ (s.group g).config →
      h = s.supervisor ∧ (s.session h).attached = true ∧ (s.group g).state = .clear
  obtain e | ⟨f, a, e⟩ | ⟨f, a, ad, e⟩ := takeRequest_cases (h := h) (s := s) .setGroup <;>
    rw [show takeRequest .setGroup setGroupAct h s = _ from e]
  · exact ⟨rfl, rfl, fun _ ne => absurd rfl ne⟩
  · exact ⟨by simp, by simp, fun g ne => absurd (by rw [settle_group]; rfl) ne⟩
  · obtain ⟨policies, supervisor, groups⟩ := setGroupAct_keeps h (frameParams f) (popFrame h s)
    refine ⟨(taken_policies ..).trans policies, ?_, fun g changed => ?_⟩
    · rw [settle_supervisor]
      exact supervisor
    · obtain ⟨host, attached⟩ := admitted_supervisor ad rfl rfl
      refine ⟨host, attached, by_contra fun busy => changed ?_⟩
      rw [settle_group]
      exact congrArg Group.config (groups g busy)

theorem config_ne_of_field_ne {x y : Group} (h : y.enabled ≠ x.enabled ∨ y.polarity ≠ x.polarity ∨ y.recovery ≠ x.recovery ∨
    y.settleInterval ≠ x.settleInterval ∨ y.rearmMask ≠ x.rearmMask) : y.config ≠ x.config := by
  intro e
  simp only [Group.config, GroupConfig.mk.injEq] at e
  obtain ⟨enabled, polarity, recovery, interval, mask⟩ := e
  simp [enabled, polarity, recovery, interval, mask] at h

/-- What the command may configure: nothing, what the ATTACHED supervisor's SET_POLICY or SET_GROUP writes, or all as the part enters or
leaves reset. -/
theorem exec_configuration {c : Instr} {s t : State} (h : exec c s = .next t) : KeepsConfiguration s t ∨ c = .deviceReset ∨
    (∃ a b, c = .leaveReset a b ∧ ∀ g, (t.group g).config = (s.group g).config) ∨
    (∃ k, c = .setPolicy k ∧ t = reaction c s) ∨ ∃ k, c = .setGroup k ∧ t = reaction c s := by
  by_cases hc : actsInReset c = false
  · rw [exec_reaction hc] at h
    injection h with h
    subst h
    split
    · exact .inl (.refl s)
    · cases conf : configures c with
      | false => exact .inl (reaction_keepsConfiguration conf s)
      | true =>
        cases c with
        | setPolicy k => exact .inr (.inr (.inr (.inl ⟨k, rfl, rfl⟩)))
        | setGroup k => exact .inr (.inr (.inr (.inr ⟨k, rfl, rfl⟩)))
        | _ => cases conf
  · cases c with
    | deviceReset => exact .inr (.inl rfl)
    | leaveReset a b =>
      refine .inr (.inr (.inl ⟨a, b, rfl, fun g => ?_⟩))
      cases on : s.inReset with
      | true =>
        rw [exec_leaveReset a b s on] at h
        cases h
        rw [settle_group, leaveReset_group]
        rfl
      | false =>
        rw [exec_leaveReset_running a b s on] at h
        cases h
        rfl
    | faultPinChange =>
      cases h
      exact .inl ⟨rfl, fun _ => rfl, rfl⟩
    | terminalLevelChange k n v =>
      cases h
      have driven : KeepsConfiguration s (driveTerminal k n v s) := ⟨rfl, fun _ => rfl, rfl⟩
      exact .inl (driven.trans (settle_keepsConfiguration s _))
    | boardLineLevelChange l v =>
      cases h
      have driven : KeepsConfiguration s (driveLine l v s) := ⟨rfl, fun _ => rfl, rfl⟩
      exact .inl (driven.trans (settle_keepsConfiguration s _))
    | _ => exact absurd rfl hc

/-- Settles O48. Every command but five leaves the configuration, and of those a SET_POLICY or SET_GROUP acts only when admitted. -/
theorem onlyTheSupervisorConfigures : Obligations.OnlyTheSupervisorConfigures := by
  intro c s t h
  obtain kept | rfl | ⟨a, b, rfl, groups⟩ | ⟨k, rfl, rfl⟩ | ⟨k, rfl, rfl⟩ := exec_configuration h
  · exact ⟨fun ne => absurd kept.policies ne, fun g ne => absurd (kept.groups g) (config_ne_of_field_ne ne),
      fun ne => absurd kept.supervisor ne⟩
  · exact ⟨fun _ => .inl rfl, fun _ _ => .inl rfl, fun _ => .inl rfl⟩
  · exact ⟨fun _ => .inr (.inl ⟨a, b, rfl⟩), fun g ne => absurd (groups g) (config_ne_of_field_ne ne), fun _ => .inr ⟨a, b, rfl⟩⟩
  · obtain ⟨groups, supervisor, policies⟩ := reaction_setPolicy k s
    exact ⟨fun ne => .inr (.inr ⟨k, rfl, policies ne⟩), fun g ne => absurd (groups g) (config_ne_of_field_ne ne),
      fun ne => absurd supervisor ne⟩
  · obtain ⟨policies, supervisor, groups⟩ := reaction_setGroup k s
    exact ⟨fun ne => absurd policies ne, fun g ne => .inr ⟨k, rfl, groups g (config_ne_of_field_ne ne)⟩,
      fun ne => absurd supervisor ne⟩

end Sys2Proof.Machine

/-! The range checks (O16). -/

namespace Sys2Proof.Machine

/-! ### Fields as numbers -/

theorem below?_isSome (n : Nat) (b : Byte) : (below? n b).isSome ↔ b.toNat < n := by
  unfold below?
  split <;> simp_all

theorem below?_val {n : Nat} {b : Byte} {x : Fin n} (h : below? n b = some x) : x.val = b.toNat := by
  unfold below? at h
  split at h
  · cases h
    rfl
  · cases h

theorem field_toNat (b : Byte) (i w : Nat) : (field b i w).toNat = b.toNat / 2 ^ i % 2 ^ w := by
  rw [field, BitVec.extractLsb'_toNat, Nat.shiftRight_eq_div_pow]

theorem field_eq_zero (b : Byte) (i w : Nat) : field b i w = BitVec.ofNat w 0 ↔ b.toNat / 2 ^ i % 2 ^ w = 0 := by
  rw [← BitVec.toNat_inj, field_toNat]
  simp

theorem posture?_isSome (x : BitVec 3) : (posture? x).isSome ↔ x.toNat ≤ 4 := by
  unfold posture?
  split <;> simp_all
  omega

theorem driveMode?_isSome (x : BitVec 4) : (driveMode? x).isSome ↔ x.toNat ≤ 1 := by
  unfold driveMode?
  split <;> simp_all
  omega

@[simp] theorem paramAt_cons_zero (b : Byte) (ps : List Byte) : paramAt (b :: ps) 0 = b.toNat := rfl

@[simp] theorem paramAt_cons_succ (b : Byte) (ps : List Byte) (i : Nat) : paramAt (b :: ps) (i + 1) = paramAt ps i := rfl

theorem paramAt_drop (ps : List Byte) (k i : Nat) : paramAt (ps.drop k) i = paramAt ps (k + i) := by
  simp [paramAt, List.getD_eq_getElem?_getD, List.getElem?_drop]

/-! ### Lists of members -/

/-- Members can be read where every line and terminal is in range. -/
theorem members?_isSome {n : Nat} {bs : List Byte} (h : bs.length = 2 * n) :
    (members? bs).isSome ↔ ∀ i < n, paramAt bs (2 * i) < 40 ∧ paramAt bs (2 * i + 1) < 12 := by
  induction n generalizing bs with
  | zero =>
    obtain rfl : bs = [] := List.length_eq_zero_iff.mp h
    simp [members?]
  | succ n ih =>
    obtain _ | ⟨l, _ | ⟨t, rest⟩⟩ := bs
    · simp at h
    · simp at h; omega
    · have later := ih (bs := rest) (by simp at h; omega)
      have split : (members? (l :: t :: rest)).isSome ↔ (l.toNat < 40 ∧ t.toNat < 12) ∧ (members? rest).isSome := by
        rw [← below?_isSome 40 l, ← below?_isSome 12 t, members?]
        cases below? 40 l <;> cases below? 12 t <;> cases members? rest <;> simp
      rw [split, later, Nat.forall_lt_succ_left]
      rfl

/-- The members that are read are those that the bytes give, two for each. -/
theorem members?_getElem {bs : List Byte} {ms : List Member} (h : members? bs = some ms) : bs.length = 2 * ms.length ∧
    ∀ i (hi : i < ms.length), (ms[i].line).val = paramAt bs (2 * i) ∧ (ms[i].terminal).val = paramAt bs (2 * i + 1) := by
  induction ms generalizing bs with
  | nil =>
    obtain _ | ⟨l, _ | ⟨t, rest⟩⟩ := bs
    · simp
    · cases h
    · rw [members?] at h
      split at h <;> cases h
  | cons m ms ih =>
    obtain _ | ⟨l, _ | ⟨t, rest⟩⟩ := bs
    · cases h
    · cases h
    · rw [members?] at h
      split at h
      · rename_i line terminal others hl ht hrest
        cases h
        obtain ⟨length, bytes⟩ := ih hrest
        refine ⟨by simp [length]; omega, fun i hi => ?_⟩
        cases i with
        | zero => exact ⟨below?_val hl, below?_val ht⟩
        | succ i => exact bytes i (Nat.lt_of_succ_lt_succ hi)
      · cases h

theorem nodup_map_iff {α β : Type} (f : α → β) (xs : List α) :
    (xs.map f).Nodup ↔ ∀ i (hi : i < xs.length), ∀ j (hj : j < i), f xs[i] ≠ f (xs[j]'(hj.trans hi)) := by
  rw [List.Nodup, List.pairwise_iff_getElem]
  simp only [List.length_map, List.getElem_map]
  exact ⟨fun h i hi j hj e => h j i (hj.trans hi) hi hj e.symm, fun h i j _ hj hij e => h j hj i hij e.symm⟩

theorem membersOk_iff (ms : List Member) : membersOk ms = true ↔
    1 ≤ ms.length ∧ ms.length ≤ 8 ∧ (ms.map (·.line)).Nodup ∧ (ms.map (·.terminal)).Nodup := by
  simp [membersOk, and_assoc]

/-- Lines and terminals are distinct where the bytes they are read from differ. -/
theorem members?_distinct {bs : List Byte} {ms : List Member} (h : members? bs = some ms) :
    ((ms.map (·.line)).Nodup ∧ (ms.map (·.terminal)).Nodup) ↔ ∀ i < ms.length, ∀ j < i,
      paramAt bs (2 * i) ≠ paramAt bs (2 * j) ∧ paramAt bs (2 * i + 1) ≠ paramAt bs (2 * j + 1) := by
  obtain ⟨-, bytes⟩ := members?_getElem h
  rw [nodup_map_iff, nodup_map_iff]
  constructor
  · rintro ⟨lines, terminals⟩ i hi j hj
    obtain ⟨line, terminal⟩ := bytes i hi
    obtain ⟨line', terminal'⟩ := bytes j (hj.trans hi)
    rw [← line, ← terminal, ← line', ← terminal']
    exact ⟨fun e => lines i hi j hj (Fin.ext e), fun e => terminals i hi j hj (Fin.ext e)⟩
  · refine fun all => ⟨fun i hi j hj e => (all i hi j hj).1 ?_, fun i hi j hj e => (all i hi j hj).2 ?_⟩
    · rw [← (bytes i hi).1, ← (bytes j (hj.trans hi)).1, e]
    · rw [← (bytes i hi).2, ← (bytes j (hj.trans hi)).2, e]

/-- A members list is read just where it is in range (R55, R71). -/
theorem memberList?_isSome {ps : List Byte} {k : Nat} (h : ps.length = k + 2 * paramAt ps 0) :
    (memberList? (ps.drop k)).isSome ↔ MembersInRange ps k := by
  have read := members?_isSome (bs := ps.drop k) (n := paramAt ps 0) (by rw [List.length_drop]; omega)
  simp only [paramAt_drop, ← Nat.add_assoc] at read
  unfold memberList? MembersInRange
  cases hm : members? (ps.drop k) with
  | none =>
    rw [hm] at read
    simp only [Option.isSome_none, Bool.false_eq_true, false_iff] at read ⊢
    exact fun ⟨_, _, inRange, _⟩ => read inRange
  | some ms =>
    rw [hm] at read
    have inRange := read.mp rfl
    have distinct := members?_distinct hm
    simp only [paramAt_drop, ← Nat.add_assoc] at distinct
    have count : ms.length = paramAt ps 0 := by
      have length := (members?_getElem hm).1
      rw [List.length_drop] at length
      omega
    rw [← count] at inRange ⊢
    rw [← distinct]
    have ok := membersOk_iff ms
    by_cases passes : membersOk ms = true
    · obtain ⟨least, most, differ⟩ := ok.mp passes
      simp only [passes, if_true, Option.isSome_some, true_iff]
      exact ⟨least, most, inRange, differ⟩
    · simp only [passes, Bool.false_eq_true, if_false, Option.isSome_none, false_iff]
      exact fun ⟨least, most, _, differ⟩ => passes (ok.mpr ⟨least, most, differ⟩)

/-! ### The parameters of each request -/

section

variable {ps : List Byte}

theorem exists_bytes_of_length {n : Nat} (h : ps.length = n + 1) : ∃ b rest, ps = b :: rest ∧ rest.length = n := by
  cases ps with
  | nil => cases h
  | cons b rest => exact ⟨b, rest, rfl, Nat.succ.inj h⟩

theorem lineParam?_isSome (h : ps.length = 1) : (lineParam? ps).isSome ↔ paramAt ps 0 < 40 := by
  obtain ⟨b, rfl⟩ := List.length_eq_one_iff.mp h
  exact below?_isSome 40 b

theorem groupParam?_isSome (h : ps.length = 1) : (groupParam? ps).isSome ↔ paramAt ps 0 < 8 := by
  obtain ⟨b, rfl⟩ := List.length_eq_one_iff.mp h
  exact below?_isSome 8 b

theorem routeRef?_isSome (h : ps.length = 2) : (routeRef? ps).isSome ↔ paramAt ps 0 < 96 := by
  obtain ⟨b, g, rfl⟩ := List.length_eq_two.mp h
  rw [routeRef?, Option.isSome_map]
  exact below?_isSome 96 b

theorem claimRef?_isSome (h : ps.length = 2) : (claimRef? ps).isSome ↔ paramAt ps 0 < 32 := by
  obtain ⟨b, g, rfl⟩ := List.length_eq_two.mp h
  rw [claimRef?, Option.isSome_map]
  exact below?_isSome 32 b

theorem renewParams?_isSome (h : ps.length = 4) : (renewParams? ps).isSome ↔ paramAt ps 0 < 96 := by
  obtain ⟨b, g, hi, lo, rfl⟩ : ∃ b g hi lo, ps = [b, g, hi, lo] := by
    obtain ⟨b, rest, rfl, h₁⟩ := exists_bytes_of_length h
    obtain ⟨g, hi, lo, rfl⟩ := List.length_eq_three.mp h₁
    exact ⟨b, g, hi, lo, rfl⟩
  rw [renewParams?, Option.isSome_map]
  exact below?_isSome 96 b

theorem amendParams?_isSome (h : ps.length = 5) : (amendParams? ps).isSome ↔ paramAt ps 0 < 32 ∧ paramAt ps 2 < 4 := by
  obtain ⟨b, g, p, hi, lo, rfl⟩ : ∃ b g p hi lo, ps = [b, g, p, hi, lo] := by
    obtain ⟨b, rest, rfl, h₁⟩ := exists_bytes_of_length h
    obtain ⟨g, rest, rfl, h₂⟩ := exists_bytes_of_length h₁
    obtain ⟨p, hi, lo, rfl⟩ := List.length_eq_three.mp h₂
    exact ⟨b, g, p, hi, lo, rfl⟩
  show _ ↔ b.toNat < 32 ∧ p.toNat < 4
  rw [← below?_isSome 32 b, ← below?_isSome 4 p, amendParams?]
  cases below? 32 b <;> cases below? 4 p <;> simp

theorem listenParams?_isSome (h : ps.length = 3 + 2 * paramAt ps 0) : (listenParams? ps).isSome ↔ MembersInRange ps 3 := by
  rw [← memberList?_isSome h]
  obtain _ | ⟨n, _ | ⟨hi, _ | ⟨lo, rest⟩⟩⟩ := ps
  · cases h
  · simp at h; omega
  · simp at h; omega
  · rw [listenParams?, Option.isSome_map]
    rfl

theorem claimParams?_isSome (h : ps.length = 6 + 2 * paramAt ps 0) :
    (claimParams? ps).isSome ↔ paramAt ps 1 / 16 ≤ 3 ∧ paramAt ps 1 % 16 ≤ 1 ∧ MembersInRange ps 6 := by
  rw [← memberList?_isSome h]
  obtain _ | ⟨n, _ | ⟨pm, _ | ⟨lhi, _ | ⟨llo, _ | ⟨whi, _ | ⟨wlo, rest⟩⟩⟩⟩⟩⟩ := ps
  case cons.cons.cons.cons.cons.cons =>
    have small := pm.isLt
    have priority : (below? 4 ((field pm 4 4).setWidth 8)).isSome ↔ pm.toNat / 16 ≤ 3 := by
      rw [below?_isSome, BitVec.toNat_setWidth, field_toNat]
      omega
    have mode : (driveMode? (field pm 0 4)).isSome ↔ pm.toNat % 16 ≤ 1 := by
      rw [driveMode?_isSome, field_toNat, pow_zero, Nat.div_one]
      rfl
    show _ ↔ pm.toNat / 16 ≤ 3 ∧ pm.toNat % 16 ≤ 1 ∧ (memberList? rest).isSome
    rw [← priority, ← mode, claimParams?]
    cases below? 4 ((field pm 4 4).setWidth 8) <;> cases driveMode? (field pm 0 4) <;> cases memberList? rest <;> simp
  all_goals
    simp at h
    try omega

/-- The reserved bits, modes and break interval of a policy record, as numbers. -/
theorem policy_bits (pm post bhi blo : Byte) : (field pm 2 2 = 0#2 ∧ field pm 0 2 ≠ 0#2 ∧ field post 7 1 = 0#1 ∧ field post 3 1 = 0#1 ∧
      word16 bhi blo ≤ 1000) ↔ pm.toNat / 4 % 4 = 0 ∧ pm.toNat % 4 ≠ 0 ∧ post.toNat / 128 = 0 ∧ post.toNat / 8 % 2 = 0 ∧
      256 * bhi.toNat + blo.toNat ≤ 1000 := by
  have small := post.isLt
  rw [field_eq_zero, ne_eq, field_eq_zero, field_eq_zero, field_eq_zero, word16]
  omega

theorem policyOfBytes?_isSome (masks pm post gs mhi mlo bhi blo : Byte) :
    (policyOfBytes? [masks, pm, post, gs, mhi, mlo, bhi, blo]).isSome ↔
      pm.toNat / 4 % 4 = 0 ∧ pm.toNat % 4 ≠ 0 ∧ post.toNat / 128 = 0 ∧ post.toNat / 16 % 8 ≤ 4 ∧ post.toNat / 8 % 2 = 0 ∧
        post.toNat % 8 ≤ 4 ∧ 256 * bhi.toNat + blo.toNat ≤ 1000 := by
  have resting := posture?_isSome (field post 4 3)
  have safe := posture?_isSome (field post 0 3)
  rw [field_toNat] at resting safe
  simp only [Nat.pow_zero, Nat.div_one] at resting safe
  rw [policyOfBytes?]
  simp only [policy_bits]
  cases hr : posture? (field post 4 3) with
  | none =>
    simp [hr] at resting ⊢
    omega
  | some r =>
    cases hs : posture? (field post 0 3) with
    | none =>
      simp [hs] at safe ⊢
      omega
    | some x =>
      simp [hr] at resting
      simp [hs] at safe
      split <;> simp <;> omega

theorem setPolicyParams?_isSome (h : ps.length = 10) : (setPolicyParams? ps).isSome ↔ PolicyInRange ps := by
  obtain ⟨f, rest, rfl, h₁⟩ := exists_bytes_of_length h
  obtain ⟨l, rest, rfl, h₂⟩ := exists_bytes_of_length h₁
  obtain ⟨masks, rest, rfl, h₃⟩ := exists_bytes_of_length h₂
  obtain ⟨pm, rest, rfl, h₄⟩ := exists_bytes_of_length h₃
  obtain ⟨post, rest, rfl, h₅⟩ := exists_bytes_of_length h₄
  obtain ⟨gs, rest, rfl, h₆⟩ := exists_bytes_of_length h₅
  obtain ⟨mhi, rest, rfl, h₇⟩ := exists_bytes_of_length h₆
  obtain ⟨mlo, bhi, blo, rfl⟩ := List.length_eq_three.mp h₇
  show _ ↔ f.toNat ≤ l.toNat ∧ l.toNat < 40 ∧ pm.toNat / 4 % 4 = 0 ∧ pm.toNat % 4 ≠ 0 ∧ post.toNat / 128 = 0 ∧ post.toNat / 16 % 8 ≤ 4 ∧
    post.toNat / 8 % 2 = 0 ∧ post.toNat % 8 ≤ 4 ∧ 256 * bhi.toNat + blo.toNat ≤ 1000
  rw [← policyOfBytes?_isSome masks pm post gs mhi mlo bhi blo, setPolicyParams?]
  have first := below?_isSome 40 f
  have last := below?_isSome 40 l
  cases hf : below? 40 f with
  | none =>
    simp [hf] at first ⊢
    omega
  | some x =>
    cases hl : below? 40 l with
    | none =>
      simp [hl] at last ⊢
      omega
    | some y =>
      rw [hl] at last
      have order : x ≤ y ↔ f.toNat ≤ l.toNat := by
        rw [← below?_val hf, ← below?_val hl]
        rfl
      cases policyOfBytes? [masks, pm, post, gs, mhi, mlo, bhi, blo] with
      | none => simp
      | some p => by_cases le : f.toNat ≤ l.toNat <;> simp [order, le, last.mp rfl]

theorem setGroupParams?_isSome (h : ps.length = 4) : (setGroupParams? ps).isSome ↔ paramAt ps 0 < 8 ∧ paramAt ps 1 / 16 % 2 = 0 ∧
    1 ≤ 256 * paramAt ps 2 + paramAt ps 3 ∧ 256 * paramAt ps 2 + paramAt ps 3 ≤ 4095 := by
  obtain ⟨g, rest, rfl, h₁⟩ := exists_bytes_of_length h
  obtain ⟨cfg, hi, lo, rfl⟩ := List.length_eq_three.mp h₁
  have bits : (field cfg 4 1 = 0#1 ∧ 1 ≤ word16 hi lo ∧ word16 hi lo ≤ 4095) ↔
      cfg.toNat / 16 % 2 = 0 ∧ 1 ≤ 256 * hi.toNat + lo.toNat ∧ 256 * hi.toNat + lo.toNat ≤ 4095 := by
    rw [field_eq_zero, word16]
    omega
  show _ ↔ g.toNat < 8 ∧ cfg.toNat / 16 % 2 = 0 ∧ 1 ≤ 256 * hi.toNat + lo.toNat ∧ 256 * hi.toNat + lo.toNat ≤ 4095
  rw [← bits, ← below?_isSome 8 g, setGroupParams?]
  cases below? 8 g with
  | none => simp
  | some x =>
    dsimp only
    split <;> simp_all

end

/-! ### Every request -/

/-- The parameters of a request can be read. -/
def ReqCode.readable (code : ReqCode) (ps : List Byte) : Bool :=
  match code with
  | .attach | .detach | .collect | .readLevels => true
  | .queryLine | .queryPolicy => (lineParam? ps).isSome
  | .setPolicy => (setPolicyParams? ps).isSome
  | .listen => (listenParams? ps).isSome
  | .release | .revoke | .queryRoute => (routeRef? ps).isSome
  | .renew => (renewParams? ps).isSome
  | .claim => (claimParams? ps).isSome
  | .amend => (amendParams? ps).isSome
  | .cancel | .queryClaim => (claimRef? ps).isSome
  | .setGroup => (setGroupParams? ps).isSome
  | .trip | .rearm | .queryGroup => (groupParam? ps).isSome

theorem length_of_countedLength {fixed : Nat} {ps : List Byte} (h : countedLength fixed ps = true) :
    ps.length = fixed + 2 * paramAt ps 0 := by
  cases ps with
  | nil => cases h
  | cons n rest => exact of_decide_eq_true h

/-- At a permitted length, the parameters can be read just where every field is in range. -/
theorem ReqCode.readable_iff {code : ReqCode} {ps : List Byte} (h : code.lengthOk ps = true) : code.readable ps = true ↔ code.InRange ps := by
  cases code with
  | attach | detach | collect | readLevels => exact iff_of_true rfl trivial
  | queryLine | queryPolicy => exact lineParam?_isSome (of_decide_eq_true h)
  | setPolicy => exact setPolicyParams?_isSome (of_decide_eq_true h)
  | listen => exact listenParams?_isSome (length_of_countedLength h)
  | release | revoke | queryRoute => exact routeRef?_isSome (of_decide_eq_true h)
  | renew => exact renewParams?_isSome (of_decide_eq_true h)
  | claim => exact claimParams?_isSome (length_of_countedLength h)
  | amend => exact amendParams?_isSome (of_decide_eq_true h)
  | cancel | queryClaim => exact claimRef?_isSome (of_decide_eq_true h)
  | setGroup => exact setGroupParams?_isSome (of_decide_eq_true h)
  | trip | rearm | queryGroup => exact groupParam?_isSome (of_decide_eq_true h)

section

variable {h : HostId} {ps : List Byte} {s : State}

/-- A block refuses BAD_PARAMETER, changing nothing, just where it cannot read its parameters. -/
structure Judges (readable : Bool) (s : State) (r : State × Answer) : Prop where
  unreadable : readable = false → r = refuse .badParameter s
  otherwise : readable = true → r.2.status ≠ .badParameter

theorem Judges.refuses : Judges false s (refuse .badParameter s) := ⟨fun _ => rfl, nofun⟩

theorem Judges.answers {r : State × Answer} (k : r.2.status ≠ .badParameter) : Judges true s r := ⟨nofun, fun _ => k⟩

theorem Judges.always {r : State × Answer} (k : r.2.status = .ok) : Judges true s r := .answers (by rw [k]; decide)

theorem listenRefusal_ne {ms : List Member} {st : Status} (k : listenRefusal s h ms = some st) : st ≠ .badParameter := by
  unfold listenRefusal at k
  grind

theorem claimRefusal_ne {p : ClaimParams} {st : Status} (k : claimRefusal s h p = some st) : st ≠ .badParameter := by
  unfold claimRefusal at k
  grind

theorem claimRefRefusal_ne {cl : Option Claim} {st : Status} (k : claimRefRefusal h cl = some st) : st ≠ .badParameter := by
  unfold claimRefRefusal at k
  grind

theorem answerClaim_status_ne (c : ClaimSlot) (s : State) : (answerClaim c s).2.status ≠ .badParameter := by
  unfold answerClaim
  split
  · exact nofun
  · split <;> exact nofun

theorem releaseRoute_status_ne (r : RouteSlot) (rt : Route) (s : State) : (releaseRoute r rt s).2.status ≠ .badParameter := by
  unfold releaseRoute
  dsimp only
  split <;> exact nofun

theorem attachAct_status : (attachAct h ps s).2.status = .ok := by
  unfold attachAct
  split <;> rfl

theorem listenAct_judges : Judges (listenParams? ps).isSome s (listenAct h ps s) := by
  unfold listenAct
  cases listenParams? ps with
  | none => exact .refuses
  | some p =>
    refine .answers ?_
    dsimp only
    split
    · exact listenRefusal_ne ‹_›
    · exact nofun
    · exact nofun

theorem releaseAct_judges : Judges (routeRef? ps).isSome s (releaseAct h ps s) := by
  unfold releaseAct
  cases routeRef? ps with
  | none => exact .refuses
  | some x =>
    refine .answers ?_
    dsimp only
    split
    · exact nofun
    · split
      · exact nofun
      · exact releaseRoute_status_ne _ _ _

theorem renewAct_judges : Judges (renewParams? ps).isSome s (renewAct h ps s) := by
  unfold renewAct
  cases renewParams? ps with
  | none => exact .refuses
  | some x =>
    refine .answers ?_
    dsimp only
    split
    · exact nofun
    · split
      · exact nofun
      · split <;> exact nofun

theorem revokeAct_judges : Judges (routeRef? ps).isSome s (revokeAct h ps s) := by
  unfold revokeAct
  cases routeRef? ps with
  | none => exact .refuses
  | some x =>
    refine .answers ?_
    dsimp only
    split
    · exact nofun
    · split <;> exact nofun

theorem queryRouteAct_judges : Judges (routeRef? ps).isSome s (queryRouteAct h ps s) := by
  unfold queryRouteAct
  cases routeRef? ps with
  | none => exact .refuses
  | some x =>
    refine .answers ?_
    dsimp only
    split <;> exact nofun

theorem claimAct_judges : Judges (claimParams? ps).isSome s (claimAct h ps s) := by
  unfold claimAct
  cases claimParams? ps with
  | none => exact .refuses
  | some p =>
    refine .answers ?_
    dsimp only
    split
    · exact claimRefusal_ne ‹_›
    · exact nofun
    · exact answerClaim_status_ne _ _

theorem amendAct_judges : Judges (amendParams? ps).isSome s (amendAct h ps s) := by
  unfold amendAct
  cases amendParams? ps with
  | none => exact .refuses
  | some x =>
    refine .answers ?_
    dsimp only
    split
    · exact claimRefRefusal_ne ‹_›
    · exact nofun
    · split
      · exact nofun
      · exact answerClaim_status_ne _ _

theorem cancelAct_judges : Judges (claimRef? ps).isSome s (cancelAct h ps s) := by
  unfold cancelAct
  cases claimRef? ps with
  | none => exact .refuses
  | some x =>
    refine .answers ?_
    dsimp only
    split
    · exact claimRefRefusal_ne ‹_›
    · exact nofun
    · exact nofun

theorem queryClaimAct_judges : Judges (claimRef? ps).isSome s (queryClaimAct h ps s) := by
  unfold queryClaimAct
  cases claimRef? ps with
  | none => exact .refuses
  | some x =>
    refine .answers ?_
    dsimp only
    split <;> exact nofun

theorem setGroupAct_judges : Judges (setGroupParams? ps).isSome s (setGroupAct h ps s) := by
  unfold setGroupAct
  cases setGroupParams? ps with
  | none => exact .refuses
  | some x =>
    refine .answers ?_
    dsimp only
    split <;> exact nofun

theorem tripAct_judges : Judges (groupParam? ps).isSome s (tripAct h ps s) := by
  unfold tripAct
  cases groupParam? ps with
  | none => exact .refuses
  | some x =>
    refine .answers ?_
    dsimp only
    split <;> exact nofun

theorem rearmAct_judges : Judges (groupParam? ps).isSome s (rearmAct h ps s) := by
  unfold rearmAct
  cases groupParam? ps with
  | none => exact .refuses
  | some x =>
    refine .answers ?_
    dsimp only
    split
    · exact nofun
    · split <;> exact nofun

theorem queryLineAct_judges : Judges (lineParam? ps).isSome s (queryLineAct h ps s) := by
  unfold queryLineAct
  cases lineParam? ps with
  | none => exact .refuses
  | some l => exact .always rfl

theorem queryPolicyAct_judges : Judges (lineParam? ps).isSome s (queryPolicyAct h ps s) := by
  unfold queryPolicyAct
  cases lineParam? ps with
  | none => exact .refuses
  | some l => exact .always rfl

theorem queryGroupAct_judges : Judges (groupParam? ps).isSome s (queryGroupAct h ps s) := by
  unfold queryGroupAct
  cases groupParam? ps with
  | none => exact .refuses
  | some g => exact .always rfl

theorem setPolicyAct_judges : Judges (setPolicyParams? ps).isSome s (setPolicyAct h ps s) := by
  unfold setPolicyAct
  cases setPolicyParams? ps with
  | none => exact .refuses
  | some x => exact .always rfl

theorem ReqCode.act_judges (code : ReqCode) : Judges (code.readable ps) s (code.act h ps s) := by
  cases code with
  | attach => exact .always (attachAct_status (ps := ps))
  | detach | collect | readLevels => exact .always rfl
  | queryLine => exact queryLineAct_judges (h := h)
  | setPolicy => exact setPolicyAct_judges (h := h)
  | queryPolicy => exact queryPolicyAct_judges (h := h)
  | listen => exact listenAct_judges
  | release => exact releaseAct_judges
  | renew => exact renewAct_judges
  | revoke => exact revokeAct_judges (h := h)
  | queryRoute => exact queryRouteAct_judges (h := h)
  | claim => exact claimAct_judges
  | amend => exact amendAct_judges
  | cancel => exact cancelAct_judges
  | queryClaim => exact queryClaimAct_judges (h := h)
  | setGroup => exact setGroupAct_judges (h := h)
  | trip => exact tripAct_judges (h := h)
  | rearm => exact rearmAct_judges
  | queryGroup => exact queryGroupAct_judges (h := h)

theorem Admitted.lengthOk {code : ReqCode} {f : List Byte} (ad : Admitted s h code f) : code.lengthOk (frameParams f) = true := by
  by_contra no
  rw [Admitted, commonRefusal, if_pos (by simpa using no)] at ad
  cases ad

end

/-- Settles O16: at a permitted length the parameters can be read just where every field is in range, and a block refuses BAD_PARAMETER
just where it cannot read them. -/
theorem rangeChecksRefuse : Obligations.RangeChecksRefuse := by
  unfold Obligations.RangeChecksRefuse
  intro code h f s offers admitted
  have readable := ReqCode.readable_iff admitted.lengthOk
  have judged := code.act_judges (h := h) (ps := frameParams f) (s := popFrame h s)
  constructor
  · intro out
    exact offers.only_answers admitted (judged.unreadable (Bool.eq_false_iff.mpr (mt readable.mp out)))
  · intro inside
    exact ⟨_, _, offers.exec admitted rfl, answered_of f (act_keepsSurroundings _ _ _ code).ports _,
      judged.otherwise (readable.mpr inside)⟩

end Sys2Proof.Machine

/-! QUERY_POLICY and QUERY_GROUP (O25). -/

namespace Sys2Proof.Machine

/-! ### Bytes that are sent and read again -/

@[simp] theorem place_zero (n : Nat) : place n 0 = BitVec.ofNat 8 n := BitVec.shiftLeft_zero _

theorem below?_ofNat {n : Nat} (i : Fin n) (hn : n ≤ 256) : below? n (BitVec.ofNat 8 i.val) = some i := by
  have small : (BitVec.ofNat 8 i.val).toNat = i.val := by
    rw [BitVec.toNat_ofNat]
    omega
  simp [below?, small]

/-- A number below 65536 reads back from its two bytes. -/
theorem word16_bytes16 {n : Nat} (h : n < 65536) : word16 (BitVec.ofNat 8 (n / 256)) (BitVec.ofNat 8 n) = n := by
  simp only [word16, BitVec.toNat_ofNat]
  omega

theorem field_append_high (x y : BitVec 4) : field (x ++ y) 4 4 = x := by
  revert x y
  decide

theorem field_append_low (x y : BitVec 4) : field (x ++ y) 0 4 = y := by
  revert x y
  decide

theorem field_preempt (x : BitVec 4) (y : BitVec 2) : field (x ++ (0#2 ++ y)) 4 4 = x := field_append_high x (0#2 ++ y)

theorem field_modes_low (x : BitVec 4) (y : BitVec 2) : field (x ++ (0#2 ++ y)) 0 2 = y := by
  revert x y
  decide

theorem field_modes_high (x : BitVec 4) (y : BitVec 2) : field (x ++ (0#2 ++ y)) 2 2 = 0#2 := by
  revert x y
  decide

/-- Both postures of a policy read back from their byte, and its reserved bits are zero. -/
theorem postures_byte (a b : Posture) : posture? (field (place a.code 4 ||| place b.code 0) 4 3) = some a ∧
    posture? (field (place a.code 4 ||| place b.code 0) 0 3) = some b ∧ field (place a.code 4 ||| place b.code 0) 7 1 = 0#1 ∧
    field (place a.code 4 ||| place b.code 0) 3 1 = 0#1 := by
  cases a <;> cases b <;> decide

/-- A policy that SET_POLICY can write reads back from the bytes that QUERY_POLICY sends (R32). -/
theorem policyOfBytes?_policyBytes {p : Policy} (modes : p.modes ≠ 0#2) (lease : p.maxLease < 65536) (breaks : p.breakInterval ≤ 1000) :
    policyOfBytes? (policyBytes p) = some p := by
  obtain ⟨rest, safe, high, low⟩ := postures_byte p.restPosture p.safePosture
  have interval := word16_bytes16 (n := p.breakInterval) (by omega)
  simp only [policyBytes, bytes16, List.cons_append, List.nil_append, policyOfBytes?, rest, safe, high, low, word16_bytes16 lease, interval,
    field_append_high, field_append_low, field_preempt, field_modes_high, field_modes_low]
  rw [if_pos ⟨trivial, modes, trivial, trivial, breaks⟩]

theorem groupConfigByte_bits (x : Group) : field (groupConfigByte x) 4 1 = 0#1 ∧ (groupConfigByte x).getLsbD 7 = x.enabled ∧
    (groupConfigByte x).getLsbD 6 = decide (x.polarity = .activeHigh) ∧ (groupConfigByte x).getLsbD 5 = decide (x.recovery = .auto) ∧
    field (groupConfigByte x) 0 4 = x.rearmMask := by
  unfold groupConfigByte
  generalize x.enabled = e, decide (x.polarity = .activeHigh) = p, decide (x.recovery = .auto) = r, x.rearmMask = m
  revert e p r m
  decide

/-- A group's configuration reads back from the bytes that QUERY_GROUP sends (R120). -/
theorem setGroupParams?_config (g : GroupNo) {x : Group} (least : 1 ≤ x.settleInterval) (most : x.settleInterval ≤ 4095) :
    setGroupParams? ([place g.val 0, groupConfigByte x] ++ bytes16 x.settleInterval) =
      some (g, ⟨x.enabled, x.polarity, x.recovery, x.settleInterval, x.rearmMask⟩) := by
  obtain ⟨reserved, enabled, polarity, recovery, mask⟩ := groupConfigByte_bits x
  have slot : below? 8 (place g.val 0) = some g := place_zero g.val ▸ below?_ofNat g (by omega)
  have interval := word16_bytes16 (n := x.settleInterval) (by omega)
  have polarity' : (if (groupConfigByte x).getLsbD 6 then Polarity.activeHigh else .activeLow) = x.polarity := by
    rw [polarity]
    cases x.polarity <;> rfl
  have recovery' : (if (groupConfigByte x).getLsbD 5 then Recovery.auto else .manual) = x.recovery := by
    rw [recovery]
    cases x.recovery <;> rfl
  simp only [bytes16, List.cons_append, List.nil_append, setGroupParams?, slot, interval, enabled, polarity', recovery', mask]
  rw [if_pos ⟨reserved, least, most⟩]

theorem groupStatus_bits (x : Group) : ((groupStatus x).extractLsb' 0 2).toNat = x.state.code ∧
    (groupStatus x).getLsbD 4 = x.inputAsserted ∧ (groupStatus x).getLsbD 5 = x.softTrip := by
  have code : x.state.code < 4 := by cases x.state <;> simp [GroupState.code]
  unfold groupStatus
  generalize x.state.code = c, x.inputAsserted = i, x.softTrip = t at *
  revert i t
  interval_cases c <;> decide

theorem GroupState.isClear_eq_false (st : GroupState) : st.isClear = false ↔ st ≠ .clear := by
  cases st <;> simp [GroupState.isClear]

/-- A group alone holds a line when it is the one group of the line's set that is not CLEAR (R120). -/
theorem heldAlone_iff (s : State) (g : GroupNo) (l : LineNo) : heldAlone s g l = true ↔
    ∀ k : GroupNo, ((s.policy l).groupSet.getLsbD k.val = true ∧ (s.group k).state ≠ .clear) ↔ k = g := by
  simp only [heldAlone, inGroup, Bool.and_eq_true, Bool.not_eq_true', List.any_eq_false, mem_every, true_implies, decide_eq_true_eq,
    GroupState.isClear_eq_false, not_and]
  constructor
  · rintro ⟨⟨named, raised⟩, others⟩ k
    exact ⟨fun ⟨hk, rk⟩ => by_contra fun ne => others k ⟨ne, hk⟩ rk, fun e => e ▸ ⟨named, raised⟩⟩
  · intro all
    exact ⟨(all g).mpr rfl, fun k ⟨ne, hk⟩ rk => ne ((all k).mp ⟨hk, rk⟩)⟩

/-! ### The two queries -/

theorem queryPolicy_admitted {h : HostId} {f : List Byte} (s : State) {b : Byte} (hp : frameParams f = [b]) :
    Admitted s h .queryPolicy f := by
  show commonRefusal .queryPolicy h (frameParams f) s = none
  simp [commonRefusal, hp, ReqCode.lengthOk, ReqCode.needsAttachment, ReqCode.needsSupervisor]

theorem queryGroup_admitted {h : HostId} {f : List Byte} (s : State) {b : Byte} (hp : frameParams f = [b]) :
    Admitted s h .queryGroup f := by
  show commonRefusal .queryGroup h (frameParams f) s = none
  simp [commonRefusal, hp, ReqCode.lengthOk, ReqCode.needsAttachment, ReqCode.needsSupervisor]

theorem queryPolicyAct_ofNat (h : HostId) (l : LineNo) (s : State) :
    queryPolicyAct h [BitVec.ofNat 8 l.val] s = (s, ⟨.ok, BitVec.ofNat 8 l.val :: policyBytes (s.policy l)⟩) := by
  have slot : lineParam? [BitVec.ofNat 8 l.val] = some l := below?_ofNat l (by omega)
  rw [queryPolicyAct, slot]
  dsimp only
  rw [place_zero]

/-- The results of QUERY_GROUP (R120, 10.6). -/
def groupReport (s : State) (g : GroupNo) : List Byte :=
  [place g.val 0, groupConfigByte (s.group g)] ++ bytes16 (s.group g).settleInterval ++
    [groupStatus (s.group g)] ++ bytes16 (settleMillis (s.group g).state) ++ lineSet (inGroup s g) ++ lineSet (heldAlone s g)

theorem queryGroupAct_ofNat (h : HostId) (g : GroupNo) (s : State) :
    queryGroupAct h [BitVec.ofNat 8 g.val] s = (s, ⟨.ok, groupReport s g⟩) := by
  have slot : groupParam? [BitVec.ofNat 8 g.val] = some g := below?_ofNat g (by omega)
  rw [queryGroupAct, slot]
  rfl

theorem groupReport_length (s : State) (g : GroupNo) : (groupReport s g).length = 17 := by
  simp [groupReport, bytes16, lineSet_length]

/-- The line sets stand in bytes 7 to 11 and 12 to 16. -/
theorem groupReport_lines (s : State) (g : GroupNo) (l : LineNo) :
    ((groupReport s g).getD (7 + l.val / 8) 0#8).getLsbD (l.val % 8) = inGroup s g l ∧
      ((groupReport s g).getD (12 + l.val / 8) 0#8).getLsbD (l.val % 8) = heldAlone s g l := by
  obtain ⟨members, alone⟩ := lineSets_getLsbD (inGroup s g) (heldAlone s g) l
  have after (i : Nat) : (groupReport s g).getD (7 + i) 0#8 = (lineSet (inGroup s g) ++ lineSet (heldAlone s g)).getD i 0#8 := by
    rw [groupReport, List.append_assoc, List.getD_append_right _ _ _ _ (by simp [bytes16])]
    simp [bytes16]
  exact ⟨(after _).symm ▸ members, by rw [show 12 + l.val / 8 = 7 + (5 + l.val / 8) by omega, after, alone]⟩

theorem settleMillis_of_ne {st : GroupState} (h : ∀ d, st ≠ .settling d) : settleMillis st = 0 := by
  cases st with
  | settling d => exact absurd rfl (h d)
  | clear | tripped | latched => rfl

/-- Settles O25: what the two queries send reads back as the records, and their blocks change nothing. -/
theorem policyAndGroupQueries : Obligations.PolicyAndGroupQueries := by
  unfold Obligations.PolicyAndGroupQueries
  constructor
  · intro h f s l offers hp modes lease breaks
    obtain ⟨t, ht, answered⟩ := offers.only_answers (queryPolicy_admitted s hp) (by rw [hp]; exact queryPolicyAct_ofNat h l _)
    exact ⟨t, _, ht, answered, policyOfBytes?_policyBytes modes lease breaks⟩
  · intro h f s g offers hp least most
    obtain ⟨t, ht, answered⟩ := offers.only_answers (queryGroup_admitted s hp) (a := ⟨.ok, groupReport s g⟩)
      (by rw [hp]; exact queryGroupAct_ofNat h g _)
    obtain ⟨code, asserted, soft⟩ := groupStatus_bits (s.group g)
    refine ⟨t, _, ht, answered, rfl, groupReport_length s g, setGroupParams?_config g least most, code, asserted, soft, ?_, ?_, ?_⟩
    · intro still
      show word16 (BitVec.ofNat 8 (settleMillis (s.group g).state / 256)) (BitVec.ofNat 8 (settleMillis (s.group g).state)) = 0
      rw [settleMillis_of_ne still]
      rfl
    · intro d settling small
      show word16 (BitVec.ofNat 8 (settleMillis (s.group g).state / 256)) (BitVec.ofNat 8 (settleMillis (s.group g).state)) = _
      rw [settling]
      exact word16_bytes16 (by simp only [settleMillis, millisOfTimer, Config.microsPerMilli]; omega)
    · intro l
      obtain ⟨members, alone⟩ := groupReport_lines s g l
      exact ⟨members, by rw [alone, heldAlone_iff]⟩

end Sys2Proof.Machine

/-! What an event's part in the Line Arbiter tells and leaves untold, most of all about the claim that its request is about (R65, R124). -/

namespace Sys2Proof.Machine

/-! ### References placed -/

section

variable (s : State) (h k : HostId) (r q : RouteSlot) (c d : ClaimSlot)

theorem mem_noteRoute_iff : q ∈ ((noteRoute h r s).session k).changes.routes ↔ q ∈ (s.session k).changes.routes ∨ (k = h ∧ q = r) := by
  rw [noteRoute, State.updSession_session]
  split
  · rename_i e
    subst e
    simp [or_comm]
  · rename_i ne
    simp [Ne.symm ne]

theorem mem_noteClaim_iff : d ∈ ((noteClaim h c s).session k).changes.claims ↔ d ∈ (s.session k).changes.claims ∨ (k = h ∧ d = c) := by
  rw [noteClaim, State.updSession_session]
  split
  · rename_i e
    subst e
    simp [or_comm]
  · rename_i ne
    simp [Ne.symm ne]

theorem noteRoute_notedClaims : ((noteRoute h r s).session k).changes.claims = (s.session k).changes.claims := by
  rw [noteRoute, State.updSession_session]
  split <;> rfl

theorem noteClaim_notedRoutes : ((noteClaim h c s).session k).changes.routes = (s.session k).changes.routes := by
  rw [noteClaim, State.updSession_session]
  split <;> rfl

theorem session_congr {s t : State} (e : t.sessions = s.sessions) (k : HostId) : t.session k = s.session k := by
  rw [State.session, e, State.session]

/-- Settling a granted claim tells nothing by itself. -/
theorem grantBase_changes (cl : Claim) : ((grantBase c cl r s).session k).changes = (s.session k).changes := by
  rw [grantBase, session_congr (settleGranted_sessions ..), State.updSession_session, bindMembers, State.updSession_session,
    session_congr ((takeLines_keeps _ r _).sessions.trans (takeEntry_sessions s r _))]
  split <;> rfl

end

/-! ### The references a grant places (R65, R124) -/

section

variable {s : State} {c : ClaimSlot} {cl : Claim}

/-- A grant before the activation of its route: told, unless a reply tells it. -/
def grantTold (own : Option ClaimSlot) (c : ClaimSlot) (cl : Claim) (r : RouteSlot) (s : State) : State :=
  if own = some c then grantBase c cl r s else noteRoute cl.owner r (noteClaim cl.owner c (grantBase c cl r s))

/-- A grant with its route activated, where no break interval is due. -/
def grantActivated (own : Option ClaimSlot) (c : ClaimSlot) (cl : Claim) (r : RouteSlot) (s : State) : State :=
  if longestBreak s (linesOf cl.members) = 0 then activate r (grantTold own c cl r s) else grantTold own c cl r s

theorem grant_eq (own : Option ClaimSlot) (h : s.claim? c = some cl) (r : RouteSlot) :
    (grant own c r s).1 = (linesOf cl.members).foldl (fun t l => setLineState l t)
      (if longestBreak s (linesOf cl.members) = 0 && anyForced (grantActivated own c cl r s) r then
        noteRoute cl.owner r (grantActivated own c cl r s) else grantActivated own c cl r s) := by
  unfold grant
  simp only [h]
  rfl

theorem grant_routes (own : Option ClaimSlot) (h : s.claim? c = some cl) (r : RouteSlot) :
    (grant own c r s).1.routes = (grantActivated own c cl r s).routes := by
  rw [grant_eq own h, (setLineStates_keep _ _).routes]
  split <;> rfl

theorem grantTold_routes (own : Option ClaimSlot) (r : RouteSlot) :
    (grantTold own c cl r s).routes = (takeEntry r (grantedRoute s cl) s).routes := by
  rw [grantTold]
  split
  · exact grantBase_routes c cl r s
  · rw [noteRoute_routes, noteClaim_routes, grantBase_routes]

theorem grantActivated_sessions (own : Option ClaimSlot) (r : RouteSlot) :
    (grantActivated own c cl r s).sessions = (grantTold own c cl r s).sessions := by
  rw [grantActivated]
  split
  · exact activate_sessions _ _
  · rfl

theorem anyForced_congr {s t : State} (e : t.routes = s.routes) (r : RouteSlot) : anyForced t r = anyForced s r := by
  simp only [anyForced, State.route?, State.routeEntry, e]

/-- A route that has to wait for its break interval has no member forced (R50). -/
theorem grantTold_unforced (own : Option ClaimSlot) (r : RouteSlot) : anyForced (grantTold own c cl r s) r = false := by
  have created : (takeEntry r (grantedRoute s cl) s).route? r = some (grantedRoute s cl) := by
    rw [State.route?, takeEntry, State.updRouteEntry_routeEntry_same]
  rw [anyForced_congr (grantTold_routes own r), anyForced, created]
  rfl

theorem grant_notedRoutes (own : Option ClaimSlot) (h : s.claim? c = some cl) (r q : RouteSlot) (k : HostId) :
    q ∈ ((grant own c r s).1.session k).changes.routes ↔ q ∈ (s.session k).changes.routes ∨
      (k = cl.owner ∧ q = r ∧ (own ≠ some c ∨ anyForced (grant own c r s).1 r = true)) := by
  have told : q ∈ ((grantActivated own c cl r s).session k).changes.routes ↔
      q ∈ (s.session k).changes.routes ∨ (k = cl.owner ∧ q = r ∧ own ≠ some c) := by
    rw [session_congr (grantActivated_sessions own r), grantTold]
    split
    · simp [grantBase_changes, *]
    · simp [mem_noteRoute_iff, noteClaim_notedRoutes, grantBase_changes, *]
  have waits (ne : longestBreak s (linesOf cl.members) ≠ 0) : anyForced (grantActivated own c cl r s) r = false := by
    rw [grantActivated, if_neg ne, grantTold_unforced]
  rw [anyForced_congr (grant_routes own h r), grant_eq own h, session_congr (setLineStates_keep _ _).sessions]
  split
  · rw [mem_noteRoute_iff, told]
    simp_all
    tauto
  · rw [told]
    by_cases e : longestBreak s (linesOf cl.members) = 0 <;> simp_all

theorem grant_notedClaims (own : Option ClaimSlot) (h : s.claim? c = some cl) (r : RouteSlot) (d : ClaimSlot) (k : HostId) :
    d ∈ ((grant own c r s).1.session k).changes.claims ↔ d ∈ (s.session k).changes.claims ∨ (k = cl.owner ∧ d = c ∧ own ≠ some c) := by
  have told : d ∈ ((grantActivated own c cl r s).session k).changes.claims ↔
      d ∈ (s.session k).changes.claims ∨ (k = cl.owner ∧ d = c ∧ own ≠ some c) := by
    rw [session_congr (grantActivated_sessions own r), grantTold]
    split
    · simp [grantBase_changes, *]
    · simp [noteRoute_notedClaims, mem_noteClaim_iff, grantBase_changes, *]
  rw [grant_eq own h, session_congr (setLineStates_keep _ _).sessions]
  split
  · rw [noteRoute_notedClaims, told]
  · exact told

end

/-! ### Relations that every part of the Line Arbiter's work keeps -/

/-- A relation that composes and holds over each of the Line Arbiter's moves. -/
structure ArbiterMoves (own : Option ClaimSlot) (R : State → State → Prop) : Prop where
  refl : ∀ s, R s s
  trans : ∀ {s t u}, R s t → R t u → R s u
  line : ∀ s l, R s (setLineState l s)
  mark : ∀ s c b, R s (s.updClaim c fun cl => { cl with awaiting := b })
  preempt : ∀ s r, R s (closeRoute .preempted r s)
  grant : ∀ s c r cl, s.claim? c = some cl → cl.waiting = true → s.route? r = none → R s (grant own c r s).1

namespace ArbiterMoves

variable {own : Option ClaimSlot} {R : State → State → Prop} (m : ArbiterMoves own R)
include m

theorem grantCheck (c : ClaimSlot) (s : State) : R s (grantCheck c s).1 := by
  unfold Machine.grantCheck
  split
  · exact m.refl s
  · dsimp only
    split
    · exact m.refl s
    · split
      · exact m.mark s c false
      · split
        · exact m.mark s c true
        · split
          · exact m.trans (foldl_rel m.refl m.trans (fun t (p : RouteSlot × Route) => m.preempt t p.1) _ s) (m.mark _ c true)
          · exact m.refl s

theorem checkLine (l : LineNo) (s : State) : R s (checkLine l s).1 := by
  unfold Machine.checkLine
  dsimp only
  split
  · exact m.line s l
  · exact m.trans (m.line s l) (m.grantCheck _ _)

theorem checkLines (ls : List LineNo) (s : State) : R s (checkLines ls s).1 := by
  induction ls generalizing s with
  | nil => exact m.refl s
  | cons l ls ih => exact m.trans (m.checkLine l s) (ih _)

theorem checkAll (n : Nat) (ls : List LineNo) (s : State) : R s (checkAll n ls s) := by
  induction n generalizing ls s with
  | zero => exact m.refl s
  | succ n ih =>
    cases ls with
    | nil => exact m.refl s
    | cons l ls => exact m.trans (m.checkLines (l :: ls) s) (ih _ _)

theorem dropDisplaced (s : State) : R s (dropDisplaced s) := by
  refine foldl_rel m.refl m.trans (fun t c => ?_) s.accepted s
  split
  · exact m.refl t
  · split
    · exact m.mark t c false
    · exact m.refl t

theorem grantAll (n : Nat) (s : State) : R s (grantAll own n s) := by
  induction n generalizing s with
  | zero => exact m.refl s
  | succ n ih =>
    unfold Machine.grantAll
    split
    · rename_i c r hc hr
      obtain ⟨-, cl, hcl, hw, -⟩ := bestAwaiting_claim hc
      exact m.trans (m.trans (m.grant s c r cl hcl hw (firstFreeRoute_free hr)) (m.checkAll ..)) (ih _)
    · exact m.refl s

end ArbiterMoves

/-! ### References and the acceptance order -/

/-- A route entry in use stays in use, a CLOSED route CLOSED, and a route reference enters a change set only with a closing or with a
route that is new. -/
structure NotesFollow (s t : State) : Prop where
  stays : ∀ r rt, s.route? r = some rt → ∃ rt', t.route? r = some rt' ∧ (rt.live = false → rt'.live = false)
  noted : ∀ k r, r ∈ (t.session k).changes.routes →
    r ∈ (s.session k).changes.routes ∨ ∃ rt, t.route? r = some rt ∧ (rt.live = false ∨ s.route? r = none)

theorem NotesFollow.refl (s : State) : NotesFollow s s := ⟨fun _ rt h => ⟨rt, h, id⟩, fun _ _ => .inl⟩

theorem NotesFollow.trans {s t u : State} (a : NotesFollow s t) (b : NotesFollow t u) : NotesFollow s u := by
  refine ⟨fun r rt h => ?_, fun k r h => ?_⟩
  · obtain ⟨rt₁, h₁, closed₁⟩ := a.stays r rt h
    obtain ⟨rt₂, h₂, closed₂⟩ := b.stays r rt₁ h₁
    exact ⟨rt₂, h₂, closed₂ ∘ closed₁⟩
  · have free (later : t.route? r = none) : s.route? r = none := by
      by_contra used
      obtain ⟨rt, hr⟩ := Option.ne_none_iff_exists'.mp used
      obtain ⟨rt', h', -⟩ := a.stays r rt hr
      rw [h'] at later
      cases later
    rcases b.noted k r h with h | ⟨rt, hr, closed | new⟩
    · rcases a.noted k r h with h | ⟨rt, hr, why⟩
      · exact .inl h
      · obtain ⟨rt', h', closed⟩ := b.stays r rt hr
        exact .inr ⟨rt', h', why.imp closed id⟩
    · exact .inr ⟨rt, hr, .inl closed⟩
    · exact .inr ⟨rt, hr, .inr (free new)⟩

/-- What becomes of the claim c that a request is about: no reference to it is placed, and the last place in the acceptance order stays
its own while it waits (R65, R69, R124). -/
structure OwnSteps (c : ClaimSlot) (s t : State) : Prop where
  notes : NotesFollow s t
  untold : ∀ k, c ∈ (t.session k).changes.claims → c ∈ (s.session k).changes.claims
  waited : ((t.claim? c).map Claim.waiting).getD false = true → ((s.claim? c).map Claim.waiting).getD false = true
  last : ((t.claim? c).map Claim.waiting).getD false = true → s.accepted.getLast? = some c → t.accepted.getLast? = some c

theorem OwnSteps.refl (c : ClaimSlot) (s : State) : OwnSteps c s s := ⟨.refl s, fun _ => id, id, fun _ => id⟩

theorem OwnSteps.trans {c : ClaimSlot} {s t u : State} (a : OwnSteps c s t) (b : OwnSteps c t u) : OwnSteps c s u :=
  ⟨a.notes.trans b.notes, fun k h => a.untold k (b.untold k h), fun h => a.waited (b.waited h),
    fun h l => b.last h (a.last (b.waited h) l)⟩

/-- A move that changes no session, no route and no claim's state, and leaves the acceptance order. -/
theorem ownSteps_of_same {c : ClaimSlot} {s t : State} (sessions : t.sessions = s.sessions) (routes : t.routes = s.routes)
    (claim : (t.claim? c).map Claim.waiting = (s.claim? c).map Claim.waiting) (accepted : t.accepted = s.accepted) : OwnSteps c s t := by
  have route (r : RouteSlot) : t.route? r = s.route? r := by simp only [State.route?, State.routeEntry, routes]
  refine ⟨⟨fun r rt h => ⟨rt, (route r).trans h, id⟩, fun k r h => .inl ?_⟩, fun k h => ?_, fun h => claim ▸ h, fun _ h => accepted ▸ h⟩
  · rwa [session_congr sessions] at h
  · rwa [session_congr sessions] at h

theorem setLineState_ownSteps (c : ClaimSlot) (s : State) (l : LineNo) : OwnSteps c s (setLineState l s) := by
  have k := setLineState_keeps s l
  exact ownSteps_of_same k.sessions k.routes (by rw [State.claim?, State.claimEntry, k.claims]; rfl) k.accepted

theorem updClaim_awaiting_ownSteps (c : ClaimSlot) (s : State) (d : ClaimSlot) (b : Bool) :
    OwnSteps c s (s.updClaim d fun cl => { cl with awaiting := b }) := by
  refine ownSteps_of_same rfl rfl ?_ rfl
  rw [State.updClaim_claim?]
  split
  · rw [Option.map_map]
    rfl
  · rfl

theorem closeRoute_notedClaims (s : State) (why : CloseReason) (r : RouteSlot) (k : HostId) :
    ((closeRoute why r s).session k).changes.claims = (s.session k).changes.claims := by
  unfold closeRoute
  split
  · rfl
  · split
    · rw [noteRoute_notedClaims, giveUp, session_congr (loseDriver_keeps _ r _).sessions, unbindMembers, State.updSession_session]
      split <;> rfl
    · rfl

/-- A reference that a closing places is that of its route. -/
theorem closeRoute_notedRoutes (s : State) (why : CloseReason) {r q : RouteSlot} {k : HostId}
    (h : q ∈ ((closeRoute why r s).session k).changes.routes) : q ∈ (s.session k).changes.routes ∨
      (q = r ∧ ∃ rt, s.route? r = some rt ∧ rt.live = true) := by
  unfold closeRoute at h
  split at h
  · exact .inl h
  · rename_i rt hr
    split at h
    · rename_i live
      rw [mem_noteRoute_iff, giveUp, session_congr (loseDriver_keeps _ r _).sessions, unbindMembers, State.updSession_session] at h
      rcases h with h | ⟨-, e⟩
      · left
        split at h <;> exact h
      · exact .inr ⟨e, rt, hr, live⟩
    · exact .inl h

theorem closeRoute_ownSteps (c : ClaimSlot) (s : State) (r : RouteSlot) (why : CloseReason) : OwnSteps c s (closeRoute why r s) := by
  have claim : (closeRoute why r s).claim? c = s.claim? c := by simp only [State.claim?, State.claimEntry, closeRoute_claims]
  refine ⟨?_, fun k h => closeRoute_notedClaims s why r k ▸ h, fun h => claim ▸ h, fun _ h => by rwa [closeRoute_accepted]⟩
  by_cases live : ∃ rt, s.route? r = some rt ∧ rt.live = true
  · obtain ⟨rt, hr, hl⟩ := live
    have entry := closeRoute_routeEntry hr hl why
    refine ⟨fun q x hx => ?_, fun k q h => ?_⟩
    · rw [State.route?, entry]
      split
      · exact ⟨_, rfl, fun _ => rfl⟩
      · exact ⟨x, hx, id⟩
    · rcases closeRoute_notedRoutes s why h with h | ⟨rfl, -⟩
      · exact .inl h
      · exact .inr ⟨_, by rw [State.route?, entry, if_pos rfl], .inl rfl⟩
  · rw [closeRoute_idle fun rt hr => Bool.eq_false_iff.mpr fun hl => live ⟨rt, hr, hl⟩]
    exact .refl s

theorem getLast?_filter_ne {c d : ClaimSlot} {xs : List ClaimSlot} (h : xs.getLast? = some c) (ne : c ≠ d) :
    (xs.filter (· ≠ d)).getLast? = some c := by
  obtain ⟨ys, rfl⟩ := List.getLast?_eq_some_iff.mp h
  simp [ne]

theorem AfterChecks.stays {s t : State} (a : AfterChecks s t) {r : RouteSlot} {rt : Route} (h : s.route? r = some rt) :
    t.route? r = some rt ∨ ∃ rt', t.route? r = some rt' ∧ rt'.live = false := by
  rcases a.routes r with e | ⟨_, _, _, _, e⟩ | ⟨free, _⟩
  · exact .inl (by rw [State.route?, e]; exact h)
  · exact .inr ⟨_, by rw [State.route?, e], rfl⟩
  · cases h.symm.trans free

theorem grant_ownSteps {c d : ClaimSlot} {s : State} {r : RouteSlot} {cl : Claim} (h : s.claim? d = some cl) (hw : cl.waiting = true)
    (hr : s.route? r = none) : OwnSteps c s (grant (some c) d r s).1 := by
  have a := grant_afterChecks (some c) h hw hr
  refine ⟨⟨fun q x hx => ?_, fun k q noted => ?_⟩, fun k noted => ?_, a.waiting c, fun waits last => ?_⟩
  · rcases a.stays hx with e | ⟨x', e, closed⟩
    · exact ⟨x, e, id⟩
    · exact ⟨x', e, fun _ => closed⟩
  · rcases (grant_notedRoutes (some c) h r q k).mp noted with old | ⟨-, rfl, -⟩
    · exact .inl old
    · obtain ⟨-, rt, created, -⟩ := (grant_routeEntry (some c) h q).2 rfl
      exact .inr ⟨rt, created, .inr hr⟩
  · rcases (grant_notedClaims (some c) h r c k).mp noted with old | ⟨-, rfl, ne⟩
    · exact old
    · exact absurd rfl ne
  · rw [grant_accepted (some c) h]
    refine getLast?_filter_ne last fun e => ?_
    subst e
    rw [State.claim?, grant_claimEntry (some c) h, if_pos rfl] at waits
    cases waits

theorem ownSteps_moves (c : ClaimSlot) : ArbiterMoves (some c) (OwnSteps c) where
  refl := .refl c
  trans := .trans
  line := setLineState_ownSteps c
  mark := updClaim_awaiting_ownSteps c
  preempt s r := closeRoute_ownSteps c s r .preempted
  grant _ _ _ _ := grant_ownSteps

/-! ### The route of the request's own claim (R65, R124) -/

/-- A reference to the route that the request's own claim is granted enters its owner's change set with a forced member alone. -/
def OwnTold (c : ClaimSlot) (s t : State) : Prop :=
  ∀ cl r rt, Granted s t c cl r → t.route? r = some rt → rt.live = true → ∀ k, k = cl.owner → r ∉ (s.session k).changes.routes →
    (r ∈ (t.session k).changes.routes ↔ rt.forced ≠ 0#8)

theorem NoGrants.ownTold {s t : State} (n : NoGrants s t) (c : ClaimSlot) : OwnTold c s t := by
  rintro cl r rt ⟨⟨cl₀, before, waits⟩, after, granted⟩
  have same := n.state c
  rw [before, after] at same
  simp only [Option.map_some, Option.some.injEq] at same
  simp [Claim.waiting, ← same, granted] at waits

/-- The entry of a grant was free, and holds a route after it. -/
theorem GrantedRoute.created {s t : State} {cl : Claim} {r : RouteSlot} (a : AfterChecks s t) (g : GrantedRoute s t cl r) :
    s.route? r = none ∧ ∃ rt, t.route? r = some rt := by
  obtain ⟨rt, entry, -⟩ := g
  have moved : (t.routeEntry r).generation ≠ (s.routeEntry r).generation := by
    rw [entry]
    exact succ_ne_self _
  exact ⟨(a.taken moved).1, rt, by rw [State.route?, entry]⟩

theorem OwnTold.trans {c : ClaimSlot} {s t u : State} (a : AfterChecks s t) (b : AfterChecks t u) (m : NotesFollow s t)
    (n : NotesFollow t u) (grants : GrantSteps (some c) s t) (grants' : GrantSteps (some c) t u) (x : OwnTold c s t)
    (y : OwnTold c t u) : OwnTold c s u := by
  intro cl r rt g hr live k owner fresh
  rcases g.split a b with g | g
  · obtain ⟨-, rt₁, h₁⟩ := (grants.route c cl r g).created a
    have kept : t.route? r = some rt := by
      rcases b.stays h₁ with e | ⟨x, e, closed⟩ <;> cases hr.symm.trans e
      · exact h₁
      · rw [live] at closed
        cases closed
    rw [← x cl r rt g kept live k owner fresh]
    refine ⟨fun noted => ?_, fun noted => b.sessions.notedRoutes k noted⟩
    rcases n.noted k r noted with old | ⟨x, e, closed | new⟩
    · exact old
    · cases hr.symm.trans e
      rw [live] at closed
      cases closed
    · cases kept.symm.trans new
  · obtain ⟨free, -⟩ := (grants'.route c cl r g).created b
    refine y cl r rt g hr live k owner fun noted => ?_
    rcases m.noted k r noted with old | ⟨x, e, -⟩
    · exact fresh old
    · cases free.symm.trans e

theorem grant_ownTold {c d : ClaimSlot} {s : State} {r : RouteSlot} (hd : bestAwaiting s = some d) :
    OwnTold c s (grant (some c) d r s).1 := by
  obtain ⟨-, x, h, hw, -⟩ := bestAwaiting_claim hd
  rintro cl q rt ⟨⟨cl₀, before, waits⟩, after, granted⟩ hq live k owner fresh
  rw [State.claim?, grant_claimEntry (some c) h] at after
  split at after
  · rename_i e
    subst e
    cases after
    cases granted
    have owner : k = x.owner := owner
    subst owner
    rw [grant_notedRoutes (some d) h, anyForced, hq]
    simp [fresh]
  · rw [show (s.claimEntry c).claim = some cl₀ from before] at after
    cases after
    simp [Claim.waiting, granted] at waits

theorem grantAll_ownTold (c : ClaimSlot) (n : Nat) (s : State) : OwnTold c s (grantAll (some c) n s) := by
  have moves := ownSteps_moves c
  induction n generalizing s with
  | zero => exact (NoGrants.refl s).ownTold c
  | succ n ih =>
    unfold grantAll
    split
    · rename_i d r hd hr
      obtain ⟨-, cl, h, hw, -⟩ := bestAwaiting_claim hd
      have free := firstFreeRoute_free hr
      have first := grant_afterChecks (some c) h hw free
      have checks := checkAll_afterChecks checkRounds (grant (some c) d r s).2 (grant (some c) d r s).1
      have quiet := checkAll_noGrants checkRounds (grant (some c) d r s).2 (grant (some c) d r s).1
      have step : OwnSteps c s (checkAll checkRounds (grant (some c) d r s).2 (grant (some c) d r s).1) :=
        .trans (grant_ownSteps h hw free) (moves.checkAll ..)
      have told : OwnTold c s (checkAll checkRounds (grant (some c) d r s).2 (grant (some c) d r s).1) :=
        .trans first checks (grant_ownSteps h hw free).notes (moves.checkAll ..).notes (grant_grantSteps _ hd hr) (quiet.grantSteps _)
          (grant_ownTold hd) (quiet.ownTold c)
      exact .trans (first.trans checks) (grantAll_afterChecks ..) step.notes (moves.grantAll ..).notes
        (.trans first checks (grant_grantSteps _ hd hr) (quiet.grantSteps _)) (grantAll_grants ..) told (ih _)
    · exact (NoGrants.refl s).ownTold c

theorem arbitrate_ownSteps (c : ClaimSlot) (ls : List LineNo) (s : State) : OwnSteps c s (arbitrate (some c) ls s) := by
  have moves := ownSteps_moves c
  exact (moves.dropDisplaced s).trans ((moves.grantCheck c _).trans ((moves.checkAll ..).trans (moves.grantAll ..)))

theorem arbitrate_ownTold (c : ClaimSlot) (ls : List LineNo) (s : State) : OwnTold c s (arbitrate (some c) ls s) := by
  have moves := ownSteps_moves c
  have checks : AfterChecks s (checkAll checkRounds (ls ++ (grantCheck c (dropDisplaced s)).2) (grantCheck c (dropDisplaced s)).1) :=
    (dropDisplaced_afterChecks s).trans ((grantCheck_afterChecks ..).trans (checkAll_afterChecks ..))
  have quiet : NoGrants s (checkAll checkRounds (ls ++ (grantCheck c (dropDisplaced s)).2) (grantCheck c (dropDisplaced s)).1) :=
    (dropDisplaced_noGrants s).trans ((grantCheck_noGrants ..).trans (checkAll_noGrants ..))
  have steps : OwnSteps c s (checkAll checkRounds (ls ++ (grantCheck c (dropDisplaced s)).2) (grantCheck c (dropDisplaced s)).1) :=
    (moves.dropDisplaced s).trans ((moves.grantCheck c _).trans (moves.checkAll ..))
  exact .trans checks (grantAll_afterChecks ..) steps.notes (moves.grantAll ..).notes (quiet.grantSteps _) (grantAll_grants ..)
    (quiet.ownTold c) (grantAll_ownTold c grantRounds _)

end Sys2Proof.Machine

/-! CLAIM (O33) and AMEND (O36): the answer about a request's own claim. -/

namespace Sys2Proof.Machine

/-! ### The answer to a claim whose grant checks are done -/

section

variable {s : State} {c : ClaimSlot} {cl : Claim}

theorem freeClaim_claimEntry (h : s.claim? c = some cl) (d : ClaimSlot) :
    (freeClaim c s).claimEntry d = if c = d then { s.claimEntry d with claim := none } else s.claimEntry d := by
  rw [freeClaim, h]
  exact State.updClaimEntry_claimEntry ..

/-- A freed claim leaves its owner's change set, and no other reference moves. -/
theorem freeClaim_session (h : s.claim? c = some cl) (k : HostId) : (freeClaim c s).session k =
    if cl.owner = k then { s.session k with
      claimRecords := (s.session k).claimRecords - 1
      changes := { (s.session k).changes with claims := (s.session k).changes.claims.filter (· ≠ c) } }
    else s.session k := by
  rw [freeClaim, h]
  show (((unnoteClaim cl.owner c s).updSession cl.owner fun e => { e with claimRecords := e.claimRecords - 1 })).session k = _
  rw [State.updSession_session, unnoteClaim, State.updSession_session]
  split <;> rfl

theorem answerClaim_granted {r : RouteSlot} (h : s.claim? c = some cl) (granted : cl.state = .granted r) :
    answerClaim c s = (freeClaim c s, ⟨.granted, grantedResults s r⟩) := by
  rw [answerClaim, h]
  dsimp only
  rw [granted]

theorem answerClaim_waiting (h : s.claim? c = some cl) (waiting : cl.state = .waiting) :
    answerClaim c s = (s, ⟨.queued, queuedResults s c cl⟩) := by
  rw [answerClaim, h]
  dsimp only
  rw [waiting]

end

/-- The reply GRANTED to a request about claim c, whose record is cl before the grant checks: s is the state before them, t the state that
the request leaves (R74, R79, 10.6). -/
def GrantedReply (s t : State) (c : ClaimSlot) (cl : Claim) (a : Answer) : Prop :=
  a.status = .granted ∧ t.claim? c = none ∧ ∃ r rt, t.route? r = some rt ∧ s.route? r = none ∧ rt.owner = cl.owner ∧
    rt.kind = .driver cl.priority cl.mode ∧ rt.members = cl.members ∧
    (rt.live = true → rt.lease = leaseFor s cl.leaseRequested (linesOf cl.members)) ∧
    a.results = [BitVec.ofNat 8 r.val, (s.routeEntry r).generation + 1#8, BitVec.ofNat 8 rt.state.code] ++ bytes16 (millisOf? rt.lease) ∧
    c ∉ (t.session cl.owner).changes.claims ∧
    (r ∉ (s.session cl.owner).changes.routes → rt.live = true → (r ∈ (t.session cl.owner).changes.routes ↔ rt.forced ≠ 0#8))

/-- The reply QUEUED, likewise. -/
def QueuedReply (s t : State) (c : ClaimSlot) (cl : Claim) (a : Answer) : Prop :=
  a.status = .queued ∧ ∃ b, t.claim? c = some { cl with awaiting := b } ∧
    a.results = [BitVec.ofNat 8 c.val, (t.claimEntry c).generation, if b then 1#8 else 0#8] ++
      (cl.members.map fun m => BitVec.ofNat 8 ((t.line m.line).queue.idxOf c + 1)) ∧
    (c ∈ (t.session cl.owner).changes.claims ↔ c ∈ (s.session cl.owner).changes.claims)

/-- What a request about claim c leaves, from the state s before its grant checks to the state t. -/
structure ClaimAnswered (s t : State) (c : ClaimSlot) (cl : Claim) (a : Answer) : Prop where
  generation : (t.claimEntry c).generation = (s.claimEntry c).generation
  claims : ∀ d, d ≠ c → RecordAfterChecks (s.claimEntry d) (t.claimEntry d)
  routes : RoutesAfterChecks s.routeEntry t
  attached : ∀ k, (t.session k).attached = (s.session k).attached
  epoch : ∀ k, (t.session k).epoch = (s.session k).epoch
  accepted : t.accepted.Sublist s.accepted
  last : ((t.claim? c).map Claim.waiting).getD false = true → s.accepted.getLast? = some c → t.accepted.getLast? = some c
  reply : GrantedReply s t c cl a ∨ QueuedReply s t c cl a

section

variable {s : State} {c : ClaimSlot} {cl : Claim} (h : s.claim? c = some cl) (hw : cl.waiting = true) (ls : List LineNo)

include h hw

/-- After the grant checks, a claim that was WAITING is GRANTED, or WAITING still. -/
theorem arbitrate_claim : (∃ r, (arbitrate (some c) ls s).claim? c =
      some { cl with state := .granted r, waitLimit := none, awaiting := false }) ∨
    ∃ b, (arbitrate (some c) ls s).claim? c = some { cl with awaiting := b } := by
  have k := ((arbitrate_afterChecks (some c) ls s).claims c).2
  rw [show (s.claimEntry c).claim = some cl from h] at k
  obtain ⟨x, hx, rfl | ⟨-, b, rfl⟩ | ⟨-, r, rfl⟩⟩ := k
  · exact .inr ⟨x.awaiting, hx⟩
  · exact .inr ⟨b, hx⟩
  · exact .inl ⟨r, hx⟩

theorem claimAnswered_granted {r : RouteSlot} (granted : (arbitrate (some c) ls s).claim? c =
      some { cl with state := .granted r, waitLimit := none, awaiting := false }) :
    ClaimAnswered s (freeClaim c (arbitrate (some c) ls s)) c cl ⟨.granted, grantedResults (arbitrate (some c) ls s) r⟩ := by
  have a := arbitrate_afterChecks (some c) ls s
  have g : Granted s (arbitrate (some c) ls s) c _ r := ⟨⟨cl, h, hw⟩, granted, rfl⟩
  have made := (arbitrate_grants (some c) ls s).route _ _ _ g
  obtain ⟨free, -⟩ := made.created a
  obtain ⟨rt, entry, owner, kind, members, -, lease⟩ := made
  have route : (arbitrate (some c) ls s).route? r = some rt := by rw [State.route?, entry]
  have entries := freeClaim_claimEntry granted
  have sessions := freeClaim_session granted
  have routeEntry (q : RouteSlot) : (freeClaim c (arbitrate (some c) ls s)).routeEntry q = (arbitrate (some c) ls s).routeEntry q := by
    simp only [State.routeEntry, freeClaim_routes]
  refine ⟨?_, fun d ne => ?_, fun q => routeEntry q ▸ a.routes q, fun k => ?_, fun k => ?_, ?_, fun waits => ?_,
    .inl ?_⟩
  · rw [entries, if_pos rfl]
    exact (a.claims c).1
  · rw [entries, if_neg (Ne.symm ne)]
    exact a.claims d
  · rw [← a.sessions.attached k, sessions]
    split <;> rfl
  · rw [← a.sessions.epoch k, sessions]
    split <;> rfl
  · rw [freeClaim_accepted]
    exact a.accepted
  · rw [State.claim?, entries, if_pos rfl] at waits
    cases waits
  · refine ⟨rfl, by rw [State.claim?, entries, if_pos rfl], r, rt, by rw [State.route?, routeEntry]; exact route, free, owner, kind, members,
      fun live => ?_, ?_, ?_, fun fresh live => ?_⟩
    · rcases lease with closed | ⟨lease, -⟩
      · simp [Route.live, closed] at live
      · rw [lease, leaseFor_congr a.rest.policies]
    · simp [grantedResults, routeRefBytes, route, entry]
    · rw [sessions, if_pos rfl]
      simp
    · rw [sessions, if_pos rfl]
      exact arbitrate_ownTold c ls s _ r rt g route live _ rfl fresh

omit h hw in
theorem claimAnswered_queued {b : Bool} (queued : (arbitrate (some c) ls s).claim? c = some { cl with awaiting := b }) :
    ClaimAnswered s (arbitrate (some c) ls s) c cl ⟨.queued, queuedResults (arbitrate (some c) ls s) c { cl with awaiting := b }⟩ := by
  have a := arbitrate_afterChecks (some c) ls s
  have own := arbitrate_ownSteps c ls s
  refine ⟨(a.claims c).1, fun d _ => a.claims d, a.routes, a.sessions.attached, a.sessions.epoch, a.accepted, own.last, .inr ?_⟩
  refine ⟨rfl, b, queued, ?_, own.untold _, fun noted => a.sessions.notedClaims _ noted⟩
  have mark : flagAt b 0 = if b then 1#8 else 0#8 := by cases b <;> rfl
  simp [queuedResults, claimRefBytes, mark, linesOf, queuePosition]

theorem answerClaim_answered : ClaimAnswered s (answerClaim c (arbitrate (some c) ls s)).1 c cl
    (answerClaim c (arbitrate (some c) ls s)).2 := by
  rcases arbitrate_claim h hw ls with ⟨r, granted⟩ | ⟨b, queued⟩
  · rw [answerClaim_granted granted rfl]
    exact claimAnswered_granted h hw ls granted
  · have waiting : cl.state = .waiting := by
      cases state : cl.state with
      | waiting => rfl
      | granted | dropped => simp [Claim.waiting, state] at hw
    rw [answerClaim_waiting queued waiting]
    exact claimAnswered_queued ls queued

end

/-! ### A claim before its grant checks -/

section

variable (s : State) (h k : HostId) (c : ClaimSlot)

theorem acceptClaim_accepted (p : ClaimParams) : (acceptClaim h p c s).accepted = s.accepted ++ [c] := (joinQueues_keeps _ c _).accepted

/-- An accepted claim enters no change set, and no session opens or ends (R73, R124). -/
theorem acceptClaim_session (p : ClaimParams) : ((acceptClaim h p c s).session k).changes = (s.session k).changes ∧
    ((acceptClaim h p c s).session k).attached = (s.session k).attached ∧ ((acceptClaim h p c s).session k).epoch = (s.session k).epoch := by
  unfold acceptClaim
  dsimp only
  rw [State.updSession_session, bindMembers, State.updSession_session, session_congr (joinQueues_keeps _ c _).sessions]
  split <;> exact ⟨rfl, rfl, rfl⟩

theorem reprioritise_sessions (cl : Claim) (p : Priority) : (reprioritise c cl p s).sessions = s.sessions := by
  unfold reprioritise
  split
  · rfl
  · exact (joinQueues_keeps _ c _).sessions.trans (leaveQueues_keeps s c _).sessions

theorem reprioritise_accepted (cl : Claim) (p : Priority) : (reprioritise c cl p s).accepted =
    if cl.priority = p then s.accepted else s.accepted.filter (· ≠ c) ++ [c] := by
  unfold reprioritise
  split
  · rfl
  · rw [(joinQueues_keeps _ c _).accepted]
    show (leaveAccepted c (leaveQueues c (linesOf cl.members) s)).accepted ++ [c] = _
    rw [leaveAccepted_accepted, (leaveQueues_keeps s c _).accepted]

end

/-! ### CLAIM (R72 to R74) -/

section

variable {s : State} {h : HostId} {f : List Byte}

/-- The limits of R41 and R72 in the two orders that the checks write them. -/
theorem claimRefusal_none {p : ClaimParams} (passed : firstFailing (claimChecks s h p) = none) : claimRefusal s h p = none := by
  have each := List.find?_eq_none.mp (Option.map_eq_none_iff.mp passed)
  simp only [claimChecks, List.mem_cons, List.not_mem_nil, or_false, forall_eq_or_imp, forall_eq, Bool.not_eq_true', Bool.not_eq_false,
    Bool.or_eq_true, decide_eq_true_eq, List.all_eq_true] at each
  obtain ⟨drive, mode, preempt, terminals, waits, drives, routes, records⟩ := each
  have free : (p.members.any fun m => terminalBound s h m.terminal) = false := by
    simpa using terminals
  have first : (decide (p.priority = 3) && !mayPreempt s h (linesOf p.members)) = false := by
    rcases preempt with ne | may <;> simp [*]
  have room : atRouteLimit s h = false := by
    rw [atRouteLimit, decide_eq_false_iff_not, not_le]
    exact routes
  have record : ¬ Config.hostClaimLimit ≤ (s.session h).claimRecords := by
    simp [Config.hostClaimLimit, records]
  simp [claimRefusal, *]

theorem firstFreeClaim_eq {c : ClaimSlot} (free : s.claim? c = none) (lower : ∀ d, d < c → (s.claim? d).isSome) :
    firstFreeClaim s = some c := by
  rw [firstFreeClaim, every, ← Fin.find?_eq_find?_finRange, Fin.find?_eq_some_iff]
  exact ⟨by rw [free]; rfl, fun d hd => by simpa using lower d hd⟩

/-- What a request about claim c has done before its grant checks: it has changed the claim's own record, the queues, the acceptance order
and the bindings and counts of sessions alone. -/
structure Prepares (c : ClaimSlot) (s u : State) : Prop where
  rest : KeepsRest s u
  routes : u.routes = s.routes
  claims : ∀ d, d ≠ c → u.claimEntry d = s.claimEntry d
  changes : ∀ k, (u.session k).changes = (s.session k).changes
  attached : ∀ k, (u.session k).attached = (s.session k).attached
  epoch : ∀ k, (u.session k).epoch = (s.session k).epoch

/-- The answer about a claim, seen from before the request, and after the link's reply is queued. -/
theorem ClaimAnswered.around {s u v t : State} {c : ClaimSlot} {cl : Claim} {a : Answer} (x : ClaimAnswered u v c cl a)
    (p : Prepares c s u) (k : KeepsRecords v t) : (t.claimEntry c).generation = (u.claimEntry c).generation ∧
      (∀ d, d ≠ c → RecordAfterChecks (s.claimEntry d) (t.claimEntry d)) ∧ RoutesAfterChecks s.routeEntry t ∧
      (∀ g, (t.session g).attached = (s.session g).attached ∧ (t.session g).epoch = (s.session g).epoch) ∧
      t.accepted.Sublist u.accepted ∧
      (((t.claim? c).map Claim.waiting).getD false = true → u.accepted.getLast? = some c → t.accepted.getLast? = some c) ∧
      (GrantedReply s t c cl a ∨ QueuedReply s t c cl a) := by
  have claimEntry (d : ClaimSlot) : v.claimEntry d = t.claimEntry d := by simp only [State.claimEntry, k.claims]
  have claim (d : ClaimSlot) : v.claim? d = t.claim? d := by simp only [State.claim?, claimEntry]
  have routeEntry (r : RouteSlot) : v.routeEntry r = t.routeEntry r := by simp only [State.routeEntry, k.routes]
  have route (r : RouteSlot) : v.route? r = t.route? r := by simp only [State.route?, routeEntry]
  have session (g : HostId) : v.session g = t.session g := (session_congr k.sessions g).symm
  have line (l : LineNo) : v.line l = t.line l := by simp only [State.line, k.lines]
  have routeEntry' (r : RouteSlot) : u.routeEntry r = s.routeEntry r := by simp only [State.routeEntry, p.routes]
  have route' (r : RouteSlot) : u.route? r = s.route? r := by simp only [State.route?, routeEntry']
  obtain ⟨generation, claims, routes, attached, epoch, accepted, last, reply⟩ := x
  simp only [RoutesAfterChecks, GrantedReply, QueuedReply, claim, claimEntry, route, routeEntry, session, line, ← k.accepted, route',
    routeEntry', p.changes, p.attached, p.epoch, leaseFor_congr p.rest.policies] at *
  exact ⟨generation, fun d ne => p.claims d ne ▸ claims d ne, routes, fun g => ⟨attached g, epoch g⟩, accepted, last, reply⟩

theorem taken_keepsSettings {v : State} (rest : KeepsRest (popFrame h s) v) (a : Answer) :
    KeepsSettings s (settle s (queueReply h f a v)) := by
  refine ⟨?_, ?_, ?_⟩
  · rw [settle_policies, queueReply_policies, rest.policies]
    rfl
  · rw [settle_groups, queueReply_groups, rest.groups]
    rfl
  · rw [settle_qualifiers, queueReply_qualifiers, rest.qualifiers]
    rfl

/-- A request that its link offers and that passes the common checks, whose block answers about a claim that it has prepared. -/
theorem Offers.claimAnswered {code : ReqCode} {c : ClaimSlot} {cl : Claim} {u : State} {ls : List LineNo} (o : Offers s h code f)
    (ad : Admitted s h code f)
    (act : code.act h (frameParams f) (popFrame h s) = answerClaim c (arbitrate (some c) ls u)) (p : Prepares c (popFrame h s) u)
    (claim : u.claim? c = some cl) (waits : cl.waiting = true) : ∃ t a, Machine.exec (code.command h) s = .next t ∧
      AnsweredWithin s t h f a ∧ KeepsSettings s t ∧ (t.claimEntry c).generation = (u.claimEntry c).generation ∧
      (∀ d, d ≠ c → RecordAfterChecks (s.claimEntry d) (t.claimEntry d)) ∧ RoutesAfterChecks s.routeEntry t ∧
      (∀ g, (t.session g).attached = (s.session g).attached ∧ (t.session g).epoch = (s.session g).epoch) ∧
      t.accepted.Sublist u.accepted ∧
      (((t.claim? c).map Claim.waiting).getD false = true → u.accepted.getLast? = some c → t.accepted.getLast? = some c) ∧
      (GrantedReply s t c cl a ∨ QueuedReply s t c cl a) := by
  have x := answerClaim_answered claim waits ls
  have rest := p.rest.trans ((arbitrate_keepsRest u (some c) ls).trans (answerClaim_keepsRest (arbitrate (some c) ls u) c))
  cases answered : answerClaim c (arbitrate (some c) ls u) with
  | mk v a =>
    rw [answered] at act x rest
    have kept : KeepsRecords v (settle s (queueReply h f a v)) := by constructor <;> simp
    have seen := x.around p kept
    exact ⟨_, a, o.exec ad act, answeredWithin_of f rest a, taken_keepsSettings rest a, seen⟩

/-- The eight checks passed, CLAIM is answered for the lowest free record. -/
theorem claimAct_passed {p : ClaimParams} {c : ClaimSlot} (params : claimParams? (frameParams f) = some p)
    (passed : claimRefusal s h p = none) (free : firstFreeClaim s = some c) : claimAct h (frameParams f) (popFrame h s) =
      answerClaim c (arbitrate (some c)
        (changedHeads (popFrame h s) (acceptClaim h p c (popFrame h s)) (linesOf p.members)) (acceptClaim h p c (popFrame h s))) := by
  rw [claimAct, params]
  dsimp only
  rw [show claimRefusal (popFrame h s) h p = none from passed, show firstFreeClaim (popFrame h s) = some c from free]

end

theorem acceptClaim_prepares (s : State) (h : HostId) (p : ClaimParams) (c : ClaimSlot) : Prepares c s (acceptClaim h p c s) where
  rest := acceptClaim_keepsRest h s p c
  routes := acceptClaim_routes s h p c
  claims d ne := by rw [acceptClaim_claimEntry, if_neg (Ne.symm ne)]
  changes k := (acceptClaim_session s h k c p).1
  attached k := (acceptClaim_session s h k c p).2.1
  epoch k := (acceptClaim_session s h k c p).2.2

/-- Settles O33. The accepted claim is last in the acceptance order, and what its grant checks make of it decides the reply. -/
theorem claimIsGrantedOrQueued : Obligations.ClaimIsGrantedOrQueued := by
  intro h f s p c offers admitted params passed free lower
  have act := claimAct_passed params (claimRefusal_none passed) (firstFreeClaim_eq free lower)
  have entry : (acceptClaim h p c (popFrame h s)).claimEntry c = ⟨(s.claimEntry c).generation + 1#8, some (newClaim h p)⟩ := by
    rw [acceptClaim_claimEntry, if_pos rfl]
    rfl
  have claim : (acceptClaim h p c (popFrame h s)).claim? c = some (newClaim h p) := by rw [State.claim?, entry]
  have asked : (acceptClaim h p c (popFrame h s)).accepted.getLast? = some c := by rw [acceptClaim_accepted, List.getLast?_concat]
  obtain ⟨t, a, ht, within, settings, generation, claims, routes, sessions, -, last, reply⟩ :=
    offers.claimAnswered admitted act (acceptClaim_prepares _ h p c) claim rfl
  rw [entry] at generation
  refine ⟨t, a, ht, within, settings, generation, claims, routes, sessions, reply.imp ?granted ?queued⟩
  case granted =>
    rintro ⟨status, gone, r, rt, hr, new, owner, kind, members, lease, results, untold, told⟩
    exact ⟨status, gone, r, rt, hr, new, owner, kind, members, lease, by rw [results]; cases rt.lease <;> rfl, untold, told⟩
  case queued =>
    rintro ⟨status, b, hc, results, untold⟩
    rw [generation] at results
    exact ⟨status, b, hc, last (by rw [hc]; rfl) asked, results, untold⟩

/-! ### AMEND (R78, R79) -/

/-- The amended claim before its grant checks: with its new wait limit, at its new place if its priority is new. -/
def amended (c : ClaimSlot) (cl : Claim) (p : Priority) (limit : Nat) (s : State) : State :=
  reprioritise c cl p (s.updClaim c fun x => { x with waitLimit := timerOfMillis limit })

section

variable {s : State} {h : HostId} {f : List Byte} {c : ClaimSlot} {gen : Byte} {p : Priority} {limit : Nat} {cl : Claim}

theorem claimAt?_of_names (names : NamesClaim s c gen cl) : claimAt? s c gen = some cl := by
  rw [claimAt?, if_pos names.2, names.1]

theorem claimRefRefusal_owner (owner : cl.owner = h) (waits : cl.waiting = true) : claimRefRefusal h (some cl) = none := by
  simp [claimRefRefusal, owner, waits]

theorem amendAct_owner (params : amendParams? (frameParams f) = some (c, gen, p, limit)) (names : NamesClaim s c gen cl)
    (owner : cl.owner = h) (waits : cl.waiting = true) : amendAct h (frameParams f) (popFrame h s) =
      if p = 3 && !mayPreempt s h (linesOf cl.members) then refuse .notAuthorized (popFrame h s)
      else amendClaim c cl p limit (popFrame h s) := by
  rw [amendAct, params]
  dsimp only
  rw [show claimAt? (popFrame h s) c gen = some cl from claimAt?_of_names names, claimRefRefusal_owner owner waits]
  rfl

theorem amendClaim_eq : amendClaim c cl p limit s =
    answerClaim c (arbitrate (some c) (changedHeads s (amended c cl p limit s) (linesOf cl.members)) (amended c cl p limit s)) := rfl

theorem amended_prepares (hc : s.claim? c = some cl) : Prepares c s (amended c cl p limit s) := by
  have sessions : (amended c cl p limit s).sessions = s.sessions := reprioritise_sessions _ c cl p
  have session (k : HostId) : (amended c cl p limit s).session k = s.session k := session_congr sessions k
  refine ⟨KeepsRest.trans (by constructor <;> rfl) (reprioritise_keepsRest _ c cl p), reprioritise_routes _ c cl p, fun d ne => ?_,
    fun k => by rw [session], fun k => by rw [session], fun k => by rw [session]⟩
  rw [amended, amended_claimEntry s hc, if_neg (Ne.symm ne)]

theorem amended_accepted : (amended c cl p limit s).accepted =
    if cl.priority = p then s.accepted else s.accepted.filter (· ≠ c) ++ [c] := reprioritise_accepted _ c cl p

end

/-- Settles O36. A claim that takes a new priority is put last in the acceptance order before its grant checks, another stays where it is;
what the grant checks make of it decides the reply. -/
theorem amendChangesPriorityAndWait : Obligations.AmendChangesPriorityAndWait := by
  intro h f s c gen p wait cl offers admitted params names owner waits
  have act := amendAct_owner params names owner waits
  refine ⟨fun ⟨top, may⟩ => ?refused, fun may => ?passed⟩
  case refused =>
    rw [if_pos (by simp [top, may])] at act
    exact offers.only_answers admitted act
  case passed =>
    have may : ¬ (decide (p = 3) && !mayPreempt s h (linesOf cl.members)) = true := by
      rcases may with ne | may <;> simp [*]
    rw [if_neg may, amendClaim_eq] at act
    have entry : (amended c cl p wait (popFrame h s)).claimEntry c =
        ⟨gen, some { cl with priority := p, waitLimit := timerOfMillis wait }⟩ := by
      rw [amended, amended_claimEntry (popFrame h s) names.1, if_pos rfl, ← names.2]
      rfl
    have claim : (amended c cl p wait (popFrame h s)).claim? c = some { cl with priority := p, waitLimit := timerOfMillis wait } := by
      rw [State.claim?, entry]
    obtain ⟨t, a, ht, within, settings, generation, claims, routes, -, accepted, last, reply⟩ :=
      offers.claimAnswered admitted act (amended_prepares names.1) claim waits
    rw [entry] at generation
    rw [amended_accepted] at accepted last
    refine ⟨t, a, ht, within, settings, generation, claims, routes, reply.imp ?granted ?queued⟩
    case granted =>
      rintro ⟨status, gone, r, rt, hr, new, same, kind, members, lease, results, untold, told⟩
      exact ⟨status, gone, r, rt, hr, new, same.trans owner, kind, members, lease, by rw [results]; cases rt.lease <;> rfl, owner ▸ untold,
        owner ▸ told⟩
    case queued =>
      rintro ⟨status, b, hc, results, untold⟩
      rw [generation] at results
      refine ⟨status, b, hc, fun same => ?_, fun new => last (by rw [hc]; exact waits) ?_, results, owner ▸ untold⟩
      · rwa [if_pos same.symm] at accepted
      · rw [if_neg (Ne.symm new), List.getLast?_concat]

end Sys2Proof.Machine


/-! The common checks (O15) and the request-specific checks of LISTEN and CLAIM (O18), each in its order. -/

namespace Sys2Proof.Machine

/-! ### The first check that fails -/

@[simp] theorem firstFailing_nil : firstFailing [] = none := rfl

@[simp] theorem firstFailing_cons (passed : Bool) (st : Status) (checks : List (Bool × Status)) :
    firstFailing ((passed, st) :: checks) = if !passed then some st else firstFailing checks := by
  cases passed <;> rfl

/-! ### The common checks (R143) -/

theorem firstFailing_common (code : ReqCode) (h : HostId) (ps : List Byte) (s : State) :
    firstFailing [(code.lengthOk ps, .badLength), (!code.needsAttachment || (s.session h).attached, .notAttached),
      (!code.needsSupervisor || h = s.supervisor, .notAuthorized)] = commonRefusal code h ps s := by
  unfold commonRefusal
  cases code.lengthOk ps with
  | false => rfl
  | true => cases code.needsAttachment <;> cases (s.session h).attached <;> cases code.needsSupervisor <;> simp

/-- A counted list has the length that its first byte counts, which is more than no byte at all. -/
theorem countedLength_iff {fixed : Nat} (pos : 0 < fixed) (ps : List Byte) :
    countedLength fixed ps = true ↔ ps.length = fixed + 2 * paramAt ps 0 := by
  cases ps with
  | nil =>
    simp only [countedLength, Bool.false_eq_true, List.length_nil, false_iff]
    omega
  | cons b ps => simp [countedLength]

theorem ReqCode.lengthOk_iff (code : ReqCode) (ps : List Byte) : code.lengthOk ps = true ↔ ps.length =
    match code with
    | .attach | .detach | .collect | .readLevels => 0
    | .queryLine | .queryPolicy | .trip | .rearm | .queryGroup => 1
    | .release | .revoke | .queryRoute | .cancel | .queryClaim => 2
    | .renew | .setGroup => 4
    | .amend => 5
    | .setPolicy => 10
    | .listen => 3 + 2 * paramAt ps 0
    | .claim => 6 + 2 * paramAt ps 0 := by
  cases code with
  | listen => exact countedLength_iff (by decide) ps
  | claim => exact countedLength_iff (by decide) ps
  | _ => exact decide_eq_true_iff

/-- Settles O15. The three checks are the common checks as the port makes them, and the tables of 10.4 and R39 are read off. -/
theorem commonChecksDecideInOrder : Obligations.CommonChecksDecideInOrder := by
  refine ⟨fun code h f s o checks eq => ?_, fun code ps => code.lengthOk_iff ps, fun code => ?_, fun code => ?_, rfl, rfl⟩
  · rw [eq, firstFailing_common]
    exact ⟨fun st refused => ⟨_, o.exec_refused refused, onlyAnswered_of s h f ⟨st, []⟩⟩, Iff.rfl⟩
  · cases code <;> decide
  · cases code <;> decide

/-! ### The checks of LISTEN and CLAIM (R55, R72) -/

theorem not_below_routeLimit (s : State) (h : HostId) :
    (!decide ((s.session h).routesInUse + (s.session h).waitingClaims < 32)) = atRouteLimit s h := by
  rw [← decide_not]
  exact decide_eq_decide.mpr not_lt

theorem firstFailing_listenChecks (s : State) (h : HostId) (ms : List Member) :
    firstFailing (listenChecks s h ms) = listenRefusal s h ms := by
  simp only [listenChecks, listenRefusal, firstFailing_cons, firstFailing_nil, not_below_routeLimit, ← List.any_eq_not_all_not,
    Bool.not_not, Option.not_isSome]

theorem firstFailing_claimChecks (s : State) (h : HostId) (p : ClaimParams) :
    firstFailing (claimChecks s h p) = claimRefusal s h p := by
  have records : (!decide ((s.session h).claimRecords < 8)) = decide (Config.hostClaimLimit ≤ (s.session h).claimRecords) := by
    rw [← decide_not]
    exact decide_eq_decide.mpr not_lt
  simp only [claimChecks, claimRefusal, firstFailing_cons, firstFailing_nil, not_below_routeLimit, records, ← List.any_eq_not_all_not,
    Bool.not_not, Bool.not_or, decide_not, decide_eq_true_eq]

theorem listenAct_refused {h : HostId} {ps : List Byte} {s : State} {lease : Nat} {ms : List Member} {st : Status}
    (params : listenParams? ps = some (lease, ms)) (refused : listenRefusal s h ms = some st) :
    listenAct h ps s = refuse st s := by
  simp only [listenAct, params, refused]

theorem claimAct_refused {h : HostId} {ps : List Byte} {s : State} {p : ClaimParams} {st : Status}
    (params : claimParams? ps = some p) (refused : claimRefusal s h p = some st) : claimAct h ps s = refuse st s := by
  simp only [claimAct, params, refused]

/-- Settles O18. The lists of checks are the checks that the blocks make, which read no port, and a block that refuses changes nothing. -/
theorem listenAndClaimChecksInOrder : Obligations.ListenAndClaimChecksInOrder := by
  refine ⟨fun h f s lease ms st o ad params failing => ?_, fun h f s p st o ad params failing => ?_⟩
  · rw [firstFailing_listenChecks] at failing
    exact o.only_answers ad (listenAct_refused (s := popFrame h s) params failing)
  · rw [firstFailing_claimChecks] at failing
    exact o.only_answers ad (claimAct_refused (s := popFrame h s) params failing)

end Sys2Proof.Machine

/-! LISTEN that passes its checks (O29). -/

namespace Sys2Proof.Machine

/-! ### Bindings of a list of members (R42) -/

theorem setBindings_other (mk : Nat → Binding) {n : TermNo} (i : Nat) (ms : List Member) (v : Vector (Option Binding) 12)
    (h : ∀ m ∈ ms, m.terminal ≠ n) : look (setBindings mk i ms v) n = look v n := by
  induction ms generalizing i v with
  | nil => rfl
  | cons m ms ih =>
    obtain ⟨hm, hms⟩ := List.forall_mem_cons.mp h
    rw [setBindings, ih _ _ hms, look_upd_other _ _ hm]

theorem setBindings_getElem? (mk : Nat → Binding) {j : Nat} {m : Member} (i : Nat) (ms : List Member) (v : Vector (Option Binding) 12)
    (nodup : (ms.map (·.terminal)).Nodup) (hj : ms[j]? = some m) :
    look (setBindings mk i ms v) m.terminal = some (mk (i + j)) := by
  induction ms generalizing i j v with
  | nil => simp at hj
  | cons x ms ih =>
    obtain ⟨fresh, nodup⟩ := List.nodup_cons.mp nodup
    cases j with
    | zero =>
      cases hj
      rw [setBindings, setBindings_other mk (i + 1) ms _ fun y hy e => fresh (List.mem_map.mpr ⟨y, hy, e⟩), look_upd_same]
      rfl
    | succ j => rw [setBindings, ih (i + 1) _ nodup hj, Nat.add_assoc, Nat.add_comm 1 j]

/-- The members that a request gives: 1 to 8 of them, no line twice and no terminal twice (R55, R71). -/
theorem memberList?_sound {bs : List Byte} {ms : List Member} (h : memberList? bs = some ms) :
    MembersSound ms ∧ (ms.map (·.terminal)).Nodup := by
  unfold memberList? at h
  split at h
  · split at h
    · rename_i ok
      cases h
      obtain ⟨-, most, lines, terminals⟩ := (membersOk_iff _).mp ok
      exact ⟨⟨most, lines⟩, terminals⟩
    · cases h
  · cases h

theorem listenParams?_sound {ps : List Byte} {lease : Nat} {ms : List Member} (h : listenParams? ps = some (lease, ms)) :
    MembersSound ms ∧ (ms.map (·.terminal)).Nodup := by
  unfold listenParams? at h
  split at h
  · obtain ⟨x, hx, e⟩ := Option.map_eq_some_iff.mp h
    cases e
    exact memberList?_sound hx
  · cases h

theorem claimParams?_sound {ps : List Byte} {p : ClaimParams} (h : claimParams? ps = some p) :
    MembersSound p.members ∧ (p.members.map (·.terminal)).Nodup := by
  unfold claimParams? at h
  split at h
  · split at h
    · rename_i hx
      cases h
      exact memberList?_sound hx
    · cases h
  · cases h

/-! ### The block of LISTEN -/

theorem firstFreeRoute_eq {s : State} {r : RouteSlot} (free : s.route? r = none) (lower : ∀ q, q < r → (s.route? q).isSome) :
    firstFreeRoute s = some r := by
  cases first : firstFreeRoute s with
  | none => simpa [free] using firstFreeRoute_none first r
  | some q =>
    rcases lt_trichotomy q r with below | rfl | above
    · simpa [firstFreeRoute_free first] using lower q below
    · rfl
    · simpa [free] using firstFreeRoute_lowest first r above

theorem listenAct_passed {h : HostId} {ps : List Byte} {s : State} {lease : Nat} {ms : List Member} {r : RouteSlot}
    (params : listenParams? ps = some (lease, ms)) (passed : listenRefusal s h ms = none) (free : firstFreeRoute s = some r) :
    listenAct h ps s = (createListener h lease ms r s,
      ⟨.ok, routeRefBytes (createListener h lease ms r s) r ++ bytes16 (resolveLease lease (effectiveMax s (linesOf ms)))⟩) := by
  simp only [listenAct, params, passed, free]

section

variable (h : HostId) (lease : Nat) (ms : List Member) (r : RouteSlot) (s : State)

theorem createListener_routeEntry (q : RouteSlot) : (createListener h lease ms r s).routeEntry q =
    if r = q then ⟨(s.routeEntry q).generation + 1#8, some (listenerRoute s h lease ms)⟩ else s.routeEntry q :=
  look_upd _ _ _ _

theorem createListener_session (k : HostId) : (createListener h lease ms r s).session k =
    if h = k then { s.session k with
      bindings := setBindings (.route r) 0 ms (s.session k).bindings, routesInUse := (s.session k).routesInUse + 1 }
    else s.session k := by
  show State.session (State.updSession (State.updSession _ _ _) _ _) k = _
  rw [State.updSession_session, State.updSession_session]
  split <;> rfl

theorem createListener_keepsRest : KeepsRest s (createListener h lease ms r s) := by constructor <;> rfl

theorem createListener_boundTo (nodup : (ms.map (·.terminal)).Nodup) : BoundTo (createListener h lease ms r s) h (.route r) ms := by
  intro i m hm
  rw [createListener_session, if_pos rfl]
  simpa using setBindings_getElem? (.route r) 0 ms (s.session h).bindings nodup hm

end

/-- Settles O29. LISTEN's block is `createListener` in the lowest free entry; the pins alone follow. -/
theorem listenCreatesARoute : Obligations.ListenCreatesARoute := by
  intro h f s lease ms r o ad params passing free lower
  rw [firstFailing_listenChecks] at passing
  have act := listenAct_passed (s := popFrame h s) params passing (firstFreeRoute_eq (s := popFrame h s) free lower)
  have rest := createListener_keepsRest h lease ms r (popFrame h s)
  have bound := createListener_boundTo h lease ms r (popFrame h s) (listenParams?_sound params).2
  refine ⟨_, o.exec ad act, ?_, taken_keepsSettings rest _, ?_, ?_, ?_, ?_, fun q ne => ?_, fun i m hm => ?_, fun n other => ?_, ?_,
    fun k ne => ?_⟩
  · have reference : routeRefBytes (createListener h lease ms r (popFrame h s)) r =
        [BitVec.ofNat 8 r.val, (s.routeEntry r).generation + 1#8] := by
      rw [routeRefBytes, createListener_routeEntry, if_pos rfl, place_zero, popFrame_routeEntry]
    rw [← reference]
    exact answeredWithin_of f rest _
  · rw [settle_claims, queueReply_claims]
    rfl
  · rw [settle_accepted, queueReply_accepted]
    rfl
  · rw [settle_lines, queueReply_lines]
    rfl
  · rw [taken_routeEntry, createListener_routeEntry, if_pos rfl]
    rfl
  · rw [taken_routeEntry, createListener_routeEntry, if_neg (Ne.symm ne), popFrame_routeEntry]
  · rw [taken_session]
    exact bound i m hm
  · rw [taken_session, createListener_session, if_pos rfl]
    exact setBindings_other _ 0 ms _ other
  · rw [taken_session, createListener_session, if_pos rfl]
    rfl
  · rw [taken_session, createListener_session, if_neg (Ne.symm ne), popFrame_session]

end Sys2Proof.Machine


/-! What every command does to the records, as a few kinds of events: a relation between the records before and after a command holds
if each kind of event makes it hold. -/

namespace Sys2Proof.Machine

theorem KeepsRecords.refl (s : State) : KeepsRecords s s := ⟨rfl, rfl, rfl, rfl, rfl⟩

theorem KeepsRecords.symm {s t : State} (k : KeepsRecords s t) : KeepsRecords t s :=
  ⟨k.sessions.symm, k.routes.symm, k.claims.symm, k.accepted.symm, k.lines.symm⟩

theorem KeepsRecords.trans {s t u : State} (a : KeepsRecords s t) (b : KeepsRecords t u) : KeepsRecords s u :=
  ⟨b.sessions.trans a.sessions, b.routes.trans a.routes, b.claims.trans a.claims, b.accepted.trans a.accepted, b.lines.trans a.lines⟩

theorem updPort_keepsRecords (s : State) (h : HostId) (f : Port → Port) : KeepsRecords s (s.updPort h f) :=
  ⟨rfl, rfl, rfl, rfl, rfl⟩

theorem settle_keepsRecords (s t : State) : KeepsRecords t (settle s t) :=
  ⟨settle_sessions s t, settle_routes s t, settle_claims s t, settle_accepted s t, settle_lines s t⟩

/-! ### What the walk reads of the records -/

theorem routeAt?_some {s : State} {r : RouteSlot} {gen : Byte} {rt : Route} (h : routeAt? s r gen = some rt) : s.route? r = some rt := by
  unfold routeAt? at h
  split at h
  · exact h
  · cases h

theorem admitted_attached {code : ReqCode} {h : HostId} {f : List Byte} {s : State} (ad : Admitted s h code f)
    (needs : code.needsAttachment = true) : (s.session h).attached = true := by
  have passed : commonRefusal code h (frameParams f) s = none := ad
  unfold commonRefusal at passed
  split_ifs at passed with length attached authority
  simpa [needs] using attached

theorem advance_route? (d : Nat) (s : State) (r : RouteSlot) : (advance d s).route? r = (s.route? r).map (Route.after d) := by
  rw [State.route?, State.routeEntry, advance, look_map]
  rfl

theorem advance_claim? (d : Nat) (s : State) (c : ClaimSlot) : (advance d s).claim? c = (s.claim? c).map (Claim.after d) := by
  rw [State.claim?, State.claimEntry, advance, look_map]
  rfl

theorem runningLease_some {s : State} {r : RouteSlot} {t : Nat} {rt : Route} (runs : runningLease s r = some (t, rt)) :
    s.route? r = some rt ∧ rt.state = .active := by
  unfold runningLease at runs
  split at runs
  · cases runs
  · rename_i x hx
    split at runs
    · rename_i active
      obtain ⟨d, -, e⟩ := Option.map_eq_some_iff.mp runs
      cases e
      refine ⟨hx, ?_⟩
      cases e : rt.state <;> simp_all [Route.active]
    · cases runs

theorem runningBreak_some {s : State} {r : RouteSlot} {t : Nat} {owner : HostId} (runs : runningBreak s r = some (t, owner)) :
    ∃ rt, s.route? r = some rt ∧ rt.state = .connecting t ∧ rt.owner = owner := by
  unfold runningBreak at runs
  split at runs
  · cases runs
  · rename_i rt hx
    split at runs
    · rename_i connecting
      cases runs
      exact ⟨rt, hx, connecting, rfl⟩
    · cases runs

theorem runningWait_some {s : State} {c : ClaimSlot} {t : Nat} {cl : Claim} (runs : runningWait s c = some (t, cl)) :
    s.claim? c = some cl ∧ cl.state = .waiting := by
  unfold runningWait at runs
  split at runs
  · cases runs
  · rename_i x hx
    split at runs
    · rename_i waits
      obtain ⟨d, -, e⟩ := Option.map_eq_some_iff.mp runs
      cases e
      refine ⟨hx, ?_⟩
      cases e : cl.state <;> simp_all [Claim.waiting]
    · cases runs

/-! ### The kinds of events -/

/-- A relation between the records before and after an event that holds over each kind of event but the opening of a session, a CLAIM, an
AMEND and device reset. -/
structure EventMoves (R : State → State → Prop) : Prop where
  refl : ∀ s, R s s
  congr : ∀ {s s' t t'}, R s t → KeepsRecords s s' → KeepsRecords t t' → R s' t'
  /-- Time passes before the event. -/
  later : ∀ d {s t}, R (advance d s) t → R s t
  endSession : ∀ {h s}, (s.session h).attached = true → R s (endSession h s)
  collect : ∀ {h} ps {s}, (s.session h).attached = true → R s (collectAct h ps s).1
  listen : ∀ {h lease ms r s}, (s.session h).attached = true → MembersSound ms → (ms.map (·.terminal)).Nodup →
    listenRefusal s h ms = none → s.route? r = none → R s (createListener h lease ms r s)
  release : ∀ {r rt s}, s.route? r = some rt → R s (arbitrate none (linesGivenUp rt) (freeRoute r s))
  close : ∀ why {r rt s}, s.route? r = some rt → rt.live = true → R s (arbitrate none (linesGivenUp rt) (closeRoute why r s))
  renew : ∀ r (g : Route → Option Nat) s, R s (s.updRoute r fun x => { x with lease := g x })
  cancel : ∀ {c cl s}, s.claim? c = some cl → cl.waiting = true → R s (cancelClaim c cl s).1
  policy : ∀ first last p s, R s (applyPolicy first last p s).1
  held : ∀ before s, R s (passHeldChanges before s)
  activate : ∀ {r rt d s}, s.route? r = some rt → rt.state = .connecting d → R s (noteRoute rt.owner r (activate r s))
  expireWait : ∀ {c cl s}, s.claim? c = some cl → cl.waiting = true → R s (expireWait c cl s)

/-- The requests whose own claim or session decides what a relation can say of them. -/
def ReqCode.isOwn : ReqCode → Bool
  | .attach | .claim | .amend => true
  | _ => false

namespace EventMoves

variable {R : State → State → Prop} (m : EventMoves R)
include m

theorem of_same {s t : State} (k : KeepsRecords s t) : R s t := m.congr (m.refl s) (.refl s) k

theorem advance (d : Nat) (s : State) : R s (advance d s) := m.later d (m.refl _)

theorem changeGroup (g : GroupNo) (f : Group → Group) (s : State) : R s (changeGroup g f s) :=
  have grouped : KeepsRecords s (s.updGroup g f) := ⟨rfl, rfl, rfl, rfl, rfl⟩
  m.congr (m.held s (s.updGroup g f)) grouped.symm (.refl _)

theorem qualifyAs (g : GroupNo) (level : Level) (f : Qualifier → Qualifier) (s : State) : R s (qualifyAs g level f s) :=
  have qualified : KeepsRecords s (s.updQualifier g fun q => { f q with qualified := level }) := ⟨rfl, rfl, rfl, rfl, rfl⟩
  m.congr (m.changeGroup g (groupOnLevel level) _) qualified.symm (.refl _)

/-! ### The blocks of the requests -/

section

variable {h : HostId} {ps : List Byte} {s : State}

theorem listenAct (attached : (s.session h).attached = true) : R s (listenAct h ps s).1 := by
  unfold Machine.listenAct
  split
  · exact m.refl s
  · rename_i params
    split
    · exact m.refl s
    · exact m.refl s
    · rename_i passed free
      obtain ⟨sound, terminals⟩ := listenParams?_sound params
      exact m.listen attached sound terminals passed (firstFreeRoute_free free)

theorem releaseAct : R s (releaseAct h ps s).1 := by
  unfold Machine.releaseAct
  split
  · exact m.refl s
  · split
    · exact m.refl s
    · rename_i named
      split
      · exact m.refl s
      · exact m.release (routeAt?_some named)

theorem renewAct : R s (renewAct h ps s).1 := by
  unfold Machine.renewAct
  split
  · exact m.refl s
  · rename_i r _ lease _
    split
    · exact m.refl s
    · split
      · exact m.refl s
      · split
        · exact m.refl s
        · exact m.renew r (fun x => leaseFor s lease (linesOf x.members)) s

theorem revokeAct : R s (revokeAct h ps s).1 := by
  unfold Machine.revokeAct
  split
  · exact m.refl s
  · split
    · exact m.refl s
    · rename_i rt named
      split
      · exact m.refl s
      · rename_i still
        refine m.close .revoked (routeAt?_some named) ?_
        cases e : rt.state with
        | closed why => exact absurd e (still why)
        | connecting | active => simp [Route.live, e]

theorem cancelAct : R s (cancelAct h ps s).1 := by
  unfold Machine.cancelAct
  split
  · exact m.refl s
  · split
    · exact m.refl s
    · exact m.refl s
    · rename_i cl passed named
      obtain ⟨x, hx, -, waits⟩ := claimRefRefusal_none passed
      cases named.symm.trans hx
      exact m.cancel (claimAt?_some named).1 waits

theorem setPolicyAct : R s (setPolicyAct h ps s).1 := by
  unfold Machine.setPolicyAct
  split
  · exact m.refl s
  · exact m.policy ..

theorem setGroupAct : R s (setGroupAct h ps s).1 := by
  unfold Machine.setGroupAct
  split
  · exact m.refl s
  · split
    · exact m.refl s
    · exact m.changeGroup ..

theorem tripAct : R s (tripAct h ps s).1 := by
  unfold Machine.tripAct
  split
  · exact m.refl s
  · split
    · exact m.refl s
    · exact m.changeGroup ..

theorem rearmAct : R s (rearmAct h ps s).1 := by
  unfold Machine.rearmAct
  split
  · exact m.refl s
  · split
    · exact m.refl s
    · split
      · exact m.refl s
      · exact m.changeGroup ..

theorem act {code : ReqCode} (own : code.isOwn = true → R s (code.act h ps s).1)
    (attached : code.needsAttachment = true → (s.session h).attached = true) : R s (code.act h ps s).1 := by
  have of_state {t : State} (e : t = s) : R s t := e ▸ m.refl s
  cases code with
  | attach | claim | amend => exact own rfl
  | detach => exact m.endSession (attached rfl)
  | collect => exact m.collect ps (attached rfl)
  | readLevels => exact m.refl s
  | queryLine => exact of_state (queryLineAct_state h ps s)
  | setPolicy => exact m.setPolicyAct (h := h)
  | queryPolicy => exact of_state (queryPolicyAct_state h ps s)
  | listen => exact m.listenAct (attached rfl)
  | release => exact m.releaseAct
  | renew => exact m.renewAct
  | revoke => exact m.revokeAct (h := h)
  | queryRoute => exact of_state (queryRouteAct_state h ps s)
  | cancel => exact m.cancelAct
  | queryClaim => exact of_state (queryClaimAct_state h ps s)
  | setGroup => exact m.setGroupAct (h := h)
  | trip => exact m.tripAct (h := h)
  | rearm => exact m.rearmAct
  | queryGroup => exact of_state (queryGroupAct_state h ps s)

end

/-- What the taking of a request makes of the records is what its block makes of them. -/
theorem takeRequest {code : ReqCode} {h : HostId} {s : State} (own : code.isOwn = true → ∀ f, Admitted s h code f →
    R (popFrame h s) (code.act h (frameParams f) (popFrame h s)).1) : R s (takeRequest code code.act h s) := by
  have popped : KeepsRecords s (popFrame h s) := updPort_keepsRecords s h _
  have queued (f : List Byte) (a : Answer) (u : State) : KeepsRecords u (settle s (queueReply h f a u)) :=
    (updPort_keepsRecords u h _).trans (settle_keepsRecords s _)
  obtain e | ⟨f, a, e⟩ | ⟨f, a, ad, e⟩ := takeRequest_cases (h := h) (s := s) code <;> rw [e]
  · exact m.refl s
  · exact m.of_same (popped.trans (queued f a _))
  · exact m.congr (m.act (fun o => own o f ad) fun needs => admitted_attached ad needs) popped.symm (queued f a _)

/-! ### Links, timers and pins -/

section

variable {s : State}

theorem onKind (h : HostId) {f : Byte → State → State} (k : ∀ st, R s (f st s)) : R s (onKind h f s) := by
  unfold Machine.onKind
  split
  · exact m.refl s
  · exact k _

theorem takeUnknown (h : HostId) : R s (takeUnknown h s) := by
  unfold Machine.takeUnknown
  split
  · exact m.refl s
  · split
    · exact m.refl s
    · exact m.of_same ((updPort_keepsRecords s h _).trans (updPort_keepsRecords _ h _))

theorem resetLink (h : HostId) (st : Byte) : R s (resetLink h st s) := by
  unfold Machine.resetLink
  dsimp only
  split
  · rename_i attached
    exact m.congr (m.endSession attached) (.refl s) (updPort_keepsRecords _ h _)
  · exact m.of_same (updPort_keepsRecords s h _)

theorem leaseEnd (r : RouteSlot) : R s (leaseEnd r s) := by
  unfold Machine.leaseEnd
  split
  · exact m.refl s
  · rename_i t rt runs
    obtain ⟨route, active⟩ := runningLease_some runs
    have later : (Machine.advance t s).route? r = some { rt with lease := rt.lease.map (· - t) } := by
      rw [advance_route?, route, Option.map_some, Route.after, active]
    have closed := m.close .expired later (by simp [Route.live, active])
    exact m.later t closed

theorem breakEnd (r : RouteSlot) : R s (breakEnd r s) := by
  unfold Machine.breakEnd
  split
  · exact m.refl s
  · rename_i t owner runs
    obtain ⟨rt, route, connecting, rfl⟩ := runningBreak_some runs
    have later : (Machine.advance t s).route? r = some { rt with state := .connecting (t - t) } := by
      rw [advance_route?, route, Option.map_some, Route.after, connecting]
    have activated := m.activate later rfl
    exact m.later t activated

theorem waitEnd (c : ClaimSlot) : R s (waitEnd c s) := by
  unfold Machine.waitEnd
  split
  · exact m.refl s
  · rename_i t cl runs
    obtain ⟨claim, waits⟩ := runningWait_some runs
    have later : (Machine.advance t s).claim? c = some { cl with waitLimit := cl.waitLimit.map (· - t) } := by
      rw [advance_claim?, claim, Option.map_some, Claim.after, waits]
    have expired := m.expireWait later (by simp [Claim.waiting, waits])
    exact m.later t expired

theorem settleEnd (g : GroupNo) : R s (settleEnd g s) := by
  unfold Machine.settleEnd
  split
  · exact m.later _ (m.changeGroup ..)
  · exact m.refl s

theorem qualify (g : GroupNo) : R s (qualify g s) := by
  unfold Machine.qualify
  split
  · exact m.qualifyAs ..
  · exact m.later _ (m.qualifyAs ..)
  · exact m.refl s

end

/-! ### Every command -/

theorem reaction {i : Instr} {s : State} (own : ∀ code h f, i = code.command h → code.isOwn = true → Admitted s h code f →
    R (popFrame h s) (code.act h (frameParams f) (popFrame h s)).1) : R s (reaction i s) := by
  have port (h : HostId) (f : Port → Port) : R s (s.updPort h f) := m.of_same (updPort_keepsRecords s h f)
  have settled {t : State} (k : R s t) : R s (settle s t) := m.congr k (.refl s) (settle_keepsRecords s t)
  cases i with
  | transactionBegin h | write h => exact port h _
  | read h => exact m.onKind h (f := fun st t => t.updPort h (readReply st)) fun _ => port h _
  | readAgain h => exact m.onKind h (f := fun st t => t.updPort h (readReplyAgain st)) fun _ => port h _
  | linkReset h => exact m.onKind h (f := fun st t => settle t (Machine.resetLink h st t)) fun st => settled (m.resetLink h st)
  | unknownKind h =>
    unfold Machine.reaction
    dsimp only
    split
    · exact m.onKind h fun _ => port h _
    · exact m.refl s
  | unknownRequest h => exact m.takeUnknown h
  | attach h | detach h | collect h | readLevels h | queryLine h | setPolicy h | queryPolicy h | listen h | release h | renew h | revoke h
  | queryRoute h | claim h | amend h | cancel h | queryClaim h | setGroup h | trip h | rearm h | queryGroup h =>
    exact m.takeRequest fun o f => own _ h f rfl o
  | leaseExpiry r => exact settled (m.leaseEnd r)
  | breakExpiry r => exact settled (m.breakEnd r)
  | waitLimitExpiry c => exact settled (m.waitEnd c)
  | settleExpiry g => exact settled (m.settleEnd g)
  | qualifiedLevelChange g => exact settled (m.qualify g)
  | deviceReset | leaveReset | faultPinChange | terminalLevelChange | boardLineLevelChange => exact m.refl s

/-- A relation that holds over each kind of event holds over every command, if it holds over device reset and over the requests that
decide about their own session or claim. -/
theorem exec {i : Instr} {s t : State} (reset : i = .deviceReset → R s State.reset)
    (own : ∀ code h f, i = code.command h → code.isOwn = true → Admitted s h code f →
      R (popFrame h s) (code.act h (frameParams f) (popFrame h s)).1) (step : exec i s = .next t) : R s t := by
  by_cases hi : actsInReset i = false
  · rw [exec_reaction hi] at step
    injection step with step
    subst step
    split
    · exact m.refl s
    · exact m.reaction own
  · cases i with
    | deviceReset =>
      cases step
      exact m.congr (reset rfl) (.refl s) (⟨rfl, rfl, rfl, rfl, rfl⟩)
    | leaveReset a b =>
      cases on : s.inReset with
      | true =>
        rw [exec_leaveReset a b s on] at step
        cases step
        exact m.of_same (leaveReset_keepsRecords a b s)
      | false =>
        rw [exec_leaveReset_running a b s on] at step
        cases step
        exact m.refl s
    | faultPinChange =>
      cases step
      exact m.of_same ⟨rfl, rfl, rfl, rfl, rfl⟩
    | terminalLevelChange k n v =>
      cases step
      have driven : KeepsRecords s (driveTerminal k n v s) := ⟨rfl, rfl, rfl, rfl, rfl⟩
      exact m.of_same (driven.trans (settle_keepsRecords s _))
    | boardLineLevelChange l v =>
      cases step
      have driven : KeepsRecords s (driveLine l v s) := ⟨rfl, rfl, rfl, rfl, rfl⟩
      exact m.of_same (driven.trans (settle_keepsRecords s _))
    | _ => exact absurd rfl hi

/-- Every step keeps what each kind of event keeps. -/
theorem step {s t : State} (reset : ∀ s, R s State.reset)
    (own : ∀ (code : ReqCode) h f s, code.isOwn = true → Admitted s h code f → R s (code.act h (frameParams f) s).1)
    (stepped : step s = .next t) : R s t := by
  unfold Machine.step at stepped
  split at stepped
  · cases stepped
    exact m.advance 1 s
  · rename_i i rest _
    have queued : KeepsRecords { s with pending := rest } s := ⟨rfl, rfl, rfl, rfl, rfl⟩
    exact m.congr (m.exec (fun _ => reset _) (fun code h f _ o ad => own code h f _ o ad) stepped) queued (.refl t)

end EventMoves

end Sys2Proof.Machine


/-! What the operations on records make of sessions, routes and claims; and predicates of these that each operation keeps. -/

namespace Sys2Proof.Machine

/-! ### Sessions, routes and claims under each operation -/

theorem route?_congr {s t : State} (e : t.routes = s.routes) (r : RouteSlot) : t.route? r = s.route? r := by
  rw [State.route?, State.routeEntry, e]
  rfl

theorem claim?_congr {s t : State} (e : t.claims = s.claims) (c : ClaimSlot) : t.claim? c = s.claim? c := by
  rw [State.claim?, State.claimEntry, e]
  rfl

section

variable {s : State} {r : RouteSlot} {rt : Route} {c : ClaimSlot} {cl : Claim}

theorem closeRoute_session (why : CloseReason) (h : s.route? r = some rt) (live : rt.live = true) (k : HostId) :
    (closeRoute why r s).session k = if rt.owner = k then { s.session k with
      bindings := clearBindings rt.members (s.session k).bindings
      changes := { (s.session k).changes with routes := insertAsc r (s.session k).changes.routes } } else s.session k := by
  simp only [closeRoute, h, live, if_true]
  rw [noteRoute, State.updSession_session, session_congr (giveUp_sessions _ r rt), unbindMembers, State.updSession_session]
  split <;> rfl

theorem closeRoute_route? (why : CloseReason) (h : s.route? r = some rt) (live : rt.live = true) (q : RouteSlot) :
    (closeRoute why r s).route? q =
      if r = q then some { rt with state := .closed why, lease := none, forced := 0#8 } else s.route? q := by
  rw [State.route?, closeRoute_routeEntry h live]
  split <;> rfl

theorem freeRoute_session (h : s.route? r = some rt) (k : HostId) : (freeRoute r s).session k =
    if rt.owner = k then { s.session k with
      routesInUse := (s.session k).routesInUse - 1
      bindings := if rt.live then clearBindings rt.members (s.session k).bindings else (s.session k).bindings
      changes := { (s.session k).changes with routes := (s.session k).changes.routes.filter (· ≠ r) } } else s.session k := by
  simp only [freeRoute, h]
  show State.session (State.updSession _ _ _) k = _
  rw [State.updSession_session, unnoteRoute, State.updSession_session]
  cases rt.live with
  | false => split <;> rfl
  | true =>
    simp only [if_true]
    rw [session_congr (giveUp_sessions s r rt), unbindMembers, State.updSession_session]
    split <;> rfl

theorem freeRoute_route? (h : s.route? r = some rt) (q : RouteSlot) :
    (freeRoute r s).route? q = if r = q then none else s.route? q := by
  simp only [freeRoute, h]
  rw [State.route?, State.updRouteEntry_routeEntry]
  split
  · rfl
  · split
    · exact route?_congr (s := s) (giveUp_routes s r rt) q
    · rfl

theorem freeClaim_claim? (h : s.claim? c = some cl) (d : ClaimSlot) : (freeClaim c s).claim? d = if c = d then none else s.claim? d := by
  rw [State.claim?, freeClaim_claimEntry h]
  split <;> rfl

theorem withdrawClaim_session (s : State) (c : ClaimSlot) (cl : Claim) (k : HostId) : (withdrawClaim c cl s).session k =
    if cl.owner = k then { s.session k with
      bindings := clearBindings cl.members (s.session k).bindings, waitingClaims := (s.session k).waitingClaims - 1 }
    else s.session k := by
  show State.session (State.updSession _ _ _) k = _
  rw [State.updSession_session, unbindMembers, State.updSession_session, session_congr (leaveAccepted_sessions _ c),
    session_congr (leaveQueues_keeps s c _).sessions]
  split <;> rfl

theorem dropClaim_session (why : DropReason) (h : s.claim? c = some cl) (k : HostId) : (dropClaim why c s).session k =
    if cl.owner = k then { s.session k with
      bindings := clearBindings cl.members (s.session k).bindings
      waitingClaims := (s.session k).waitingClaims - 1
      changes := { (s.session k).changes with claims := insertAsc c (s.session k).changes.claims } } else s.session k := by
  simp only [dropClaim, h]
  rw [noteClaim, State.updSession_session]
  show (if _ then _ else (withdrawClaim c cl s).session k) = _
  split
  · rename_i own
    rw [session_congr (State.updClaim_sessions ..), withdrawClaim_session, if_pos own]
  · rename_i other
    rw [withdrawClaim_session, if_neg other]

theorem dropClaim_claim? (why : DropReason) (h : s.claim? c = some cl) (d : ClaimSlot) :
    (dropClaim why c s).claim? d = if c = d then some (cl.drop why) else s.claim? d := by
  rw [State.claim?, dropClaim_entry]
  split
  · rename_i same
    subst same
    exact congrArg (Option.map _) h
  · rfl

theorem cancelled_session (h : s.claim? c = some cl) (k : HostId) : (freeClaim c (withdrawClaim c cl s)).session k =
    if cl.owner = k then { s.session k with
      bindings := clearBindings cl.members (s.session k).bindings
      waitingClaims := (s.session k).waitingClaims - 1
      claimRecords := (s.session k).claimRecords - 1
      changes := { (s.session k).changes with claims := (s.session k).changes.claims.filter (· ≠ c) } } else s.session k := by
  have named : (withdrawClaim c cl s).claim? c = some cl := (claim?_congr (withdrawClaim_claims s c cl) c).trans h
  rw [freeClaim_session named, withdrawClaim_session]
  split <;> rfl

theorem cancelled_claim? (h : s.claim? c = some cl) (d : ClaimSlot) :
    (freeClaim c (withdrawClaim c cl s)).claim? d = if c = d then none else s.claim? d := by
  have same (d : ClaimSlot) := claim?_congr (withdrawClaim_claims s c cl) d
  rw [freeClaim_claim? ((same c).trans h), same]

theorem cancelled_routes (s : State) (c : ClaimSlot) (cl : Claim) : (freeClaim c (withdrawClaim c cl s)).routes = s.routes :=
  (freeClaim_routes _ c).trans (withdrawClaim_routes s c cl)

end

section

variable (s : State) (h k : HostId) (c d : ClaimSlot) (r q : RouteSlot)

theorem grantBase_session (cl : Claim) : (grantBase c cl r s).session k =
    if cl.owner = k then { s.session k with
      bindings := setBindings (.route r) 0 cl.members (s.session k).bindings
      waitingClaims := (s.session k).waitingClaims - 1
      routesInUse := (s.session k).routesInUse + 1 } else s.session k := by
  rw [grantBase, session_congr (settleGranted_sessions ..), State.updSession_session, bindMembers, State.updSession_session,
    session_congr (takeLines_keeps ..).sessions]
  split <;> rfl

theorem grantBase_route? (cl : Claim) : (grantBase c cl r s).route? q = if r = q then some (grantedRoute s cl) else s.route? q := by
  rw [route?_congr (grantBase_routes c cl r s), takeEntry, State.route?, State.updRouteEntry_routeEntry]
  split <;> rfl

theorem grantBase_claim? {cl : Claim} (claim : s.claim? c = some cl) : (grantBase c cl r s).claim? d =
    if c = d then some { cl with state := .granted r, waitLimit := none, awaiting := false } else s.claim? d := by
  rw [grantBase, claim?_congr (settleGranted_claims ..), State.updClaim_claim?, claim?_congr (takeLines_keeps ..).claims]
  split
  · rename_i same
    subst same
    exact congrArg (Option.map _) claim
  · rfl

theorem createListener_route? (lease : Nat) (ms : List Member) : (createListener h lease ms r s).route? q =
    if r = q then some (listenerRoute s h lease ms) else s.route? q := by
  rw [State.route?, createListener_routeEntry]
  split <;> rfl

theorem createListener_claims (lease : Nat) (ms : List Member) : (createListener h lease ms r s).claims = s.claims := rfl

theorem accepted_session (p : ClaimParams) : (acceptClaim h p c s).session k =
    if h = k then { s.session k with
      bindings := setBindings (.claim c) 0 p.members (s.session k).bindings
      waitingClaims := (s.session k).waitingClaims + 1
      claimRecords := (s.session k).claimRecords + 1 } else s.session k := by
  unfold acceptClaim
  dsimp only
  rw [State.updSession_session, bindMembers, State.updSession_session, session_congr (joinQueues_keeps _ c _).sessions]
  split <;> rfl

theorem acceptClaim_claim? (p : ClaimParams) : (acceptClaim h p c s).claim? d = if c = d then some (newClaim h p) else s.claim? d := by
  rw [State.claim?, acceptClaim_claimEntry]
  split <;> rfl

theorem clearHost_session : (clearHost h s).session k =
    if h = k then { Session.reset with epoch := (s.session k).epoch } else s.session k := look_upd ..

theorem clearHost_routeEntry : (clearHost h s).routeEntry r =
    if ownsRoute h (s.routeEntry r) then freedEntry (s.routeEntry r) else s.routeEntry r := look_map ..

theorem clearHost_claimEntry : (clearHost h s).claimEntry c =
    if ownsClaim h (s.claimEntry c) then freedRecord (s.claimEntry c) else s.claimEntry c := look_map ..

theorem ownsRoute_iff {e : RouteEntry} : ownsRoute h e = true ↔ ∃ rt, e.route = some rt ∧ rt.owner = h := by
  unfold ownsRoute
  split <;> simp [*]

theorem ownsClaim_iff {e : ClaimEntry} : ownsClaim h e = true ↔ ∃ cl, e.claim = some cl ∧ cl.owner = h := by
  unfold ownsClaim
  split <;> simp [*]

theorem clearHost_route?_some {rt : Route} : (clearHost h s).route? r = some rt ↔ s.route? r = some rt ∧ rt.owner ≠ h := by
  rw [State.route?, clearHost_routeEntry]
  split
  · rename_i own
    obtain ⟨x, hx, owner⟩ := (ownsRoute_iff h).mp own
    simp [freedEntry, State.route?, hx, ← owner]
    rintro rfl
    simp
  · rename_i other
    refine ⟨fun e => ⟨e, fun owner => other ((ownsRoute_iff h).mpr ⟨rt, e, owner⟩)⟩, And.left⟩

theorem clearHost_claim?_some {cl : Claim} : (clearHost h s).claim? c = some cl ↔ s.claim? c = some cl ∧ cl.owner ≠ h := by
  rw [State.claim?, clearHost_claimEntry]
  split
  · rename_i own
    obtain ⟨x, hx, owner⟩ := (ownsClaim_iff h).mp own
    simp [freedRecord, State.claim?, hx, ← owner]
    rintro rfl
    simp
  · rename_i other
    refine ⟨fun e => ⟨e, fun owner => other ((ownsClaim_iff h).mpr ⟨cl, e, owner⟩)⟩, And.left⟩

theorem openSession_session : (openSession h s).session k =
    if h = k then { s.session k with attached := true, epoch := nextEpoch (s.session k).epoch } else s.session k :=
  State.updSession_session ..

end

/-! ### What the host, the members and the life of a record are -/

/-- Whose a route is, its members, and whether it is live. -/
def Route.core (rt : Route) : HostId × List Member × Bool := (rt.owner, rt.members, rt.live)

/-- Whose a claim is, its members, and whether it waits. -/
def Claim.core (cl : Claim) : HostId × List Member × Bool := (cl.owner, cl.members, cl.waiting)

/-- Sessions and the cores of routes and claims are as they were. -/
structure KeepsCores (s t : State) : Prop where
  sessions : t.sessions = s.sessions
  routes : ∀ r, (t.route? r).map Route.core = (s.route? r).map Route.core
  claims : ∀ c, (t.claim? c).map Claim.core = (s.claim? c).map Claim.core

theorem KeepsCores.refl (s : State) : KeepsCores s s := ⟨rfl, fun _ => rfl, fun _ => rfl⟩

theorem KeepsCores.trans {s t u : State} (a : KeepsCores s t) (b : KeepsCores t u) : KeepsCores s u :=
  ⟨b.sessions.trans a.sessions, fun r => (b.routes r).trans (a.routes r), fun c => (b.claims c).trans (a.claims c)⟩

theorem KeepsCores.route {s t : State} (k : KeepsCores s t) {r : RouteSlot} {rt : Route} (h : t.route? r = some rt) :
    ∃ x, s.route? r = some x ∧ x.owner = rt.owner ∧ x.members = rt.members ∧ x.live = rt.live := by
  have e := k.routes r
  rw [h, Option.map_some] at e
  obtain ⟨x, hx, core⟩ := Option.map_eq_some_iff.mp e.symm
  simp only [Route.core, Prod.mk.injEq] at core
  exact ⟨x, hx, core⟩

theorem KeepsCores.claim {s t : State} (k : KeepsCores s t) {c : ClaimSlot} {cl : Claim} (h : t.claim? c = some cl) :
    ∃ x, s.claim? c = some x ∧ x.owner = cl.owner ∧ x.members = cl.members ∧ x.waiting = cl.waiting := by
  have e := k.claims c
  rw [h, Option.map_some] at e
  obtain ⟨x, hx, core⟩ := Option.map_eq_some_iff.mp e.symm
  simp only [Claim.core, Prod.mk.injEq] at core
  exact ⟨x, hx, core⟩

theorem KeepsCores.symm {s t : State} (k : KeepsCores s t) : KeepsCores t s :=
  ⟨k.sessions.symm, fun r => (k.routes r).symm, fun c => (k.claims c).symm⟩

theorem keepsCores_of_same {s t : State} (sessions : t.sessions = s.sessions) (routes : t.routes = s.routes)
    (claims : t.claims = s.claims) : KeepsCores s t :=
  ⟨sessions, fun r => by rw [route?_congr routes], fun c => by rw [claim?_congr claims]⟩

theorem KeepsRecords.cores {s t : State} (k : KeepsRecords s t) : KeepsCores s t := keepsCores_of_same k.sessions k.routes k.claims

theorem KeepsAllButLines.cores {s t : State} (k : KeepsAllButLines s t) : KeepsCores s t :=
  keepsCores_of_same k.sessions k.routes k.claims

theorem updRoute_keepsCores (s : State) (r : RouteSlot) {f : Route → Route}
    (same : ∀ rt, s.route? r = some rt → (f rt).core = rt.core) : KeepsCores s (s.updRoute r f) := by
  refine ⟨rfl, fun q => ?_, fun _ => rfl⟩
  rw [State.updRoute_route?]
  split
  · rename_i e
    subst e
    cases hr : s.route? r with
    | none => rfl
    | some rt => exact congrArg some (same rt hr)
  · rfl

theorem updClaim_keepsCores (s : State) (c : ClaimSlot) {f : Claim → Claim}
    (same : ∀ cl, s.claim? c = some cl → (f cl).core = cl.core) : KeepsCores s (s.updClaim c f) := by
  refine ⟨rfl, fun _ => rfl, fun d => ?_⟩
  rw [State.updClaim_claim?]
  split
  · rename_i e
    subst e
    cases hc : s.claim? c with
    | none => rfl
    | some cl => exact congrArg some (same cl hc)
  · rfl

theorem activate_keepsCores {s : State} {r : RouteSlot} (live : ∀ rt, s.route? r = some rt → rt.live = true) :
    KeepsCores s (activate r s) := by
  unfold activate
  split
  · exact .refl s
  · exact (updRoute_keepsCores s r fun rt hr => by rw [Route.core, Route.core, live rt hr]; rfl).trans (setLineStates_keep _ _).cores

theorem advance_keepsCores (d : Nat) (s : State) : KeepsCores s (advance d s) := by
  refine ⟨rfl, fun r => ?_, fun c => ?_⟩
  · rw [advance_route?, Option.map_map]
    refine congrArg (fun f => Option.map f (s.route? r)) (funext fun rt => ?_)
    cases e : rt.state <;> simp [Route.core, Route.after, Route.live, e]
  · rw [advance_claim?, Option.map_map]
    refine congrArg (fun f => Option.map f (s.claim? c)) (funext fun cl => ?_)
    cases e : cl.state <;> simp [Claim.core, Claim.after, Claim.waiting, e]

/-- The host may have references: it is ATTACHED or owns a record. -/
def Serves (s : State) (h : HostId) : Prop :=
  (s.session h).attached = true ∨ (∃ r rt, s.route? r = some rt ∧ rt.owner = h) ∨ ∃ c cl, s.claim? c = some cl ∧ cl.owner = h

theorem serves_route {s : State} {r : RouteSlot} {rt : Route} (h : s.route? r = some rt) : Serves s rt.owner := .inr (.inl ⟨r, rt, h, rfl⟩)

/-! ### Predicates that the grant checks keep -/

/-- A predicate of sessions and of the cores of routes and claims that is kept by changes of change sets and by each move of the Line
Arbiter. -/
structure CheckMoves (P : State → Prop) : Prop where
  cores : ∀ {s t}, P s → KeepsCores s t → P t
  changes : ∀ {s h} (f : ChangeSet → ChangeSet), P s → Serves s h → P (s.updSession h fun e => { e with changes := f e.changes })
  close : ∀ {s r rt} why, P s → s.route? r = some rt → rt.live = true → P (closeRoute why r s)
  grant : ∀ {s c cl r}, P s → s.claim? c = some cl → cl.waiting = true → s.route? r = none → P (grantBase c cl r s)

namespace CheckMoves

variable {P : State → Prop} (m : CheckMoves P)
include m

theorem noteRoute {s : State} {h : HostId} (r : RouteSlot) (hold : P s) (serves : Serves s h) : P (noteRoute h r s) :=
  m.changes (fun cs => { cs with routes := insertAsc r cs.routes }) hold serves

theorem noteClaim {s : State} {h : HostId} (c : ClaimSlot) (hold : P s) (serves : Serves s h) : P (noteClaim h c s) :=
  m.changes (fun cs => { cs with claims := insertAsc c cs.claims }) hold serves

theorem unnoteRoute {s : State} {h : HostId} (r : RouteSlot) (hold : P s) (serves : Serves s h) : P (unnoteRoute h r s) :=
  m.changes (fun cs => { cs with routes := cs.routes.filter (· ≠ r) }) hold serves

theorem unnoteClaim {s : State} {h : HostId} (c : ClaimSlot) (hold : P s) (serves : Serves s h) : P (unnoteClaim h c s) :=
  m.changes (fun cs => { cs with claims := cs.claims.filter (· ≠ c) }) hold serves

theorem closeRoute {s : State} (why : CloseReason) (r : RouteSlot) (hold : P s) : P (closeRoute why r s) := by
  by_cases live : ∃ rt, s.route? r = some rt ∧ rt.live = true
  · obtain ⟨rt, hr, hl⟩ := live
    exact m.close why hold hr hl
  · rw [closeRoute_idle fun rt hr => by simpa using fun hl => live ⟨rt, hr, hl⟩]
    exact hold

theorem grantMoves (own : Option ClaimSlot) {s : State} {c : ClaimSlot} {cl : Claim} {r : RouteSlot} (hold : P s)
    (claim : s.claim? c = some cl) (waits : cl.waiting = true) (free : s.route? r = none) : P (Machine.grant own c r s).1 := by
  have route : (grantBase c cl r s).route? r = some (grantedRoute s cl) := by rw [grantBase_route?, if_pos rfl]
  have base : P (grantBase c cl r s) := m.grant hold claim waits free
  obtain ⟨t, u, told, active, e⟩ := grant_cases (own := own) (r := r) claim
  have moved : P t ∧ t.route? r = some (grantedRoute s cl) := by
    rcases told with rfl | rfl
    · exact ⟨base, route⟩
    · exact ⟨m.noteRoute r (m.noteClaim c base (serves_route (rt := grantedRoute s cl) route)) (serves_route (rt := grantedRoute s cl) route),
        route⟩
  obtain ⟨hold, route⟩ := moved
  have activated : KeepsCores t (activate r t) := activate_keepsCores fun rt hr => by
    cases route.symm.trans hr
    rfl
  have done : P u := by
    rcases active with rfl | rfl | rfl
    · exact hold
    · exact m.cores hold activated
    · obtain ⟨x, hx, owner, -, -⟩ := activated.symm.route route
      exact m.noteRoute r (m.cores hold activated) (.inr (.inl ⟨r, x, hx, owner⟩))
  rw [e]
  exact m.cores done (setLineStates_keep u _).cores

theorem arbiterMoves (own : Option ClaimSlot) : ArbiterMoves own fun s t => P s → P t where
  refl _ := id
  trans h k := k ∘ h
  line _ _ hold := m.cores hold (setLineState_keeps _ _).cores
  mark _ _ _ hold := m.cores hold (updClaim_keepsCores _ _ fun _ _ => rfl)
  preempt _ _ hold := m.closeRoute .preempted _ hold
  grant _ _ _ _ claim waits free hold := m.grantMoves own hold claim waits free

theorem arbitrate (own : Option ClaimSlot) (ls : List LineNo) {s : State} (hold : P s) : P (arbitrate own ls s) := by
  have moves := m.arbiterMoves own
  have checked : P (match own with
      | none => (dropDisplaced s, ([] : List LineNo))
      | some c => grantCheck c (dropDisplaced s)).1 := by
    cases own with
    | none => exact moves.dropDisplaced s hold
    | some c => exact moves.grantCheck c _ (moves.dropDisplaced s hold)
  exact moves.grantAll grantRounds _ (moves.checkAll checkRounds _ _ checked)

end CheckMoves

end Sys2Proof.Machine


/-! Predicates of sessions and of the cores of records that every step keeps. -/

namespace Sys2Proof.Machine

/-- A predicate that is kept by the grant checks and by each change of one record but the opening of a session and the acceptance of a
claim. -/
structure RecordMoves (P : State → Prop) : Prop extends CheckMoves P where
  free : ∀ {s r rt}, P s → s.route? r = some rt → P (freeRoute r s)
  settle : ∀ {s c cl}, P s → s.claim? c = some cl → cl.waiting = false → P (freeClaim c s)
  drop : ∀ why {s c cl}, P s → s.claim? c = some cl → cl.waiting = true → P (dropClaim why c s)
  cancel : ∀ {s c cl}, P s → s.claim? c = some cl → cl.waiting = true → P (freeClaim c (withdrawClaim c cl s))
  listen : ∀ {s h lease ms r}, P s → (s.session h).attached = true → (ms.map (·.terminal)).Nodup → listenRefusal s h ms = none →
    s.route? r = none → P (createListener h lease ms r s)
  clear : ∀ h {s}, P s → P (clearHost h s)

namespace RecordMoves

variable {P : State → Prop} (m : RecordMoves P)
include m

theorem endSession (h : HostId) {s : State} (hold : P s) : P (endSession h s) := m.arbitrate _ _ (m.clear h hold)

/-! ### COLLECT -/

theorem reportRef {h : HostId} {s : State} (ref : ChangeRef) (hold : P s) (attached : (s.session h).attached = true) :
    P (reportRef h ref s) := by
  cases ref with
  | claim c =>
    unfold Machine.reportRef
    dsimp only
    split
    · exact m.unnoteClaim c hold (.inl attached)
    · rename_i cl claim
      split
      · exact m.unnoteClaim c hold (.inl attached)
      · rename_i settled
        exact m.settle hold claim (by simpa using settled)
  | route r =>
    unfold Machine.reportRef
    dsimp only
    split
    · exact m.unnoteRoute r hold (.inl attached)
    · rename_i rt route
      split
      · exact m.cores (m.unnoteRoute r hold (.inl attached)) (updRoute_keepsCores _ r fun _ _ => rfl)
      · exact m.free hold route

omit m in
theorem reportRef_attached (h k : HostId) (s : State) (ref : ChangeRef) :
    ((Machine.reportRef h ref s).session k).attached = (s.session k).attached := by
  have changes (t : State) (f : Session → Session) (keeps : ∀ e, (f e).attached = e.attached) :
      ((t.updSession h f).session k).attached = (t.session k).attached := by
    rw [State.updSession_session]
    split
    · exact keeps _
    · rfl
  cases ref with
  | claim c =>
    unfold Machine.reportRef
    dsimp only
    split
    · exact changes s _ fun _ => rfl
    · rename_i claim
      split
      · exact changes s _ fun _ => rfl
      · rw [freeClaim_session claim]
        split <;> rfl
  | route r =>
    unfold Machine.reportRef
    dsimp only
    split
    · exact changes s _ fun _ => rfl
    · rename_i route
      split
      · exact changes s _ fun _ => rfl
      · rw [freeRoute_session route]
        split <;> rfl

theorem reportRefs {h : HostId} {s : State} (refs : List ChangeRef) (hold : P s) (attached : (s.session h).attached = true) :
    P (refs.foldl (fun t ref => Machine.reportRef h ref t) s) := by
  induction refs generalizing s with
  | nil => exact hold
  | cons ref refs ih => exact ih (m.reportRef ref hold attached) ((reportRef_attached h h s ref).trans attached)

/-! ### SET_POLICY -/

theorem closures (why : CloseReason) (xs : List (RouteSlot × Route)) {s : State} (hold : P s) :
    P (xs.foldl (fun t x => Machine.closeRoute why x.1 t) s) :=
  List.foldlRecOn xs _ hold fun _ hold x _ => m.closeRoute why x.1 hold

omit m in
theorem closures_claim? (why : CloseReason) (xs : List (RouteSlot × Route)) (s : State) (c : ClaimSlot) :
    (xs.foldl (fun t x => Machine.closeRoute why x.1 t) s).claim? c = s.claim? c :=
  foldl_keeps (·.claim? c) (fun t x => claim?_congr (closeRoute_claims t x.1 why) c) xs s

/-- Claims that wait, each at its own record, are dropped one after the other. -/
theorem drops (why : DropReason) (xs : List (ClaimSlot × Claim)) (once : (xs.map Prod.fst).Nodup) {s : State} (hold : P s)
    (wait : ∀ x ∈ xs, s.claim? x.1 = some x.2 ∧ x.2.waiting = true) : P (xs.foldl (fun t x => Machine.dropClaim why x.1 t) s) := by
  induction xs generalizing s with
  | nil => exact hold
  | cons x xs ih =>
    obtain ⟨fresh, once⟩ := List.nodup_cons.mp once
    obtain ⟨⟨claim, waits⟩, rest⟩ := List.forall_mem_cons.mp wait
    refine ih once (m.drop why hold claim waits) fun y hy => ?_
    rw [dropClaim_claim? why claim, if_neg fun same => fresh (List.mem_map.mpr ⟨y, hy, same.symm⟩)]
    exact rest y hy

/-- The owner of a route is told of a change that leaves the route's core. -/
theorem noteOwner {s t : State} {r : RouteSlot} {rt : Route} (hold : P s) (kept : KeepsCores s t) (route : s.route? r = some rt)
    (q : RouteSlot) : P (Machine.noteRoute rt.owner q t) := by
  obtain ⟨x, hx, owner, -, -⟩ := kept.symm.route route
  exact m.noteRoute q (m.cores hold kept) (.inr (.inl ⟨r, x, hx, owner⟩))

theorem clampRoute (r : RouteSlot) {s : State} (hold : P s) : P (clampRoute r s) := by
  unfold Machine.clampRoute
  split
  · exact hold
  · rename_i rt route
    dsimp only
    split
    · refine m.noteOwner hold (updRoute_keepsCores s r fun x _ => ?_) route r
      rfl
    · exact hold

theorem demote {c : ClaimSlot} {cl x : Claim} {s : State} (hold : P s) (claim : s.claim? c = some x) (owner : x.owner = cl.owner) :
    P (demote c cl s) := by
  have left : KeepsCores s (leaveQueues c (linesOf cl.members) s) := (leaveQueues_keeps s c _).cores
  have tuned := updClaim_keepsCores (leaveQueues c (linesOf cl.members) s) c (f := fun x => { x with priority := 2 }) fun _ _ => rfl
  have joined := (left.trans tuned).trans (joinQueues_keeps _ c (linesOf cl.members)).cores
  obtain ⟨y, hy, same, -, -⟩ := joined.symm.claim claim
  exact m.noteClaim c (m.cores hold joined) (.inr (.inr ⟨c, y, hy, same.trans owner⟩))

omit m in
theorem demote_owner {c : ClaimSlot} {cl : Claim} (s : State) (d : ClaimSlot) :
    ((Machine.demote c cl s).claim? d).map (·.owner) = (s.claim? d).map (·.owner) := by
  rw [State.claim?, demote_entry]
  split
  · simp only [ClaimEntry.onClaim, Option.map_map]
    rfl
  · rfl

theorem demotions (xs : List (ClaimSlot × Claim)) {s : State} (hold : P s)
    (owned : ∀ x ∈ xs, (s.claim? x.1).map (·.owner) = some x.2.owner) : P (xs.foldl (fun t x => Machine.demote x.1 x.2 t) s) := by
  induction xs generalizing s with
  | nil => exact hold
  | cons x xs ih =>
    obtain ⟨first, rest⟩ := List.forall_mem_cons.mp owned
    obtain ⟨y, hy, owner⟩ := Option.map_eq_some_iff.mp first
    exact ih (m.demote hold hy owner) fun z hz => (demote_owner s z.1).trans (rest z hz)

omit m in
theorem mem_affectedClaims_waiting {first last : LineNo} {s : State} {x : ClaimSlot × Claim} (h : x ∈ affectedClaims first last s) :
    s.claim? x.1 = some x.2 ∧ x.2.waiting = true := by
  obtain ⟨c, -, hc⟩ := List.mem_filterMap.mp h
  split at hc
  · cases hc
  · rename_i cl hcl
    split at hc
    · rename_i waits
      cases hc
      exact ⟨hcl, (Bool.and_eq_true_iff.mp waits).1⟩
    · cases hc

omit m in
theorem drops_nodup (first last : LineNo) (s : State) : ((Machine.drops first last s).map Prod.fst).Nodup := by
  rw [Machine.drops, affectedClaims_slots]
  exact nodup_filter_every _

/-- Drops leave a claim its owner. -/
theorem enforced (first last : LineNo) {s : State} (hold : P s) : P (enforced first last s) := by
  have closed : P (withClosures first last s) := m.closures .policy _ hold
  have dropped : P (withDrops first last s) := by
    refine m.drops .policy _ (drops_nodup first last s) closed fun x hx => ?_
    rw [withClosures, closures_claim?]
    exact mem_affectedClaims_waiting (List.mem_of_mem_filter hx)
  have demoted : P (withDemotions first last s) := by
    refine m.demotions _ dropped fun x hx => ?_
    rw [State.claim?, withDrops_entry]
    have claim : (s.claimEntry x.1).claim = some x.2 := (mem_affectedClaims_waiting (List.mem_of_mem_filter hx)).1
    split
    · simp [ClaimEntry.onClaim, claim, Claim.drop]
    · simp [claim]
  exact List.foldlRecOn _ _ demoted fun _ hold x _ => m.clampRoute x.1 hold

theorem passHeldOn (l : LineNo) {s : State} (hold : P s) : P (passHeldOn l s) := by
  rcases passHeldOn_cases s l with e | ⟨r, rt, i, driver, -, -, e⟩
  · rw [e]
    exact hold
  · rw [e]
    have route := (lineDriver_route driver).2.1
    have forced := updRoute_keepsCores s r (f := fun x =>
      if s.held l then { x with forced := x.forced ||| memberBit i, forcedSince := true }
      else { x with forced := x.forced &&& ~~~memberBit i }) fun _ _ => by split <;> rfl
    exact m.noteOwner hold forced route r

theorem passHeldChanges (before : State) {s : State} (hold : P s) : P (passHeldChanges before s) :=
  List.foldlRecOn _ _ hold fun _ hold l _ => m.passHeldOn l hold

theorem applyPolicy (first last : LineNo) (p : Policy) {s : State} (hold : P s) : P (applyPolicy first last p s).1 := by
  have written : KeepsCores s (writePolicies first last p s) :=
    keepsCores_of_same (writePolicies_sessions ..) (writePolicies_routes ..) (writePolicies_claims ..)
  have set : P (policySet first last s p) := m.passHeldChanges s (m.enforced first last (m.cores hold written))
  rw [applyPolicy_eq]
  exact m.arbitrate none _ set

/-! ### Every kind of event -/

theorem collectAct {h : HostId} (ps : List Byte) {s : State} (hold : P s) (attached : (s.session h).attached = true) :
    P (collectAct h ps s).1 := by
  have reported := m.reportRefs (reportedRefs (s.session h).changes) hold attached
  exact m.arbitrate none [] reported

theorem cancelClaim {c : ClaimSlot} {cl : Claim} {s : State} (hold : P s) (claim : s.claim? c = some cl) (waits : cl.waiting = true) :
    P (cancelClaim c cl s).1 := by
  have cancelled := m.cancel hold claim waits
  exact m.arbitrate none _ cancelled

theorem expireWait {c : ClaimSlot} {cl : Claim} {s : State} (hold : P s) (claim : s.claim? c = some cl) (waits : cl.waiting = true) :
    P (expireWait c cl s) := by
  have dropped := m.drop .timedOut hold claim waits
  exact m.arbitrate none _ dropped

theorem activated {r : RouteSlot} {rt : Route} {d : Nat} {s : State} (hold : P s) (route : s.route? r = some rt)
    (connecting : rt.state = .connecting d) : P (Machine.noteRoute rt.owner r (activate r s)) := by
  refine m.noteOwner hold (activate_keepsCores fun x hx => ?_) route r
  cases route.symm.trans hx
  simp [Route.live, connecting]

theorem eventMoves : EventMoves fun s t => P s → P t where
  refl _ := id
  congr k before after hold := m.cores (k (m.cores hold before.symm.cores)) after.cores
  later d s _ k hold := k (m.cores hold (advance_keepsCores d s))
  endSession _ hold := m.endSession _ hold
  collect ps _ attached hold := m.collectAct ps hold attached
  listen attached _ terminals passed free hold := m.listen hold attached terminals passed free
  release route hold := m.arbitrate none _ (m.free hold route)
  close why r _ _ _ _ hold := m.arbitrate none _ (m.closeRoute why r hold)
  renew _ _ _ hold := m.cores hold (updRoute_keepsCores _ _ fun _ _ => rfl)
  cancel claim waits hold := m.cancelClaim hold claim waits
  policy first last p _ hold := m.applyPolicy first last p hold
  held before _ hold := m.passHeldChanges before hold
  activate route connecting hold := m.activated hold route connecting
  expireWait claim waits hold := m.expireWait hold claim waits

end RecordMoves

/-- A predicate that is kept by the grant checks and by each change of one record but the opening of a session. -/
structure ClaimMoves (P : State → Prop) : Prop extends RecordMoves P where
  accept : ∀ {s h p c}, P s → (s.session h).attached = true → (p.members.map (·.terminal)).Nodup → claimRefusal s h p = none →
    s.claim? c = none → P (acceptClaim h p c s)

namespace ClaimMoves

variable {P : State → Prop} (m : ClaimMoves P)
include m

theorem answerClaim (c : ClaimSlot) {s : State} (hold : P s) : P (answerClaim c s).1 := by
  unfold Machine.answerClaim
  split
  · exact hold
  · rename_i cl claim
    split
    · rename_i granted
      exact m.settle hold claim (by simp [Claim.waiting, granted])
    · exact hold

theorem claimAct (h : HostId) (ps : List Byte) {s : State} (hold : P s) (attached : (s.session h).attached = true) :
    P (claimAct h ps s).1 := by
  unfold Machine.claimAct
  split
  · exact hold
  · rename_i p params
    split
    · exact hold
    · exact hold
    · rename_i c passed free
      exact m.answerClaim c
        (m.arbitrate _ _ (m.accept hold attached (claimParams?_sound params).2 passed (firstFreeClaim_free free)))

theorem amendAct (h : HostId) (ps : List Byte) {s : State} (hold : P s) : P (amendAct h ps s).1 := by
  unfold Machine.amendAct
  split
  · exact hold
  · rename_i c gen p limit params
    split
    · exact hold
    · exact hold
    · rename_i cl passed named
      split
      · exact hold
      · obtain ⟨claim, -⟩ := claimAt?_some named
        rw [amendClaim_eq]
        have tuned : KeepsCores s (amended c cl p limit s) := by
          refine ⟨reprioritise_sessions _ c cl p, fun r => by rw [amended, route?_congr (reprioritise_routes _ c cl p)]; rfl, fun d => ?_⟩
          rw [amended, State.claim?, amended_claimEntry s claim]
          split
          · rename_i same
            subst same
            rw [claim]
            rfl
          · rfl
        exact m.answerClaim c (m.arbitrate _ _ (m.cores hold tuned))

theorem own {code : ReqCode} {h : HostId} {f : List Byte} {s : State} (isOwn : code.isOwn = true) (other : code ≠ .attach)
    (ad : Admitted s h code f) (hold : P s) : P (code.act h (frameParams f) s).1 := by
  cases code with
  | attach => exact absurd rfl other
  | claim => exact m.claimAct h _ hold (admitted_attached ad rfl)
  | amend => exact m.amendAct h _ hold
  | _ => cases isOwn

/-- Every command but device reset and ATTACH keeps the predicate. -/
theorem exec {i : Instr} {s t : State} (notReset : i ≠ .deviceReset) (notAttach : ∀ h, i ≠ .attach h) (hold : P s)
    (step : exec i s = .next t) : P t := by
  refine m.eventMoves.exec (fun e => absurd e notReset) (fun code h f e isOwn ad before => ?_) step hold
  refine m.own isOwn ?_ (s := popFrame h s) ad before
  rintro rfl
  exact notAttach h e

end ClaimMoves

/-- A predicate that is kept by each change of one record, and holds at reset. -/
structure StepMoves (P : State → Prop) : Prop extends ClaimMoves P where
  reset : P State.reset
  opens : ∀ h {s}, P s → P (openSession h s)

namespace StepMoves

variable {P : State → Prop} (m : StepMoves P)
include m

theorem attachAct (h : HostId) (ps : List Byte) {s : State} (hold : P s) : P (attachAct h ps s).1 := by
  unfold Machine.attachAct
  split
  · exact m.opens h (m.endSession h hold)
  · exact m.opens h hold

theorem ownAct {code : ReqCode} {h : HostId} {f : List Byte} {s : State} (isOwn : code.isOwn = true) (ad : Admitted s h code f)
    (hold : P s) : P (code.act h (frameParams f) s).1 := by
  by_cases attach : code = .attach
  · subst attach
    exact m.attachAct h (frameParams f) hold
  · exact m.own isOwn attach ad hold

theorem exec {i : Instr} {s t : State} (hold : P s) (step : exec i s = .next t) : P t :=
  m.eventMoves.exec (fun _ _ => m.reset) (fun _ h _ _ isOwn ad before => m.ownAct (s := popFrame h s) isOwn ad before) step hold

theorem step {s t : State} (hold : P s) (stepped : step s = .next t) : P t :=
  m.eventMoves.step (fun _ _ => m.reset) (fun _ _ _ _ isOwn ad before => m.ownAct isOwn ad before) stepped hold

end StepMoves

end Sys2Proof.Machine


/-! Sessions stay sound (O53), and counts exact and within their limits (O51). -/

namespace Sys2Proof.Machine

/-! ### Only ATTACHED hosts own records (R36, R43, R122) -/

theorem SessionsSound.attached {s : State} (sound : SessionsSound s) {h : HostId} (serves : Serves s h) :
    (s.session h).attached = true := by
  rcases serves with attached | ⟨r, rt, route, rfl⟩ | ⟨c, cl, claim, rfl⟩
  · exact attached
  · exact sound.routes r rt route
  · exact sound.claims c cl claim

/-- An ATTACHED host's session changes but for its attachment and epoch, and no host but this one comes to own a record. -/
theorem SessionsSound.change {s t : State} (sound : SessionsSound s) {h : HostId} (attached : (s.session h).attached = true)
    (others : ∀ k, h ≠ k → t.session k = s.session k)
    (own : (t.session h).attached = (s.session h).attached ∧ (t.session h).epoch = (s.session h).epoch)
    (routes : ∀ r rt, t.route? r = some rt → rt.owner = h ∨ s.route? r = some rt)
    (claims : ∀ c cl, t.claim? c = some cl → cl.owner = h ∨ s.claim? c = some cl) : SessionsSound t := by
  have stays {k : HostId} (k_attached : (s.session k).attached = true) : (t.session k).attached = true := by
    by_cases same : h = k
    · rw [← same, own.1, attached]
    · rw [others k same, k_attached]
  refine ⟨fun r rt route => ?_, fun c cl claim => ?_, fun k detached => ?_, fun k k_attached => ?_⟩
  · rcases routes r rt route with rfl | old
    · exact stays attached
    · exact stays (sound.routes r rt old)
  · rcases claims c cl claim with rfl | old
    · exact stays attached
    · exact stays (sound.claims c cl old)
  · by_cases same : h = k
    · rw [← same, own.1, attached] at detached
      cases detached
    · rw [others k same] at detached ⊢
      exact sound.empty k detached
  · by_cases same : h = k
    · subst same
      rw [own.2]
      exact sound.epoch h attached
    · rw [others k same] at k_attached ⊢
      exact sound.epoch k k_attached

/-- What stands in a table that changes at one place. -/
theorem place_cases {α : Type} {n : Nat} {i j : Fin n} {f : Fin n → Option α} {x : Option α} {y : α}
    (h : (if i = j then x else f j) = some y) : x = some y ∨ f j = some y := by
  split at h
  · exact .inl h
  · exact .inr h

theorem nextEpoch_ne_zero (e : Byte) : nextEpoch e ≠ 0#8 := by
  unfold nextEpoch
  split
  · decide
  · bv_omega

theorem sessionsSound_moves : StepMoves SessionsSound where
  cores sound kept := by
    have session := session_congr kept.sessions
    refine ⟨fun r rt route => ?_, fun c cl claim => ?_, fun h => ?_, fun h => ?_⟩
    · obtain ⟨x, hx, owner, -, -⟩ := kept.route route
      rw [session, ← owner]
      exact sound.routes r x hx
    · obtain ⟨x, hx, owner, -, -⟩ := kept.claim claim
      rw [session, ← owner]
      exact sound.claims c x hx
    · rw [session]
      exact sound.empty h
    · rw [session]
      exact sound.epoch h
  changes f sound serves :=
    sound.change (sound.attached serves) (fun k other => by rw [State.updSession_session, if_neg other])
      (by rw [State.updSession_session_same]; exact ⟨rfl, rfl⟩) (fun _ _ => .inr) fun _ _ => .inr
  close why sound route live := by
    refine sound.change (sound.routes _ _ route) (fun k other => by rw [closeRoute_session why route live, if_neg other])
      (by rw [closeRoute_session why route live, if_pos rfl]; exact ⟨rfl, rfl⟩) (fun q x hx => ?_) fun c cl claim => ?_
    · rw [closeRoute_route? why route live] at hx
      exact (place_cases hx).imp_left fun e => by cases e; rfl
    · rw [claim?_congr (closeRoute_claims ..)] at claim
      exact .inr claim
  grant := by
    intro s c cl r sound claim _ _
    refine sound.change (sound.claims _ _ claim) (fun k other => by rw [grantBase_session, if_neg other])
      (by rw [grantBase_session, if_pos rfl]; exact ⟨rfl, rfl⟩) (fun q x hx => ?_) fun d x hx => ?_
    · rw [grantBase_route?] at hx
      exact (place_cases hx).imp_left fun e => by cases e; rfl
    · rw [grantBase_claim? _ _ _ _ claim] at hx
      exact (place_cases hx).imp_left fun e => by cases e; rfl
  free sound route := by
    refine sound.change (sound.routes _ _ route) (fun k other => by rw [freeRoute_session route, if_neg other])
      (by rw [freeRoute_session route, if_pos rfl]; exact ⟨rfl, rfl⟩) (fun q x hx => ?_) fun c cl claim => ?_
    · rw [freeRoute_route? route] at hx
      exact (place_cases hx).imp_left nofun
    · rw [claim?_congr (freeRoute_claims ..)] at claim
      exact .inr claim
  settle sound claim _ := by
    refine sound.change (sound.claims _ _ claim) (fun k other => by rw [freeClaim_session claim, if_neg other])
      (by rw [freeClaim_session claim, if_pos rfl]; exact ⟨rfl, rfl⟩) (fun q x hx => ?_) fun d x hx => ?_
    · rw [route?_congr (freeClaim_routes ..)] at hx
      exact .inr hx
    · rw [freeClaim_claim? claim] at hx
      exact (place_cases hx).imp_left nofun
  drop why := by
    intro s c cl sound claim _
    refine sound.change (sound.claims _ _ claim) (fun k other => by rw [dropClaim_session why claim, if_neg other])
      (by rw [dropClaim_session why claim, if_pos rfl]; exact ⟨rfl, rfl⟩) (fun q x hx => ?_) fun d x hx => ?_
    · rw [route?_congr (dropClaim_routes ..)] at hx
      exact .inr hx
    · rw [dropClaim_claim? why claim] at hx
      exact (place_cases hx).imp_left fun e => by cases e; rfl
  cancel sound claim _ := by
    refine sound.change (sound.claims _ _ claim) (fun k other => by rw [cancelled_session claim, if_neg other])
      (by rw [cancelled_session claim, if_pos rfl]; exact ⟨rfl, rfl⟩) (fun q x hx => ?_) fun d x hx => ?_
    · rw [route?_congr (cancelled_routes ..)] at hx
      exact .inr hx
    · rw [cancelled_claim? claim] at hx
      exact (place_cases hx).imp_left nofun
  listen := by
    intro s h lease ms r sound attached _ _ _
    refine sound.change attached (fun k other => by rw [createListener_session, if_neg other])
      (by rw [createListener_session, if_pos rfl]; exact ⟨rfl, rfl⟩) (fun q x hx => ?_) fun _ _ => .inr
    rw [createListener_route?] at hx
    exact (place_cases hx).imp_left fun e => by cases e; rfl
  clear h s sound := by
    refine ⟨fun r rt route => ?_, fun c cl claim => ?_, fun k => ?_, fun k => ?_⟩
    · obtain ⟨route, other⟩ := (clearHost_route?_some ..).mp route
      rw [clearHost_session, if_neg (Ne.symm other)]
      exact sound.routes r rt route
    · obtain ⟨claim, other⟩ := (clearHost_claim?_some ..).mp claim
      rw [clearHost_session, if_neg (Ne.symm other)]
      exact sound.claims c cl claim
    · rw [clearHost_session]
      split
      · exact fun _ => rfl
      · exact sound.empty k
    · rw [clearHost_session]
      split
      · exact nofun
      · exact sound.epoch k
  reset := reset_sessionsSound
  opens h s sound := by
    have stays {k : HostId} (attached : (s.session k).attached = true) : ((openSession h s).session k).attached = true := by
      rw [openSession_session]
      split
      · rfl
      · exact attached
    refine ⟨fun r rt route => stays (sound.routes r rt route), fun c cl claim => stays (sound.claims c cl claim), fun k => ?_, fun k => ?_⟩
    · rw [openSession_session]
      split
      · exact nofun
      · exact sound.empty k
    · rw [openSession_session]
      split
      · exact fun _ => nextEpoch_ne_zero _
      · exact sound.epoch k
  accept := by
    intro s h p c sound attached _ _ _
    refine sound.change attached (fun k other => by rw [accepted_session, if_neg other])
      (by rw [accepted_session, if_pos rfl]; exact ⟨rfl, rfl⟩) (fun q x hx => ?_) fun d x hx => ?_
    · rw [route?_congr (acceptClaim_routes ..)] at hx
      exact .inr hx
    · rw [acceptClaim_claim?] at hx
      exact (place_cases hx).imp_left fun e => by cases e; rfl

/-- Settles O53. Every change of a record or session concerns a host that owns a record or makes a request that needs attachment; a session
that ends leaves no record of its host, and an attach goes to an epoch that is not 0. -/
theorem sessionsSoundKept : Obligations.SessionsSoundKept := fun _ _ sound stepped => sessionsSound_moves.step sound stepped

end Sys2Proof.Machine


/-! Counts stay exact and within their limits, and queues within their capacity (O51). -/

namespace Sys2Proof.Machine

/-! ### Counting in a table that changes at one place -/

/-- A predicate of the entries of a table that changes at one place: how many entries have it. -/
theorem length_filter_every {n : Nat} {p q : Fin n → Bool} (i : Fin n) (same : ∀ j, i ≠ j → q j = p j) :
    ((every n).filter q).length + (p i).toNat = ((every n).filter p).length + (q i).toNat := by
  obtain ⟨before, after, split⟩ := List.append_of_mem (mem_every i)
  have nodup : (before ++ i :: after).Nodup := split ▸ List.nodup_finRange n
  have fresh : ∀ j, j ∈ before ∨ j ∈ after → i ≠ j := by
    rintro j hj rfl
    have := List.nodup_middle.mp nodup
    exact (List.nodup_cons.mp this).1 (List.mem_append.mpr hj)
  have before_same : before.filter q = before.filter p := List.filter_congr fun j hj => same j (fresh j (.inl hj))
  have after_same : after.filter q = after.filter p := List.filter_congr fun j hj => same j (fresh j (.inr hj))
  rw [split]
  simp only [List.filter_append, List.filter_cons, before_same, after_same, List.length_append]
  cases p i <;> cases q i <;> simp <;> omega

/-- The entry of a route table holds a route of the host. -/
def holdsRoute (h : HostId) (x : Option Route) : Bool := x.any fun rt => rt.owner = h

/-- The record holds a claim of the host. -/
def holdsClaim (h : HostId) (x : Option Claim) : Bool := x.any fun cl => cl.owner = h

/-- The record holds a WAITING claim of the host. -/
def holdsWaiting (h : HostId) (x : Option Claim) : Bool := x.any fun cl => cl.owner = h && cl.waiting

theorem routesOf_eq (s : State) (h : HostId) : routesOf s h = (every 96).filter fun r => holdsRoute h (s.route? r) := by
  refine List.filter_congr fun r _ => ?_
  unfold ownsRoute holdsRoute State.route?
  cases (s.routeEntry r).route <;> rfl

theorem claimsOf_eq (s : State) (h : HostId) : claimsOf s h = (every 32).filter fun c => holdsClaim h (s.claim? c) := by
  refine List.filter_congr fun c _ => ?_
  unfold ownsClaim holdsClaim State.claim?
  cases (s.claimEntry c).claim <;> rfl

theorem waitingOf_eq (s : State) (h : HostId) : waitingOf s h = (every 32).filter fun c => holdsWaiting h (s.claim? c) := by
  rw [waitingOf, claimsOf_eq, List.filter_filter]
  refine List.filter_congr fun c _ => ?_
  unfold holdsClaim holdsWaiting
  cases s.claim? c <;> simp [Bool.and_comm]

section

variable {s t : State}

theorem routesOf_place {r : RouteSlot} {x : Option Route} (table : ∀ q, t.route? q = if r = q then x else s.route? q) (h : HostId) :
    (routesOf t h).length + (holdsRoute h (s.route? r)).toNat = (routesOf s h).length + (holdsRoute h x).toNat := by
  have count := length_filter_every (p := fun q => holdsRoute h (s.route? q)) (q := fun q => holdsRoute h (t.route? q)) r
    fun q other => by rw [table, if_neg other]
  rw [table, if_pos rfl] at count
  rwa [routesOf_eq, routesOf_eq]

theorem claimsOf_place {c : ClaimSlot} {x : Option Claim} (table : ∀ d, t.claim? d = if c = d then x else s.claim? d) (h : HostId) :
    (claimsOf t h).length + (holdsClaim h (s.claim? c)).toNat = (claimsOf s h).length + (holdsClaim h x).toNat := by
  have count := length_filter_every (p := fun d => holdsClaim h (s.claim? d)) (q := fun d => holdsClaim h (t.claim? d)) c
    fun d other => by rw [table, if_neg other]
  rw [table, if_pos rfl] at count
  rwa [claimsOf_eq, claimsOf_eq]

theorem waitingOf_place {c : ClaimSlot} {x : Option Claim} (table : ∀ d, t.claim? d = if c = d then x else s.claim? d) (h : HostId) :
    (waitingOf t h).length + (holdsWaiting h (s.claim? c)).toNat = (waitingOf s h).length + (holdsWaiting h x).toNat := by
  have count := length_filter_every (p := fun d => holdsWaiting h (s.claim? d)) (q := fun d => holdsWaiting h (t.claim? d)) c
    fun d other => by rw [table, if_neg other]
  rw [table, if_pos rfl] at count
  rwa [waitingOf_eq, waitingOf_eq]

theorem routesOf_congr (same : ∀ r, (t.route? r).map (·.owner) = (s.route? r).map (·.owner)) (h : HostId) :
    routesOf t h = routesOf s h := by
  rw [routesOf_eq, routesOf_eq]
  refine List.filter_congr fun r _ => ?_
  have e := same r
  cases hs : s.route? r <;> cases ht : t.route? r <;> simp_all [holdsRoute]

theorem claimsOf_congr (same : ∀ c, (t.claim? c).map (·.owner) = (s.claim? c).map (·.owner)) (h : HostId) :
    claimsOf t h = claimsOf s h := by
  rw [claimsOf_eq, claimsOf_eq]
  refine List.filter_congr fun c _ => ?_
  have e := same c
  cases hs : s.claim? c <;> cases ht : t.claim? c <;> simp_all [holdsClaim]

theorem waitingOf_congr (same : ∀ c, (t.claim? c).map (fun cl => (cl.owner, cl.waiting)) =
    (s.claim? c).map fun cl => (cl.owner, cl.waiting)) (h : HostId) : waitingOf t h = waitingOf s h := by
  rw [waitingOf_eq, waitingOf_eq]
  refine List.filter_congr fun c _ => ?_
  have e := same c
  cases hs : s.claim? c <;> cases ht : t.claim? c <;> simp_all [holdsWaiting]

theorem KeepsCores.routesOf (k : KeepsCores s t) (h : HostId) : routesOf t h = routesOf s h := by
  refine routesOf_congr (fun r => ?_) h
  have e := congrArg (Option.map Prod.fst) (k.routes r)
  rwa [Option.map_map, Option.map_map] at e

theorem KeepsCores.claimsOf (k : KeepsCores s t) (h : HostId) : claimsOf t h = claimsOf s h := by
  refine claimsOf_congr (fun c => ?_) h
  have e := congrArg (Option.map Prod.fst) (k.claims c)
  rwa [Option.map_map, Option.map_map] at e

theorem KeepsCores.waitingOf (k : KeepsCores s t) (h : HostId) : waitingOf t h = waitingOf s h := by
  refine waitingOf_congr (fun c => ?_) h
  have e := congrArg (Option.map fun x : HostId × List Member × Bool => (x.1, x.2.2)) (k.claims c)
  rwa [Option.map_map, Option.map_map] at e

/-! ### Counts of one host -/

/-- The four figures that the counts of a host are held against, and the counts themselves. -/
theorem CountsExact.of_same {h : HostId} (exact_ : CountsExact s h)
    (counts : (t.session h).routesInUse = (s.session h).routesInUse ∧ (t.session h).waitingClaims = (s.session h).waitingClaims ∧
      (t.session h).claimRecords = (s.session h).claimRecords)
    (routes : (routesOf t h).length = (routesOf s h).length) (claims : (claimsOf t h).length = (claimsOf s h).length)
    (waiting : (waitingOf t h).length = (waitingOf s h).length) : CountsExact t h := by
  obtain ⟨inUse, waits, records⟩ := counts
  exact ⟨by rw [inUse, routes, exact_.routes], by rw [records, claims, exact_.records], by rw [waits, waiting, exact_.waiting],
    by rw [inUse, waits]; exact exact_.routeLimit, by rw [records]; exact exact_.claimLimit⟩

end

theorem atRouteLimit_false {s : State} {h : HostId} (room : atRouteLimit s h = false) :
    (s.session h).routesInUse + (s.session h).waitingClaims < Config.hostRouteLimit := by
  simpa [atRouteLimit] using room

theorem listenRefusal_room {s : State} {h : HostId} {ms : List Member} (passed : listenRefusal s h ms = none) :
    (ms.any fun m => terminalBound s h m.terminal) = false ∧ atRouteLimit s h = false := by
  unfold listenRefusal at passed
  split_ifs at passed
  simp_all

theorem claimRefusal_room {s : State} {h : HostId} {p : ClaimParams} (passed : claimRefusal s h p = none) :
    (p.members.any fun m => terminalBound s h m.terminal) = false ∧ atRouteLimit s h = false ∧
      (s.session h).claimRecords < Config.hostClaimLimit := by
  unfold claimRefusal at passed
  dsimp only at passed
  split_ifs at passed
  simp_all

theorem closeRoute_keepsOwners (why : CloseReason) {s : State} {r : RouteSlot} {rt : Route} (route : s.route? r = some rt)
    (live : rt.live = true) (q : RouteSlot) : ((closeRoute why r s).route? q).map (·.owner) = (s.route? q).map (·.owner) := by
  rw [closeRoute_route? why route live]
  split
  · rename_i same
    subst same
    rw [route]
    rfl
  · rfl

section

variable {s t : State} (h : HostId)

theorem routesOf_same (same : t.routes = s.routes) : routesOf t h = routesOf s h :=
  routesOf_congr (fun r => by rw [route?_congr same]) h

theorem claimsOf_same (same : t.claims = s.claims) : claimsOf t h = claimsOf s h :=
  claimsOf_congr (fun c => by rw [claim?_congr same]) h

theorem waitingOf_same (same : t.claims = s.claims) : waitingOf t h = waitingOf s h :=
  waitingOf_congr (fun c => by rw [claim?_congr same]) h

theorem routesOf_clearHost (k : HostId) (s : State) : routesOf (clearHost k s) h = if k = h then [] else routesOf s h := by
  split
  · rename_i own
    subst own
    refine List.filter_eq_nil_iff.mpr fun r _ owns => ?_
    obtain ⟨rt, route, owner⟩ := (ownsRoute_iff k).mp owns
    exact ((clearHost_route?_some s k r).mp route).2 owner
  · rename_i other
    refine List.filter_congr fun r _ => Bool.eq_iff_iff.mpr ?_
    rw [ownsRoute_iff, ownsRoute_iff]
    refine exists_congr fun rt => and_congr_left fun owner => ?_
    exact (clearHost_route?_some s k r).trans (and_iff_left fun e => other (e.symm.trans owner))

theorem claimsOf_clearHost (k : HostId) (s : State) : claimsOf (clearHost k s) h = if k = h then [] else claimsOf s h := by
  split
  · rename_i own
    subst own
    refine List.filter_eq_nil_iff.mpr fun c _ owns => ?_
    obtain ⟨cl, claim, owner⟩ := (ownsClaim_iff k).mp owns
    exact ((clearHost_claim?_some s k c).mp claim).2 owner
  · rename_i other
    refine List.filter_congr fun c _ => Bool.eq_iff_iff.mpr ?_
    rw [ownsClaim_iff, ownsClaim_iff]
    refine exists_congr fun cl => and_congr_left fun owner => ?_
    exact (clearHost_claim?_some s k c).trans (and_iff_left fun e => other (e.symm.trans owner))

theorem waitingOf_clearHost (k : HostId) (s : State) : waitingOf (clearHost k s) h = if k = h then [] else waitingOf s h := by
  rw [waitingOf, claimsOf_clearHost]
  split
  · rfl
  · rename_i other
    refine List.filter_congr fun c mem => ?_
    obtain ⟨cl, claim, owner⟩ := (ownsClaim_iff h).mp (List.mem_filter.mp mem).2
    have claim : s.claim? c = some cl := claim
    rw [claim, (clearHost_claim?_some s k c).mpr ⟨claim, fun e => other (e.symm.trans owner)⟩]

end

/-- The counts of host h, kept by every change of a record: the changed record is counted for its owner alone. -/
theorem countsExact_moves (h : HostId) : StepMoves fun s => CountsExact s h where
  cores exact_ kept := exact_.of_same (by rw [session_congr kept.sessions]; exact ⟨rfl, rfl, rfl⟩) (by rw [kept.routesOf])
    (by rw [kept.claimsOf]) (by rw [kept.waitingOf])
  changes f exact_ _ := exact_.of_same (by rw [State.updSession_session]; split <;> exact ⟨rfl, rfl, rfl⟩) rfl rfl rfl
  close why exact_ route live :=
    exact_.of_same (by rw [closeRoute_session why route live]; split <;> exact ⟨rfl, rfl, rfl⟩)
      (by rw [routesOf_congr (closeRoute_keepsOwners why route live)]) (by rw [claimsOf_same h (closeRoute_claims ..)])
      (by rw [waitingOf_same h (closeRoute_claims ..)])
  grant := by
    intro s c cl r exact_ claim waits free
    have routes := routesOf_place (grantBase_route? s c r · cl) h
    have claims := claimsOf_place (grantBase_claim? s c · r claim) h
    have waiting := waitingOf_place (grantBase_claim? s c · r claim) h
    have settled : ∀ x : Claim, x.state = .granted r → x.waiting = false := fun x e => by rw [Claim.waiting, e]
    obtain ⟨inUse, records, waits', routeLimit, claimLimit⟩ := exact_
    rw [free] at routes
    rw [claim] at claims waiting
    by_cases own : cl.owner = h
    · simp [holdsRoute, holdsClaim, holdsWaiting, grantedRoute, own, waits, settled] at routes claims waiting
      constructor <;> rw [grantBase_session, if_pos own] <;> dsimp only <;> omega
    · simp [holdsRoute, holdsClaim, holdsWaiting, grantedRoute, own] at routes claims waiting
      constructor <;> rw [grantBase_session, if_neg own] <;> omega
  free := by
    intro s r rt exact_ route
    have routes := routesOf_place (freeRoute_route? route) h
    have claims := congrArg List.length (claimsOf_same h (freeRoute_claims s r))
    have waiting := congrArg List.length (waitingOf_same h (freeRoute_claims s r))
    obtain ⟨inUse, records, waits, routeLimit, claimLimit⟩ := exact_
    rw [route] at routes
    by_cases own : rt.owner = h
    · simp [holdsRoute, own] at routes
      constructor <;> rw [freeRoute_session route, if_pos own] <;> dsimp only <;> omega
    · simp [holdsRoute, own] at routes
      constructor <;> rw [freeRoute_session route, if_neg own] <;> omega
  settle := by
    intro s c cl exact_ claim settled
    have routes := congrArg List.length (routesOf_same h (freeClaim_routes s c))
    have claims := claimsOf_place (freeClaim_claim? claim) h
    have waiting := waitingOf_place (freeClaim_claim? claim) h
    obtain ⟨inUse, records, waits, routeLimit, claimLimit⟩ := exact_
    rw [claim] at claims waiting
    by_cases own : cl.owner = h
    · simp [holdsClaim, holdsWaiting, own, settled] at claims waiting
      constructor <;> rw [freeClaim_session claim, if_pos own] <;> dsimp only <;> omega
    · simp [holdsClaim, holdsWaiting, own] at claims waiting
      constructor <;> rw [freeClaim_session claim, if_neg own] <;> omega
  drop why := by
    intro s c cl exact_ claim waits
    have routes := congrArg List.length (routesOf_same h (dropClaim_routes s c why))
    have claims := claimsOf_place (dropClaim_claim? why claim) h
    have waiting := waitingOf_place (dropClaim_claim? why claim) h
    have owner : (cl.drop why).owner = cl.owner := rfl
    have settled : (cl.drop why).waiting = false := rfl
    obtain ⟨inUse, records, waits', routeLimit, claimLimit⟩ := exact_
    rw [claim] at claims waiting
    by_cases own : cl.owner = h
    · simp [holdsClaim, holdsWaiting, own, waits, owner, settled] at claims waiting
      constructor <;> rw [dropClaim_session why claim, if_pos own] <;> dsimp only <;> omega
    · simp [holdsClaim, holdsWaiting, own, owner] at claims waiting
      constructor <;> rw [dropClaim_session why claim, if_neg own] <;> omega
  cancel := by
    intro s c cl exact_ claim waits
    have routes := congrArg List.length (routesOf_same h (cancelled_routes s c cl))
    have claims := claimsOf_place (cancelled_claim? claim) h
    have waiting := waitingOf_place (cancelled_claim? claim) h
    obtain ⟨inUse, records, waits', routeLimit, claimLimit⟩ := exact_
    rw [claim] at claims waiting
    by_cases own : cl.owner = h
    · simp [holdsClaim, holdsWaiting, own, waits] at claims waiting
      constructor <;> rw [cancelled_session claim, if_pos own] <;> dsimp only <;> omega
    · simp [holdsClaim, holdsWaiting, own] at claims waiting
      constructor <;> rw [cancelled_session claim, if_neg own] <;> omega
  listen := by
    intro s k lease ms r exact_ _ _ passed free
    have routes := routesOf_place (createListener_route? s k r · lease ms) h
    obtain ⟨inUse, records, waits, routeLimit, claimLimit⟩ := exact_
    have claims := congrArg List.length (claimsOf_same h (createListener_claims s k r lease ms))
    have waiting := congrArg List.length (waitingOf_same h (createListener_claims s k r lease ms))
    have limit : Config.hostRouteLimit = 32 := rfl
    rw [free] at routes
    by_cases own : k = h
    · subst own
      have room := atRouteLimit_false (listenRefusal_room passed).2
      simp [holdsRoute, listenerRoute] at routes
      constructor <;> rw [createListener_session, if_pos rfl] <;> dsimp only <;> omega
    · simp [holdsRoute, listenerRoute, own] at routes
      constructor <;> rw [createListener_session, if_neg own] <;> omega
  clear := by
    intro k s exact_
    obtain ⟨inUse, records, waits, routeLimit, claimLimit⟩ := exact_
    by_cases own : k = h
    · constructor <;>
        simp [clearHost_session, routesOf_clearHost, claimsOf_clearHost, waitingOf_clearHost, own, Session.reset]
    · constructor <;> simpa [clearHost_session, routesOf_clearHost, claimsOf_clearHost, waitingOf_clearHost, own]
  reset := reset_countsExact h
  opens k s exact_ := exact_.of_same (by rw [openSession_session]; split <;> exact ⟨rfl, rfl, rfl⟩) rfl rfl rfl
  accept := by
    intro s k p c exact_ _ _ passed free
    have routes := congrArg List.length (routesOf_same h (acceptClaim_routes s k p c))
    have claims := claimsOf_place (acceptClaim_claim? s k c · p) h
    have waiting := waitingOf_place (acceptClaim_claim? s k c · p) h
    have waits : (newClaim k p).waiting = true := rfl
    have owner : (newClaim k p).owner = k := rfl
    obtain ⟨inUse, records, waits', routeLimit, claimLimit⟩ := exact_
    have limits : Config.hostRouteLimit = 32 ∧ Config.hostClaimLimit = 8 := ⟨rfl, rfl⟩
    rw [free] at claims waiting
    by_cases own : k = h
    · subst own
      obtain ⟨-, room, record⟩ := claimRefusal_room passed
      have room := atRouteLimit_false room
      simp [holdsClaim, holdsWaiting, owner, waits] at claims waiting
      constructor <;> rw [accepted_session, if_pos rfl] <;> dsimp only <;> omega
    · simp [holdsClaim, holdsWaiting, owner, own] at claims waiting
      constructor <;> rw [accepted_session, if_neg own] <;> omega

/-! ### The queues of the ports (R132, R138) -/

/-- The queues of every port stay within their capacity. -/
def PortsBounded (s : State) : Prop := ∀ h, PortBounded (s.port h)

theorem port_congr {s t : State} (e : t.ports = s.ports) (h : HostId) : t.port h = s.port h := by
  rw [State.port, State.port, e]

theorem PortsBounded.congr {s t : State} (bounded : PortsBounded s) (e : t.ports = s.ports) : PortsBounded t := fun h =>
  port_congr e h ▸ bounded h

theorem PortsBounded.settled {s t : State} (bounded : PortsBounded t) : PortsBounded (settle s t) := bounded.congr (settle_ports s t)

theorem PortsBounded.updPort {s : State} (bounded : PortsBounded s) (h : HostId) {f : Port → Port}
    (own : PortBounded (s.port h) → PortBounded (f (s.port h))) : PortsBounded (s.updPort h f) := fun k => by
  rw [State.updPort_port]
  split
  · rename_i same
    subst same
    exact own (bounded h)
  · exact bounded k

theorem takeableFrame_room {s : State} {h : HostId} {f : List Byte} (takeable : takeableFrame s h = some f) :
    (s.port h).replies.length < Config.replyCapacity := by
  unfold takeableFrame at takeable
  split at takeable
  · assumption
  · cases takeable

/-- The head frame leaves, and a reply goes where there is room. -/
theorem PortsBounded.answered {s u : State} {h : HostId} {f : List Byte} (bounded : PortsBounded s)
    (takeable : takeableFrame s h = some f) (ports : u.ports = (popFrame h s).ports) (a : Answer) :
    PortsBounded (queueReply h f a u) := by
  have room := takeableFrame_room takeable
  have popped : PortsBounded (popFrame h s) := bounded.updPort h fun within =>
    ⟨List.length_tail.trans_le ((Nat.sub_le ..).trans within.1), within.2⟩
  refine (popped.congr ports).updPort h fun within => ⟨within.1, ?_⟩
  rw [port_congr ports, popFrame_port, if_pos rfl, List.length_append]
  exact room

theorem PortsBounded.takeRequest {s : State} (code : ReqCode) (h : HostId) (bounded : PortsBounded s) :
    PortsBounded (takeRequest code code.act h s) := by
  unfold Machine.takeRequest
  split
  · exact bounded
  · rename_i f takeable
    split
    · exact (bounded.answered takeable (carryOut_keepsSurroundings h _ _ code).ports _).settled
    · exact bounded

theorem writeFrame_bounded {bytes : List Byte} {p : Port} (within : PortBounded p) : PortBounded (writeFrame bytes p) := by
  refine ⟨?_, within.2⟩
  unfold writeFrame
  dsimp only
  split
  · rename_i accepted
    rw [List.length_append]
    unfold judgeFrame at accepted
    split_ifs at accepted with _ _ room
    exact room
  · exact within.1

theorem endTransaction_bounded (frame : Option (List Byte)) {p : Port} (within : PortBounded p) :
    PortBounded (endTransaction frame p) := by
  unfold endTransaction
  split
  · exact writeFrame_bounded within
  · exact within

theorem readReply_bounded (st : Byte) {p : Port} (within : PortBounded p) : PortBounded (readReply st p) := by
  unfold readReply
  split
  · exact within
  · rename_i replies
    refine ⟨within.1, ?_⟩
    have most := within.2
    rw [replies] at most
    exact (Nat.le_succ _).trans most

theorem PortsBounded.onKind {s : State} {h : HostId} {f : Byte → State → State} (bounded : PortsBounded s)
    (each : ∀ st, PortsBounded (f st s)) : PortsBounded (onKind h f s) := by
  unfold Machine.onKind
  split
  · exact bounded
  · exact each _

theorem PortsBounded.resetLink {s : State} (h : HostId) (st : Byte) (bounded : PortsBounded s) : PortsBounded (resetLink h st s) := by
  have emptied {t : State} (k : PortsBounded t) :
      PortsBounded (t.updPort h fun _ => { Port.reset with transaction := .sending st nullReply }) :=
    k.updPort h fun _ => ⟨Nat.zero_le _, Nat.zero_le _⟩
  unfold Machine.resetLink
  dsimp only
  split
  · exact emptied (bounded.congr (endSession_keepsRest h s).ports)
  · exact emptied bounded

theorem PortsBounded.takeUnknown {s : State} (h : HostId) (bounded : PortsBounded s) : PortsBounded (takeUnknown h s) := by
  unfold Machine.takeUnknown
  split
  · exact bounded
  · rename_i takeable
    split
    · exact bounded
    · exact bounded.answered takeable rfl _

theorem PortsBounded.reaction {s : State} (i : Instr) (bounded : PortsBounded s) : PortsBounded (reaction i s) := by
  cases i with
  | transactionBegin h => exact bounded.updPort h id
  | write h frame => exact bounded.updPort h (endTransaction_bounded frame)
  | read h => exact bounded.onKind (f := fun st t => t.updPort h (readReply st)) fun st => bounded.updPort h (readReply_bounded st)
  | readAgain h => exact bounded.onKind (f := fun st t => t.updPort h (readReplyAgain st)) fun st => bounded.updPort h id
  | linkReset h =>
    exact bounded.onKind (f := fun st t => settle t (Machine.resetLink h st t)) fun st => (bounded.resetLink h st).settled
  | unknownKind h =>
    unfold Machine.reaction
    dsimp only
    split
    · exact bounded.onKind fun st => bounded.updPort h id
    · exact bounded
  | unknownRequest h => exact bounded.takeUnknown h
  | attach h | detach h | collect h | readLevels h | queryLine h | setPolicy h | queryPolicy h | listen h | release h | renew h | revoke h
  | queryRoute h | claim h | amend h | cancel h | queryClaim h | setGroup h | trip h | rearm h | queryGroup h =>
    exact bounded.takeRequest _ h
  | leaseExpiry r => exact (bounded.congr (leaseEnd_keepsSurroundings s r).ports).settled
  | breakExpiry r => exact (bounded.congr (breakEnd_keepsSurroundings s r).ports).settled
  | waitLimitExpiry c => exact (bounded.congr (waitEnd_keepsSurroundings s c).ports).settled
  | settleExpiry g => exact (bounded.congr (settleEnd_keepsSurroundings s g).ports).settled
  | qualifiedLevelChange g => exact (bounded.congr (qualify_keepsSurroundings s g).ports).settled
  | deviceReset | leaveReset | faultPinChange | terminalLevelChange | boardLineLevelChange => exact bounded

theorem PortsBounded.exec {i : Instr} {s t : State} (bounded : PortsBounded s) (step : exec i s = .next t) : PortsBounded t := by
  by_cases acts : actsInReset i = false
  · rw [exec_reaction acts] at step
    injection step with step
    subst step
    split
    · exact bounded
    · exact bounded.reaction i
  · cases i with
    | deviceReset =>
      cases step
      exact fun h => by
        rw [deviceReset_port]
        exact ⟨by decide, by decide⟩
    | leaveReset a b =>
      cases on : s.inReset with
      | true =>
        rw [exec_leaveReset a b s on] at step
        cases step
        exact PortsBounded.settled (t := leaveReset a b s) bounded
      | false =>
        rw [exec_leaveReset_running a b s on] at step
        cases step
        exact bounded
    | faultPinChange g v =>
      cases step
      exact bounded
    | terminalLevelChange k n v =>
      cases step
      exact PortsBounded.settled (t := driveTerminal k n v s) bounded
    | boardLineLevelChange l v =>
      cases step
      exact PortsBounded.settled (t := driveLine l v s) bounded
    | _ => exact absurd rfl acts

theorem PortsBounded.step {s t : State} (bounded : PortsBounded s) (stepped : step s = .next t) : PortsBounded t := by
  unfold Machine.step at stepped
  split at stepped
  · cases stepped
    exact bounded.congr (advance_keepsSurroundings s 1).ports
  · rename_i i rest _
    exact PortsBounded.exec (s := { s with pending := rest }) bounded stepped

/-- Settles O51. Each change of a record is counted once, for its owner; a request is refused at its owner's limits; and a frame or a reply
goes where there is room. -/
theorem countsAndQueuesBoundedKept : Obligations.CountsAndQueuesBoundedKept := fun _ _ holds stepped h =>
  ⟨(countsExact_moves h).step (holds h).1 stepped, PortsBounded.step (fun k => (holds k).2) stepped h⟩

end Sys2Proof.Machine


/-! The terminal bindings stay exact (O59). -/

namespace Sys2Proof.Machine

/-! ### Records that hold terminals -/

/-- The records that can hold terminals: the route entries and the claim records. -/
abbrev Holder := RouteSlot ⊕ ClaimSlot

/-- The record that a binding names. -/
def Binding.holder : Binding → Holder
  | .route r _ => .inl r
  | .claim c _ => .inr c

/-- The index of the member that a binding names. -/
def Binding.index : Binding → Nat
  | .route _ i => i
  | .claim _ i => i

/-- The binding to the member of an index of a record. -/
def Holder.bind : Holder → Nat → Binding
  | .inl r => .route r
  | .inr c => .claim c

@[simp] theorem Holder.bind_holder (x : Holder) (i : Nat) : (Holder.bind x i).holder = x := by cases x <;> rfl

@[simp] theorem Holder.bind_index (x : Holder) (i : Nat) : (Holder.bind x i).index = i := by cases x <;> rfl

@[simp] theorem Binding.bind_eta (b : Binding) : Holder.bind b.holder b.index = b := by cases b <;> rfl

/-- Whose a live route or a WAITING claim is, with its members; none of a record that holds no terminal. -/
def holderOf (s : State) : Holder → Option (HostId × List Member)
  | .inl r => (s.route? r).bind fun rt => if rt.live then some (rt.owner, rt.members) else none
  | .inr c => (s.claim? c).bind fun cl => if cl.waiting then some (cl.owner, cl.members) else none

theorem holderOf_route {s : State} {r : RouteSlot} {h : HostId} {ms : List Member} : holderOf s (.inl r) = some (h, ms) ↔
    ∃ rt, s.route? r = some rt ∧ rt.live = true ∧ rt.owner = h ∧ rt.members = ms := by
  simp [holderOf, Option.bind_eq_some_iff]

theorem holderOf_claim {s : State} {c : ClaimSlot} {h : HostId} {ms : List Member} : holderOf s (.inr c) = some (h, ms) ↔
    ∃ cl, s.claim? c = some cl ∧ cl.waiting = true ∧ cl.owner = h ∧ cl.members = ms := by
  simp [holderOf, Option.bind_eq_some_iff]

/-- What each host's terminals are bound to. -/
abbrev Bindings := HostId → Vector (Option Binding) 12

/-- A terminal is bound to a member just when the record that the binding names is its host's and has the terminal at that index. -/
def Bound (bindings : Bindings) (holders : Holder → Option (HostId × List Member)) : Prop :=
  ∀ h n b, look (bindings h) n = some b ↔
    ∃ ms, holders b.holder = some (h, ms) ∧ (ms[b.index]?).map (·.terminal) = some n

theorem bindingsExact_iff {s : State} : BindingsExact s ↔ Bound (fun h => (s.session h).bindings) (holderOf s) := by
  constructor
  · intro exact_ h n b
    constructor
    · intro bound
      cases b with
      | route r i =>
        obtain ⟨rt, m, route, live, owner, member, terminal⟩ := exact_.toRoute h n r i bound
        exact ⟨rt.members, holderOf_route.mpr ⟨rt, route, live, owner, rfl⟩, by rw [Binding.index, member, ← terminal]; rfl⟩
      | claim c i =>
        obtain ⟨cl, m, claim, waits, owner, member, terminal⟩ := exact_.toClaim h n c i bound
        exact ⟨cl.members, holderOf_claim.mpr ⟨cl, claim, waits, owner, rfl⟩, by rw [Binding.index, member, ← terminal]; rfl⟩
    · rintro ⟨ms, holder, member⟩
      obtain ⟨m, named, rfl⟩ := Option.map_eq_some_iff.mp member
      cases b with
      | route r i =>
        obtain ⟨rt, route, live, rfl, rfl⟩ := holderOf_route.mp holder
        exact exact_.ofRoute r rt route live i m named
      | claim c i =>
        obtain ⟨cl, claim, waits, rfl, rfl⟩ := holderOf_claim.mp holder
        exact exact_.ofClaim c cl claim waits i m named
  · intro bound
    refine ⟨fun h n r i e => ?_, fun h n c i e => ?_, fun r rt route live i m member => ?_, fun c cl claim waits i m member => ?_⟩
    · obtain ⟨ms, holder, member⟩ := (bound h n _).mp e
      obtain ⟨m, named, rfl⟩ := Option.map_eq_some_iff.mp member
      obtain ⟨rt, route, live, owner, rfl⟩ := holderOf_route.mp holder
      exact ⟨rt, m, route, live, owner, named, rfl⟩
    · obtain ⟨ms, holder, member⟩ := (bound h n _).mp e
      obtain ⟨m, named, rfl⟩ := Option.map_eq_some_iff.mp member
      obtain ⟨cl, claim, waits, owner, rfl⟩ := holderOf_claim.mp holder
      exact ⟨cl, m, claim, waits, owner, named, rfl⟩
    · exact (bound _ _ (.route r i)).mpr ⟨rt.members, holderOf_route.mpr ⟨rt, route, live, rfl, rfl⟩, by rw [Binding.index, member]; rfl⟩
    · exact (bound _ _ (.claim c i)).mpr ⟨cl.members, holderOf_claim.mpr ⟨cl, claim, waits, rfl, rfl⟩, by rw [Binding.index, member]; rfl⟩

/-! ### Terminals bound and unbound -/

theorem clearBindings_other {n : TermNo} {ms : List Member} (h : n ∉ ms.map (·.terminal)) (v : Vector (Option Binding) 12) :
    look (clearBindings ms v) n = look v n := by
  induction ms generalizing v with
  | nil => rfl
  | cons m ms ih =>
    obtain ⟨first, rest⟩ := not_or.mp (mt List.mem_cons.mpr h)
    rw [clearBindings, ih rest, look_upd_other _ _ (Ne.symm first)]

theorem clearBindings_member {n : TermNo} {ms : List Member} (h : n ∈ ms.map (·.terminal)) (v : Vector (Option Binding) 12) :
    look (clearBindings ms v) n = none := by
  induction ms generalizing v with
  | nil => cases h
  | cons m ms ih =>
    rw [clearBindings]
    by_cases later : n ∈ ms.map (·.terminal)
    · exact ih later _
    · rw [clearBindings_other later, (List.mem_cons.mp h).resolve_right later, look_upd_same]

/-- What the terminals of a list of members were bound to before they are bound anew does not matter. -/
theorem setBindings_clearBindings (mk : Nat → Binding) {ms : List Member} (nodup : (ms.map (·.terminal)).Nodup)
    (v : Vector (Option Binding) 12) : setBindings mk 0 ms (clearBindings ms v) = setBindings mk 0 ms v := by
  refine ext_look fun n => ?_
  by_cases member : n ∈ ms.map (·.terminal)
  · obtain ⟨m, mem, rfl⟩ := List.mem_map.mp member
    obtain ⟨j, hj⟩ := List.getElem?_of_mem mem
    rw [setBindings_getElem? mk 0 ms _ nodup hj, setBindings_getElem? mk 0 ms _ nodup hj]
  · have other : ∀ m ∈ ms, m.terminal ≠ n := fun m mem e => member (List.mem_map.mpr ⟨m, mem, e⟩)
    rw [setBindings_other mk 0 ms _ other, setBindings_other mk 0 ms _ other, clearBindings_other member]

theorem mem_terminals {ms : List Member} {n : TermNo} : n ∈ ms.map (·.terminal) ↔ ∃ i : Nat, (ms[i]?).map (·.terminal) = some n := by
  rw [List.mem_iff_getElem?]
  simp only [List.getElem?_map]

section

variable {bindings : Bindings} {holders : Holder → Option (HostId × List Member)} {x : Holder} {k : HostId} {ms : List Member}

/-- A terminal of a record that holds its terminals is bound to that record alone. -/
theorem Bound.holder_of_mem (bound : Bound bindings holders) (hx : holders x = some (k, ms)) {n : TermNo}
    (member : n ∈ ms.map (·.terminal)) : ∃ i, look (bindings k) n = some (x.bind i) := by
  obtain ⟨i, member⟩ := mem_terminals.mp member
  exact ⟨i, (bound k n _).mpr ⟨ms, by simpa using hx, by simpa using member⟩⟩

/-- No record that holds its terminals names one twice. -/
theorem Bound.nodup (bound : Bound bindings holders) (hx : holders x = some (k, ms)) : (ms.map (·.terminal)).Nodup := by
  rw [List.nodup_iff_getElem?_ne_getElem?]
  intro i j below len same
  rw [List.getElem?_map, List.getElem?_map] at same
  rw [List.length_map] at len
  have member (i : Nat) (h : i < ms.length) : (ms[i]?).map (·.terminal) = some ms[i].terminal := by rw [List.getElem?_eq_getElem h]; rfl
  have at_j := (bound k ms[j].terminal (x.bind j)).mpr ⟨ms, by simpa using hx, by simpa using member j len⟩
  have at_i := (bound k ms[j].terminal (x.bind i)).mpr ⟨ms, by simpa using hx, by simpa using same.trans (member j len)⟩
  have e := congrArg Binding.index (Option.some.inj (at_i.symm.trans at_j))
  simp only [Holder.bind_index] at e
  omega

/-- A record gives up its terminals. -/
theorem Bound.release (bound : Bound bindings holders) (hx : holders x = some (k, ms)) :
    Bound (fun h => if k = h then clearBindings ms (bindings h) else bindings h) (Function.update holders x none) := by
  intro h n b
  dsimp only
  by_cases mine : k = h ∧ n ∈ ms.map (·.terminal)
  · obtain ⟨rfl, member⟩ := mine
    obtain ⟨i, held⟩ := bound.holder_of_mem hx member
    rw [if_pos rfl, clearBindings_member member]
    refine ⟨nofun, ?_⟩
    rintro ⟨ns, holder, index⟩
    by_cases same : b.holder = x
    · rw [same, Function.update_self] at holder
      cases holder
    · rw [Function.update_of_ne same] at holder
      have e := Option.some.inj (held.symm.trans ((bound k n b).mpr ⟨ns, holder, index⟩))
      exact absurd (by rw [← e, Holder.bind_holder]) same
  · have stays : look (if k = h then clearBindings ms (bindings h) else bindings h) n = look (bindings h) n := by
      split
      · rename_i own
        exact clearBindings_other (fun member => mine ⟨own, member⟩) _
      · rfl
    rw [stays, bound]
    by_cases same : b.holder = x
    · rw [same, Function.update_self, hx]
      refine ⟨?_, by simp⟩
      rintro ⟨ns, e, index⟩
      cases e
      exact absurd ⟨rfl, mem_terminals.mpr ⟨_, index⟩⟩ mine
    · rw [Function.update_of_ne same]

/-- A record that holds no terminal takes terminals that are not bound. -/
theorem Bound.take (bound : Bound bindings holders) (hx : holders x = none) (nodup : (ms.map (·.terminal)).Nodup)
    (free : ∀ m ∈ ms, look (bindings k) m.terminal = none) :
    Bound (fun h => if k = h then setBindings x.bind 0 ms (bindings h) else bindings h) (Function.update holders x (some (k, ms))) := by
  intro h n b
  dsimp only
  by_cases mine : k = h ∧ n ∈ ms.map (·.terminal)
  · obtain ⟨rfl, member⟩ := mine
    obtain ⟨m, mem, rfl⟩ := List.mem_map.mp member
    obtain ⟨j, hj⟩ := List.getElem?_of_mem mem
    rw [if_pos rfl, setBindings_getElem? _ 0 ms _ nodup hj, Nat.zero_add]
    by_cases same : b.holder = x
    · rw [same, Function.update_self]
      constructor
      · intro e
        have e := Option.some.inj e
        exact ⟨ms, rfl, by rw [← e, Holder.bind_index, hj]; rfl⟩
      · rintro ⟨ns, e, index⟩
        cases e
        obtain ⟨m', hj', terminal⟩ := Option.map_eq_some_iff.mp index
        have once : j = b.index := (List.getElem?_inj (by
          rw [List.length_map]
          exact (List.getElem?_eq_some_iff.mp hj).1) nodup).mp (by
          rw [List.getElem?_map, List.getElem?_map, hj, hj']
          exact congrArg some terminal.symm)
        rw [once, ← same, Binding.bind_eta]
    · rw [Function.update_of_ne same, ← bound, free m mem]
      refine ⟨fun e => ?_, nofun⟩
      have e := Option.some.inj e
      exact absurd (by rw [← e, Holder.bind_holder]) same
  · have stays : look (if k = h then setBindings x.bind 0 ms (bindings h) else bindings h) n = look (bindings h) n := by
      split
      · rename_i own
        exact setBindings_other _ 0 ms _ fun m mem e => mine ⟨own, List.mem_map.mpr ⟨m, mem, e⟩⟩
      · rfl
    rw [stays, bound]
    by_cases same : b.holder = x
    · rw [same, Function.update_self, hx]
      refine ⟨by simp, ?_⟩
      rintro ⟨ns, e, index⟩
      cases e
      exact absurd ⟨rfl, mem_terminals.mpr ⟨_, index⟩⟩ mine
    · rw [Function.update_of_ne same]

end

/-! ### The operations on records -/

section

variable {s t : State} {r : RouteSlot} {c : ClaimSlot} {k : HostId} {ms : List Member}

theorem bindingsExact_of {bindings : Bindings} {holders : Holder → Option (HostId × List Member)} (bound : Bound bindings holders)
    (sessions : ∀ h, (t.session h).bindings = bindings h) (records : ∀ x, holderOf t x = holders x) : BindingsExact t := by
  rw [bindingsExact_iff, show (fun h => (t.session h).bindings) = bindings from funext sessions, show holderOf t = holders from funext records]
  exact bound

theorem BindingsExact.congr (exact_ : BindingsExact s) (sessions : ∀ h, (t.session h).bindings = (s.session h).bindings)
    (records : ∀ x, holderOf t x = holderOf s x) : BindingsExact t :=
  bindingsExact_of (bindingsExact_iff.mp exact_) sessions records

/-- A record is given up with its terminals. -/
theorem BindingsExact.release (exact_ : BindingsExact s) {x : Holder} (hx : holderOf s x = some (k, ms))
    (sessions : ∀ h, (t.session h).bindings = if k = h then clearBindings ms (s.session h).bindings else (s.session h).bindings)
    (own : holderOf t x = none) (others : ∀ y, y ≠ x → holderOf t y = holderOf s y) : BindingsExact t := by
  refine bindingsExact_of ((bindingsExact_iff.mp exact_).release hx) sessions fun y => ?_
  by_cases same : y = x
  · rw [same, Function.update_self, own]
  · rw [Function.update_of_ne same, others y same]

/-- A record comes to hold terminals that were not bound. -/
theorem BindingsExact.take (exact_ : BindingsExact s) {x : Holder} (hx : holderOf s x = none) (nodup : (ms.map (·.terminal)).Nodup)
    (free : (ms.any fun m => terminalBound s k m.terminal) = false)
    (sessions : ∀ h, (t.session h).bindings = if k = h then setBindings x.bind 0 ms (s.session h).bindings else (s.session h).bindings)
    (own : holderOf t x = some (k, ms)) (others : ∀ y, y ≠ x → holderOf t y = holderOf s y) : BindingsExact t := by
  have unbound : ∀ m ∈ ms, look (s.session k).bindings m.terminal = none := fun m mem => by
    simpa [terminalBound] using List.any_eq_false.mp free m mem
  refine bindingsExact_of ((bindingsExact_iff.mp exact_).take hx nodup unbound) sessions fun y => ?_
  by_cases same : y = x
  · rw [same, Function.update_self, own]
  · rw [Function.update_of_ne same, others y same]

theorem KeepsCores.holderOf (k : KeepsCores s t) (x : Holder) : holderOf t x = holderOf s x := by
  have of_core {α β : Type} (f : α → β) (g : β → Option (HostId × List Member)) {a b : Option α} (e : b.map f = a.map f) :
      b.bind (fun x => g (f x)) = a.bind fun x => g (f x) := by
    rw [← Function.comp_def, ← Option.bind_map, ← Option.bind_map, e]
  cases x with
  | inl r => exact of_core Route.core (fun x => if x.2.2 then some (x.1, x.2.1) else none) (k.routes r)
  | inr c => exact of_core Claim.core (fun x => if x.2.2 then some (x.1, x.2.1) else none) (k.claims c)

theorem holderOf_route_congr (e : t.route? r = s.route? r) : holderOf t (.inl r) = holderOf s (.inl r) := by
  rw [holderOf, holderOf, e]

theorem holderOf_claim_congr (e : t.claim? c = s.claim? c) : holderOf t (.inr c) = holderOf s (.inr c) := by
  rw [holderOf, holderOf, e]

/-- Only the record in one entry changes. -/
theorem holderOf_otherThanRoute {o : Option Route} (claims : t.claims = s.claims) (routes : ∀ q, t.route? q = if r = q then o else s.route? q)
    (y : Holder) (other : y ≠ .inl r) : holderOf t y = holderOf s y := by
  cases y with
  | inl q => exact holderOf_route_congr (by rw [routes, if_neg fun e => other (by rw [e])])
  | inr c => exact holderOf_claim_congr (claim?_congr claims c)

theorem holderOf_otherThanClaim {o : Option Claim} (routes : t.routes = s.routes) (claims : ∀ d, t.claim? d = if c = d then o else s.claim? d)
    (y : Holder) (other : y ≠ .inr c) : holderOf t y = holderOf s y := by
  cases y with
  | inl q => exact holderOf_route_congr (route?_congr routes q)
  | inr d => exact holderOf_claim_congr (by rw [claims, if_neg fun e => other (by rw [e])])

theorem holderOf_route_none (e : ∀ rt, t.route? r = some rt → rt.live = false) : holderOf t (.inl r) = none := by
  rw [holderOf, Option.bind_eq_none_iff]
  exact fun rt route => by simp [e rt route]

theorem holderOf_claim_none (e : ∀ cl, t.claim? c = some cl → cl.waiting = false) : holderOf t (.inr c) = none := by
  rw [holderOf, Option.bind_eq_none_iff]
  exact fun cl claim => by simp [e cl claim]

end

theorem bindingsExact_moves : StepMoves BindingsExact where
  cores exact_ kept := exact_.congr (fun h => by rw [session_congr kept.sessions]) kept.holderOf
  changes f exact_ _ := exact_.congr (fun h => by rw [State.updSession_session]; split <;> rfl) fun _ => rfl
  close why exact_ route live := by
    refine exact_.release (x := .inl _) (holderOf_route.mpr ⟨_, route, live, rfl, rfl⟩)
      (fun h => by rw [closeRoute_session why route live]; split <;> rfl)
      (holderOf_route_none fun x hx => ?_) (holderOf_otherThanRoute (closeRoute_claims ..) (closeRoute_route? why route live))
    rw [closeRoute_route? why route live, if_pos rfl] at hx
    cases hx
    rfl
  grant := by
    intro s c cl r exact_ claim waits free
    have bound := bindingsExact_iff.mp exact_
    have holds : holderOf s (.inr c) = some (cl.owner, cl.members) := holderOf_claim.mpr ⟨cl, claim, waits, rfl, rfl⟩
    have empty : holderOf s (.inl r) = none := holderOf_route_none fun x hx => by cases free.symm.trans hx
    have nodup := bound.nodup holds
    refine bindingsExact_of ((bound.release holds).take (x := .inl r) (k := cl.owner) (ms := cl.members) ?_ nodup ?_) ?_ ?_
    · rw [Function.update_of_ne Sum.inl_ne_inr, empty]
    · intro m mem
      rw [if_pos rfl, clearBindings_member (List.mem_map.mpr ⟨m, mem, rfl⟩)]
    · intro h
      rw [grantBase_session]
      split
      · exact (setBindings_clearBindings _ nodup _).symm
      · rfl
    · intro y
      cases y with
      | inl q =>
        by_cases same : r = q
        · subst same
          rw [Function.update_self]
          exact holderOf_route.mpr ⟨grantedRoute s cl, by rw [grantBase_route?, if_pos rfl], rfl, rfl, rfl⟩
        · rw [Function.update_of_ne fun e => same (Sum.inl.inj e).symm, Function.update_of_ne Sum.inl_ne_inr]
          exact holderOf_route_congr (by rw [grantBase_route?, if_neg same])
      | inr d =>
        rw [Function.update_of_ne Sum.inr_ne_inl]
        by_cases same : c = d
        · subst same
          rw [Function.update_self]
          refine holderOf_claim_none fun x hx => ?_
          rw [grantBase_claim? _ _ _ _ claim, if_pos rfl] at hx
          cases hx
          rfl
        · rw [Function.update_of_ne fun e => same (Sum.inr.inj e).symm]
          exact holderOf_claim_congr (by rw [grantBase_claim? _ _ _ _ claim, if_neg same])
  free := by
    intro s r rt exact_ route
    have own : holderOf (freeRoute r s) (.inl r) = none := holderOf_route_none fun x hx => by
      rw [freeRoute_route? route, if_pos rfl] at hx
      cases hx
    have others := holderOf_otherThanRoute (freeRoute_claims s r) (freeRoute_route? route)
    by_cases live : rt.live = true
    · exact exact_.release (x := .inl r) (holderOf_route.mpr ⟨rt, route, live, rfl, rfl⟩)
        (fun h => by rw [freeRoute_session route, if_pos live]; split <;> rfl) own others
    · refine exact_.congr (fun h => by rw [freeRoute_session route, if_neg live]; split <;> rfl) fun y => ?_
      by_cases same : y = .inl r
      · rw [same, own, holderOf_route_none fun x hx => by cases route.symm.trans hx; simpa using live]
      · exact others y same
  settle := by
    intro s c cl exact_ claim settled
    refine exact_.congr (fun h => by rw [freeClaim_session claim]; split <;> rfl) fun y => ?_
    by_cases same : y = .inr c
    · have before : holderOf s (.inr c) = none := holderOf_claim_none fun x hx => by
        cases claim.symm.trans hx
        exact settled
      have after : holderOf (freeClaim c s) (.inr c) = none := holderOf_claim_none fun x hx => by
        rw [freeClaim_claim? claim, if_pos rfl] at hx
        cases hx
      rw [same, before, after]
    · exact holderOf_otherThanClaim (freeClaim_routes ..) (freeClaim_claim? claim) y same
  drop why := by
    intro s c cl exact_ claim waits
    refine exact_.release (x := .inr _) (holderOf_claim.mpr ⟨_, claim, waits, rfl, rfl⟩)
      (fun h => by rw [dropClaim_session why claim]; split <;> rfl)
      (holderOf_claim_none fun x hx => ?_) (holderOf_otherThanClaim (dropClaim_routes ..) (dropClaim_claim? why claim))
    rw [dropClaim_claim? why claim, if_pos rfl] at hx
    cases hx
    rfl
  cancel := by
    intro s c cl exact_ claim waits
    refine exact_.release (x := .inr _) (holderOf_claim.mpr ⟨_, claim, waits, rfl, rfl⟩)
      (fun h => by rw [cancelled_session claim]; split <;> rfl)
      (holderOf_claim_none fun x hx => ?_) (holderOf_otherThanClaim (cancelled_routes ..) (cancelled_claim? claim))
    rw [cancelled_claim? claim, if_pos rfl] at hx
    cases hx
  listen := by
    intro s h lease ms r exact_ _ nodup passed free
    exact exact_.take (x := .inl r) (holderOf_route_none fun x hx => by cases free.symm.trans hx) nodup (listenRefusal_room passed).1
      (fun k => by rw [createListener_session]; split <;> rfl)
      (holderOf_route.mpr ⟨listenerRoute s h lease ms, by rw [createListener_route?, if_pos rfl], rfl, rfl, rfl⟩)
      (holderOf_otherThanRoute (createListener_claims ..) (createListener_route? s h r · lease ms))
  clear := by
    intro h s exact_
    have bound := bindingsExact_iff.mp exact_
    have holders (x : Holder) (k : HostId) (ms : List Member) :
        holderOf (clearHost h s) x = some (k, ms) ↔ holderOf s x = some (k, ms) ∧ k ≠ h := by
      cases x with
      | inl r =>
        simp only [holderOf_route, clearHost_route?_some]
        constructor
        · rintro ⟨rt, ⟨route, other⟩, live, rfl, rfl⟩
          exact ⟨⟨rt, route, live, rfl, rfl⟩, other⟩
        · rintro ⟨⟨rt, route, live, rfl, rfl⟩, other⟩
          exact ⟨rt, ⟨route, other⟩, live, rfl, rfl⟩
      | inr c =>
        simp only [holderOf_claim, clearHost_claim?_some]
        constructor
        · rintro ⟨cl, ⟨claim, other⟩, waits, rfl, rfl⟩
          exact ⟨⟨cl, claim, waits, rfl, rfl⟩, other⟩
        · rintro ⟨⟨cl, claim, waits, rfl, rfl⟩, other⟩
          exact ⟨cl, ⟨claim, other⟩, waits, rfl, rfl⟩
    refine bindingsExact_iff.mpr fun k n b => ?_
    simp only [holders, clearHost_session]
    by_cases own : h = k
    · subst own
      simp [Session.reset]
    · rw [if_neg own, bound k n b]
      simp [Ne.symm own]
  reset := reset_bindingsExact
  opens h s exact_ := exact_.congr (fun k => by rw [openSession_session]; split <;> rfl) fun _ => rfl
  accept := by
    intro s h p c exact_ _ nodup passed free
    exact exact_.take (x := .inr c) (holderOf_claim_none fun x hx => by cases free.symm.trans hx) nodup (claimRefusal_room passed).1
      (fun k => by rw [accepted_session]; split <;> rfl)
      (holderOf_claim.mpr ⟨newClaim h p, by rw [acceptClaim_claim?, if_pos rfl], rfl, rfl, rfl⟩)
      (holderOf_otherThanClaim (acceptClaim_routes ..) (acceptClaim_claim? s h c · p))

/-- Settles O59. Terminals are bound together with the record that names them and unbound when it stops holding them; a grant moves them from
the claim to the route; and a request is refused if one of its terminals is bound. -/
theorem bindingsExactKept : Obligations.BindingsExactKept := fun _ _ exact_ stepped => bindingsExact_moves.step exact_ stepped

end Sys2Proof.Machine


/-! Sessions: the opening of one (O19), its end (O20), and the epochs (O21). -/

namespace Sys2Proof.Machine

/-! ### ATTACH of a DETACHED host -/

theorem attach_admitted {code : ReqCode} {h : HostId} {f : List Byte} {s : State} (noParams : frameParams f = [])
    (code_is : code = .attach ∨ code = .detach ∧ (s.session h).attached = true) : Admitted s h code f := by
  unfold Admitted commonRefusal
  rcases code_is with rfl | ⟨rfl, attached⟩
  · simp [noParams, ReqCode.lengthOk, ReqCode.needsAttachment, ReqCode.needsSupervisor]
  · simp [noParams, attached, ReqCode.lengthOk, ReqCode.needsAttachment, ReqCode.needsSupervisor]

theorem attachAct_detached {h : HostId} {s : State} (ps : List Byte) (detached : (s.session h).attached = false) :
    attachAct h ps s = (openSession h s, ⟨.ok, [countByte s.supervisor.val, 0#8, 0#8, 0#8]⟩) := by
  rw [attachAct, if_neg (by simp [detached])]

theorem attachAct_attached {h : HostId} {s : State} (ps : List Byte) (attached : (s.session h).attached = true) :
    attachAct h ps s = (openSession h (endSession h s), ⟨.ok, [countByte s.supervisor.val, 1#8] ++ freedCounts s h⟩) := by
  rw [attachAct, if_pos attached]

/-- Settles O19. The opening of a session changes the session alone, which decides nothing at the pins. -/
theorem attachOpensASession : Obligations.AttachOpensASession := by
  intro h f s o noParams detached
  have act := attachAct_detached (s := popFrame h s) (frameParams f) detached
  have rest := openSession_keepsRest h (popFrame h s)
  have answered := answeredWithin_of (s := s) f rest ⟨.ok, [countByte s.supervisor.val, 0#8, 0#8, 0#8]⟩
  refine ⟨_, o.exec (attach_admitted noParams (.inl rfl)) act, answered.answered, answered.outside, taken_keepsSettings rest _, ?_, ?_, ?_,
    ?_, ?_, ?_, fun k other => ?_⟩
  · rw [settle_same s (queueReply h f _ (openSession h (popFrame h s))) fun _ => ⟨rfl, rfl⟩]
    rfl
  · rw [settle_routes]
    rfl
  · rw [settle_claims]
    rfl
  · rw [settle_accepted]
    rfl
  · rw [settle_lines]
    rfl
  · rw [taken_session, openSession_session, if_pos rfl]
    rfl
  · rw [taken_session, openSession_session, if_neg (Ne.symm other)]
    rfl

/-! ### The end of a session -/

/-- The host is DETACHED with an empty session record of an epoch, and owns no record. -/
structure Gone (h : HostId) (epoch : Byte) (s : State) : Prop where
  session : s.session h = { Session.reset with epoch := epoch }
  routes : ∀ r rt, s.route? r = some rt → rt.owner ≠ h
  claims : ∀ c cl, s.claim? c = some cl → cl.owner ≠ h

theorem Gone.notServed {h : HostId} {epoch : Byte} {s : State} (gone : Gone h epoch s) : ¬ Serves s h := by
  rintro (attached | ⟨r, rt, route, owner⟩ | ⟨c, cl, claim, owner⟩)
  · rw [gone.session] at attached
    cases attached
  · exact gone.routes r rt route owner
  · exact gone.claims c cl claim owner

/-- The grant checks do nothing for a host that owns no record. -/
theorem gone_checkMoves (h : HostId) (epoch : Byte) : CheckMoves (Gone h epoch) where
  cores gone kept := by
    refine ⟨(session_congr kept.sessions h).trans gone.session, fun r rt route => ?_, fun c cl claim => ?_⟩
    · obtain ⟨x, hx, owner, -, -⟩ := kept.route route
      exact owner ▸ gone.routes r x hx
    · obtain ⟨x, hx, owner, -, -⟩ := kept.claim claim
      exact owner ▸ gone.claims c x hx
  changes := by
    intro s k f gone serves
    refine ⟨?_, gone.routes, gone.claims⟩
    have other : k ≠ h := by
      rintro rfl
      exact gone.notServed serves
    rw [State.updSession_session, if_neg other, gone.session]
  close why gone route live := by
    refine ⟨?_, fun q x hx => ?_, fun c cl claim => ?_⟩
    · rw [closeRoute_session why route live, if_neg (gone.routes _ _ route), gone.session]
    · rw [closeRoute_route? why route live] at hx
      rcases place_cases hx with e | old
      · cases e
        have other := gone.routes _ _ route
        exact other
      · exact gone.routes q x old
    · rw [claim?_congr (closeRoute_claims ..)] at claim
      exact gone.claims c cl claim
  grant := by
    intro s c cl r gone claim _ _
    have other := gone.claims c cl claim
    refine ⟨by rw [grantBase_session, if_neg other, gone.session], fun q x hx => ?_, fun d x hx => ?_⟩
    · rw [grantBase_route?] at hx
      rcases place_cases hx with e | old
      · cases e
        exact other
      · exact gone.routes q x old
    · rw [grantBase_claim? _ _ _ _ claim] at hx
      rcases place_cases hx with e | old
      · cases e
        exact other
      · exact gone.claims d x old

theorem clearHost_gone (h : HostId) (s : State) : Gone h (s.session h).epoch (clearHost h s) :=
  ⟨by rw [clearHost_session, if_pos rfl], fun r _ route => ((clearHost_route?_some s h r).mp route).2,
    fun c _ claim => ((clearHost_claim?_some s h c).mp claim).2⟩

theorem endSession_gone (h : HostId) (s : State) : Gone h (s.session h).epoch (endSession h s) :=
  (gone_checkMoves h _).arbitrate none _ (clearHost_gone h s)

theorem endSession_ended (h : HostId) (s : State) : SessionEnded s (endSession h s) h := by
  have checks := arbitrate_afterChecks none (touchedLines s h) (clearHost h s)
  have gone := endSession_gone h s
  refine ⟨fun r => ?_, fun c => ?_, gone.routes, gone.claims, fun k other => ⟨?_, ?_⟩⟩
  · have route := checks.routes r
    rw [clearHost_routeEntry] at route
    exact route
  · have claim := checks.claims c
    rw [clearHost_claimEntry] at claim
    exact claim
  · rw [endSession, checks.sessions.attached k, clearHost_session, if_neg (Ne.symm other)]
  · rw [endSession, checks.sessions.epoch k, clearHost_session, if_neg (Ne.symm other)]

/-- What the end of a session is seen by: the route table, the claim pool and the sessions of the other hosts. -/
theorem SessionEnded.congr {s t u : State} {h : HostId} (ended : SessionEnded s t h) (routes : ∀ r, u.routeEntry r = t.routeEntry r)
    (claims : ∀ c, u.claimEntry c = t.claimEntry c) (sessions : ∀ k, k ≠ h → u.session k = t.session k) : SessionEnded s u h := by
  refine ⟨fun r => routes r ▸ ended.routes r, fun c => claims c ▸ ended.claims c, fun r rt route => ?_, fun c cl claim => ?_,
    fun k other => sessions k other ▸ ended.others k other⟩
  · rw [State.route?, routes] at route
    exact ended.noRoute r rt route
  · rw [State.claim?, claims] at claim
    exact ended.noClaim c cl claim

/-- Settles O20. The records of the host are freed before the grant checks, which do nothing for a host without records; an ATTACH then opens
a session under the next epoch. -/
theorem attachAndDetachEndTheSession : Obligations.AttachAndDetachEndTheSession := by
  intro h f s attached noParams
  have ended : SessionEnded s (endSession h (popFrame h s)) h := by
    obtain ⟨routes, claims, noRoute, noClaim, others⟩ := endSession_ended h (popFrame h s)
    exact ⟨routes, claims, noRoute, noClaim, others⟩
  have rest := endSession_keepsRest h (popFrame h s)
  have session : (endSession h (popFrame h s)).session h = { Session.reset with epoch := (s.session h).epoch } :=
    (endSession_gone h (popFrame h s)).session
  refine ⟨fun o => ?_, fun o => ?_⟩
  · have opened := rest.trans (openSession_keepsRest h _)
    refine ⟨_, o.exec (attach_admitted noParams (.inl rfl)) (attachAct_attached (s := popFrame h s) (frameParams f) attached),
      answeredWithin_of f opened _, taken_keepsSettings opened _,
      ended.congr (fun r => taken_routeEntry .. |>.trans rfl) (fun c => taken_claimEntry .. |>.trans rfl) fun k other => ?_, ?_⟩
    · rw [taken_session, openSession_session, if_neg (Ne.symm other)]
    · rw [taken_session, openSession_session, if_pos rfl, session]
      rfl
  · exact ⟨_, o.exec (attach_admitted noParams (.inr ⟨rfl, attached⟩)) rfl, answeredWithin_of f rest _, taken_keepsSettings rest _,
      ended.congr (taken_routeEntry _ _ _ _ _) (taken_claimEntry _ _ _ _ _) fun k _ => taken_session .., by rw [taken_session, session]⟩

/-! ### Epochs (R35) -/

/-- Whether each host is ATTACHED, and its epoch. -/
def attachments (s : State) (h : HostId) : Bool × Byte := ((s.session h).attached, (s.session h).epoch)

/-- The records change without a change of attachment or epoch, but that the end of a session detaches its host. -/
theorem attachments_claimMoves {P : (HostId → Bool × Byte) → Prop}
    (detach : ∀ f h, P f → P fun k => if h = k then (false, (f k).2) else f k) : ClaimMoves fun s => P (attachments s) := by
  have same {s t : State} (hold : P (attachments s))
      (e : ∀ k, (t.session k).attached = (s.session k).attached ∧ (t.session k).epoch = (s.session k).epoch) : P (attachments t) := by
    have : attachments t = attachments s := funext fun k => Prod.ext (e k).1 (e k).2
    rwa [this]
  exact {
    cores := fun hold kept => same hold fun k => by rw [session_congr kept.sessions]; exact ⟨rfl, rfl⟩
    changes := fun f hold _ => same hold fun k => by rw [State.updSession_session]; split <;> exact ⟨rfl, rfl⟩
    close := fun why hold route live => same hold fun k => by rw [closeRoute_session why route live]; split <;> exact ⟨rfl, rfl⟩
    grant := fun hold _ _ _ => same hold fun k => by rw [grantBase_session]; split <;> exact ⟨rfl, rfl⟩
    free := fun hold route => same hold fun k => by rw [freeRoute_session route]; split <;> exact ⟨rfl, rfl⟩
    settle := fun hold claim _ => same hold fun k => by rw [freeClaim_session claim]; split <;> exact ⟨rfl, rfl⟩
    drop := fun why _ _ _ hold claim _ => same hold fun k => by rw [dropClaim_session why claim]; split <;> exact ⟨rfl, rfl⟩
    cancel := fun hold claim _ => same hold fun k => by rw [cancelled_session claim]; split <;> exact ⟨rfl, rfl⟩
    listen := fun hold _ _ _ _ => same hold fun k => by rw [createListener_session]; split <;> exact ⟨rfl, rfl⟩
    clear := fun h s hold => by
      have : attachments (clearHost h s) = fun k => if h = k then (false, (attachments s k).2) else attachments s k := by
        funext k
        rw [attachments, clearHost_session]
        split <;> rfl
      rw [this]
      exact detach _ h hold
    accept := fun hold _ _ _ _ => same hold fun k => by rw [accepted_session]; split <;> exact ⟨rfl, rfl⟩ }

theorem epochs_claimMoves (epochs : HostId → Byte) : ClaimMoves fun s => ∀ k, (s.session k).epoch = epochs k :=
  attachments_claimMoves (P := fun f => ∀ k, (f k).2 = epochs k) fun f h hold k => by
    dsimp only
    split <;> exact hold k

theorem attachedEpoch_stepMoves : StepMoves fun s => ∀ k, (s.session k).attached = true → (s.session k).epoch ≠ 0#8 where
  toClaimMoves := attachments_claimMoves (P := fun f => ∀ k, (f k).1 = true → (f k).2 ≠ 0#8) fun f h hold k => by
    dsimp only
    split
    · exact nofun
    · exact hold k
  reset := reset_sessionsSound.epoch
  opens h s hold k := by
    rw [openSession_session]
    split
    · exact fun _ => nextEpoch_ne_zero _
    · exact hold k

theorem nextEpoch_eq (e : Byte) : nextEpoch e = if e = 0#8 ∨ e = 0xFF#8 then 1#8 else e + 1#8 := by
  unfold nextEpoch
  by_cases zero : e = 0#8
  · subst zero
    rfl
  · simp [zero]

/-- After n attaches the epoch of a session has gone n places round the 255 epochs from 1 to 255. -/
theorem nextEpoch_iterate {e : Byte} (inSession : e ≠ 0#8) (n : Nat) :
    (nextEpoch^[n] e).toNat = (e.toNat - 1 + n) % 255 + 1 := by
  induction n with
  | zero =>
    have : e.toNat ≠ 0 := fun zero => inSession (BitVec.eq_of_toNat_eq zero)
    have := e.isLt
    simp only [Function.iterate_zero, id_eq]
    omega
  | succ n ih =>
    rw [Function.iterate_succ_apply', nextEpoch]
    split
    · rename_i last
      rw [last] at ih
      simp at ih ⊢
      omega
    · rename_i other
      have : (nextEpoch^[n] e).toNat ≠ 255 := fun last => other (BitVec.eq_of_toNat_eq last)
      rw [BitVec.toNat_add]
      simp
      omega

/-- Settles O21. The opening of a session alone changes an epoch, to the next one, which is never 0; and 255 attaches go once round. -/
theorem epochRule : Obligations.EpochRule := by
  refine ⟨fun h f s o noParams => ?_, fun c s t step notReset notAttach => ?_, fun c s t step hold => ?_, fun e inSession => ?_⟩
  · have opened : ∃ u a, attachAct h (frameParams f) (popFrame h s) = (openSession h u, a) ∧
        ∀ k, (u.session k).epoch = (s.session k).epoch := by
      by_cases attached : (s.session h).attached = true
      · refine ⟨_, _, attachAct_attached (s := popFrame h s) _ attached, fun k => ?_⟩
        by_cases same : k = h
        · rw [same, (endSession_gone h (popFrame h s)).session]
          rfl
        · exact ((endSession_ended h (popFrame h s)).others k same).2
      · exact ⟨_, _, attachAct_detached (s := popFrame h s) _ (by simpa using attached), fun _ => rfl⟩
    obtain ⟨u, a, act, epochs⟩ := opened
    refine ⟨_, o.exec (attach_admitted noParams (.inl rfl)) act, ?_, fun k other => ?_⟩
    · rw [taken_session, openSession_session, if_pos rfl, ← epochs h]
      exact nextEpoch_eq _
    · rw [taken_session, openSession_session, if_neg (Ne.symm other), epochs]
  · exact (epochs_claimMoves fun k => (s.session k).epoch).exec notReset notAttach (fun _ => rfl) step
  · exact attachedEpoch_stepMoves.exec hold step
  · rw [← funext nextEpoch_eq]
    have around := nextEpoch_iterate inSession 255
    have : e.toNat ≠ 0 := fun zero => inSession (BitVec.eq_of_toNat_eq zero)
    have := e.isLt
    exact BitVec.eq_of_toNat_eq (by omega)

end Sys2Proof.Machine


/-! What each operation does to the line records. -/

namespace Sys2Proof.Machine

/-! ### Folds over lines -/

/-- A change that a second time does nothing more, made at each of some lines. -/
theorem foldl_updLine_line {f : LineRecord → LineRecord} (again : ∀ e, f (f e) = f e) (ls : List LineNo) (s : State) (l : LineNo) :
    (ls.foldl (fun t k => t.updLine k f) s).line l = if l ∈ ls then f (s.line l) else s.line l := by
  induction ls generalizing s with
  | nil => simp
  | cons k ls ih =>
    rw [List.foldl_cons, ih, State.updLine_line]
    by_cases later : l ∈ ls <;> simp [later, eq_comm (a := l), apply_ite f, again]

/-- A change made once at each of some lines. -/
theorem foldl_updLine_line_of_nodup (f : LineRecord → LineRecord) {ls : List LineNo} (once : ls.Nodup) (s : State) (l : LineNo) :
    (ls.foldl (fun t k => t.updLine k f) s).line l = if l ∈ ls then f (s.line l) else s.line l := by
  induction ls generalizing s with
  | nil => simp
  | cons k ls ih =>
    obtain ⟨fresh, once⟩ := List.nodup_cons.mp once
    rw [List.foldl_cons, ih once, State.updLine_line]
    by_cases here : k = l
    · subst here
      simp [fresh]
    · simp [here, Ne.symm here]

section

variable (s : State) (l : LineNo) (c : ClaimSlot) (r : RouteSlot)

theorem leaveQueues_line (ls : List LineNo) : (leaveQueues c ls s).line l =
    if l ∈ ls then { s.line l with queue := (s.line l).queue.filter (· ≠ c) } else s.line l :=
  foldl_updLine_line (f := fun e => { e with queue := e.queue.filter (· ≠ c) }) (fun e => by simp) ls s l

theorem joinQueues_line {ls : List LineNo} (once : ls.Nodup) : (joinQueues c ls s).line l =
    if l ∈ ls then { s.line l with queue := placeInQueue s c (s.line l).queue } else s.line l :=
  foldl_updLine_line_of_nodup (fun e => { e with queue := placeInQueue s c e.queue }) once s l

theorem takeLines_line (ls : List LineNo) : (takeLines r ls s).line l =
    if l ∈ ls then { s.line l with driver := some r } else s.line l :=
  foldl_updLine_line (f := fun e => { e with driver := some r }) (fun _ => rfl) ls s l

theorem loseDriver_line (ls : List LineNo) : (loseDriver r ls s).line l =
    if l ∈ ls ∧ (s.line l).driver = some r then { s.line l with driver := none } else s.line l := by
  rw [loseDriver, foldl_updLine_line (f := fun e => if e.driver = some r then { e with driver := none } else e) ?again]
  · by_cases here : l ∈ ls <;> by_cases drives : (s.line l).driver = some r <;> simp [here, drives]
  case again =>
    intro e
    by_cases drives : e.driver = some r <;> simp [drives]

/-! ### Line states -/

/-- The state that the table gives a line is read off its driver and its queue. -/
theorem lineStateOf_setLineState (k : LineNo) : lineStateOf (setLineState k s) l = lineStateOf s l := by
  have line : ((setLineState k s).line l).driver = (s.line l).driver ∧ ((setLineState k s).line l).queue = (s.line l).queue := by
    rw [setLineState, State.updLine_line]
    split <;> exact ⟨rfl, rfl⟩
  have driver : lineDriver (setLineState k s) l = lineDriver s l := by
    unfold lineDriver
    rw [line.1]
    rfl
  unfold lineStateOf
  rw [driver, line.2]

theorem lineStateOf_setLineStates (ls : List LineNo) : lineStateOf (ls.foldl (fun t k => setLineState k t) s) l = lineStateOf s l :=
  foldl_keeps (fun t => lineStateOf t l) (fun t k => lineStateOf_setLineState t l k) ls s

theorem setLineState_line (k : LineNo) : (setLineState k s).line l =
    if k = l then { s.line l with state := lineStateOf s l } else s.line l := by
  rw [setLineState, State.updLine_line]
  split
  · rename_i same
    rw [same]
  · rfl

theorem setLineStates_line (ls : List LineNo) : (ls.foldl (fun t k => setLineState k t) s).line l =
    if l ∈ ls then { s.line l with state := lineStateOf s l } else s.line l := by
  induction ls generalizing s with
  | nil => simp
  | cons k ls ih =>
    rw [List.foldl_cons, ih, lineStateOf_setLineState, setLineState_line]
    by_cases here : k = l
    · simp [here]
    · simp [here, Ne.symm here]

end

/-! ### Routes that close or are freed -/

section

variable {s : State} {r : RouteSlot} {rt : Route} {c : ClaimSlot} {cl : Claim}

theorem closeRoute_line (why : CloseReason) (route : s.route? r = some rt) (live : rt.live = true) (l : LineNo) :
    (closeRoute why r s).line l =
      if l ∈ linesGivenUp rt ∧ (s.line l).driver = some r then { s.line l with driver := none } else s.line l := by
  simp only [closeRoute, route, live, if_true]
  exact loseDriver_line _ l r _

theorem freeRoute_line (route : s.route? r = some rt) (l : LineNo) : (freeRoute r s).line l =
    if l ∈ linesGivenUp rt ∧ (s.line l).driver = some r then { s.line l with driver := none } else s.line l := by
  simp only [freeRoute, route]
  by_cases live : rt.live = true
  · rw [if_pos live]
    exact loseDriver_line _ l r _
  · have none_given : linesGivenUp rt = [] := by simp [linesGivenUp, live]
    rw [if_neg live, none_given, if_neg fun h => List.not_mem_nil h.1]
    rfl

theorem freeRoute_line_dead (route : s.route? r = some rt) (dead : rt.live = false) (l : LineNo) : (freeRoute r s).line l = s.line l := by
  rw [freeRoute_line route, if_neg (by simp [linesGivenUp, dead])]

/-! ### Claims that leave their queues -/

theorem withdrawClaim_line (s : State) (c : ClaimSlot) (cl : Claim) (l : LineNo) : (withdrawClaim c cl s).line l =
    if l ∈ linesOf cl.members then { s.line l with queue := (s.line l).queue.filter (· ≠ c) } else s.line l :=
  leaveQueues_line s l c _

theorem dropClaim_line (why : DropReason) (claim : s.claim? c = some cl) (l : LineNo) : (dropClaim why c s).line l =
    if l ∈ linesOf cl.members then { s.line l with queue := (s.line l).queue.filter (· ≠ c) } else s.line l := by
  simp only [dropClaim, claim]
  exact withdrawClaim_line s c cl l

theorem cancelled_line (s : State) (c : ClaimSlot) (cl : Claim) (l : LineNo) : (freeClaim c (withdrawClaim c cl s)).line l =
    if l ∈ linesOf cl.members then { s.line l with queue := (s.line l).queue.filter (· ≠ c) } else s.line l := by
  rw [State.line, freeClaim_lines]
  exact withdrawClaim_line s c cl l

/-! ### Claims that join their queues -/

/-- The place of a claim in a queue follows from the claims and the acceptance order. -/
theorem placeInQueue_congr {t : State} (claims : t.claims = s.claims) (accepted : t.accepted = s.accepted) (q : List ClaimSlot) :
    placeInQueue t c q = placeInQueue s c q := by
  have priority (d : ClaimSlot) : claimPriority t d = claimPriority s d := by
    unfold claimPriority
    rw [claim?_congr claims]
  have same (d e : ClaimSlot) : ahead t d e = ahead s d e := by
    rw [ahead, ahead, priority, priority, accepted]
  induction q with
  | nil => rfl
  | cons d q ih => rw [placeInQueue, placeInQueue, same, ih]

theorem acceptClaim_line (h : HostId) (p : ClaimParams) (once : (linesOf p.members).Nodup) (l : LineNo) : (acceptClaim h p c s).line l =
    if l ∈ linesOf p.members then { s.line l with queue := placeInQueue (acceptClaim h p c s) c (s.line l).queue } else s.line l := by
  let t : State := { s.updClaimEntry c fun e => { generation := e.generation + 1#8, claim := some (newClaim h p) } with
    accepted := s.accepted ++ [c] }
  have joined := joinQueues_keeps t c (linesOf p.members)
  have placed : placeInQueue (acceptClaim h p c s) c (s.line l).queue = placeInQueue t c (s.line l).queue :=
    placeInQueue_congr (t := acceptClaim h p c s) (s := t) joined.claims joined.accepted _
  rw [placed]
  exact joinQueues_line t l c once

/-! ### Grants -/

theorem grantBase_line (l : LineNo) : (grantBase c cl r s).line l =
    if l ∈ linesOf cl.members then { s.line l with driver := some r, queue := (s.line l).queue.filter (· ≠ c) } else s.line l := by
  show (leaveQueues c _ (takeLines r _ (takeEntry r (grantedRoute s cl) s))).line l = _
  rw [leaveQueues_line, takeLines_line]
  split <;> rfl

theorem activate_line (route : s.route? r = some rt) (l : LineNo) : (activate r s).line l =
    if l ∈ linesOf rt.members then { s.line l with state := lineStateOf (activate r s) l } else s.line l := by
  simp only [activate, route]
  rw [setLineStates_line, lineStateOf_setLineStates]
  rfl

/-- A grant makes its route the driver of the claim's lines, whose queues the claim leaves, and sets their states. -/
theorem grant_line (own : Option ClaimSlot) (claim : s.claim? c = some cl) (l : LineNo) : (grant own c r s).1.line l =
    if l ∈ linesOf cl.members then
      { state := lineStateOf (grant own c r s).1 l, driver := some r, queue := (s.line l).queue.filter (· ≠ c) }
    else s.line l := by
  obtain ⟨t, u, told, active, e⟩ := grant_cases (own := own) (r := r) claim
  have base : t.line l = (grantBase c cl r s).line l ∧ t.route? r = some (grantedRoute s cl) := by
    rcases told with rfl | rfl
    · exact ⟨rfl, by rw [grantBase_route?, if_pos rfl]⟩
    · refine ⟨rfl, ?_⟩
      show (grantBase c cl r s).route? r = _
      rw [grantBase_route?, if_pos rfl]
  obtain ⟨line, route⟩ := base
  rw [grantBase_line] at line
  have tuned : (activate r t).line l = if l ∈ linesOf cl.members then { t.line l with state := lineStateOf (activate r t) l } else t.line l :=
    activate_line route l
  have activated : (u.line l).driver = (t.line l).driver ∧ (u.line l).queue = (t.line l).queue ∧
      (l ∉ linesOf cl.members → u.line l = t.line l) := by
    rcases active with rfl | rfl | rfl
    · exact ⟨rfl, rfl, fun _ => rfl⟩
    all_goals
      show ((activate r t).line l).driver = _ ∧ ((activate r t).line l).queue = _ ∧ (_ → (activate r t).line l = _)
      rw [tuned]
      split
      · exact ⟨rfl, rfl, fun out => absurd ‹_› out⟩
      · exact ⟨rfl, rfl, fun _ => rfl⟩
  obtain ⟨driver, queue, other⟩ := activated
  rw [e, setLineStates_line, lineStateOf_setLineStates]
  split
  · rename_i member
    rw [if_pos member] at line
    dsimp only
    rw [driver, queue, line]
  · rename_i out
    rw [other out, line, if_neg out]

end

end Sys2Proof.Machine


/-! CANCEL (O37). -/

namespace Sys2Proof.Machine

/-! ### A claim record that is free stays out of queues and change sets -/

/-- The record c is free, and names of it stand neither in the queues of some lines nor in the change set of the host. -/
structure Withdrawn (c : ClaimSlot) (h : HostId) (ls : List LineNo) (s : State) : Prop where
  free : s.claim? c = none
  queues : ∀ l ∈ ls, c ∉ (s.line l).queue
  untold : c ∉ (s.session h).changes.claims

theorem closeRoute_queue (s : State) (r : RouteSlot) (why : CloseReason) (l : LineNo) :
    ((closeRoute why r s).line l).queue = (s.line l).queue := by
  by_cases live : ∃ rt, s.route? r = some rt ∧ rt.live = true
  · obtain ⟨rt, route, live⟩ := live
    rw [closeRoute_line why route live]
    split <;> rfl
  · rw [closeRoute_idle fun rt route => Bool.eq_false_iff.mpr fun l => live ⟨rt, route, l⟩]

theorem withdrawn_moves (c : ClaimSlot) (h : HostId) (ls : List LineNo) :
    ArbiterMoves none fun s t => Withdrawn c h ls s → Withdrawn c h ls t where
  refl _ := id
  trans a b := b ∘ a
  line s l gone := by
    have kept := setLineState_keeps s l
    refine ⟨(claim?_congr kept.claims c).trans gone.free, fun k hk => ?_, session_congr kept.sessions h ▸ gone.untold⟩
    rw [setLineState_line]
    split <;> exact gone.queues k hk
  mark s d b gone := by
    refine ⟨?_, gone.queues, gone.untold⟩
    rw [State.updClaim_claim?]
    split
    · rename_i same
      rw [gone.free]
      rfl
    · exact gone.free
  preempt s r gone := ⟨(claim?_congr (closeRoute_claims ..) c).trans gone.free, fun l hl => closeRoute_queue s r _ l ▸ gone.queues l hl,
    closeRoute_notedClaims s .preempted r h ▸ gone.untold⟩
  grant s d r cl claim waits free gone := by
    have other : d ≠ c := by
      rintro rfl
      cases gone.free.symm.trans claim
    refine ⟨?_, fun l hl => ?_, fun told => ?_⟩
    · rw [State.claim?, grant_claimEntry none claim, if_neg other]
      exact gone.free
    · rw [grant_line none claim]
      split
      · exact fun mem => gone.queues l hl (List.mem_of_mem_filter mem)
      · exact gone.queues l hl
    · rcases (grant_notedClaims none claim r c h).mp told with old | ⟨-, same, -⟩
      · exact gone.untold old
      · exact other same.symm

namespace ArbiterMoves

/-- What holds over each move of the Line Arbiter holds over its part of an event. -/
theorem arbitrate {own : Option ClaimSlot} {R : State → State → Prop} (m : ArbiterMoves own R) (ls : List LineNo) (s : State) :
    R s (arbitrate own ls s) := by
  have checked : R s (match own with
      | none => (Machine.dropDisplaced s, ([] : List LineNo))
      | some c => Machine.grantCheck c (Machine.dropDisplaced s)).1 := by
    cases own with
    | none => exact m.dropDisplaced s
    | some c => exact m.trans (m.dropDisplaced s) (m.grantCheck c _)
  exact m.trans (m.trans checked (m.checkAll checkRounds _ _)) (m.grantAll grantRounds _)

end ArbiterMoves

/-! ### A terminal that is not bound -/

theorem unbound_checkMoves (h : HostId) (n : TermNo) : CheckMoves fun s => BindingsExact s ∧ look (s.session h).bindings n = none where
  cores := fun ⟨exact_, free⟩ kept => ⟨bindingsExact_moves.cores exact_ kept, by rwa [session_congr kept.sessions]⟩
  changes := fun f ⟨exact_, free⟩ serves => by
    refine ⟨bindingsExact_moves.changes f exact_ serves, ?_⟩
    rw [State.updSession_session]
    split <;> exact free
  close := by
    rintro s r rt why ⟨exact_, free⟩ route live
    refine ⟨bindingsExact_moves.close why exact_ route live, ?_⟩
    rw [closeRoute_session why route live]
    split
    · by_cases member : n ∈ rt.members.map (·.terminal)
      · exact clearBindings_member member _
      · exact (clearBindings_other member _).trans free
    · exact free
  grant := by
    rintro s c cl r ⟨exact_, free⟩ claim waits empty
    refine ⟨bindingsExact_moves.grant exact_ claim waits empty, ?_⟩
    rw [grantBase_session]
    split
    · rename_i own
      subst own
      refine (setBindings_other _ 0 _ _ fun m member same => ?_).trans free
      obtain ⟨i, hi⟩ := List.getElem?_of_mem member
      rw [← same, exact_.ofClaim c cl claim waits i m hi] at free
      cases free
    · exact free

/-! ### Counts that grants move but do not change -/

/-- The host's counts are exact, with so many claim records, and so many routes in use and waiting claims together. -/
structure Counted (h : HostId) (records total : Nat) (s : State) : Prop where
  counts : CountsExact s h
  records : (s.session h).claimRecords = records
  total : (s.session h).routesInUse + (s.session h).waitingClaims = total

/-- A WAITING claim is counted. -/
theorem CountsExact.waitingClaims_pos {s : State} {c : ClaimSlot} {cl : Claim} (exact_ : CountsExact s cl.owner) (claim : s.claim? c = some cl)
    (waits : cl.waiting = true) : 0 < (s.session cl.owner).waitingClaims := by
  rw [exact_.waiting, waitingOf_eq]
  exact List.length_pos_of_mem (List.mem_filter.mpr ⟨mem_every c, by simp [holdsWaiting, claim, waits]⟩)

theorem counted_checkMoves (h : HostId) (records total : Nat) : CheckMoves (Counted h records total) where
  cores := by
    rintro s t ⟨counts, records, total⟩ kept
    exact ⟨(countsExact_moves h).cores counts kept, by rwa [session_congr kept.sessions], by rwa [session_congr kept.sessions]⟩
  changes := by
    rintro s k f ⟨counts, records, total⟩ serves
    refine ⟨(countsExact_moves h).changes f counts serves, ?_, ?_⟩ <;> rw [State.updSession_session] <;> split <;> assumption
  close := by
    rintro s r rt why ⟨counts, records, total⟩ route live
    refine ⟨(countsExact_moves h).close why counts route live, ?_, ?_⟩ <;> rw [closeRoute_session why route live] <;> split <;> assumption
  grant := by
    rintro s c cl r ⟨counts, records, total⟩ claim waits empty
    refine ⟨(countsExact_moves h).grant counts claim waits empty, ?_, ?_⟩ <;> rw [grantBase_session] <;> split
    · exact records
    · exact records
    · rename_i own
      subst own
      have counted := counts.waitingClaims_pos claim waits
      dsimp only
      omega
    · exact total

/-- The host has no WAITING claim. -/
def NoneWaiting (h : HostId) (s : State) : Prop := ∀ c cl, s.claim? c = some cl → cl.owner = h → cl.waiting = false

theorem noneWaiting_checkMoves (h : HostId) : CheckMoves (NoneWaiting h) where
  cores none_ kept c cl claim owner := by
    obtain ⟨x, hx, sameOwner, -, waiting⟩ := kept.claim claim
    exact waiting ▸ none_ c x hx (sameOwner.trans owner)
  changes _ none_ _ := none_
  close why none_ _ _ c cl claim owner := none_ c cl (by rwa [claim?_congr (closeRoute_claims ..)] at claim) owner
  grant := by
    intro s c cl r none_ claim waits _ d x hx owner
    rw [grantBase_claim? _ _ _ _ claim] at hx
    rcases place_cases hx with e | old
    · cases e
      rfl
    · exact none_ d x old owner

theorem NoneWaiting.count {h : HostId} {s : State} (none_ : NoneWaiting h s) (exact_ : CountsExact s h) : (s.session h).waitingClaims = 0 := by
  rw [exact_.waiting, waitingOf_eq, List.length_eq_zero_iff, List.filter_eq_nil_iff]
  intro c _ holds
  unfold holdsWaiting at holds
  cases claim : s.claim? c with
  | none => simp [claim] at holds
  | some cl =>
    simp only [claim, Option.any_some, Bool.and_eq_true, decide_eq_true_eq] at holds
    simpa [holds.2] using none_ c cl claim holds.1

/-! ### The block of CANCEL -/

theorem cancelAct_passed {h : HostId} {ps : List Byte} {s : State} {c : ClaimSlot} {gen : Byte} {cl : Claim} (params : claimRef? ps = some (c, gen))
    (named : NamesClaim s c gen cl) (owner : cl.owner = h) (waits : cl.waiting = true) : cancelAct h ps s = cancelClaim c cl s := by
  have found : claimAt? s c gen = some cl := by rw [claimAt?, if_pos named.2, named.1]
  have passed : claimRefRefusal h (some cl) = none := by simp [claimRefRefusal, owner, waits]
  simp only [cancelAct, params, found, passed]

theorem cancelled_claimEntry {s : State} {c : ClaimSlot} {cl : Claim} (claim : s.claim? c = some cl) (d : ClaimSlot) :
    (freeClaim c (withdrawClaim c cl s)).claimEntry d = if c = d then freedRecord (s.claimEntry d) else s.claimEntry d := by
  have same : (withdrawClaim c cl s).claimEntry d = s.claimEntry d := by rw [State.claimEntry, withdrawClaim_claims]; rfl
  rw [freeClaim_claimEntry ((claim?_congr (withdrawClaim_claims ..) c).trans claim), same]
  rfl

theorem cancelled_accepted (s : State) (c : ClaimSlot) (cl : Claim) :
    (freeClaim c (withdrawClaim c cl s)).accepted = s.accepted.filter (· ≠ c) :=
  (freeClaim_accepted ..).trans (withdrawClaim_accepted ..)

/-- A record that is free is free after the grant checks. -/
theorem RecordAfterChecks.of_free {e e' : ClaimEntry} (after : RecordAfterChecks (freedRecord e) e') : e' = freedRecord e := by
  obtain ⟨generation, claim⟩ := after
  cases e'
  simp only [freedRecord] at generation claim ⊢
  rw [generation, claim]

theorem cancelClaim_state (c : ClaimSlot) (cl : Claim) (s : State) : (cancelClaim c cl s).1 =
    arbitrate none (changedHeads s (freeClaim c (withdrawClaim c cl s)) (linesOf cl.members)) (freeClaim c (withdrawClaim c cl s)) := rfl

section

variable {s : State} {c : ClaimSlot} {cl : Claim} (claim : s.claim? c = some cl)
include claim

theorem cancelClaim_withdrawn : Withdrawn c cl.owner (linesOf cl.members) (cancelClaim c cl s).1 := by
  have withdrawn : Withdrawn c cl.owner (linesOf cl.members) (freeClaim c (withdrawClaim c cl s)) := by
    refine ⟨?_, fun l hl => ?_, ?_⟩
    · rw [cancelled_claim? claim, if_pos rfl]
    · rw [cancelled_line, if_pos hl]
      simp
    · rw [cancelled_session claim, if_pos rfl]
      simp
  exact (withdrawn_moves c cl.owner _).arbitrate _ _ withdrawn

theorem cancelClaim_unbound (waits : cl.waiting = true) (exact_ : BindingsExact s) {m : Member} (member : m ∈ cl.members) :
    look ((cancelClaim c cl s).1.session cl.owner).bindings m.terminal = none := by
  have unbound : look ((freeClaim c (withdrawClaim c cl s)).session cl.owner).bindings m.terminal = none := by
    rw [cancelled_session claim, if_pos rfl]
    exact clearBindings_member (List.mem_map.mpr ⟨m, member, rfl⟩) _
  have after := (unbound_checkMoves cl.owner m.terminal).arbitrate none (changedHeads s (freeClaim c (withdrawClaim c cl s)) (linesOf cl.members))
    ⟨bindingsExact_moves.cancel exact_ claim waits, unbound⟩
  exact after.2

theorem cancelClaim_counts (waits : cl.waiting = true) (counts : CountsExact s cl.owner) :
    ((cancelClaim c cl s).1.session cl.owner).claimRecords + 1 = (s.session cl.owner).claimRecords ∧
      ((cancelClaim c cl s).1.session cl.owner).routesInUse + ((cancelClaim c cl s).1.session cl.owner).waitingClaims + 1 =
        (s.session cl.owner).routesInUse + (s.session cl.owner).waitingClaims ∧
      ((∀ d x, d ≠ c → s.claim? d = some x → x.owner = cl.owner → x.waiting = false) →
        ((cancelClaim c cl s).1.session cl.owner).waitingClaims + 1 = (s.session cl.owner).waitingClaims) := by
  have some_waits := counts.waitingClaims_pos claim waits
  have some_record : 0 < (s.session cl.owner).claimRecords := by
    rw [counts.records, claimsOf_eq]
    exact List.length_pos_of_mem (List.mem_filter.mpr ⟨mem_every c, by simp [holdsClaim, claim]⟩)
  have exact_ : CountsExact (freeClaim c (withdrawClaim c cl s)) cl.owner := (countsExact_moves cl.owner).cancel counts claim waits
  obtain ⟨after, records, total⟩ := (counted_checkMoves cl.owner _ _).arbitrate none
    (changedHeads s (freeClaim c (withdrawClaim c cl s)) (linesOf cl.members)) ⟨exact_, rfl, rfl⟩
  rw [cancelled_session claim, if_pos rfl] at records total
  dsimp only at records total
  rw [cancelClaim_state]
  refine ⟨by omega, by omega, fun alone => ?_⟩
  · have none_ : NoneWaiting cl.owner (freeClaim c (withdrawClaim c cl s)) := by
      intro d x hx own
      rw [cancelled_claim? claim] at hx
      split at hx
      · cases hx
      · rename_i other
        exact alone d x (Ne.symm other) hx own
    have none_before := none_.count exact_
    have none_after := ((noneWaiting_checkMoves cl.owner).arbitrate none
      (changedHeads s (freeClaim c (withdrawClaim c cl s)) (linesOf cl.members)) none_).count after
    rw [cancelled_session claim, if_pos rfl] at none_before
    dsimp only at none_before
    omega

end

theorem claimRef?_bytes (c : ClaimSlot) (gen : Byte) : claimRef? [BitVec.ofNat 8 c.val, gen] = some (c, gen) := by
  rw [claimRef?, below?_ofNat c (by decide)]
  rfl

/-- Settles O37. The record is freed and the claim withdrawn before the grant checks, which place no name of a free record anywhere and
bind no terminal but those that a WAITING claim holds; a grant moves one from the waiting claims to the routes in use. -/
theorem cancelFreesTheClaim : Obligations.CancelFreesTheClaim := by
  intro h f s c gen cl o ad params named owner waits
  subst owner
  have claim : (popFrame cl.owner s).claim? c = some cl := named.1
  have act : cancelAct cl.owner (frameParams f) (popFrame cl.owner s) =
      ((cancelClaim c cl (popFrame cl.owner s)).1, ⟨.ok, []⟩) :=
    cancelAct_passed (by rw [params]; exact claimRef?_bytes c gen) named rfl waits
  have rest : KeepsRest (popFrame cl.owner s) (cancelClaim c cl (popFrame cl.owner s)).1 := by
    have := cancelAct_keepsRest cl.owner (frameParams f) (popFrame cl.owner s)
    rwa [act] at this
  have checks : AfterChecks (freeClaim c (withdrawClaim c cl (popFrame cl.owner s))) (cancelClaim c cl (popFrame cl.owner s)).1 := by
    rw [cancelClaim_state]
    exact arbitrate_afterChecks ..
  have gone := cancelClaim_withdrawn claim
  refine ⟨_, o.exec ad act, answeredWithin_of f rest _, taken_keepsSettings rest _, ?_, ?_, fun m member => ?_, ?_, fun exact_ m member => ?_,
    fun counts => ?_, fun d other => ?_, fun r => ?_, fun k => ?_⟩
  · rw [taken_claimEntry]
    have after := checks.claims c
    rw [cancelled_claimEntry claim, if_pos rfl] at after
    exact after.of_free
  · rw [taken_accepted]
    refine fun mem => ?_
    have mem := checks.accepted.subset mem
    rw [cancelled_accepted] at mem
    simp at mem
  · rw [taken_line]
    exact gone.queues m.line (List.mem_map_of_mem member)
  · rw [taken_session]
    exact gone.untold
  · rw [taken_session]
    exact cancelClaim_unbound claim waits (exact_.congr (fun _ => rfl) fun _ => rfl) member
  · rw [taken_session]
    exact cancelClaim_counts claim waits (counts.of_same ⟨rfl, rfl, rfl⟩ rfl rfl rfl)
  · rw [taken_claimEntry]
    have after := checks.claims d
    rwa [cancelled_claimEntry claim, if_neg (Ne.symm other)] at after
  · rw [taken_routeEntry]
    have after := checks.routes r
    rwa [State.routeEntry, cancelled_routes] at after
  · rw [taken_session, checks.sessions.attached, checks.sessions.epoch, cancelled_session claim]
    split <;> exact ⟨rfl, rfl⟩

end Sys2Proof.Machine


/-! The line records beside the live DRIVER routes and the WAITING claims: what the invariant of O57 asks while lines are still to be
checked. -/

namespace Sys2Proof.Machine

/-! ### Live DRIVER routes and WAITING claims -/

/-- The route in an entry, while it is live and drives its lines. -/
def drives (s : State) (r : RouteSlot) : Option Route := (s.route? r).filter fun rt => rt.live && rt.isDriver

/-- The claim in a record, while it is WAITING. -/
def waits (s : State) (c : ClaimSlot) : Option Claim := (s.claim? c).filter Claim.waiting

section

variable {s t : State} {r : RouteSlot} {rt : Route} {c : ClaimSlot} {cl : Claim} {l : LineNo}

theorem drives_some : drives s r = some rt ↔ s.route? r = some rt ∧ rt.live = true ∧ rt.isDriver = true := by
  rw [drives, Option.filter_eq_some_iff, Bool.and_eq_true]

theorem waits_some : waits s c = some cl ↔ s.claim? c = some cl ∧ cl.waiting = true := Option.filter_eq_some_iff

theorem lineDriver_some : lineDriver s l = some (r, rt) ↔ (s.line l).driver = some r ∧ drives s r = some rt := by
  rw [drives_some]
  refine ⟨fun h => ⟨(lineDriver_route h).1, (lineDriver_route h).2⟩, fun ⟨driver, route, live, isDriver⟩ => ?_⟩
  simp [lineDriver, driver, route, live, isDriver]

/-- How a driver's route stands on its lines: as what, with which members, and whether it is ACTIVE. -/
def Route.view (rt : Route) : RouteKind × List Member × Bool := (rt.kind, rt.members, rt.active)

/-- How a claim stands in its queues: at which priority, with which members, and whether it awaits an entry. -/
def Claim.view (cl : Claim) : Priority × List Member × Bool := (cl.priority, cl.members, cl.awaiting)

/-- What of a route or claim the lines and queues follow. -/
def Route.face (rt : Route) : RouteKind × List Member := (rt.kind, rt.members)

def Claim.face (cl : Claim) : Priority × List Member := (cl.priority, cl.members)

end

/-! ### Lines, queues and acceptance order in agreement with the records -/

/-- The acceptance order, the drivers and the queues are those of the live DRIVER routes and WAITING claims. -/
structure LinesSound (s : State) : Prop where
  once : s.accepted.Nodup
  accepted : ∀ c, c ∈ s.accepted ↔ ∃ cl, waits s c = some cl
  routeMembers : ∀ r rt, s.route? r = some rt → MembersSound rt.members
  claimMembers : ∀ c cl, s.claim? c = some cl → MembersSound cl.members
  driver : ∀ l r, (s.line l).driver = some r ↔ ∃ rt, drives s r = some rt ∧ l ∈ linesOf rt.members
  queue : ∀ l c, c ∈ (s.line l).queue ↔ ∃ cl, waits s c = some cl ∧ l ∈ linesOf cl.members
  order : ∀ l, (s.line l).queue.Pairwise fun c d => ahead s c d = true

namespace LinesSound

variable {s t : State} {r : RouteSlot} {rt : Route} {c : ClaimSlot} {cl : Claim} {l : LineNo}

theorem lineDriver_some (sound : LinesSound s) : lineDriver s l = some (r, rt) ↔ drives s r = some rt ∧ l ∈ linesOf rt.members := by
  rw [Machine.lineDriver_some, sound.driver]
  constructor
  · rintro ⟨⟨x, hx, member⟩, driver⟩
    cases hx.symm.trans driver
    exact ⟨driver, member⟩
  · rintro ⟨driver, member⟩
    exact ⟨⟨rt, driver, member⟩, driver⟩

theorem lineDriver_none (sound : LinesSound s) : lineDriver s l = none ↔ (s.line l).driver = none := by
  constructor
  · intro h
    cases driver : (s.line l).driver with
    | none => rfl
    | some r =>
      obtain ⟨rt, drives, -⟩ := (sound.driver l r).mp driver
      rw [Machine.lineDriver_some.mpr ⟨driver, drives⟩] at h
      cases h
  · intro h
    rw [lineDriver, h]

/-- A claim at the head of a queue waits, and names the line. -/
theorem head_waits (sound : LinesSound s) (head : queueHead s l = some c) : ∃ cl, waits s c = some cl ∧ l ∈ linesOf cl.members :=
  (sound.queue l c).mp (List.mem_of_head? head)

end LinesSound

theorem headsAll_iff {s : State} {c : ClaimSlot} {ls : List LineNo} : headsAll s c ls = true ↔ ∀ l ∈ ls, queueHead s l = some c := by
  simp [headsAll]

theorem driversOn_eq_nil {s : State} {ls : List LineNo} : driversOn s ls = [] ↔ ∀ l ∈ ls, lineDriver s l = none := by
  simp [driversOn, List.filterMap_eq_nil_iff]

theorem mem_driversOn {s : State} {ls : List LineNo} {p : RouteSlot × Route} : p ∈ driversOn s ls ↔ ∃ l ∈ ls, lineDriver s l = some p := by
  simp [driversOn]

/-! ### The order of acceptance -/

theorem idxOf_filter_lt {α : Type} [BEq α] [LawfulBEq α] {p : α → Bool} {xs : List α} {a b : α} (ha : p a = true) (hb : p b = true) :
    (xs.filter p).idxOf a < (xs.filter p).idxOf b ↔ xs.idxOf a < xs.idxOf b := by
  induction xs with
  | nil => simp
  | cons x xs ih =>
    by_cases keeps : p x = true
    · rw [List.filter_cons_of_pos keeps]
      simp only [List.idxOf_cons]
      cases x == a <;> cases x == b <;> simp [ih]
    · rw [List.filter_cons_of_neg keeps, ih]
      have other (y : α) (hy : p y = true) : (x == y) = false := beq_eq_false_iff_ne.mpr fun e => keeps (e ▸ hy)
      simp [List.idxOf_cons, other a ha, other b hb]

/-- Of two different claims that are accepted, one was accepted first. -/
theorem idxOf_ne {xs : List ClaimSlot} {a b : ClaimSlot} (ha : a ∈ xs) (ne : a ≠ b) : xs.idxOf a ≠ xs.idxOf b :=
  fun e => ne ((List.idxOf_inj ha).mp e)

/-- The priority of a WAITING claim and its place in the acceptance order. -/
theorem claimPriority_of_waits {s : State} {c : ClaimSlot} {cl : Claim} (h : waits s c = some cl) : claimPriority s c = cl.priority := by
  rw [claimPriority, (waits_some.mp h).1]

theorem ahead_iff {s : State} {c d : ClaimSlot} : ahead s c d = true ↔
    claimPriority s d < claimPriority s c ∨ (claimPriority s d = claimPriority s c ∧ s.accepted.idxOf c < s.accepted.idxOf d) := by
  simp [ahead]

theorem ahead_trans {s : State} {c d e : ClaimSlot} (a : ahead s c d = true) (b : ahead s d e = true) : ahead s c e = true := by
  rw [ahead_iff] at *
  rcases a with a | ⟨pa, a⟩ <;> rcases b with b | ⟨pb, b⟩
  · exact .inl (b.trans a)
  · exact .inl (pb ▸ a)
  · exact .inl (pa ▸ b)
  · exact .inr ⟨pb.trans pa, a.trans b⟩

theorem ahead_total {s : State} {c d : ClaimSlot} (accepted : c ∈ s.accepted) (ne : c ≠ d) (not : ¬ ahead s c d = true) :
    ahead s d c = true := by
  rw [ahead_iff] at not ⊢
  have distinct := idxOf_ne accepted ne
  rcases lt_trichotomy (claimPriority s c) (claimPriority s d) with lt | eq | gt
  · exact .inl lt
  · refine .inr ⟨eq, ?_⟩
    have : ¬ s.accepted.idxOf c < s.accepted.idxOf d := fun lt => not (.inr ⟨eq.symm, lt⟩)
    omega
  · exact absurd (.inl gt) not

theorem mem_placeInQueue {s : State} {c d : ClaimSlot} {q : List ClaimSlot} : d ∈ placeInQueue s c q ↔ d = c ∨ d ∈ q := by
  induction q with
  | nil => simp [placeInQueue]
  | cons e q ih =>
    rw [placeInQueue]
    split
    · simp
    · rw [List.mem_cons, ih, List.mem_cons]
      exact or_left_comm

/-- A claim finds its place in an ordered queue. -/
theorem placeInQueue_pairwise {s : State} {c : ClaimSlot} {q : List ClaimSlot} (accepted : c ∈ s.accepted) (fresh : c ∉ q)
    (ordered : q.Pairwise fun d e => ahead s d e = true) : (placeInQueue s c q).Pairwise fun d e => ahead s d e = true := by
  induction q with
  | nil => simp [placeInQueue]
  | cons d q ih =>
    obtain ⟨first, rest⟩ := List.pairwise_cons.mp ordered
    obtain ⟨ne, fresh⟩ := not_or.mp (mt List.mem_cons.mpr fresh)
    rw [placeInQueue]
    split
    · rename_i before
      refine List.pairwise_cons.mpr ⟨fun e mem => ?_, ordered⟩
      rcases List.mem_cons.mp mem with rfl | later
      · exact before
      · exact ahead_trans before (first e later)
    · rename_i after
      refine List.pairwise_cons.mpr ⟨fun e mem => ?_, ih fresh rest⟩
      rcases mem_placeInQueue.mp mem with rfl | later
      · exact ahead_total accepted ne after
      · exact first e later

/-! ### Records that go, and claims that find a new place -/

/-- Two WAITING claims stand to each other as before, if their priorities and their order of acceptance do. -/
theorem ahead_congr {s t : State} {c d : ClaimSlot} (hc : (waits t c).map Claim.face = (waits s c).map Claim.face)
    (hd : (waits t d).map Claim.face = (waits s d).map Claim.face) (c_waits : ∃ cl, waits s c = some cl) (d_waits : ∃ cl, waits s d = some cl)
    (order : t.accepted.idxOf c < t.accepted.idxOf d ↔ s.accepted.idxOf c < s.accepted.idxOf d) : ahead t c d = true ↔ ahead s c d = true := by
  have same {e : ClaimSlot} (he : (waits t e).map Claim.face = (waits s e).map Claim.face) (e_waits : ∃ cl, waits s e = some cl) :
      claimPriority t e = claimPriority s e := by
    obtain ⟨x, hx⟩ := e_waits
    rw [hx, Option.map_some] at he
    obtain ⟨y, hy, face⟩ := Option.map_eq_some_iff.mp he
    rw [claimPriority_of_waits hx, claimPriority_of_waits hy]
    exact congrArg Prod.fst face
  rw [ahead_iff, ahead_iff, same hc c_waits, same hd d_waits, order]

theorem exists_of_face {α β : Type} {f : α → β} {a b : Option α} (e : a.map f = b.map f) {P : β → Prop} :
    (∃ x, a = some x ∧ P (f x)) ↔ ∃ x, b = some x ∧ P (f x) := by
  have each (o : Option α) : (∃ x, o = some x ∧ P (f x)) ↔ ∃ y, o.map f = some y ∧ P y := by
    cases o <;> simp
  rw [each, each, e]

/-- Some routes stop driving and some claims stop waiting; what stays, stays as it was. -/
theorem LinesSound.remove {s t : State} (sound : LinesSound s) (p : ClaimSlot → Bool) (q : RouteSlot → Bool)
    (accepted : t.accepted = s.accepted.filter p) (queue : ∀ l, (t.line l).queue = (s.line l).queue.filter p)
    (driver : ∀ l, (t.line l).driver = (s.line l).driver.filter q)
    (claims : ∀ c, (waits t c).map Claim.face = if p c then (waits s c).map Claim.face else none)
    (routes : ∀ r, (drives t r).map Route.face = if q r then (drives s r).map Route.face else none)
    (routeMembers : ∀ r rt, t.route? r = some rt → MembersSound rt.members)
    (claimMembers : ∀ c cl, t.claim? c = some cl → MembersSound cl.members) : LinesSound t := by
  have claim (c : ClaimSlot) (P : Priority × List Member → Prop) :
      (∃ cl, waits t c = some cl ∧ P cl.face) ↔ p c = true ∧ ∃ cl, waits s c = some cl ∧ P cl.face := by
    have e := claims c
    by_cases keeps : p c = true
    · rw [if_pos keeps] at e
      rw [exists_of_face e, and_iff_right keeps]
    · rw [if_neg keeps, Option.map_eq_none_iff] at e
      simp [e, keeps]
  have route (r : RouteSlot) (P : RouteKind × List Member → Prop) :
      (∃ rt, drives t r = some rt ∧ P rt.face) ↔ q r = true ∧ ∃ rt, drives s r = some rt ∧ P rt.face := by
    have e := routes r
    by_cases keeps : q r = true
    · rw [if_pos keeps] at e
      rw [exists_of_face e, and_iff_right keeps]
    · rw [if_neg keeps, Option.map_eq_none_iff] at e
      simp [e, keeps]
  refine ⟨accepted ▸ sound.once.filter p, fun c => ?_, routeMembers, claimMembers, fun l r => ?_, fun l c => ?_, fun l => ?_⟩
  · have := claim c fun _ => True
    simp only [and_true] at this
    rw [this, accepted, List.mem_filter, sound.accepted, and_comm]
  · have := route r fun f => l ∈ linesOf f.2
    rw [driver, Option.filter_eq_some_iff, sound.driver, and_comm]
    exact this.symm
  · have := claim c fun f => l ∈ linesOf f.2
    rw [queue, List.mem_filter, sound.queue, and_comm]
    exact this.symm
  · rw [queue]
    refine ((sound.order l).filter p).imp_of_mem fun {c d} hc hd ordered => ?_
    obtain ⟨c_in, c_keeps⟩ := List.mem_filter.mp hc
    obtain ⟨d_in, d_keeps⟩ := List.mem_filter.mp hd
    have c_waits := (sound.queue l c).mp c_in
    have d_waits := (sound.queue l d).mp d_in
    refine (ahead_congr (by rw [claims, if_pos c_keeps]) (by rw [claims, if_pos d_keeps]) ⟨_, c_waits.choose_spec.1⟩
      ⟨_, d_waits.choose_spec.1⟩ ?_).mpr ordered
    rw [accepted]
    exact idxOf_filter_lt c_keeps d_keeps

/-- A claim comes to wait, or waits at another priority, and finds its place in the queues of its lines. -/
theorem LinesSound.place {s t : State} (sound : LinesSound s) {c : ClaimSlot} {cl : Claim} (waiting : waits t c = some cl)
    (once : t.accepted.Nodup) (accepted : ∀ d, d ∈ t.accepted ↔ d = c ∨ d ∈ s.accepted)
    (order : ∀ d e, d ≠ c → e ≠ c → d ∈ s.accepted → e ∈ s.accepted →
      (t.accepted.idxOf d < t.accepted.idxOf e ↔ s.accepted.idxOf d < s.accepted.idxOf e))
    (moved : ∀ x, waits s c = some x → x.members = cl.members)
    (queue : ∀ l, (t.line l).queue =
      if l ∈ linesOf cl.members then placeInQueue t c ((s.line l).queue.filter (· ≠ c)) else (s.line l).queue)
    (driver : ∀ l, (t.line l).driver = (s.line l).driver)
    (claims : ∀ d, d ≠ c → (waits t d).map Claim.face = (waits s d).map Claim.face)
    (routes : ∀ r, (drives t r).map Route.face = (drives s r).map Route.face)
    (routeMembers : ∀ r rt, t.route? r = some rt → MembersSound rt.members)
    (claimMembers : ∀ c cl, t.claim? c = some cl → MembersSound cl.members) : LinesSound t := by
  have others (d : ClaimSlot) (ne : d ≠ c) (P : Priority × List Member → Prop) :
      (∃ x, waits t d = some x ∧ P x.face) ↔ ∃ x, waits s d = some x ∧ P x.face := exists_of_face (claims d ne)
  have c_absent {l : LineNo} (out : l ∉ linesOf cl.members) : c ∉ (s.line l).queue := fun mem => by
    obtain ⟨x, hx, member⟩ := (sound.queue l c).mp mem
    exact out (moved x hx ▸ member)
  have still {l : LineNo} {d e : ClaimSlot} (hd : d ∈ (s.line l).queue) (he : e ∈ (s.line l).queue) (d_ne : d ≠ c) (e_ne : e ≠ c)
      (ordered : ahead s d e = true) : ahead t d e = true := by
    obtain ⟨x, hx, -⟩ := (sound.queue l d).mp hd
    obtain ⟨y, hy, -⟩ := (sound.queue l e).mp he
    exact (ahead_congr (claims d d_ne) (claims e e_ne) ⟨x, hx⟩ ⟨y, hy⟩
      (order d e d_ne e_ne ((sound.accepted d).mpr ⟨x, hx⟩) ((sound.accepted e).mpr ⟨y, hy⟩))).mpr ordered
  refine ⟨once, fun d => ?_, routeMembers, claimMembers, fun l r => ?_, fun l d => ?_, fun l => ?_⟩
  · by_cases same : d = c
    · subst same
      exact ⟨fun _ => ⟨cl, waiting⟩, fun _ => (accepted d).mpr (.inl rfl)⟩
    · have := others d same fun _ => True
      simp only [and_true] at this
      rw [accepted, or_iff_right same, sound.accepted, this]
  · rw [driver, sound.driver]
    exact (exists_of_face (P := fun f => l ∈ linesOf f.2) (routes r)).symm
  · have mem : d ∈ (t.line l).queue ↔ (d = c ∧ l ∈ linesOf cl.members) ∨ (d ≠ c ∧ d ∈ (s.line l).queue) := by
      rw [queue]
      split
      · rename_i member
        rw [mem_placeInQueue, List.mem_filter]
        simp [member, and_comm]
      · rename_i out
        have := c_absent out
        refine ⟨fun h => .inr ⟨fun e => this (e ▸ h), h⟩, fun h => ?_⟩
        rcases h with ⟨-, member⟩ | ⟨-, h⟩
        · exact absurd member out
        · exact h
    rw [mem]
    by_cases same : d = c
    · subst same
      simp [waiting]
    · rw [or_iff_right fun h => same h.1, and_iff_right same, sound.queue]
      exact (others d same fun f => l ∈ linesOf f.2).symm
  · rw [queue]
    split
    · refine placeInQueue_pairwise ((accepted c).mpr (.inl rfl)) (by simp) ?_
      refine ((sound.order l).filter _).imp_of_mem fun {d e} hd he ordered => ?_
      obtain ⟨hd, d_ne⟩ := List.mem_filter.mp hd
      obtain ⟨he, e_ne⟩ := List.mem_filter.mp he
      exact still hd he (by simpa using d_ne) (by simpa using e_ne) ordered
    · rename_i out
      have absent := c_absent out
      exact (sound.order l).imp_of_mem fun {d e} hd he ordered =>
        still hd he (fun same => absent (same ▸ hd)) (fun same => absent (same ▸ he)) ordered

/-! ### Lines that are still to be checked -/

/-- A WAITING claim heads all its queues, and the grant check would mark it or let it preempt (R89, R91). -/
def Overlooked (s : State) (c : ClaimSlot) (cl : Claim) : Prop :=
  (∀ l ∈ linesOf cl.members, queueHead s l = some c) ∧
    ((driversOn s (linesOf cl.members) = [] ∧ cl.awaiting = false) ∨
      (driversOn s (linesOf cl.members) ≠ [] ∧ cl.priority = 3 ∧ ∀ p ∈ driversOn s (linesOf cl.members), p.2.preemptible = true))

/-- The lines agree with the records but for the states of the lines handed on, and no claim that awaits an entry finds a driver; if no
claim was overlooked before the event (G), one that is overlooked is among some claims or has a line among those handed on. -/
structure Handed (G : Prop) (own : List ClaimSlot) (ls : List LineNo) (s : State) : Prop where
  sound : LinesSound s
  marks : ∀ c cl, waits s c = some cl → cl.awaiting = true → ∀ l ∈ linesOf cl.members, lineDriver s l = none
  states : ∀ l, l ∉ ls → (s.line l).state = lineStateOf s l
  listed : G → ∀ c cl, waits s c = some cl → Overlooked s c cl → c ∈ own ∨ ∃ l ∈ linesOf cl.members, l ∈ ls

/-- Every claim that awaits an entry heads all its queues (R102). -/
def AwaitingHead (s : State) : Prop :=
  ∀ c cl, waits s c = some cl → cl.awaiting = true → ∀ l ∈ linesOf cl.members, queueHead s l = some c

theorem LinesAgree.sound {s : State} (agree : LinesAgree s) : LinesSound s where
  once := agree.accepted.once
  accepted c := by
    rw [agree.accepted.waiting]
    exact exists_congr fun cl => waits_some.symm
  routeMembers := agree.routeMembers
  claimMembers := agree.claimMembers
  driver l r := by
    constructor
    · intro driver
      obtain ⟨rt, route, live, isDriver, member⟩ := agree.driver l r driver
      exact ⟨rt, drives_some.mpr ⟨route, live, isDriver⟩, member⟩
    · rintro ⟨rt, driver, member⟩
      obtain ⟨route, live, isDriver⟩ := drives_some.mp driver
      exact agree.driven r rt route live isDriver l member
  queue l c := by
    rw [agree.queue]
    refine exists_congr fun cl => ?_
    rw [waits_some, and_assoc]
  order := agree.order

theorem LinesAgree.awaitingHead {s : State} (agree : LinesAgree s) : AwaitingHead s := fun c cl waiting awaits =>
  headsAll_iff.mp (agree.awaiting c cl (waits_some.mp waiting).1 (waits_some.mp waiting).2 awaits).1

theorem grantsChecked_iff {s : State} : GrantsChecked s ↔ ∀ c cl, waits s c = some cl → ¬ Overlooked s c cl := by
  constructor
  · rintro ⟨free, preempting⟩ c cl waiting ⟨heads, ⟨none_, unmarked⟩ | ⟨some_, three, each⟩⟩
    · obtain ⟨claim, waiting⟩ := waits_some.mp waiting
      rw [free c cl claim waiting (headsAll_iff.mpr heads) none_] at unmarked
      cases unmarked
    · obtain ⟨claim, waiting⟩ := waits_some.mp waiting
      obtain ⟨p, mem, firm⟩ := preempting c cl claim waiting (headsAll_iff.mpr heads) three some_
      rw [each p mem] at firm
      cases firm
  · intro none_
    refine ⟨fun c cl claim waiting heads free => ?_, fun c cl claim waiting heads three some_ => ?_⟩
    · by_contra unmarked
      exact none_ c cl (waits_some.mpr ⟨claim, waiting⟩) ⟨headsAll_iff.mp heads, .inl ⟨free, by simpa using unmarked⟩⟩
    · by_contra firm
      refine none_ c cl (waits_some.mpr ⟨claim, waiting⟩) ⟨headsAll_iff.mp heads, .inr ⟨some_, three, fun p mem => ?_⟩⟩
      by_contra hp
      exact firm ⟨p, mem, by simpa using hp⟩

/-- Before an event no line is to be checked. -/
theorem LinesAgree.handed {s : State} (agree : LinesAgree s) (own : List ClaimSlot) : Handed (GrantsChecked s) own [] s where
  sound := agree.sound
  marks c cl waiting awaits :=
    driversOn_eq_nil.mp (agree.awaiting c cl (waits_some.mp waiting).1 (waits_some.mp waiting).2 awaits).2
  states l _ := agree.state l
  listed checked c cl waiting overlooked := absurd overlooked (grantsChecked_iff.mp checked c cl waiting)

namespace Handed

variable {G : Prop} {own : List ClaimSlot} {ls : List LineNo} {s : State}

/-- When no line is left to check, the invariant holds again. -/
theorem agree (h : Handed G [] [] s) (heads : AwaitingHead s) : LinesAgree s where
  accepted := ⟨h.sound.once, fun c => (h.sound.accepted c).trans (exists_congr fun cl => waits_some)⟩
  routeMembers := h.sound.routeMembers
  claimMembers := h.sound.claimMembers
  driver l r driver := by
    obtain ⟨rt, driver, member⟩ := (h.sound.driver l r).mp driver
    obtain ⟨route, live, isDriver⟩ := drives_some.mp driver
    exact ⟨rt, route, live, isDriver, member⟩
  driven r rt route live isDriver l member := (h.sound.driver l r).mpr ⟨rt, drives_some.mpr ⟨route, live, isDriver⟩, member⟩
  queue l c := by
    rw [h.sound.queue]
    refine exists_congr fun cl => ?_
    rw [waits_some, and_assoc]
  order := h.sound.order
  awaiting c cl claim waiting awaits :=
    have waiting := waits_some.mpr ⟨claim, waiting⟩
    ⟨headsAll_iff.mpr (heads c cl waiting awaits), driversOn_eq_nil.mpr (h.marks c cl waiting awaits)⟩
  state l := h.states l (List.not_mem_nil)

theorem checked (h : Handed G [] [] s) (g : G) : GrantsChecked s := grantsChecked_iff.mpr fun c cl waiting overlooked => by
  rcases h.listed g c cl waiting overlooked with e | ⟨l, -, mem⟩
  · cases e
  · cases mem

/-- More lines may be handed on than need to be. -/
theorem mono {ls' : List LineNo} (h : Handed G own ls s) (sub : ls ⊆ ls') : Handed G own ls' s :=
  ⟨h.sound, h.marks, fun l out => h.states l fun mem => out (sub mem), fun g c cl waiting overlooked =>
    (h.listed g c cl waiting overlooked).imp_right fun ⟨l, member, mem⟩ => ⟨l, member, sub mem⟩⟩

end Handed

end Sys2Proof.Machine


/-! What the operations that close, free, drop or withdraw records hand on. -/

namespace Sys2Proof.Machine

/-! ### Lines that look the same -/

/-- A line has the same queue head, and a driver of the same kind or none. -/
structure SameFront (s t : State) (l : LineNo) : Prop where
  head : queueHead t l = queueHead s l
  driver : (lineDriver t l).map (·.2.kind) = (lineDriver s l).map (·.2.kind)

/-- The driver is moreover ACTIVE or not as before, and the line's state is the same. -/
structure SameAt (s t : State) (l : LineNo) : Prop extends SameFront s t l where
  active : (lineDriver t l).map (·.2.active) = (lineDriver s l).map (·.2.active)
  state : (t.line l).state = (s.line l).state

section

variable {s t : State} {l : LineNo}

theorem lineDriver_eq (s : State) (l : LineNo) : lineDriver s l = (s.line l).driver.bind fun r => (drives s r).map fun rt => (r, rt) := by
  cases h : lineDriver s l with
  | some x =>
    obtain ⟨driver, drives⟩ := lineDriver_some.mp h
    simp [driver, drives]
  | none =>
    symm
    rw [Option.bind_eq_none_iff]
    intro r driver
    rw [Option.map_eq_none_iff]
    by_contra drives
    obtain ⟨rt, drives⟩ := Option.ne_none_iff_exists'.mp drives
    rw [lineDriver_some.mpr ⟨driver, drives⟩] at h
    cases h

theorem queueHead_none : queueHead s l = none ↔ (s.line l).queue.isEmpty = true := by
  rw [queueHead, List.head?_eq_none_iff, List.isEmpty_iff]

theorem lineStateOf_congr (head : queueHead t l = queueHead s l)
    (driver : (lineDriver t l).map (fun x => x.2.active) = (lineDriver s l).map fun x => x.2.active) :
    lineStateOf t l = lineStateOf s l := by
  have empty : (t.line l).queue.isEmpty = (s.line l).queue.isEmpty := by
    rw [Bool.eq_iff_iff, ← queueHead_none, ← queueHead_none, head]
  unfold lineStateOf
  rw [empty]
  cases hs : lineDriver s l <;> cases ht : lineDriver t l <;> simp_all

theorem SameAt.lineStateOf (same : SameAt s t l) : lineStateOf t l = lineStateOf s l := lineStateOf_congr same.head same.active

theorem SameFront.driver_none (same : SameFront s t l) : lineDriver t l = none ↔ lineDriver s l = none := by
  have := congrArg Option.isNone same.driver
  rwa [Option.isNone_map, Option.isNone_map, Bool.eq_iff_iff, Option.isNone_iff_eq_none, Option.isNone_iff_eq_none] at this

theorem preemptible_congr {a b : Route} (kind : a.kind = b.kind) : a.preemptible = b.preemptible := by
  rw [Route.preemptible, Route.preemptible, kind]

/-- A driver that looks the same may be preempted or not as before. -/
theorem SameFront.preemptible (same : SameFront s t l) (each : ∀ p, lineDriver t l = some p → p.2.preemptible = true) :
    ∀ p, lineDriver s l = some p → p.2.preemptible = true := by
  intro p driver
  have e := same.driver
  rw [driver, Option.map_some] at e
  obtain ⟨q, hq, kind⟩ := Option.map_eq_some_iff.mp e
  rw [preemptible_congr kind.symm]
  exact each q hq

/-- Whether a claim is overlooked is read off its own lines. -/
theorem Overlooked.of_same {c : ClaimSlot} {x y : Claim} (overlooked : Overlooked t c y) (view : x.view = y.view)
    (same : ∀ l ∈ linesOf y.members, SameFront s t l) : Overlooked s c x := by
  simp only [Claim.view, Prod.mk.injEq] at view
  obtain ⟨priority, members, awaiting⟩ := view
  obtain ⟨heads, found⟩ := overlooked
  unfold Overlooked
  rw [priority, members, awaiting]
  refine ⟨fun l hl => (same l hl).head ▸ heads l hl, ?_⟩
  have empty : driversOn s (linesOf y.members) = [] ↔ driversOn t (linesOf y.members) = [] := by
    rw [driversOn_eq_nil, driversOn_eq_nil]
    exact forall₂_congr fun l hl => (same l hl).driver_none.symm
  rcases found with ⟨none_, unmarked⟩ | ⟨some_, three, each⟩
  · exact .inl ⟨empty.mpr none_, unmarked⟩
  · refine .inr ⟨fun e => some_ (empty.mp e), three, fun p mem => ?_⟩
    obtain ⟨l, hl, driver⟩ := mem_driversOn.mp mem
    exact (same l hl).preemptible (fun q hq => each q (mem_driversOn.mpr ⟨l, hl, hq⟩)) p driver

end

/-- An operation changes some lines and the claims on them, and gives no line a driver: the changed lines are handed on. -/
theorem Handed.follow {G : Prop} {own : List ClaimSlot} {ls ls' : List LineNo} {s t : State} (h : Handed G own ls s) (sound : LinesSound t)
    (off : ∀ l, l ∉ ls' → SameAt s t l) (noNew : ∀ l, lineDriver s l = none → lineDriver t l = none)
    (marked : ∀ c cl, waits t c = some cl → cl.awaiting = true → ∃ x, waits s c = some x ∧ x.members = cl.members ∧ x.awaiting = true)
    (claims : ∀ c cl, waits t c = some cl →
      c ∈ own ∨ (∃ l ∈ linesOf cl.members, l ∈ ls') ∨ ∃ x, waits s c = some x ∧ x.view = cl.view) : Handed G own (ls ++ ls') t where
  sound := sound
  marks c cl waiting awaits l member := by
    obtain ⟨x, hx, members, awaits⟩ := marked c cl waiting awaits
    exact noNew l (h.marks c x hx awaits l (members ▸ member))
  states l out := by
    obtain ⟨out, out'⟩ := not_or.mp (mt List.mem_append.mpr out)
    rw [(off l out').state, h.states l out, (off l out').lineStateOf]
  listed g c cl waiting overlooked := by
    rcases claims c cl waiting with own_ | ⟨l, member, mem⟩ | ⟨x, hx, view⟩
    · exact .inl own_
    · exact .inr ⟨l, member, List.mem_append_right _ mem⟩
    · by_cases touched : ∃ l ∈ linesOf cl.members, l ∈ ls'
      · obtain ⟨l, member, mem⟩ := touched
        exact .inr ⟨l, member, List.mem_append_right _ mem⟩
      · have overlooked := overlooked.of_same view fun l member => (off l fun mem => touched ⟨l, member, mem⟩).toSameFront
        refine (h.listed g c x hx overlooked).imp_right fun ⟨l, member, mem⟩ => ⟨l, ?_, List.mem_append_left _ mem⟩
        have members : x.members = cl.members := congrArg (fun v => v.2.1) view
        rwa [← members]

/-! ### What an event does before its grant checks -/

/-- Between two moments of an event no claim is accepted and none is granted. -/
structure BeforeChecks (s t : State) : Prop where
  accepted : t.accepted.Sublist s.accepted
  granted : ∀ c cl r, t.claim? c = some cl → cl.state = .granted r → ∃ x, s.claim? c = some x ∧ x.state = .granted r

theorem BeforeChecks.refl (s : State) : BeforeChecks s s := ⟨List.Sublist.refl _, fun _ cl _ h e => ⟨cl, h, e⟩⟩

theorem BeforeChecks.trans {s t u : State} (a : BeforeChecks s t) (b : BeforeChecks t u) : BeforeChecks s u := by
  refine ⟨b.accepted.trans a.accepted, fun c cl r h e => ?_⟩
  obtain ⟨x, hx, e⟩ := b.granted c cl r h e
  exact a.granted c x r hx e

/-- Some routes stop driving and some claims stop waiting (those that p and q leave out); what stays, stays as it was. -/
structure Removes (p : ClaimSlot → Bool) (q : RouteSlot → Bool) (s t : State) : Prop where
  accepted : t.accepted = s.accepted.filter p
  queue : ∀ l, (t.line l).queue = (s.line l).queue.filter p
  driver : ∀ l, (t.line l).driver = (s.line l).driver.filter q
  state : ∀ l, (t.line l).state = (s.line l).state
  claims : ∀ c, (waits t c).map Claim.view = if p c then (waits s c).map Claim.view else none
  routes : ∀ r, (drives t r).map Route.view = if q r then (drives s r).map Route.view else none
  routeMembers : ∀ r rt, t.route? r = some rt → MembersSound rt.members ∨ ∃ x, s.route? r = some x ∧ x.members = rt.members
  claimMembers : ∀ c cl, t.claim? c = some cl → ∃ x, s.claim? c = some x ∧ x.members = cl.members
  granted : ∀ c cl r, t.claim? c = some cl → cl.state = .granted r → ∃ x, s.claim? c = some x ∧ x.state = .granted r

/-- Nothing changes that drivers, queues and the acceptance order follow. -/
abbrev Unchanged (s t : State) : Prop := Removes (fun _ => true) (fun _ => true) s t

namespace Removes

variable {p : ClaimSlot → Bool} {q : RouteSlot → Bool} {s t : State} (k : Removes p q s t)
include k

theorem beforeChecks : BeforeChecks s t := ⟨k.accepted ▸ List.filter_sublist, k.granted⟩

theorem sound (sound : LinesSound s) : LinesSound t := by
  refine sound.remove p q k.accepted k.queue k.driver (fun c => ?_) (fun r => ?_) (fun r rt route => ?_) fun c cl claim => ?_
  · have := congrArg (Option.map fun v : Priority × List Member × Bool => (v.1, v.2.1)) (k.claims c)
    rw [apply_ite (Option.map _), Option.map_map, Option.map_map, Option.map_none] at this
    exact this
  · have := congrArg (Option.map fun v : RouteKind × List Member × Bool => (v.1, v.2.1)) (k.routes r)
    rw [apply_ite (Option.map _), Option.map_map, Option.map_map, Option.map_none] at this
    exact this
  · rcases k.routeMembers r rt route with new | ⟨x, hx, members⟩
    · exact new
    · exact members ▸ sound.routeMembers r x hx
  · obtain ⟨x, hx, members⟩ := k.claimMembers c cl claim
    exact members ▸ sound.claimMembers c x hx

/-- A claim that still waits waited as it does. -/
theorem waited {c : ClaimSlot} {cl : Claim} (waiting : waits t c = some cl) : ∃ x, waits s c = some x ∧ x.view = cl.view := by
  have e := k.claims c
  rw [waiting, Option.map_some] at e
  split at e
  · obtain ⟨x, hx, view⟩ := Option.map_eq_some_iff.mp e.symm
    exact ⟨x, hx, view⟩
  · cases e

theorem sameAt {l : LineNo} (head : queueHead t l = queueHead s l) (driver : (t.line l).driver = (s.line l).driver) : SameAt s t l := by
  have view : (lineDriver t l).map (fun x => x.2.view) = (lineDriver s l).map fun x => x.2.view := by
    rw [lineDriver_eq, lineDriver_eq, driver]
    cases held : (s.line l).driver with
    | none => rfl
    | some r =>
      have stays : q r = true := by
        have e := k.driver l
        rw [driver, held] at e
        exact (Option.filter_eq_some_iff.mp e.symm).2
      have view := k.routes r
      rw [if_pos stays] at view
      simp only [Option.bind_some, Option.map_map]
      exact view
  have kind := congrArg (Option.map Prod.fst) view
  have active := congrArg (Option.map fun v : RouteKind × List Member × Bool => v.2.2) view
  rw [Option.map_map, Option.map_map] at kind active
  exact ⟨⟨head, kind⟩, active, k.state l⟩

theorem handed {G : Prop} {own : List ClaimSlot} {ls ls' : List LineNo} (h : Handed G own ls s)
    (off : ∀ l, l ∉ ls' → queueHead t l = queueHead s l ∧ (t.line l).driver = (s.line l).driver) : Handed G own (ls ++ ls') t := by
  have sound := k.sound h.sound
  refine h.follow sound (fun l out => k.sameAt (off l out).1 (off l out).2) (fun l none_ => ?_) (fun c cl waiting awaits => ?_)
    fun c cl waiting => .inr (.inr (k.waited waiting))
  · rw [sound.lineDriver_none, k.driver, h.sound.lineDriver_none.mp none_]
    rfl
  · obtain ⟨x, hx, view⟩ := k.waited waiting
    exact ⟨x, hx, congrArg (fun v => v.2.1) view, (congrArg (fun v => v.2.2) view).trans awaits⟩

end Removes

namespace Unchanged

variable {s t : State} (k : Unchanged s t)
include k

theorem head (l : LineNo) : queueHead t l = queueHead s l := by
  rw [queueHead, k.queue, List.filter_true]
  rfl

theorem lineDriver_same (l : LineNo) : (t.line l).driver = (s.line l).driver := by
  rw [k.driver]
  cases (s.line l).driver <;> rfl

theorem handed {G : Prop} {own : List ClaimSlot} {ls : List LineNo} (h : Handed G own ls s) : Handed G own ls t := by
  have := Removes.handed k (ls' := []) h fun l _ => ⟨Unchanged.head k l, Unchanged.lineDriver_same k l⟩
  rwa [List.append_nil] at this

theorem awaitingHead (heads : AwaitingHead s) : AwaitingHead t := by
  intro c cl waiting awaits l member
  obtain ⟨x, hx, view⟩ := Removes.waited k waiting
  rw [Unchanged.head k]
  have members : x.members = cl.members := congrArg (fun v => v.2.1) view
  exact heads c x hx ((congrArg (fun v => v.2.2) view).trans awaits) l (members ▸ member)

theorem agree (agree : LinesAgree s) : LinesAgree t ∧ (GrantsChecked s → GrantsChecked t) :=
  have handed := Unchanged.handed k (agree.handed [])
  ⟨handed.agree (Unchanged.awaitingHead k agree.awaitingHead), handed.checked⟩

end Unchanged

/-! ### Operations that leave drivers, queues and acceptance order -/

section

variable {s t : State}

theorem filter_true' {α : Type} (o : Option α) : o.filter (fun _ => true) = o := by cases o <;> rfl

theorem Unchanged.of (lines : t.lines = s.lines) (accepted : t.accepted = s.accepted)
    (claims : ∀ c, (waits t c).map Claim.view = (waits s c).map Claim.view)
    (routes : ∀ r, (drives t r).map Route.view = (drives s r).map Route.view)
    (routeMembers : ∀ r rt, t.route? r = some rt → MembersSound rt.members ∨ ∃ x, s.route? r = some x ∧ x.members = rt.members)
    (claimMembers : ∀ c cl, t.claim? c = some cl → ∃ x, s.claim? c = some x ∧ x.members = cl.members ∧ x.state = cl.state) :
    Unchanged s t := by
  have line (l : LineNo) : t.line l = s.line l := by rw [State.line, lines]; rfl
  refine ⟨by rw [accepted, List.filter_true], fun l => by rw [line, List.filter_true], fun l => by rw [line, filter_true'],
    fun l => by rw [line], fun c => by rw [claims, if_pos rfl], fun r => by rw [routes, if_pos rfl], routeMembers, fun c cl claim => ?_,
    fun c cl r claim granted => ?_⟩
  · obtain ⟨x, hx, members, -⟩ := claimMembers c cl claim
    exact ⟨x, hx, members⟩
  · obtain ⟨x, hx, -, state⟩ := claimMembers c cl claim
    exact ⟨x, hx, state.trans granted⟩

theorem drives_congr {r : RouteSlot} (e : t.route? r = s.route? r) : drives t r = drives s r := by rw [drives, drives, e]

theorem waits_congr {c : ClaimSlot} (e : t.claim? c = s.claim? c) : waits t c = waits s c := by rw [waits, waits, e]

/-- The route table alone may change. -/
theorem Unchanged.of_routes (lines : t.lines = s.lines) (accepted : t.accepted = s.accepted) (claims : t.claims = s.claims)
    (routes : ∀ r, (drives t r).map Route.view = (drives s r).map Route.view)
    (routeMembers : ∀ r rt, t.route? r = some rt → MembersSound rt.members ∨ ∃ x, s.route? r = some x ∧ x.members = rt.members) :
    Unchanged s t :=
  .of lines accepted (fun c => by rw [waits_congr (claim?_congr claims c)]) routes routeMembers fun c cl claim =>
    ⟨cl, (claim?_congr claims c).symm.trans claim, rfl, rfl⟩

theorem Unchanged.of_same (lines : t.lines = s.lines) (accepted : t.accepted = s.accepted) (routes : t.routes = s.routes)
    (claims : t.claims = s.claims) : Unchanged s t :=
  .of_routes lines accepted claims (fun r => by rw [drives_congr (route?_congr routes r)]) fun r rt route =>
    .inr ⟨rt, (route?_congr routes r).symm.trans route, rfl⟩

theorem KeepsRecords.unchanged (k : KeepsRecords s t) : Unchanged s t := .of_same k.lines k.accepted k.routes k.claims

theorem noteRoute_unchanged (s : State) (h : HostId) (r : RouteSlot) : Unchanged s (noteRoute h r s) := .of_same rfl rfl rfl rfl

theorem Unchanged.trans {u : State} (a : Unchanged s t) (b : Unchanged t u) : Unchanged s u where
  accepted := by rw [b.accepted, List.filter_true, a.accepted]
  queue l := by rw [b.queue, List.filter_true, a.queue]
  driver l := by rw [b.driver, filter_true', a.driver]
  state l := (b.state l).trans (a.state l)
  claims c := by rw [b.claims, if_pos rfl, a.claims]
  routes r := by rw [b.routes, if_pos rfl, a.routes]
  routeMembers r rt route := by
    rcases b.routeMembers r rt route with new | ⟨x, hx, members⟩
    · exact .inl new
    · rw [← members]
      exact a.routeMembers r x hx
  claimMembers c cl claim := by
    obtain ⟨x, hx, members⟩ := b.claimMembers c cl claim
    rw [← members]
    exact a.claimMembers c x hx
  granted := (a.beforeChecks.trans b.beforeChecks).granted

theorem Unchanged.refl (s : State) : Unchanged s s := .of_same rfl rfl rfl rfl

/-- A route changes, but neither as a driver nor in its members. -/
theorem updRoute_unchanged (s : State) (r : RouteSlot) {f : Route → Route} (view : ∀ rt, (f rt).view = rt.view)
    (live : ∀ rt, (f rt).live = rt.live) : Unchanged s (s.updRoute r f) := by
  have kind (rt : Route) : (f rt).kind = rt.kind := congrArg Prod.fst (view rt)
  have members (rt : Route) : (f rt).members = rt.members := congrArg (fun v => v.2.1) (view rt)
  refine .of_routes rfl rfl rfl (fun q => ?_) fun q rt route => .inr ?_
  · rw [drives, drives, State.updRoute_route?]
    split
    · rename_i same
      subst same
      cases s.route? r with
      | none => rfl
      | some rt =>
        have filter : ((f rt).live && (f rt).isDriver) = (rt.live && rt.isDriver) := by rw [live, Route.isDriver, kind]; rfl
        rw [Option.map_some, Option.filter_some, Option.filter_some, filter]
        split
        · exact congrArg some (view rt)
        · rfl
    · rfl
  · rw [State.updRoute_route?] at route
    split at route
    · obtain ⟨x, hx, e⟩ := Option.map_eq_some_iff.mp route
      exact ⟨x, hx, by rw [← e, members]⟩
    · exact ⟨rt, route, rfl⟩

theorem advance_unchanged (d : Nat) (s : State) : Unchanged s (advance d s) := by
  have core (rt : Route) : (rt.after d).view = rt.view ∧ (rt.after d).live = rt.live ∧ (rt.after d).isDriver = rt.isDriver := by
    cases e : rt.state <;> simp [Route.view, Route.after, Route.live, Route.isDriver, Route.active, e]
  have claimCore (cl : Claim) : (cl.after d).view = cl.view ∧ (cl.after d).state = cl.state := by
    cases e : cl.state <;> simp [Claim.view, Claim.after, e]
  refine .of rfl rfl (fun c => ?_) (fun r => ?_) (fun r rt route => .inr ?_) fun c cl claim => ?_
  · rw [waits, waits, advance_claim?]
    cases s.claim? c with
    | none => rfl
    | some cl =>
      obtain ⟨view, state⟩ := claimCore cl
      have waiting : (cl.after d).waiting = cl.waiting := by rw [Claim.waiting, state]; rfl
      rw [Option.map_some, Option.filter_some, Option.filter_some, waiting]
      split
      · exact congrArg some view
      · rfl
  · rw [drives, drives, advance_route?]
    cases s.route? r with
    | none => rfl
    | some rt =>
      obtain ⟨view, live, isDriver⟩ := core rt
      rw [Option.map_some, Option.filter_some, Option.filter_some, live, isDriver]
      split
      · exact congrArg some view
      · rfl
  · rw [advance_route?] at route
    obtain ⟨x, hx, e⟩ := Option.map_eq_some_iff.mp route
    exact ⟨x, hx, by rw [← e]; exact (congrArg (fun v => v.2.1) (core x).1).symm⟩
  · rw [advance_claim?] at claim
    obtain ⟨x, hx, e⟩ := Option.map_eq_some_iff.mp claim
    exact ⟨x, hx, by rw [← e]; exact ⟨(congrArg (fun v => v.2.1) (claimCore x).1).symm, (claimCore x).2.symm⟩⟩

theorem createListener_unchanged {s : State} {r : RouteSlot} {ms : List Member} (h : HostId) (lease : Nat) (free : s.route? r = none)
    (members : MembersSound ms) : Unchanged s (createListener h lease ms r s) := by
  refine .of_routes rfl rfl rfl (fun q => ?_) fun q rt route => ?_
  · rw [drives, drives, createListener_route?]
    split
    · rename_i same
      subst same
      rw [free]
      rfl
    · rfl
  · rw [createListener_route?] at route
    rcases place_cases route with e | old
    · cases e
      exact .inl members
    · exact .inr ⟨rt, old, rfl⟩

/-- A settled claim that is freed waited on no line. -/
theorem freeClaim_unchanged {s : State} {c : ClaimSlot} {cl : Claim} (claim : s.claim? c = some cl) (settled : cl.waiting = false) :
    Unchanged s (freeClaim c s) := by
  refine .of (freeClaim_lines ..) (freeClaim_accepted ..) (fun d => ?_) (fun r => by rw [drives_congr (route?_congr (freeClaim_routes ..) r)])
    (fun r rt route => .inr ⟨rt, (route?_congr (freeClaim_routes ..) r).symm.trans route, rfl⟩) fun d x hx => ?_
  · rw [waits, waits, freeClaim_claim? claim]
    split
    · rename_i same
      subst same
      rw [claim, Option.filter_some, settled]
      rfl
    · rfl
  · rw [freeClaim_claim? claim] at hx
    split at hx
    · cases hx
    · exact ⟨x, hx, rfl, rfl⟩

end

end Sys2Proof.Machine


/-! Routes and claims that go, and what they hand on. -/

namespace Sys2Proof.Machine

/-! ### A route goes -/

section

variable {s t : State} {r : RouteSlot} {rt : Route}

theorem mem_linesGivenUp {l : LineNo} : l ∈ linesGivenUp rt ↔ rt.live = true ∧ rt.isDriver = true ∧ l ∈ linesOf rt.members := by
  unfold linesGivenUp
  split
  · rename_i both
    rw [Bool.and_eq_true] at both
    simp [both]
  · rename_i neither
    rw [Bool.and_eq_true] at neither
    simp only [List.not_mem_nil, false_iff]
    exact fun h => neither ⟨h.1, h.2.1⟩

/-- A route stops driving its lines. -/
theorem removes_route {x : Option Route} (sound : LinesSound s) (route : s.route? r = some rt)
    (line : ∀ l, t.line l = if l ∈ linesGivenUp rt ∧ (s.line l).driver = some r then { s.line l with driver := none } else s.line l)
    (accepted : t.accepted = s.accepted) (claims : t.claims = s.claims) (routes : ∀ q, t.route? q = if r = q then x else s.route? q)
    (dead : ∀ y, x = some y → y.live = false ∧ y.members = rt.members) : Removes (fun _ => true) (fun q => q ≠ r) s t where
  accepted := by rw [accepted, List.filter_true]
  queue l := by
    rw [List.filter_true, line]
    split <;> rfl
  driver l := by
    rw [line]
    split
    · rename_i both
      rw [both.2, Option.filter_some]
      simp
    · rename_i neither
      cases driver : (s.line l).driver with
      | none => rfl
      | some q =>
        refine (Option.filter_eq_some_iff.mpr ⟨rfl, ?_⟩).symm
        simp only [ne_eq, decide_not, Bool.not_eq_eq_eq_not, Bool.not_true, decide_eq_false_iff_not]
        rintro rfl
        obtain ⟨y, hy, member⟩ := (sound.driver l q).mp driver
        obtain ⟨same, live, isDriver⟩ := drives_some.mp hy
        cases route.symm.trans same
        exact neither ⟨mem_linesGivenUp.mpr ⟨live, isDriver, member⟩, driver⟩
  state l := by
    rw [line]
    split <;> rfl
  claims c := by rw [if_pos rfl, waits_congr (claim?_congr claims c)]
  routes q := by
    rw [drives, routes]
    by_cases same : r = q
    · subst same
      have gone : x.filter (fun rt => rt.live && rt.isDriver) = none := by
        rw [Option.filter_eq_none_iff]
        intro y hy
        simp [(dead y hy).1]
      simp [gone]
    · rw [if_neg same, if_pos (by simpa using Ne.symm same)]
      rfl
  routeMembers q y hy := by
    rw [routes] at hy
    split at hy
    · rename_i same
      subst same
      exact .inr ⟨rt, route, (dead y hy).2.symm⟩
    · exact .inr ⟨y, hy, rfl⟩
  claimMembers c cl claim := ⟨cl, (claim?_congr claims c).symm.trans claim, rfl⟩
  granted c cl q claim granted := ⟨cl, (claim?_congr claims c).symm.trans claim, granted⟩

theorem closeRoute_removes (why : CloseReason) (sound : LinesSound s) (route : s.route? r = some rt) (live : rt.live = true) :
    Removes (fun _ => true) (fun q => q ≠ r) s (closeRoute why r s) :=
  removes_route sound route (closeRoute_line why route live) (closeRoute_accepted ..) (closeRoute_claims ..)
    (closeRoute_route? why route live) fun y hy => by
      cases hy
      exact ⟨rfl, rfl⟩

theorem freeRoute_removes (sound : LinesSound s) (route : s.route? r = some rt) :
    Removes (fun _ => true) (fun q => q ≠ r) s (freeRoute r s) :=
  removes_route sound route (freeRoute_line route) (freeRoute_accepted ..) (freeRoute_claims ..) (freeRoute_route? route) nofun

section

variable {G : Prop} {own : List ClaimSlot} {ls : List LineNo}

theorem closeRoute_handed (why : CloseReason) (h : Handed G own ls s) (route : s.route? r = some rt) (live : rt.live = true) :
    Handed G own (ls ++ linesGivenUp rt) (closeRoute why r s) := by
  refine (closeRoute_removes why h.sound route live).handed h fun l out => ?_
  have same : (closeRoute why r s).line l = s.line l := by rw [closeRoute_line why route live, if_neg fun both => out both.1]
  exact ⟨by rw [queueHead, same]; rfl, by rw [same]⟩

theorem freeRoute_handed (h : Handed G own ls s) (route : s.route? r = some rt) : Handed G own (ls ++ linesGivenUp rt) (freeRoute r s) := by
  refine (freeRoute_removes h.sound route).handed h fun l out => ?_
  have same : (freeRoute r s).line l = s.line l := by rw [freeRoute_line route, if_neg fun both => out both.1]
  exact ⟨by rw [queueHead, same]; rfl, by rw [same]⟩

/-- A CLOSED route that is freed drove no line. -/
theorem freeRoute_unchanged (route : s.route? r = some rt) (dead : rt.live = false) : Unchanged s (freeRoute r s) := by
  have line (l : LineNo) := freeRoute_line_dead route dead l
  refine .of_routes (ext_look line) (freeRoute_accepted ..) (freeRoute_claims ..) (fun q => ?_) fun q x hx => ?_
  · rw [drives, drives, freeRoute_route? route]
    split
    · rename_i same
      subst same
      rw [route, Option.filter_some, dead]
      rfl
    · rfl
  · rw [freeRoute_route? route] at hx
    rcases place_cases hx with e | old
    · cases e
    · exact .inr ⟨x, old, rfl⟩

end

end

/-! ### A WAITING claim goes -/

section

variable {s t : State} {c : ClaimSlot} {cl : Claim}

/-- A claim stops waiting without a grant. -/
theorem removes_claim {x : Option Claim} (sound : LinesSound s) (claim : s.claim? c = some cl)
    (line : ∀ l, t.line l = if l ∈ linesOf cl.members then { s.line l with queue := (s.line l).queue.filter (· ≠ c) } else s.line l)
    (accepted : t.accepted = s.accepted.filter (· ≠ c)) (routes : t.routes = s.routes)
    (claims : ∀ d, t.claim? d = if c = d then x else s.claim? d)
    (settled : ∀ y, x = some y → y.members = cl.members ∧ ∃ why, y.state = .dropped why) :
    Removes (fun d => d ≠ c) (fun _ => true) s t where
  accepted := accepted
  queue l := by
    rw [line]
    split
    · rfl
    · rename_i out
      refine (List.filter_eq_self.mpr fun d mem => ?_).symm
      simp only [ne_eq, decide_not, Bool.not_eq_eq_eq_not, Bool.not_true, decide_eq_false_iff_not]
      rintro rfl
      obtain ⟨y, hy, member⟩ := (sound.queue l d).mp mem
      cases claim.symm.trans (waits_some.mp hy).1
      exact out member
  driver l := by
    rw [filter_true', line]
    split <;> rfl
  state l := by
    rw [line]
    split <;> rfl
  claims d := by
    rw [waits, claims]
    by_cases same : c = d
    · subst same
      have gone : x.filter Claim.waiting = none := by
        rw [Option.filter_eq_none_iff]
        intro y hy
        obtain ⟨-, why, dropped⟩ := settled y hy
        simp [Claim.waiting, dropped]
      simp [gone]
    · rw [if_neg same, if_pos (by simpa using Ne.symm same)]
      rfl
  routes r := by rw [if_pos rfl, drives_congr (route?_congr routes r)]
  routeMembers r rt route := .inr ⟨rt, (route?_congr routes r).symm.trans route, rfl⟩
  claimMembers d y hy := by
    rw [claims] at hy
    split at hy
    · rename_i same
      subst same
      exact ⟨cl, claim, (settled y hy).1.symm⟩
    · exact ⟨y, hy, rfl⟩
  granted d y r hy granted := by
    rw [claims] at hy
    split at hy
    · obtain ⟨-, why, dropped⟩ := settled y hy
      cases dropped.symm.trans granted
    · exact ⟨y, hy, granted⟩

theorem dropClaim_removes (why : DropReason) (sound : LinesSound s) (claim : s.claim? c = some cl) :
    Removes (fun d => d ≠ c) (fun _ => true) s (dropClaim why c s) :=
  removes_claim sound claim (dropClaim_line why claim) (by rw [dropClaim_accepted, claim]; rfl) (dropClaim_routes ..)
    (dropClaim_claim? why claim) fun y hy => by
      cases hy
      exact ⟨rfl, why, rfl⟩

theorem cancelled_removes (sound : LinesSound s) (claim : s.claim? c = some cl) :
    Removes (fun d => d ≠ c) (fun _ => true) s (freeClaim c (withdrawClaim c cl s)) :=
  removes_claim sound claim (cancelled_line s c cl) (cancelled_accepted ..) (cancelled_routes ..) (cancelled_claim? claim) nofun

theorem mem_changedHeads {l : LineNo} {ls : List LineNo} : l ∈ changedHeads s t ls ↔ l ∈ ls ∧ queueHead s l ≠ queueHead t l := by
  simp [changedHeads]

variable {G : Prop} {own : List ClaimSlot} {ls : List LineNo}

/-- A claim that leaves its queues hands on the lines whose heads it was. -/
theorem Removes.handed_heads {p : ClaimSlot → Bool} (k : Removes p (fun _ => true) s t) (h : Handed G own ls s)
    (line : ∀ l, l ∉ linesOf cl.members → t.line l = s.line l) :
    Handed G own (ls ++ changedHeads s t (linesOf cl.members)) t := by
  refine k.handed h fun l out => ⟨?_, by rw [k.driver, filter_true']⟩
  by_cases member : l ∈ linesOf cl.members
  · by_contra changed
    exact out (mem_changedHeads.mpr ⟨member, Ne.symm changed⟩)
  · rw [queueHead, line l member]
    rfl

theorem dropClaim_handed (why : DropReason) (h : Handed G own ls s) (claim : s.claim? c = some cl) :
    Handed G own (ls ++ changedHeads s (dropClaim why c s) (linesOf cl.members)) (dropClaim why c s) :=
  (dropClaim_removes why h.sound claim).handed_heads h fun l out => by rw [dropClaim_line why claim, if_neg out]

theorem cancelled_handed (h : Handed G own ls s) (claim : s.claim? c = some cl) :
    Handed G own (ls ++ changedHeads s (freeClaim c (withdrawClaim c cl s)) (linesOf cl.members)) (freeClaim c (withdrawClaim c cl s)) :=
  (cancelled_removes h.sound claim).handed_heads h fun l out => by rw [cancelled_line, if_neg out]

end

/-! ### All records of a host go -/

section

variable (h : HostId) (s : State)

theorem clearHost_line (l : LineNo) : (clearHost h s).line l = { s.line l with
    driver := (s.line l).driver.filter fun r => !ownsRoute h (s.routeEntry r)
    queue := (s.line l).queue.filter fun c => !ownsClaim h (s.claimEntry c) } := look_map ..

theorem clearHost_drives (r : RouteSlot) : drives (clearHost h s) r = if !ownsRoute h (s.routeEntry r) then drives s r else none := by
  rw [drives, State.route?, clearHost_routeEntry]
  cases ownsRoute h (s.routeEntry r) <;> rfl

theorem clearHost_waits (c : ClaimSlot) : waits (clearHost h s) c = if !ownsClaim h (s.claimEntry c) then waits s c else none := by
  rw [waits, State.claim?, clearHost_claimEntry]
  cases ownsClaim h (s.claimEntry c) <;> rfl

theorem clearHost_removes :
    Removes (fun c => !ownsClaim h (s.claimEntry c)) (fun r => !ownsRoute h (s.routeEntry r)) s (clearHost h s) where
  accepted := rfl
  queue l := by rw [clearHost_line]
  driver l := by rw [clearHost_line]
  state l := by rw [clearHost_line]
  claims c := by
    rw [clearHost_waits, apply_ite (Option.map _)]
    rfl
  routes r := by
    rw [clearHost_drives, apply_ite (Option.map _)]
    rfl
  routeMembers r rt route := .inr ⟨rt, ((clearHost_route?_some s h r).mp route).1, rfl⟩
  claimMembers c cl claim := ⟨cl, ((clearHost_claim?_some s h c).mp claim).1, rfl⟩
  granted c cl r claim granted := ⟨cl, ((clearHost_claim?_some s h c).mp claim).1, granted⟩

theorem mem_touchedLines_of_route {r : RouteSlot} {rt : Route} (owns : ownsRoute h (s.routeEntry r) = true) (driver : drives s r = some rt)
    {l : LineNo} (member : l ∈ linesOf rt.members) : l ∈ touchedLines s h := by
  obtain ⟨route, live, isDriver⟩ := drives_some.mp driver
  refine List.mem_append_left _ (List.mem_flatMap.mpr ⟨r, List.mem_filter.mpr ⟨mem_every r, owns⟩, ?_⟩)
  rw [route]
  exact mem_linesGivenUp.mpr ⟨live, isDriver, member⟩

theorem mem_touchedLines_of_claim {c : ClaimSlot} {cl : Claim} (owns : ownsClaim h (s.claimEntry c) = true) (waiting : waits s c = some cl)
    {l : LineNo} (member : l ∈ linesOf cl.members) : l ∈ touchedLines s h := by
  obtain ⟨claim, waiting⟩ := waits_some.mp waiting
  refine List.mem_append_right _ (List.mem_flatMap.mpr ⟨c, List.mem_filter.mpr ⟨mem_every c, owns⟩, ?_⟩)
  rw [claim]
  simpa [waiting] using member

variable {h s}

theorem clearHost_handed {G : Prop} {own : List ClaimSlot} {ls : List LineNo} (before : Handed G own ls s) :
    Handed G own (ls ++ touchedLines s h) (clearHost h s) := by
  refine (clearHost_removes h s).handed before fun l out => ?_
  have queue : ((clearHost h s).line l).queue = (s.line l).queue := by
    rw [clearHost_line]
    refine List.filter_eq_self.mpr fun c mem => ?_
    by_contra disowned
    have owns : ownsClaim h (s.claimEntry c) = true := by simpa using disowned
    obtain ⟨cl, waiting, member⟩ := (before.sound.queue l c).mp mem
    exact out (mem_touchedLines_of_claim h s owns waiting member)
  refine ⟨by rw [queueHead, queue]; rfl, ?_⟩
  rw [(clearHost_removes h s).driver]
  cases driver : (s.line l).driver with
  | none => rfl
  | some r =>
    refine Option.filter_eq_some_iff.mpr ⟨rfl, ?_⟩
    by_contra disowned
    have owns : ownsRoute h (s.routeEntry r) = true := by simpa using disowned
    obtain ⟨rt, hr, member⟩ := (before.sound.driver l r).mp driver
    exact out (mem_touchedLines_of_route h s owns hr member)

end

end Sys2Proof.Machine


/-! Claims that find a place in their queues, and routes that become ACTIVE. -/

namespace Sys2Proof.Machine

/-! ### A claim finds its place -/

/-- Claim c becomes the WAITING claim cl, which is new or changes but its priority or wait limit, and is placed in the queues of its lines;
it is accepted last, or stays where it was in the acceptance order. -/
structure Places (c : ClaimSlot) (cl : Claim) (s t : State) : Prop where
  routes : t.routes = s.routes
  claims : ∀ d, t.claim? d = if c = d then some cl else s.claim? d
  waiting : cl.waiting = true
  members : MembersSound cl.members
  old : ∀ x, s.claim? c = some x → x.waiting = true ∧ x.members = cl.members ∧ x.awaiting = cl.awaiting
  new : s.claim? c = none → cl.awaiting = false
  accepted : t.accepted = s.accepted.filter (· ≠ c) ++ [c] ∨ (t.accepted = s.accepted ∧ c ∈ s.accepted)
  queue : ∀ l, (t.line l).queue =
    if l ∈ linesOf cl.members then placeInQueue t c ((s.line l).queue.filter (· ≠ c)) else (s.line l).queue
  driver : ∀ l, (t.line l).driver = (s.line l).driver
  state : ∀ l, (t.line l).state = (s.line l).state

/-- The order of acceptance among the claims that stay in it. -/
theorem idxOf_append_lt {c d e : ClaimSlot} {xs : List ClaimSlot} (hd : d ∈ xs) (he : e ∈ xs) :
    (xs ++ [c]).idxOf d < (xs ++ [c]).idxOf e ↔ xs.idxOf d < xs.idxOf e := by
  rw [List.idxOf_append_of_mem hd, List.idxOf_append_of_mem he]

namespace Places

variable {c : ClaimSlot} {cl : Claim} {s t : State} (k : Places c cl s t)
include k

theorem waits_own : waits t c = some cl := waits_some.mpr ⟨by rw [k.claims, if_pos rfl], k.waiting⟩

theorem waits_other {d : ClaimSlot} (ne : d ≠ c) : waits t d = waits s d := waits_congr (by rw [k.claims, if_neg (Ne.symm ne)])

theorem mem_accepted (d : ClaimSlot) : d ∈ t.accepted ↔ d = c ∨ d ∈ s.accepted := by
  rcases k.accepted with last | ⟨same, mem⟩
  · rw [last, List.mem_append, List.mem_filter, List.mem_singleton]
    by_cases e : d = c <;> simp [e]
  · rw [same]
    exact ⟨.inr, fun h => h.elim (fun e => e ▸ mem) id⟩

theorem once (sound : LinesSound s) : t.accepted.Nodup := by
  rcases k.accepted with last | ⟨same, -⟩
  · rw [last]
    refine List.nodup_append.mpr ⟨sound.once.filter _, List.nodup_singleton c, fun d hd e he => ?_⟩
    rw [List.mem_singleton.mp he]
    simpa using (List.mem_filter.mp hd).2
  · exact same ▸ sound.once

theorem order {d e : ClaimSlot} (d_ne : d ≠ c) (e_ne : e ≠ c) (hd : d ∈ s.accepted) (he : e ∈ s.accepted) :
    t.accepted.idxOf d < t.accepted.idxOf e ↔ s.accepted.idxOf d < s.accepted.idxOf e := by
  rcases k.accepted with last | ⟨same, -⟩
  · rw [last, idxOf_append_lt (List.mem_filter.mpr ⟨hd, by simpa using d_ne⟩) (List.mem_filter.mpr ⟨he, by simpa using e_ne⟩),
      idxOf_filter_lt (by simpa using d_ne) (by simpa using e_ne)]
  · rw [same]

theorem sound (sound : LinesSound s) : LinesSound t := by
  refine sound.place k.waits_own (k.once sound) k.mem_accepted (fun d e => k.order) (fun x hx => (k.old x (waits_some.mp hx).1).2.1) k.queue
    k.driver (fun d ne => by rw [k.waits_other ne]) (fun r => by rw [drives_congr (route?_congr k.routes r)]) (fun r rt route => ?_)
    fun d x hx => ?_
  · exact sound.routeMembers r rt ((route?_congr k.routes r).symm.trans route)
  · rw [k.claims] at hx
    rcases place_cases hx with e | old
    · cases e
      exact k.members
    · exact sound.claimMembers d x old

theorem lineDriver (l : LineNo) : lineDriver t l = lineDriver s l := by
  rw [lineDriver_eq, lineDriver_eq, k.driver]
  simp only [drives, route?_congr k.routes]

theorem handed {G : Prop} {own : List ClaimSlot} {ls ls' : List LineNo} (h : Handed G own ls s)
    (off : ∀ l, l ∉ ls' → queueHead t l = queueHead s l) (listed : c ∈ own ∨ ∃ l ∈ linesOf cl.members, l ∈ ls') :
    Handed G own (ls ++ ls') t := by
  refine h.follow (k.sound h.sound)
    (fun l out => ⟨⟨off l out, by rw [k.lineDriver]⟩, by rw [k.lineDriver], k.state l⟩) (fun l none_ => (k.lineDriver l).trans none_)
    (fun d x waiting awaits => ?_) fun d x waiting => ?_
  · by_cases same : d = c
    · subst same
      cases k.waits_own.symm.trans waiting
      cases claim : s.claim? d with
      | none => cases (k.new claim).symm.trans awaits
      | some y =>
        obtain ⟨waiting, members, awaiting⟩ := k.old y claim
        exact ⟨y, waits_some.mpr ⟨claim, waiting⟩, members, awaiting.trans awaits⟩
    · exact ⟨x, (k.waits_other same).symm.trans waiting, rfl, awaits⟩
  · by_cases same : d = c
    · subst same
      cases k.waits_own.symm.trans waiting
      exact listed.imp_right .inl
    · exact .inr (.inr ⟨x, (k.waits_other same).symm.trans waiting, rfl⟩)

/-- The claim of an event's own request hands on the lines whose heads it changes. -/
theorem handed_heads {G : Prop} {ls : List LineNo} (h : Handed G [c] ls s) :
    Handed G [c] (ls ++ changedHeads s t (linesOf cl.members)) t := by
  refine k.handed h (fun l out => ?_) (.inl (List.mem_singleton_self c))
  by_cases member : l ∈ linesOf cl.members
  · by_contra changed
    exact out (mem_changedHeads.mpr ⟨member, Ne.symm changed⟩)
  · rw [queueHead, k.queue, if_neg member]
    rfl

/-- The claim hands on all its lines. -/
theorem handed_lines {G : Prop} {own : List ClaimSlot} {ls : List LineNo} (h : Handed G own ls s) (some_ : ∃ l, l ∈ linesOf cl.members) :
    Handed G own (ls ++ linesOf cl.members) t := by
  refine k.handed h (fun l out => ?_) (.inr ?_)
  · rw [queueHead, k.queue, if_neg out]
    rfl
  · obtain ⟨l, hl⟩ := some_
    exact ⟨l, hl, hl⟩

end Places

/-! ### CLAIM, AMEND, and the demotions of SET_POLICY -/

section

variable {s : State} {c : ClaimSlot} {cl : Claim}

theorem joined_line (s t u : State) (c : ClaimSlot) {ls : List LineNo} (once : ls.Nodup) (claims : u.claims = t.claims)
    (accepted : u.accepted = t.accepted) (lines : u.lines = (joinQueues c ls t).lines) (l : LineNo)
    (before : t.line l = (leaveQueues c ls s).line l) : u.line l =
      if l ∈ ls then { s.line l with queue := placeInQueue u c ((s.line l).queue.filter (· ≠ c)) } else s.line l := by
  have joined := joinQueues_line t l c once
  rw [show u.line l = (joinQueues c ls t).line l by rw [State.line, lines]; rfl, joined, before, leaveQueues_line]
  split
  · dsimp only
    rw [placeInQueue_congr claims accepted]
  · rfl

theorem acceptClaim_places {h : HostId} {p : ClaimParams} (sound : LinesSound s) (members : MembersSound p.members) (free : s.claim? c = none) :
    Places c (newClaim h p) s (acceptClaim h p c s) := by
  have absent (l : LineNo) : c ∉ (s.line l).queue := fun mem => by
    obtain ⟨x, hx, -⟩ := (sound.queue l c).mp mem
    cases free.symm.trans (waits_some.mp hx).1
  have unaccepted : c ∉ s.accepted := fun mem => by
    obtain ⟨x, hx⟩ := (sound.accepted c).mp mem
    cases free.symm.trans (waits_some.mp hx).1
  have line := acceptClaim_line (s := s) (c := c) h p members.2
  refine ⟨acceptClaim_routes .., fun d => acceptClaim_claim? s h c d p, rfl, members, fun x hx => (by cases free.symm.trans hx), fun _ => rfl, .inl ?_,
    fun l => ?_, fun l => ?_, fun l => ?_⟩
  · rw [acceptClaim_accepted, List.filter_eq_self.mpr fun d hd => by simpa using fun e : d = c => unaccepted (e ▸ hd)]
  · rw [line, List.filter_eq_self.mpr fun d hd => by simpa using fun e : d = c => absent l (e ▸ hd), apply_ite LineRecord.queue]
    rfl
  · rw [line, apply_ite LineRecord.driver, ite_self]
  · rw [line, apply_ite LineRecord.state, ite_self]

theorem reprioritise_line {p : Priority} (once : (linesOf cl.members).Nodup) (other : cl.priority ≠ p) (l : LineNo) :
    (reprioritise c cl p s).line l = if l ∈ linesOf cl.members then
      { s.line l with queue := placeInQueue (reprioritise c cl p s) c ((s.line l).queue.filter (· ≠ c)) } else s.line l := by
  unfold reprioritise
  rw [if_neg other]
  exact joined_line s _ _ c once (joinQueues_keeps ..).claims (joinQueues_keeps ..).accepted rfl l rfl

theorem demote_line (once : (linesOf cl.members).Nodup) (l : LineNo) : (demote c cl s).line l = if l ∈ linesOf cl.members then
    { s.line l with queue := placeInQueue (demote c cl s) c ((s.line l).queue.filter (· ≠ c)) } else s.line l :=
  joined_line s ((leaveQueues c (linesOf cl.members) s).updClaim c fun x => { x with priority := 2 }) (demote c cl s) c once
    (joinQueues_keeps ..).claims (joinQueues_keeps ..).accepted rfl l rfl

theorem demote_claim? (claim : s.claim? c = some cl) (d : ClaimSlot) :
    (demote c cl s).claim? d = if c = d then some { cl with priority := 2 } else s.claim? d := by
  rw [State.claim?, demote_entry]
  split
  · rename_i same
    subst same
    rw [ClaimEntry.onClaim, show (s.claimEntry c).claim = some cl from claim]
    rfl
  · rfl

theorem demote_places (sound : LinesSound s) (claim : s.claim? c = some cl) (waiting : cl.waiting = true) :
    Places c { cl with priority := 2 } s (demote c cl s) := by
  have line := demote_line (s := s) (c := c) (sound.claimMembers c cl claim).2
  have mem := (sound.accepted c).mpr ⟨cl, waits_some.mpr ⟨claim, waiting⟩⟩
  refine ⟨demote_routes s c cl, demote_claim? claim, waiting, sound.claimMembers c cl claim, fun x hx => ?_,
    fun free => (by cases free.symm.trans claim), .inr ⟨demote_accepted s c cl, mem⟩, fun l => ?_, fun l => ?_, fun l => ?_⟩
  · cases claim.symm.trans hx
    exact ⟨waiting, rfl, rfl⟩
  · rw [line, apply_ite LineRecord.queue]
  · rw [line, apply_ite LineRecord.driver, ite_self]
  · rw [line, apply_ite LineRecord.state, ite_self]

theorem amended_claim? (claim : s.claim? c = some cl) (p : Priority) (limit : Nat) (d : ClaimSlot) : (amended c cl p limit s).claim? d =
    if c = d then some { cl with priority := p, waitLimit := timerOfMillis limit } else s.claim? d := by
  rw [State.claim?, amended, amended_claimEntry s claim]
  split <;> rfl

/-- A new wait limit decides nothing in the queues. -/
theorem waitLimit_unchanged (s : State) (c : ClaimSlot) (limit : Option Nat) :
    Unchanged s (s.updClaim c fun x => { x with waitLimit := limit }) := by
  refine .of rfl rfl (fun d => ?_) (fun _ => rfl) (fun r rt route => .inr ⟨rt, route, rfl⟩) fun d x hx => ?_
  · rw [waits, waits, State.updClaim_claim?]
    split
    · cases s.claim? d with
      | none => rfl
      | some y =>
        rw [Option.map_some, Option.filter_some, Option.filter_some, apply_ite (Option.map _), apply_ite (Option.map _)]
        rfl
    · rfl
  · rw [State.updClaim_claim?] at hx
    split at hx
    · obtain ⟨y, hy, e⟩ := Option.map_eq_some_iff.mp hx
      exact ⟨y, hy, by rw [← e], by rw [← e]⟩
    · exact ⟨x, hx, rfl, rfl⟩

theorem amended_places {p : Priority} (limit : Nat) (sound : LinesSound s) (claim : s.claim? c = some cl) (waiting : cl.waiting = true)
    (other : cl.priority ≠ p) : Places c { cl with priority := p, waitLimit := timerOfMillis limit } s (amended c cl p limit s) := by
  have line := reprioritise_line (s := s.updClaim c fun x => { x with waitLimit := timerOfMillis limit }) (c := c)
    (sound.claimMembers c cl claim).2 other
  refine ⟨reprioritise_routes _ c cl p, amended_claim? claim p limit, waiting, sound.claimMembers c cl claim, fun x hx => ?_,
    fun free => (by cases free.symm.trans claim), .inl ?_, fun l => ?_, fun l => ?_, fun l => ?_⟩
  · cases claim.symm.trans hx
    exact ⟨waiting, rfl, rfl⟩
  · rw [amended, reprioritise_accepted, if_neg other]
    rfl
  · rw [amended, line, apply_ite LineRecord.queue]
    rfl
  · rw [amended, line, apply_ite LineRecord.driver, ite_self]
    rfl
  · rw [amended, line, apply_ite LineRecord.state, ite_self]
    rfl

end

/-! ### A route becomes ACTIVE -/

theorem activate_route? {s : State} {r : RouteSlot} {rt : Route} (route : s.route? r = some rt) (q : RouteSlot) :
    (activate r s).route? q = if r = q then some { rt with
      state := .active
      forced := heldMembers s 0 rt.members
      forcedSince := rt.forcedSince || heldMembers s 0 rt.members != 0#8 } else s.route? q := by
  simp only [activate, route]
  rw [route?_congr (setLineStates_keep _ _).routes, State.updRoute_route?]
  split
  · rename_i same
    subst same
    rw [route]
    rfl
  · rfl

/-- A CONNECTING route that becomes ACTIVE drives its lines as before, and their states are set. -/
theorem activate_agree {s : State} {r : RouteSlot} {rt : Route} {d : Nat} (agree : LinesAgree s) (route : s.route? r = some rt)
    (connecting : rt.state = .connecting d) : LinesAgree (activate r s) ∧ (GrantsChecked s → GrantsChecked (activate r s)) := by
  have before := agree.handed []
  have line := activate_line (s := s) route
  have queue (l : LineNo) : ((activate r s).line l).queue = (s.line l).queue := by rw [line, apply_ite LineRecord.queue, ite_self]
  have driver (l : LineNo) : ((activate r s).line l).driver = (s.line l).driver := by rw [line, apply_ite LineRecord.driver, ite_self]
  have faces (q : RouteSlot) : (drives (activate r s) q).map Route.face = (drives s q).map Route.face := by
    rw [drives, drives, activate_route? route]
    split
    · rename_i same
      subst same
      have live : rt.live = true := by rw [Route.live, connecting]
      rw [route, Option.filter_some, Option.filter_some, live]
      show Option.map _ (if (true && rt.isDriver) then _ else _) = _
      split <;> rfl
    · rfl
  have waiting (c : ClaimSlot) : waits (activate r s) c = waits s c := waits_congr (claim?_congr (activate_claims s r) c)
  have sound : LinesSound (activate r s) := by
    refine before.sound.remove (fun _ => true) (fun _ => true) (by rw [activate_accepted, List.filter_true])
      (fun l => by rw [queue, List.filter_true]) (fun l => by rw [driver, filter_true']) (fun c => by rw [waiting, if_pos rfl])
      (fun q => by rw [faces, if_pos rfl]) (fun q x hx => ?_) fun c cl claim => ?_
    · rw [activate_route? route] at hx
      rcases place_cases hx with e | old
      · cases e
        exact before.sound.routeMembers r rt route
      · exact before.sound.routeMembers q x old
    · exact before.sound.claimMembers c cl ((claim?_congr (activate_claims s r) c).symm.trans claim)
  have front (l : LineNo) : SameFront s (activate r s) l := by
    refine ⟨by rw [queueHead, queue]; rfl, ?_⟩
    rw [lineDriver_eq, lineDriver_eq, driver]
    cases (s.line l).driver with
    | none => rfl
    | some q =>
      have kind := congrArg (Option.map Prod.fst) (faces q)
      rw [Option.map_map, Option.map_map] at kind
      simp only [Option.bind_some, Option.map_map]
      exact kind
  have handed : Handed (GrantsChecked s) [] [] (activate r s) := by
    refine ⟨sound, fun c cl hc awaits l member => ?_, fun l _ => ?_, fun g c cl hc overlooked => ?_⟩
    · exact (front l).driver_none.mpr (before.marks c cl (waiting c ▸ hc) awaits l member)
    · rw [line]
      split
      · rfl
      · rename_i out
        have other (q : RouteSlot) (hq : (s.line l).driver = some q) : r ≠ q := by
          rintro rfl
          obtain ⟨x, hx, member⟩ := (before.sound.driver l r).mp hq
          cases route.symm.trans (drives_some.mp hx).1
          exact out member
        rw [before.states l List.not_mem_nil]
        refine (lineStateOf_congr (front l).head ?_).symm
        rw [lineDriver_eq, lineDriver_eq, driver]
        cases driver : (s.line l).driver with
        | none => rfl
        | some q =>
          rw [Option.bind_some, Option.bind_some, drives_congr ((activate_route? route q).trans (if_neg (other q driver)))]
    · exact before.listed g c cl (waiting c ▸ hc) (overlooked.of_same rfl fun l _ => front l)
  refine ⟨handed.agree fun c cl hc awaits l member => ?_, handed.checked⟩
  rw [(front l).head]
  exact agree.awaitingHead c cl (waiting c ▸ hc) awaits l member

end Sys2Proof.Machine


/-! The work list of an event brings the lines and claims handed on in order (R88 to R92). -/

namespace Sys2Proof.Machine

/-! ### Marks -/

section

variable {G : Prop} {own ls : List ClaimSlot} {s : State} {c : ClaimSlot}

theorem mark_waits (s : State) (c : ClaimSlot) (b : Bool) (d : ClaimSlot) : waits (s.updClaim c fun cl => { cl with awaiting := b }) d =
    if c = d then (waits s d).map fun cl => { cl with awaiting := b } else waits s d := by
  rw [waits, waits, State.updClaim_claim?]
  split
  · cases s.claim? d with
    | none => rfl
    | some cl =>
      rw [Option.map_some, Option.filter_some, Option.filter_some, apply_ite (Option.map _)]
      rfl
  · rfl

/-- Marks decide nothing in the queues. -/
theorem mark_sound (sound : LinesSound s) (c : ClaimSlot) (b : Bool) : LinesSound (s.updClaim c fun cl => { cl with awaiting := b }) := by
  refine sound.remove (fun _ => true) (fun _ => true) (List.filter_true _).symm (fun l => (List.filter_true _).symm)
    (fun l => (filter_true' _).symm) (fun d => ?_) (fun r => by rw [if_pos rfl]; rfl) sound.routeMembers fun d x hx => ?_
  · rw [if_pos rfl, mark_waits]
    split
    · rw [Option.map_map]
      rfl
    · rfl
  · rw [State.updClaim_claim?] at hx
    split at hx
    · obtain ⟨y, hy, e⟩ := Option.map_eq_some_iff.mp hx
      exact e ▸ sound.claimMembers d y hy
    · exact sound.claimMembers d x hx

end

section

variable {G : Prop} {own : List ClaimSlot} {ls : List LineNo} {s : State} {c : ClaimSlot}

theorem Handed.append_nil (h : Handed G own ls s) : Handed G own (ls ++ []) s := by rwa [List.append_nil]

/-- A claim that is not overlooked need not be among those that may be. -/
theorem Handed.settled (h : Handed G (c :: own) ls s) (fine : G → ∀ cl, waits s c = some cl → ¬ Overlooked s c cl) : Handed G own ls s :=
  ⟨h.sound, h.marks, h.states, fun g d cl waiting overlooked => by
    rcases h.listed g d cl waiting overlooked with mem | line
    · rcases List.mem_cons.mp mem with rfl | mem
      · exact absurd overlooked (fine g cl waiting)
      · exact .inl mem
    · exact .inr line⟩

/-- A claim gets a mark or loses it: with its queues at its head and no driver on its lines, or away from the head of one of them. -/
theorem Handed.mark {b : Bool} (h : Handed G (c :: own) ls s)
    (free : b = true → ∀ cl, waits s c = some cl → ∀ l ∈ linesOf cl.members, lineDriver s l = none)
    (displaced : b = false → ∀ cl, waits s c = some cl → ¬ ∀ l ∈ linesOf cl.members, queueHead s l = some c) :
    Handed G own ls (s.updClaim c fun cl => { cl with awaiting := b }) := by
  refine ⟨mark_sound h.sound c b, fun d x hx awaits => ?_, h.states, fun g d x hx overlooked => ?_⟩
  · rw [mark_waits] at hx
    split at hx
    · rename_i same
      subst same
      obtain ⟨y, hy, rfl⟩ := Option.map_eq_some_iff.mp hx
      exact free awaits y hy
    · exact h.marks d x hx awaits
  · rw [mark_waits] at hx
    split at hx
    · rename_i same
      subst same
      obtain ⟨y, hy, rfl⟩ := Option.map_eq_some_iff.mp hx
      obtain ⟨heads, found⟩ := overlooked
      cases b with
      | false => exact absurd heads (displaced rfl y hy)
      | true =>
        rcases found with ⟨-, unmarked⟩ | ⟨some_, -⟩
        · cases unmarked
        · exact absurd (driversOn_eq_nil.mpr (free rfl y hy)) some_
    · rename_i other
      have same : Overlooked s d x := overlooked
      exact (h.listed g d x hx same).imp_left fun mem => (List.mem_cons.mp mem).resolve_left (Ne.symm other)

theorem AwaitingHead.mark {b : Bool} (heads : AwaitingHead s)
    (own_ : b = true → ∀ cl, waits s c = some cl → ∀ l ∈ linesOf cl.members, queueHead s l = some c) :
    AwaitingHead (s.updClaim c fun cl => { cl with awaiting := b }) := by
  intro d x hx awaits
  rw [mark_waits] at hx
  split at hx
  · rename_i same
    subst same
    obtain ⟨y, hy, rfl⟩ := Option.map_eq_some_iff.mp hx
    exact own_ awaits y hy
  · exact heads d x hx awaits

end

/-! ### Claims that no longer head their queues lose their marks -/

section

/-- One claim of those that `dropDisplaced` goes through. -/
def displace (t : State) (c : ClaimSlot) : State :=
  match t.claim? c with
  | none => t
  | some cl => if cl.waiting && !headsAll t c (linesOf cl.members) then unmarkAwaiting c t else t

theorem dropDisplaced_eq (s : State) : dropDisplaced s = s.accepted.foldl displace s := rfl

variable {G : Prop} {own : List ClaimSlot} {ls : List LineNo} {s : State}

theorem displace_cases (s : State) (c : ClaimSlot) :
    (displace s c = unmarkAwaiting c s ∧ ∃ cl, waits s c = some cl ∧ ¬ ∀ l ∈ linesOf cl.members, queueHead s l = some c) ∨
      (displace s c = s ∧ ∀ cl, waits s c = some cl → ∀ l ∈ linesOf cl.members, queueHead s l = some c) := by
  unfold displace
  split
  · rename_i free
    refine .inr ⟨rfl, fun cl waiting => ?_⟩
    cases free.symm.trans (waits_some.mp waiting).1
  · rename_i cl claim
    split
    · rename_i both
      rw [Bool.and_eq_true] at both
      refine .inl ⟨rfl, cl, waits_some.mpr ⟨claim, both.1⟩, fun heads => ?_⟩
      rw [headsAll_iff.mpr heads] at both
      cases both.2
    · rename_i either
      refine .inr ⟨rfl, fun x waiting => ?_⟩
      obtain ⟨same, waiting⟩ := waits_some.mp waiting
      cases claim.symm.trans same
      rw [waiting] at either
      exact headsAll_iff.mp (by simpa using either)

theorem displace_handed (h : Handed G own ls s) (c : ClaimSlot) : Handed G own ls (displace s c) := by
  have more : Handed G (c :: own) ls s :=
    ⟨h.sound, h.marks, h.states, fun g d cl waiting overlooked =>
      (h.listed g d cl waiting overlooked).imp_left (List.mem_cons_of_mem c)⟩
  rcases displace_cases s c with ⟨e, cl, waiting, away⟩ | ⟨e, -⟩
  · rw [e]
    refine more.mark nofun fun _ x hx => ?_
    cases waiting.symm.trans hx
    exact away
  · rw [e]
    exact h

/-- The claims gone through that keep their marks head their queues; no other gets one. -/
theorem displaced_marks (cs : List ClaimSlot) (s : State) : (∀ l, queueHead (cs.foldl displace s) l = queueHead s l) ∧
    ∀ c cl, waits (cs.foldl displace s) c = some cl → cl.awaiting = true →
      (∃ x, waits s c = some x ∧ x.members = cl.members ∧ x.awaiting = true) ∧
        (c ∈ cs → ∀ l ∈ linesOf cl.members, queueHead s l = some c) := by
  induction cs generalizing s with
  | nil => exact ⟨fun _ => rfl, fun c cl waiting awaits => ⟨⟨cl, waiting, rfl, awaits⟩, nofun⟩⟩
  | cons d cs ih =>
    obtain ⟨heads, marks⟩ := ih (displace s d)
    have head (l : LineNo) : queueHead (displace s d) l = queueHead s l := by
      rcases displace_cases s d with ⟨e, -⟩ | ⟨e, -⟩ <;> rw [e]
      rfl
    refine ⟨fun l => (heads l).trans (head l), fun c cl waiting awaits => ?_⟩
    obtain ⟨⟨x, hx, members, awaits⟩, gone⟩ := marks c cl waiting awaits
    rcases displace_cases s d with ⟨e, -, -, -⟩ | ⟨e, at_head⟩
    · rw [e, unmarkAwaiting, mark_waits] at hx
      split at hx
      · obtain ⟨y, -, rfl⟩ := Option.map_eq_some_iff.mp hx
        cases awaits
      · rename_i other
        refine ⟨⟨x, hx, members, awaits⟩, fun mem l member => ?_⟩
        rw [← head l]
        exact gone ((List.mem_cons.mp mem).resolve_left (Ne.symm other)) l member
    · rw [e] at hx
      refine ⟨⟨x, hx, members, awaits⟩, fun mem l member => ?_⟩
      rcases List.mem_cons.mp mem with rfl | mem
      · exact at_head x hx l (members ▸ member)
      · rw [← head l]
        exact gone mem l member

theorem dropDisplaced_handed (h : Handed G own ls s) : Handed G own ls (dropDisplaced s) ∧ AwaitingHead (dropDisplaced s) := by
  rw [dropDisplaced_eq]
  refine ⟨List.foldlRecOn s.accepted displace h fun t ht c _ => displace_handed ht c, fun c cl waiting awaits l member => ?_⟩
  obtain ⟨heads, marks⟩ := displaced_marks s.accepted s
  obtain ⟨⟨x, hx, -, -⟩, at_head⟩ := marks c cl waiting awaits
  rw [heads]
  exact at_head ((h.sound.accepted c).mpr ⟨x, hx⟩) l member

end

/-! ### Preemption -/

/-- How many routes drive lines. -/
def liveDrivers (s : State) : Nat := ((every 96).filter fun r => (drives s r).isSome).length

theorem liveDrivers_le (s : State) : liveDrivers s ≤ 96 :=
  (List.length_filter_le _ _).trans (List.length_finRange).le

section

variable {G : Prop} {own : List ClaimSlot} {ls : List LineNo} {s : State}

theorem closeRoute_liveDrivers {r : RouteSlot} {rt : Route} (why : CloseReason) (driver : drives s r = some rt) :
    liveDrivers (closeRoute why r s) + 1 = liveDrivers s := by
  obtain ⟨route, live, -⟩ := drives_some.mp driver
  have at_r : drives (closeRoute why r s) r = none := by
    rw [drives, closeRoute_route? why route live, if_pos rfl, Option.filter_some]
    rfl
  have count := length_filter_every (p := fun q => (drives s q).isSome) (q := fun q => (drives (closeRoute why r s) q).isSome) r
    fun q other => by rw [drives, closeRoute_route? why route live, if_neg other]; rfl
  rw [at_r, driver] at count
  exact count

/-- Some drivers are preempted, one after the other: all of them stop driving, and hand on their lines. -/
theorem preempted (ps : List (RouteSlot × Route)) (h : Handed G own ls s) (heads : AwaitingHead s)
    (drive : ∀ p ∈ ps, drives s p.1 = some p.2 ∨ drives s p.1 = none) :
    Handed G own (ls ++ ps.flatMap fun p => linesOf p.2.members) (ps.foldl (fun t p => closeRoute .preempted p.1 t) s) ∧
      AwaitingHead (ps.foldl (fun t p => closeRoute .preempted p.1 t) s) ∧
      (∀ r rt, drives (ps.foldl (fun t p => closeRoute .preempted p.1 t) s) r = some rt → drives s r = some rt ∧ ∀ p ∈ ps, p.1 ≠ r) ∧
      liveDrivers (ps.foldl (fun t p => closeRoute .preempted p.1 t) s) ≤ liveDrivers s := by
  induction ps generalizing s ls with
  | nil => exact ⟨h.mono (List.subset_append_left ..), heads, fun r rt hr => ⟨hr, nofun⟩, le_refl _⟩
  | cons p ps ih =>
    obtain ⟨first, rest⟩ := List.forall_mem_cons.mp drive
    have closed : Handed G own (ls ++ linesOf p.2.members) (closeRoute .preempted p.1 s) ∧ AwaitingHead (closeRoute .preempted p.1 s) ∧
        (∀ r, drives (closeRoute .preempted p.1 s) r = if p.1 = r then none else drives s r) ∧
        liveDrivers (closeRoute .preempted p.1 s) ≤ liveDrivers s := by
      by_cases live : ∃ rt, s.route? p.1 = some rt ∧ rt.live = true
      · obtain ⟨rt, route, live⟩ := live
        have table (r : RouteSlot) : drives (closeRoute .preempted p.1 s) r = if p.1 = r then none else drives s r := by
          rw [drives, closeRoute_route? .preempted route live]
          split <;> rfl
        have given : linesGivenUp rt ⊆ linesOf p.2.members := by
          intro l hl
          obtain ⟨live, isDriver, member⟩ := mem_linesGivenUp.mp hl
          have driver := drives_some.mpr ⟨route, live, isDriver⟩
          rcases first with same | none_
          · cases driver.symm.trans same
            exact member
          · cases driver.symm.trans none_
        refine ⟨(closeRoute_handed .preempted h route live).mono (List.append_subset.mpr
          ⟨List.subset_append_left .., List.Subset.trans given (List.subset_append_right ..)⟩), fun c cl waiting awaits l member => ?_, table, ?_⟩
        · rw [waits_congr (claim?_congr (closeRoute_claims ..) c)] at waiting
          rw [queueHead, closeRoute_queue]
          exact heads c cl waiting awaits l member
        · rcases first with driver | none_
          · have := closeRoute_liveDrivers .preempted driver
            omega
          · refine (List.Sublist.length_le ?_)
            refine List.monotone_filter_right _ fun r hr => ?_
            rw [table] at hr
            split at hr
            · cases hr
            · exact hr
      · rw [closeRoute_idle fun rt route => Bool.eq_false_iff.mpr fun l => live ⟨rt, route, l⟩]
        refine ⟨h.mono (List.subset_append_left ..), heads, fun r => ?_, le_refl _⟩
        split
        · rename_i same
          subst same
          rcases first with driver | none_
          · obtain ⟨route, l, -⟩ := drives_some.mp driver
            exact absurd ⟨p.2, route, l⟩ live
          · exact none_
        · rfl
    obtain ⟨handed, heads, table, fewer⟩ := closed
    obtain ⟨handed, heads, stay, fewer'⟩ := ih handed heads fun q hq => by
      rw [table]
      split
      · exact .inr rfl
      · exact rest q hq
    refine ⟨by rwa [List.flatMap_cons, ← List.append_assoc], heads, fun r rt hr => ?_, fewer'.trans fewer⟩
    obtain ⟨hr, others⟩ := stay r rt hr
    rw [table] at hr
    split at hr
    · cases hr
    · rename_i other
      exact ⟨hr, List.forall_mem_cons.mpr ⟨other, others⟩⟩

/-- Closings leave the claims. -/
theorem preempted_waits (ps : List (RouteSlot × Route)) (s : State) (c : ClaimSlot) :
    waits (ps.foldl (fun t p => closeRoute .preempted p.1 t) s) c = waits s c :=
  foldl_keeps (waits · c) (fun _ _ => waits_congr (claim?_congr (closeRoute_claims ..) c)) ps s

theorem preempted_head (ps : List (RouteSlot × Route)) (s : State) (l : LineNo) :
    queueHead (ps.foldl (fun t p => closeRoute .preempted p.1 t) s) l = queueHead s l :=
  foldl_keeps (queueHead · l) (fun _ _ => by rw [queueHead, closeRoute_queue]; rfl) ps s

end

/-! ### The grant check -/

section

variable {G : Prop} {own : List ClaimSlot} {ls : List LineNo} {s : State}

/-- A grant check leaves its claim not overlooked, and hands on the lines of the routes that it preempts. -/
theorem grantCheck_handed {c : ClaimSlot} (h : Handed G (c :: own) ls s) (heads : AwaitingHead s) :
    Handed G own (ls ++ (grantCheck c s).2) (grantCheck c s).1 ∧ AwaitingHead (grantCheck c s).1 ∧
      liveDrivers (grantCheck c s).1 ≤ liveDrivers s ∧
      ((grantCheck c s).2 ≠ [] → liveDrivers (grantCheck c s).1 < liveDrivers s) := by
  have idle (fine : ∀ cl, waits s c = some cl → ¬ Overlooked s c cl) : Handed G own (ls ++ []) s ∧ AwaitingHead s ∧
      liveDrivers s ≤ liveDrivers s ∧ (([] : List LineNo) ≠ [] → liveDrivers s < liveDrivers s) :=
    ⟨(h.settled fun _ => fine).append_nil, heads, le_refl _, fun ne => absurd rfl ne⟩
  unfold grantCheck
  split
  · rename_i free
    exact idle fun cl waiting => by cases free.symm.trans (waits_some.mp waiting).1
  · rename_i cl claim
    have only {x : Claim} (waiting : waits s c = some x) : cl = x := by
      cases claim.symm.trans (waits_some.mp waiting).1
      rfl
    split
    · rename_i settled
      refine idle fun x waiting => ?_
      rw [only waiting, (waits_some.mp waiting).2] at settled
      cases settled
    · split
      · rename_i displaced
        have displaced : ¬ ∀ l ∈ linesOf cl.members, queueHead s l = some c := fun at_head => by
          rw [headsAll_iff.mpr at_head] at displaced
          cases displaced
        exact ⟨(h.mark (b := false) nofun fun _ x hx => only hx ▸ displaced).append_nil, heads.mark (b := false) nofun, le_refl _,
          fun ne => absurd rfl ne⟩
      · rename_i at_head
        have at_head : ∀ l ∈ linesOf cl.members, queueHead s l = some c := headsAll_iff.mp (by simpa using at_head)
        dsimp only
        split
        · rename_i free
          have free := driversOn_eq_nil.mp (List.isEmpty_iff.mp free)
          exact ⟨(h.mark (b := true) (fun _ x hx => only hx ▸ free) nofun).append_nil, heads.mark fun _ x hx => only hx ▸ at_head, le_refl _,
            fun ne => absurd rfl ne⟩
        · rename_i found
          split
          · obtain ⟨p, ps, drivers⟩ : ∃ p ps, driversOn s (linesOf cl.members) = p :: ps :=
              List.exists_cons_of_ne_nil fun e => found (by rw [e]; rfl)
            have each : ∀ p ∈ driversOn s (linesOf cl.members), drives s p.1 = some p.2 := fun p mem => by
              obtain ⟨l, -, driver⟩ := mem_driversOn.mp mem
              exact (lineDriver_some.mp driver).2
            obtain ⟨handed, heads, stay, -⟩ := preempted (driversOn s (linesOf cl.members)) h heads fun p mem => .inl (each p mem)
            have free : ∀ l ∈ linesOf cl.members,
                lineDriver ((driversOn s (linesOf cl.members)).foldl (fun t p => closeRoute .preempted p.1 t) s) l = none := by
              intro l member
              by_contra driven
              obtain ⟨x, driver⟩ := Option.ne_none_iff_exists'.mp driven
              obtain ⟨drives, on_line⟩ := handed.sound.lineDriver_some.mp driver
              obtain ⟨before, others⟩ := stay x.1 x.2 drives
              exact others x (mem_driversOn.mpr ⟨l, member, h.sound.lineDriver_some.mpr ⟨before, on_line⟩⟩) rfl
            have only' {x : Claim} (waiting : waits ((driversOn s (linesOf cl.members)).foldl (fun t p => closeRoute .preempted p.1 t) s) c = some x) :
                cl = x := only ((preempted_waits _ s c).symm.trans waiting)
            have fewer : liveDrivers ((driversOn s (linesOf cl.members)).foldl (fun t p => closeRoute .preempted p.1 t) s) < liveDrivers s := by
              have first := closeRoute_liveDrivers .preempted (each p (drivers ▸ List.mem_cons_self))
              obtain ⟨route, live, -⟩ := drives_some.mp (each p (drivers ▸ List.mem_cons_self))
              have table (r : RouteSlot) : drives (closeRoute .preempted p.1 s) r = if p.1 = r then none else drives s r := by
                rw [drives, closeRoute_route? .preempted route live]
                split <;> rfl
              have heads' : AwaitingHead (closeRoute .preempted p.1 s) := fun d x waiting awaits l member => by
                rw [waits_congr (claim?_congr (closeRoute_claims ..) d)] at waiting
                rw [queueHead, closeRoute_queue]
                exact ‹AwaitingHead s› d x waiting awaits l member
              obtain ⟨-, -, -, rest⟩ := preempted ps (closeRoute_handed .preempted h route live) heads' fun q hq => by
                rw [table]
                split
                · exact .inr rfl
                · exact .inl (each q (drivers ▸ List.mem_cons_of_mem p hq))
              rw [drivers, List.foldl_cons]
              omega
            refine ⟨handed.mark (fun _ x hx => only' hx ▸ free) nofun, heads.mark fun _ x hx l member => ?_, fewer.le, fun _ => fewer⟩
            rw [preempted_head]
            exact at_head l (only' hx ▸ member)
          · rename_i firm
            refine idle fun x waiting overlooked => ?_
            cases only waiting
            obtain ⟨-, ⟨free, -⟩ | ⟨-, three, each⟩⟩ := overlooked
            · exact found (by rw [free]; rfl)
            · exact firm (by simpa [three] using fun a b mem => each (a, b) mem)

/-! ### The work list -/

theorem setLineState_queueDriver (s : State) (l k : LineNo) :
    ((setLineState k s).line l).queue = (s.line l).queue ∧ ((setLineState k s).line l).driver = (s.line l).driver := by
  rw [setLineState_line]
  split <;> exact ⟨rfl, rfl⟩

theorem setLineState_lineDriver (s : State) (l k : LineNo) : lineDriver (setLineState k s) l = lineDriver s l := by
  rw [lineDriver_eq, lineDriver_eq, (setLineState_queueDriver s l k).2]
  rfl

theorem setLineState_head (s : State) (l k : LineNo) : queueHead (setLineState k s) l = queueHead s l := by
  rw [queueHead, (setLineState_queueDriver s l k).1]
  rfl

/-- A line on the list gets its state; the head of its queue is left to check. -/
theorem setLineState_handed {l : LineNo} (h : Handed G own (l :: ls) s) :
    Handed G ((queueHead s l).toList ++ own) ls (setLineState l s) := by
  have queue (k : LineNo) := (setLineState_queueDriver s k l).1
  have driver (k : LineNo) := (setLineState_queueDriver s k l).2
  refine ⟨?_, fun c cl waiting awaits k member => ?_, fun k out => ?_, fun g c cl waiting overlooked => ?_⟩
  · exact h.sound.remove (fun _ => true) (fun _ => true) (List.filter_true _).symm (fun k => by rw [queue, List.filter_true])
      (fun k => by rw [driver, filter_true']) (fun c => by rw [if_pos rfl]; rfl) (fun r => by rw [if_pos rfl]; rfl) h.sound.routeMembers
      h.sound.claimMembers
  · rw [setLineState_lineDriver]
    exact h.marks c cl waiting awaits k member
  · rw [lineStateOf_setLineState, setLineState_line]
    split
    · rfl
    · rename_i other
      exact h.states k fun mem => (List.mem_cons.mp mem).elim (fun e => other e.symm) out
  · have before : Overlooked s c cl := overlooked.of_same rfl fun k _ =>
      ⟨setLineState_head s k l, by rw [setLineState_lineDriver]⟩
    rcases h.listed g c cl waiting before with mem | ⟨k, member, mem⟩
    · exact .inl (List.mem_append_right _ mem)
    · rcases List.mem_cons.mp mem with rfl | mem
      · exact .inl (List.mem_append_left _ (by simp [before.1 k member]))
      · exact .inr ⟨k, member, mem⟩

/-- What a part of the work list does: the lines it goes through are settled, those that it frees are handed on, and it frees lines only
by closing routes. -/
structure Worked (G : Prop) (own : List ClaimSlot) (ls : List LineNo) (s : State) (x : State × List LineNo) : Prop where
  handed : Handed G own (ls ++ x.2) x.1
  heads : AwaitingHead x.1
  drivers : liveDrivers x.1 ≤ liveDrivers s
  closed : x.2 ≠ [] → liveDrivers x.1 < liveDrivers s

theorem checkLine_worked {l : LineNo} (h : Handed G own (l :: ls) s) (heads : AwaitingHead s) : Worked G own ls s (checkLine l s) := by
  have set := setLineState_handed h
  have heads : AwaitingHead (setLineState l s) := fun c cl waiting awaits k member => by
    rw [setLineState_head]
    exact heads c cl waiting awaits k member
  have count : liveDrivers (setLineState l s) = liveDrivers s := rfl
  unfold checkLine
  dsimp only
  split
  · rename_i empty
    rw [setLineState_head] at empty
    rw [empty] at set
    exact ⟨set.append_nil, heads, count.le, fun ne => absurd rfl ne⟩
  · rename_i c head
    rw [setLineState_head] at head
    rw [head] at set
    obtain ⟨handed, heads, drivers, closed⟩ := grantCheck_handed (own := own) set heads
    exact ⟨handed, heads, count ▸ drivers, count ▸ closed⟩

theorem checkLines_worked (ks : List LineNo) (h : Handed G own (ks ++ ls) s) (heads : AwaitingHead s) :
    Worked G own ls s (checkLines ks s) := by
  induction ks generalizing s ls with
  | nil => exact ⟨h.append_nil, heads, le_refl _, fun ne => absurd rfl ne⟩
  | cons k ks ih =>
    have first : Worked G own (ks ++ ls) s (checkLine k s) := checkLine_worked h heads
    have rest := ih (ls := ls ++ (checkLine k s).2) (s := (checkLine k s).1) (List.append_assoc ks ls _ ▸ first.handed) first.heads
    rw [checkLines]
    refine ⟨List.append_assoc ls _ _ ▸ rest.handed, rest.heads, rest.drivers.trans first.drivers, fun some_ => ?_⟩
    dsimp only at some_ ⊢
    by_cases here : (checkLine k s).2 = []
    · exact (rest.closed (by simpa [here] using some_)).trans_le first.drivers
    · exact rest.drivers.trans_lt (first.closed here)

theorem checkAll_cons (n : Nat) (l : LineNo) (ls : List LineNo) (s : State) :
    checkAll (n + 1) (l :: ls) s = checkAll n (checkLines (l :: ls) s).2 (checkLines (l :: ls) s).1 := rfl

/-- The work list comes to its end: each round that frees lines has closed a route. -/
theorem checkAll_handed (n : Nat) (h : Handed G own ls s) (heads : AwaitingHead s) (enough : liveDrivers s < n) :
    Handed G own [] (checkAll n ls s) ∧ AwaitingHead (checkAll n ls s) := by
  induction n generalizing s ls with
  | zero => omega
  | succ n ih =>
    cases ls with
    | nil => exact ⟨h, heads⟩
    | cons l ls =>
      have round : Worked G own [] s (checkLines (l :: ls) s) := checkLines_worked (l :: ls) (by rwa [List.append_nil]) heads
      rw [checkAll_cons]
      by_cases more : (checkLines (l :: ls) s).2 = []
      · have handed := round.handed
        rw [more] at handed
        rw [more]
        cases n <;> exact ⟨handed, round.heads⟩
      · have closed := round.closed more
        exact ih round.handed round.heads (closed.trans_le (Nat.le_of_lt_succ enough))

end

end Sys2Proof.Machine


/-! The entry arbiter hands out the entries in order (R54, R93), and leaves the lines in order. -/

namespace Sys2Proof.Machine

/-! ### The claim that comes first -/

/-- The claim that the entry arbiter serves comes before every other claim that awaits an entry (R54). -/
theorem bestAwaiting_first {s : State} {c : ClaimSlot} (sound : LinesSound s) (best : bestAwaiting s = some c) :
    ∃ cl, waits s c = some cl ∧ cl.awaiting = true ∧
      ∀ d dl, waits s d = some dl → dl.awaiting = true → d ≠ c → Outranks s.accepted c cl.priority d dl.priority := by
  obtain ⟨higher, p, lower, split, found, none_⟩ := List.findSome?_eq_some_iff.mp best
  have awaits {d : ClaimSlot} {q : Priority} : awaitsAt s q d = true ↔ ∃ dl, waits s d = some dl ∧ dl.awaiting = true ∧ dl.priority = q := by
    unfold awaitsAt
    constructor
    · intro h
      split at h
      · cases h
      · rename_i dl claim
        simp only [Bool.and_eq_true, decide_eq_true_eq] at h
        exact ⟨dl, waits_some.mpr ⟨claim, h.1.1⟩, h.1.2, h.2⟩
    · rintro ⟨dl, waiting, awaits, priority⟩
      obtain ⟨claim, waiting⟩ := waits_some.mp waiting
      simp [claim, waiting, awaits, priority]
  obtain ⟨cl, waiting, awaiting, priority⟩ := awaits.mp (List.find?_some found)
  refine ⟨cl, waiting, awaiting, fun d dl d_waits d_awaits ne => ?_⟩
  have accepted := (sound.accepted d).mpr ⟨dl, d_waits⟩
  have member : dl.priority ∈ higher ++ p :: lower := by
    rw [← split]
    generalize dl.priority = q
    revert q
    decide
  rcases List.mem_append.mp member with above | here
  · have nobody := List.find?_eq_none.mp (none_ dl.priority above) d accepted
    exact absurd (awaits.mpr ⟨dl, d_waits, d_awaits, rfl⟩) nobody
  · rcases List.mem_cons.mp here with same | below
    · obtain ⟨own, before, after, order, earlier⟩ := List.find?_eq_some_iff_append.mp found
      have absent : d ∉ before := fun mem => by
        have := earlier d mem
        rw [awaits.mpr ⟨dl, d_waits, d_awaits, same⟩] at this
        cases this
      have own_absent : c ∉ before := fun mem => by
        have := earlier c mem
        rw [own] at this
        cases this
      refine .inr ⟨priority.trans same.symm, ?_⟩
      rw [order, List.idxOf_append_of_notMem absent, List.idxOf_append_of_notMem own_absent, List.idxOf_cons_self,
        List.idxOf_cons_ne _ (Ne.symm ne)]
      omega
    · have descending : (higher ++ p :: lower).Pairwise (· > ·) := split ▸ by decide
      exact .inl (priority ▸ (List.pairwise_cons.mp (List.pairwise_append.mp descending).2.1).1 _ below)

/-- The order of acceptance of claims that stay in it (R69). -/
theorem idxOf_lt_of_sublist {xs ys : List ClaimSlot} (once : xs.Nodup) (sub : ys.Sublist xs) {c d : ClaimSlot} (hc : c ∈ ys) (hd : d ∈ ys) :
    ys.idxOf c < ys.idxOf d ↔ xs.idxOf c < xs.idxOf d := by
  have ascending : xs.Pairwise fun a b => xs.idxOf a < xs.idxOf b := List.pairwise_iff_getElem.mpr fun i j hi hj lt => by
    rwa [List.Nodup.idxOf_getElem once, List.Nodup.idxOf_getElem once]
  have carries {a b : ClaimSlot} (ha : a ∈ ys) (hb : b ∈ ys) (lt : ys.idxOf a < ys.idxOf b) : xs.idxOf a < xs.idxOf b := by
    have := List.pairwise_iff_getElem.mp (ascending.sublist sub) _ _ (List.idxOf_lt_length_of_mem ha) (List.idxOf_lt_length_of_mem hb) lt
    rwa [List.getElem_idxOf, List.getElem_idxOf] at this
  refine ⟨carries hc hd, fun lt => ?_⟩
  rcases lt_trichotomy (ys.idxOf c) (ys.idxOf d) with less | same | more
  · exact less
  · cases (List.idxOf_inj hc).mp same
    exact absurd lt (lt_irrefl _)
  · exact absurd (lt.trans (carries hd hc more)) (lt_irrefl _)

/-! ### One grant -/

/-- A route comes to drive lines that had no driver. -/
theorem LinesSound.drive {s t : State} (sound : LinesSound s) {r : RouteSlot} {rt : Route} (driver : drives t r = some rt) (free : drives s r = none)
    (undriven : ∀ l ∈ linesOf rt.members, (s.line l).driver = none) (accepted : t.accepted = s.accepted)
    (queue : ∀ l, (t.line l).queue = (s.line l).queue)
    (drivers : ∀ l, (t.line l).driver = if l ∈ linesOf rt.members then some r else (s.line l).driver)
    (claims : ∀ c, waits t c = waits s c) (routes : ∀ q, r ≠ q → drives t q = drives s q)
    (routeMembers : ∀ r rt, t.route? r = some rt → MembersSound rt.members)
    (claimMembers : ∀ c cl, t.claim? c = some cl → MembersSound cl.members) : LinesSound t := by
  refine ⟨accepted ▸ sound.once, fun c => by rw [accepted, sound.accepted]; simp only [claims], routeMembers, claimMembers, fun l q => ?_,
    fun l c => by rw [queue, sound.queue]; simp only [claims], fun l => ?_⟩
  · rw [drivers]
    by_cases same : r = q
    · subst same
      simp only [driver, Option.some.injEq, exists_eq_left']
      refine ⟨fun h => ?_, fun member => if_pos member⟩
      by_contra out
      rw [if_neg out] at h
      obtain ⟨x, hx, -⟩ := (sound.driver l r).mp h
      cases free.symm.trans hx
    · rw [routes q same, ← sound.driver]
      split
      · rename_i member
        rw [undriven l member]
        simp [same]
      · rfl
  · rw [queue]
    refine (sound.order l).imp_of_mem fun {c d} hc hd ordered => ?_
    obtain ⟨x, hx, -⟩ := (sound.queue l c).mp hc
    obtain ⟨y, hy, -⟩ := (sound.queue l d).mp hd
    exact (ahead_congr (by rw [claims]) (by rw [claims]) ⟨x, hx⟩ ⟨y, hy⟩ (by rw [accepted])).mpr ordered

/-- The records and lines after a grant of entry r to claim c. -/
structure AfterGrant (c : ClaimSlot) (cl : Claim) (r : RouteSlot) (s t : State) : Prop where
  accepted : t.accepted = s.accepted.filter (· ≠ c)
  line : ∀ l, t.line l = if l ∈ linesOf cl.members then
    { state := lineStateOf t l, driver := some r, queue := (s.line l).queue.filter (· ≠ c) } else s.line l
  claims : ∀ d, t.claim? d = if c = d then some { cl with state := .granted r, waitLimit := none, awaiting := false } else s.claim? d
  others : ∀ q, r ≠ q → t.route? q = s.route? q
  route : ∃ rt, t.route? r = some rt ∧ rt.live = true ∧ rt.kind = .driver cl.priority cl.mode ∧ rt.members = cl.members

theorem grant_after (own : Option ClaimSlot) {s : State} {c : ClaimSlot} {cl : Claim} (r : RouteSlot) (claim : s.claim? c = some cl) :
    AfterGrant c cl r s (grant own c r s).1 where
  accepted := grant_accepted own claim
  line := grant_line own claim
  claims d := by
    rw [State.claim?, grant_claimEntry own claim]
    split <;> rfl
  others q other := congrArg RouteEntry.route ((grant_routeEntry own (r := r) claim q).1 other)
  route := by
    obtain ⟨-, rt, route, -, kind, members, -, -, live⟩ := (grant_routeEntry own (r := r) claim r).2 rfl
    exact ⟨rt, route, live, kind, members⟩

/-- Grants of claims that head all their queues and find no driver. -/
structure Grantable (c : ClaimSlot) (cl : Claim) (r : RouteSlot) (s : State) : Prop where
  agree : LinesAgree s
  waits : waits s c = some cl
  awaits : cl.awaiting = true
  free : s.route? r = none

namespace AfterGrant

variable {c : ClaimSlot} {cl : Claim} {r : RouteSlot} {s t : State} (k : AfterGrant c cl r s t)

include k in
theorem waits_own : waits t c = none := by
  rw [Machine.waits, k.claims, if_pos rfl]
  rfl

include k in
theorem waits_other {d : ClaimSlot} (ne : c ≠ d) : waits t d = waits s d := waits_congr (by rw [k.claims, if_neg ne])

include k in
theorem waited {d : ClaimSlot} {dl : Claim} (h : waits t d = some dl) : c ≠ d ∧ waits s d = some dl := by
  have ne : c ≠ d := by
    rintro rfl
    cases k.waits_own.symm.trans h
  exact ⟨ne, (k.waits_other ne).symm.trans h⟩

include k in
theorem drives_other {q : RouteSlot} (ne : r ≠ q) : drives t q = drives s q := drives_congr (k.others q ne)

include k in
theorem drives_own : ∃ rt, drives t r = some rt ∧ rt.kind = .driver cl.priority cl.mode ∧ rt.members = cl.members := by
  obtain ⟨rt, route, live, kind, members⟩ := k.route
  exact ⟨rt, drives_some.mpr ⟨route, live, by rw [Route.isDriver, kind]⟩, kind, members⟩

variable (able : Grantable c cl r s)
include k able

theorem sound : LinesSound t := by
  obtain ⟨rt, driver, -, members⟩ := k.drives_own
  have claim := (waits_some.mp able.waits).1
  have base := (cancelled_removes able.agree.sound claim).sound able.agree.sound
  have undriven := able.agree.handed [] |>.marks c cl able.waits able.awaits
  have free : drives s r = none := by rw [drives, able.free]; rfl
  have line := cancelled_line s c cl
  refine base.drive driver (drives_congr (route?_congr (cancelled_routes s c cl) r) |>.trans free) (fun l member => ?_) ?_ (fun l => ?_)
    (fun l => ?_) (fun d => ?_) (fun q other => ?_) (fun q x hx => ?_) fun d x hx => ?_
  · rw [members] at member
    rw [line, if_pos member]
    exact able.agree.sound.lineDriver_none.mp (undriven l member)
  · rw [k.accepted, cancelled_accepted]
  · rw [k.line, line]
    split <;> rfl
  · rw [k.line, line, members]
    split <;> rfl
  · by_cases same : c = d
    · subst same
      rw [k.waits_own, Machine.waits, cancelled_claim? claim, if_pos rfl]
      rfl
    · rw [k.waits_other same, waits_congr ((cancelled_claim? claim d).trans (if_neg same))]
  · rw [k.drives_other other, drives_congr (route?_congr (cancelled_routes s c cl) q)]
  · by_cases same : r = q
    · subst same
      cases (drives_some.mp driver).1.symm.trans hx
      exact members ▸ able.agree.claimMembers c cl claim
    · exact able.agree.routeMembers q x ((k.others q same).symm.trans hx)
  · rw [k.claims] at hx
    split at hx
    · cases hx
      exact able.agree.claimMembers c cl claim
    · exact able.agree.claimMembers d x hx

/-- Off the lines of the granted claim a line looks as before. -/
theorem sameAt {l : LineNo} (out : l ∉ linesOf cl.members) : SameAt s t l := by
  have line : t.line l = s.line l := by rw [k.line, if_neg out]
  have driver : lineDriver t l = lineDriver s l := by
    rw [lineDriver_eq, lineDriver_eq, line]
    cases driver : (s.line l).driver with
    | none => rfl
    | some q =>
      have other : r ≠ q := by
        rintro rfl
        obtain ⟨x, hx, -⟩ := (able.agree.sound.driver l r).mp driver
        cases able.free.symm.trans (drives_some.mp hx).1
      rw [Option.bind_some, Option.bind_some, k.drives_other other]
  exact ⟨⟨by rw [queueHead, line]; rfl, by rw [driver]⟩, by rw [driver], by rw [line]⟩

/-- Another claim that awaits an entry shares no line with the granted one: both head the queues of all their lines. -/
theorem disjoint {d : ClaimSlot} {dl : Claim} (h : waits t d = some dl) (awaits : dl.awaiting = true) {l : LineNo}
    (member : l ∈ linesOf dl.members) :
    l ∉ linesOf cl.members := by
  intro shared
  obtain ⟨ne, h⟩ := k.waited h
  have first := able.agree.awaitingHead c cl able.waits able.awaits l shared
  exact ne (Option.some.inj (first.symm.trans (able.agree.awaitingHead d dl h awaits l member)))

/-- A claim that comes to head a queue of the granted claim finds a driver there that it may not preempt. -/
theorem firm {d : ClaimSlot} {dl : Claim} (h : waits t d = some dl) {l : LineNo} (member : l ∈ linesOf dl.members)
    (shared : l ∈ linesOf cl.members) :
    ∃ p ∈ driversOn t (linesOf dl.members), dl.priority = 3 → p.2.preemptible = false := by
  obtain ⟨rt, driver, kind, members⟩ := k.drives_own
  obtain ⟨ne, before⟩ := k.waited h
  refine ⟨(r, rt), mem_driversOn.mpr ⟨l, member, (k.sound able).lineDriver_some.mpr ⟨driver, members ▸ shared⟩⟩, fun three => ?_⟩
  have head := able.agree.awaitingHead c cl able.waits able.awaits l shared
  have queued := (able.agree.sound.queue l d).mpr ⟨dl, before, member⟩
  have ordered := able.agree.order l
  obtain ⟨rest, queue⟩ : ∃ rest, (s.line l).queue = c :: rest := by
    rw [queueHead] at head
    exact List.head?_eq_some_iff.mp head
  rw [queue] at ordered queued
  have behind := (List.pairwise_cons.mp ordered).1 d ((List.mem_cons.mp queued).resolve_left (Ne.symm ne))
  rw [ahead_iff, claimPriority_of_waits able.waits, claimPriority_of_waits before, three] at behind
  have top : cl.priority = 3 := by
    rcases behind with above | ⟨same, -⟩
    · exact absurd above (not_lt.mpr (Fin.le_last _))
    · exact same.symm
  simp [Route.preemptible, kind, top]

theorem handed : Handed (GrantsChecked s) [] [] t := by
  have before := able.agree.handed []
  refine ⟨k.sound able, fun d dl h awaits l member => ?_, fun l _ => ?_, fun g d dl h overlooked => ?_⟩
  · rw [(k.sameAt able (k.disjoint able h awaits member)).driver_none]
    exact before.marks d dl (k.waited h).2 awaits l member
  · by_cases member : l ∈ linesOf cl.members
    · rw [k.line, if_pos member]
    · have same := k.sameAt able member
      rw [same.state, same.lineStateOf]
      exact before.states l List.not_mem_nil
  · by_cases shares : ∃ l ∈ linesOf dl.members, l ∈ linesOf cl.members
    · obtain ⟨l, member, shared⟩ := shares
      obtain ⟨p, found, firm⟩ := k.firm able h member shared
      obtain ⟨-, ⟨none_, -⟩ | ⟨-, three, each⟩⟩ := overlooked
      · rw [none_] at found
        cases found
      · cases (each p found).symm.trans (firm three)
    · have before' := overlooked.of_same rfl fun l member => (k.sameAt able fun shared => shares ⟨l, member, shared⟩).toSameFront
      exact before.listed g d dl (k.waited h).2 before'

theorem lines_agree : LinesAgree t :=
  (k.handed able).agree fun d dl h awaits l member => by
    rw [(k.sameAt able (k.disjoint able h awaits member)).head]
    exact able.agree.awaitingHead d dl (k.waited h).2 awaits l member

/-! ### The new heads are checked in vain -/

omit k able in
theorem unmark_idle {t : State} {d : ClaimSlot} (unmarked : ∀ dl, t.claim? d = some dl → dl.awaiting = false) : unmarkAwaiting d t = t := by
  have same : (t.claimEntry d).claim.map (fun cl => { cl with awaiting := false }) = (t.claimEntry d).claim := by
    cases claim : (t.claimEntry d).claim with
    | none => rfl
    | some dl =>
      have off := unmarked dl claim
      exact congrArg some (by rw [← off])
  have claims : (unmarkAwaiting d t).claims = t.claims := ext_look fun e => by
    show State.claimEntry (t.updClaim d fun cl => { cl with awaiting := false }) e = t.claimEntry e
    rw [updClaim_claimEntry]
    split
    · rename_i at_d
      subst at_d
      rw [ClaimEntry.onClaim, same]
    · rfl
  show { t with claims := (unmarkAwaiting d t).claims } = t
  rw [claims]

omit k able in
theorem setLineState_idle {t : State} {l : LineNo} (set : (t.line l).state = lineStateOf t l) : setLineState l t = t := by
  have lines : (setLineState l t).lines = t.lines := ext_look fun m => by
    show (setLineState l t).line m = t.line m
    rw [setLineState_line]
    split
    · rename_i same
      subst same
      rw [← set]
    · rfl
  show { t with lines := (setLineState l t).lines } = t
  rw [lines]

theorem grantCheck_idle {l : LineNo} (shared : l ∈ linesOf cl.members) {d : ClaimSlot} (head : queueHead t l = some d) :
    grantCheck d t = (t, []) := by
  have agree := k.lines_agree able
  obtain ⟨dl, h, member⟩ := agree.sound.head_waits head
  obtain ⟨claim, waiting⟩ := waits_some.mp h
  obtain ⟨p, found, firm⟩ := k.firm able h member shared
  have unmarked : unmarkAwaiting d t = t := unmark_idle fun x hx => by
    cases claim.symm.trans hx
    by_contra awaits
    exact k.disjoint able h (by simpa using awaits) member shared
  have some_ : (driversOn t (linesOf dl.members)).isEmpty = false := by
    rw [List.isEmpty_eq_false_iff]
    exact List.ne_nil_of_mem found
  have kept : (decide (dl.priority = 3) && (driversOn t (linesOf dl.members)).all fun p => p.2.preemptible) = false := by
    rw [Bool.eq_false_iff, ne_eq, Bool.and_eq_true, decide_eq_true_eq, List.all_eq_true]
    rintro ⟨three, each⟩
    cases (each p found).symm.trans (firm three)
  simp only [grantCheck, claim, waiting, Bool.not_true, Bool.false_eq_true, if_false, some_, kept]
  split
  · rw [unmarked]
  · rfl

theorem checkLine_idle {l : LineNo} (shared : l ∈ linesOf cl.members) : checkLine l t = (t, []) := by
  have agree := k.lines_agree able
  rw [checkLine, setLineState_idle (agree.state l)]
  split
  · rfl
  · rename_i d head
    exact k.grantCheck_idle able shared head

theorem checkLines_idle {ls : List LineNo} (shared : ∀ l ∈ ls, l ∈ linesOf cl.members) : checkLines ls t = (t, []) := by
  induction ls with
  | nil => rfl
  | cons l ls ih =>
    obtain ⟨first, rest⟩ := List.forall_mem_cons.mp shared
    have cons : checkLines (l :: ls) t = ((checkLines ls (checkLine l t).1).1, (checkLine l t).2 ++ (checkLines ls (checkLine l t).1).2) := rfl
    rw [cons, k.checkLine_idle able first, ih rest]
    rfl

/-- The claims behind a granted claim wait: their queue heads are checked in vain. -/
theorem checkAll_idle (n : Nat) {ls : List LineNo} (shared : ∀ l ∈ ls, l ∈ linesOf cl.members) : checkAll n ls t = t := by
  cases n with
  | zero => rfl
  | succ n =>
    cases ls with
    | nil => rfl
    | cons l ls =>
      rw [checkAll_cons, k.checkLines_idle able shared]
      cases n <;> rfl

end AfterGrant

/-! ### All grants of an event -/

/-- The grants between two moments: each granted claim comes before every claim left awaiting an entry, of two the one that comes first takes
the lower entry, and the granted routes are live (R54, R93, R94). -/
structure HandsOut (order : List ClaimSlot) (s t : State) : Prop where
  left : ∀ c cl r, Granted s t c cl r → ∀ d dl, waits t d = some dl → dl.awaiting = true → Outranks order c cl.priority d dl.priority
  served : ∀ c cl r d dl e, Granted s t c cl r → Granted s t d dl e → Outranks order c cl.priority d dl.priority → r < e
  live : ∀ c cl r, Granted s t c cl r → ∃ rt, t.route? r = some rt ∧ rt.live = true

theorem HandsOut.of_none {s t : State} (order : List ClaimSlot) (none_ : ∀ c cl r, ¬ Granted s t c cl r) : HandsOut order s t :=
  ⟨fun c cl r g => absurd g (none_ c cl r), fun c cl r _ _ _ g => absurd g (none_ c cl r), fun c cl r g => absurd g (none_ c cl r)⟩

theorem Outranks.asymm {order : List ClaimSlot} {c d : ClaimSlot} {p q : Priority} (a : Outranks order c p d q) : ¬ Outranks order d q c p := by
  rintro (b | ⟨e, b⟩) <;> rcases a with a | ⟨e', a⟩
  · exact lt_asymm a b
  · exact lt_irrefl _ (e' ▸ b)
  · exact lt_irrefl _ (e ▸ a)
  · exact lt_asymm a b

/-- What further grants leave and make. -/
structure Later (s t : State) : Prop where
  marks : ∀ d dl, waits t d = some dl → dl.awaiting = true → waits s d = some dl
  live : ∀ r rt, s.route? r = some rt → rt.live = true → t.route? r = some rt
  granted : ∀ c cl r, Granted s t c cl r → s.route? r = none ∧ ∃ x, waits s c = some x ∧ x.awaiting = true ∧ x.priority = cl.priority

theorem not_granted_self (s : State) (c : ClaimSlot) (cl : Claim) (r : RouteSlot) : ¬ Granted s s c cl r := by
  rintro ⟨⟨x, hx, waiting⟩, h, granted⟩
  cases hx.symm.trans h
  simp [Claim.waiting, granted] at waiting

theorem firstFreeRoute_lt {s : State} {r e : RouteSlot} (first : firstFreeRoute s = some r) (free : s.route? e = none) (other : r ≠ e) : r < e := by
  by_contra le
  have := firstFreeRoute_lowest first e (lt_of_le_of_ne (not_lt.mp le) (Ne.symm other))
  rw [free] at this
  cases this

theorem grantAll_eq {own : Option ClaimSlot} {n : Nat} {s : State} {c : ClaimSlot} {r : RouteSlot} (best : bestAwaiting s = some c)
    (first : firstFreeRoute s = some r) :
    grantAll own (n + 1) s = grantAll own n (checkAll checkRounds (grant own c r s).2 (grant own c r s).1) := by
  simp only [grantAll, best, first]

theorem grant_lines (own : Option ClaimSlot) {s : State} {c : ClaimSlot} {cl : Claim} (r : RouteSlot) (claim : s.claim? c = some cl) :
    ∀ l ∈ (grant own c r s).2, l ∈ linesOf cl.members := by
  intro l mem
  simp only [grant, claim] at mem
  exact (mem_changedHeads.mp mem).1

theorem Outranks.of_sublist {xs ys : List ClaimSlot} (once : xs.Nodup) (sub : ys.Sublist xs) {c d : ClaimSlot} (hc : c ∈ ys) (hd : d ∈ ys)
    {p q : Priority} : Outranks ys c p d q ↔ Outranks xs c p d q :=
  or_congr_right (and_congr_right fun _ => idxOf_lt_of_sublist once sub hc hd)

/-- A grant, then further grants. -/
theorem AfterGrant.handsOut {c : ClaimSlot} {cl : Claim} {r : RouteSlot} {s u t : State} (k : AfterGrant c cl r s u) (able : Grantable c cl r s)
    (before : ∀ d dl, waits s d = some dl → dl.awaiting = true → d ≠ c → Outranks s.accepted c cl.priority d dl.priority)
    (first : firstFreeRoute s = some r) (a : AfterChecks s u) (b : AfterChecks u t) (rest : HandsOut u.accepted u t) (later : Later u t) :
    HandsOut s.accepted s t ∧ Later s t := by
  have split {x : ClaimSlot} {xl : Claim} {e : RouteSlot} (g : Granted s t x xl e) :
      (x = c ∧ e = r ∧ xl.priority = cl.priority) ∨ (x ≠ c ∧ Granted u t x xl e) := by
    rcases g.split a b with ⟨⟨y, hy, waiting⟩, h, granted⟩ | g
    · rw [k.claims] at h
      split at h
      · rename_i same
        cases h
        exact .inl ⟨same.symm, (ClaimState.granted.inj granted).symm, rfl⟩
      · cases hy.symm.trans h
        simp [Claim.waiting, granted] at waiting
    · refine .inr ⟨?_, g⟩
      obtain ⟨y, hy, waiting⟩ := g.1
      exact (k.waited (waits_some.mpr ⟨hy, waiting⟩)).1.symm
  have accepted {x : ClaimSlot} {xl : Claim} (h : waits u x = some xl) : x ∈ u.accepted := ((k.sound able).accepted x).mpr ⟨xl, h⟩
  have order {x y : ClaimSlot} {xl yl : Claim} (hx : waits u x = some xl) (hy : waits u y = some yl) {p q : Priority} :
      Outranks u.accepted x p y q ↔ Outranks s.accepted x p y q :=
    Outranks.of_sublist able.agree.sound.once a.accepted (accepted hx) (accepted hy)
  have waiter {x : ClaimSlot} {xl : Claim} {e : RouteSlot} (g : Granted u t x xl e) : ∃ y, waits u x = some y := by
    obtain ⟨y, hy, waiting⟩ := g.1
    exact ⟨y, waits_some.mpr ⟨hy, waiting⟩⟩
  have empty {e : RouteSlot} (free : u.route? e = none) : s.route? e = none ∧ r ≠ e := by
    have other : r ≠ e := by
      rintro rfl
      obtain ⟨rt, route, -⟩ := k.route
      cases free.symm.trans route
    exact ⟨(k.others e other).symm.trans free, other⟩
  refine ⟨⟨fun x xl e g d dl h awaits => ?_, fun x xl e y yl i gx gy out => ?_, fun x xl e g => ?_⟩, fun d dl h awaits => ?_,
    fun q rt route live => ?_, fun x xl e g => ?_⟩
  · have h_u := later.marks d dl h awaits
    obtain ⟨ne, h_s⟩ := k.waited h_u
    rcases split g with ⟨rfl, -, priority⟩ | ⟨-, g⟩
    · rw [priority]
      exact before d dl h_s awaits ne.symm
    · obtain ⟨w, hw⟩ := waiter g
      exact (order hw h_u).mp (rest.left x xl e g d dl h awaits)
  · rcases split gx with ⟨rfl, rfl, px⟩ | ⟨nx, gx⟩ <;> rcases split gy with ⟨rfl, rfl, py⟩ | ⟨ny, gy⟩
    · rw [px, py] at out
      exact absurd out out.asymm
    · obtain ⟨free, -⟩ := later.granted y yl i gy
      obtain ⟨free, other⟩ := empty free
      exact firstFreeRoute_lt first free other
    · obtain ⟨-, w, hw, awaits, priority⟩ := later.granted x xl e gx
      have reverse := before x w (k.waited hw).2 awaits nx
      rw [priority, ← py] at reverse
      exact absurd reverse out.asymm
    · obtain ⟨w, hw⟩ := waiter gx
      obtain ⟨v, hv⟩ := waiter gy
      exact rest.served x xl e y yl i gx gy ((order hw hv).mpr out)
  · rcases split g with ⟨rfl, rfl, -⟩ | ⟨-, g⟩
    · obtain ⟨rt, route, live, -⟩ := k.route
      exact ⟨rt, later.live e rt route live, live⟩
    · exact rest.live x xl e g
  · exact (k.waited (later.marks d dl h awaits)).2
  · refine later.live q rt ((k.others q ?_).trans route) live
    rintro rfl
    cases able.free.symm.trans route
  · rcases split g with ⟨rfl, rfl, priority⟩ | ⟨-, g⟩
    · exact ⟨able.free, cl, able.waits, able.awaits, priority.symm⟩
    · obtain ⟨free, w, hw, awaits, priority⟩ := later.granted x xl e g
      exact ⟨(empty free).1, w, (k.waited hw).2, awaits, priority⟩

/-- The entry arbiter keeps the lines in agreement with the records and hands out the entries in order. -/
theorem grantAll_handsOut (own : Option ClaimSlot) (n : Nat) {s : State} (agree : LinesAgree s) :
    LinesAgree (grantAll own n s) ∧ (GrantsChecked s → GrantsChecked (grantAll own n s)) ∧
      HandsOut s.accepted s (grantAll own n s) ∧ Later s (grantAll own n s) := by
  have idle {s : State} (agree : LinesAgree s) : LinesAgree s ∧ (GrantsChecked s → GrantsChecked s) ∧ HandsOut s.accepted s s ∧ Later s s :=
    ⟨agree, id, .of_none _ (not_granted_self s), fun _ _ h _ => h, fun _ _ h _ => h, fun c cl r g => absurd g (not_granted_self s c cl r)⟩
  induction n generalizing s with
  | zero => exact idle agree
  | succ n ih =>
    cases best : bestAwaiting s with
    | none =>
      rw [show grantAll own (n + 1) s = s by simp only [grantAll, best]]
      exact idle agree
    | some c =>
      cases first : firstFreeRoute s with
      | none =>
        rw [show grantAll own (n + 1) s = s by simp only [grantAll, best, first]]
        exact idle agree
      | some r =>
        obtain ⟨cl, waiting, awaits, before⟩ := bestAwaiting_first agree.sound best
        obtain ⟨claim, waits_⟩ := waits_some.mp waiting
        have able : Grantable c cl r s := ⟨agree, waiting, awaits, firstFreeRoute_free first⟩
        have k := grant_after own r claim
        rw [grantAll_eq best first, k.checkAll_idle able checkRounds (grant_lines own r claim)]
        obtain ⟨agree', checked, out, later⟩ := ih (k.lines_agree able)
        obtain ⟨out, later⟩ := k.handsOut able before first (grant_afterChecks own claim waits_ able.free) (grantAll_afterChecks own n _) out later
        exact ⟨agree', fun g => checked ((k.handed able).checked g), out, later⟩

/-! ### The Line Arbiter's part of an event -/

section

variable {G : Prop} {ls : List LineNo} {s : State}

/-- Between two moments of an event no claim is accepted and none is granted: the grants that follow are those of the event. -/
theorem HandsOut.earlier {s u t : State} (out : HandsOut u.accepted u t) (k : BeforeChecks s u) (once : s.accepted.Nodup) (sound : LinesSound u)
    (b : AfterChecks u t) (agree : LinesAgree t) : HandsOut s.accepted s t := by
  have granted {c : ClaimSlot} {cl : Claim} {r : RouteSlot} (g : Granted s t c cl r) : Granted u t c cl r := by
    obtain ⟨⟨x, hx, waiting⟩, h, state⟩ := g
    refine ⟨?_, h, state⟩
    have after := (b.claims c).2
    cases claim : u.claim? c with
    | none =>
      rw [show (u.claimEntry c).claim = none from claim] at after
      cases after.symm.trans h
    | some y =>
      refine ⟨y, rfl, ?_⟩
      by_contra settled
      have stays := b.settled claim (by simpa using settled)
      cases stays.symm.trans h
      obtain ⟨z, hz, before⟩ := k.granted c cl r claim state
      cases hx.symm.trans hz
      simp [Claim.waiting, before] at waiting
  have accepted {c : ClaimSlot} {cl : Claim} {r : RouteSlot} (g : Granted u t c cl r) : c ∈ u.accepted := by
    obtain ⟨y, hy, waiting⟩ := g.1
    exact (sound.accepted c).mpr ⟨y, waits_some.mpr ⟨hy, waiting⟩⟩
  refine ⟨fun c cl r g d dl h awaits => ?_, fun c cl r d dl e gc gd outranks => ?_, fun c cl r g => out.live c cl r (granted g)⟩
  · have mem := b.accepted.subset ((agree.sound.accepted d).mpr ⟨dl, h⟩)
    exact (Outranks.of_sublist once k.accepted (accepted (granted g)) mem).mp (out.left c cl r (granted g) d dl h awaits)
  · exact out.served c cl r d dl e (granted gc) (granted gd)
      ((Outranks.of_sublist once k.accepted (accepted (granted gc)) (accepted (granted gd))).mpr outranks)

theorem NoGrants.beforeChecks {s t : State} (k : NoGrants s t) (a : AfterChecks s t) : BeforeChecks s t := by
  refine ⟨a.accepted, fun c cl r claim granted => ?_⟩
  have state := k.state c
  rw [claim, Option.map_some, granted] at state
  obtain ⟨x, hx, same⟩ := Option.map_eq_some_iff.mp state.symm
  exact ⟨x, hx, same⟩

/-- The grant checks and grants of an event bring the lines handed on into agreement, overlook no claim, and hand out the entries in order. -/
theorem Handed.arbitrate (own : Option ClaimSlot) (h : Handed G own.toList ls s) : LinesAgree (arbitrate own ls s) ∧
    (G → GrantsChecked (arbitrate own ls s)) ∧ HandsOut s.accepted s (arbitrate own ls s) := by
  have conclude {u : State} {ks : List LineNo} (n : NoGrants s u) (a : AfterChecks s u) (handed : Handed G [] ks u) (heads : AwaitingHead u) :
      LinesAgree (grantAll own grantRounds (checkAll checkRounds ks u)) ∧
        (G → GrantsChecked (grantAll own grantRounds (checkAll checkRounds ks u))) ∧
        HandsOut s.accepted s (grantAll own grantRounds (checkAll checkRounds ks u)) := by
    obtain ⟨handed, heads⟩ := checkAll_handed checkRounds handed heads (Nat.lt_succ_of_le (liveDrivers_le u))
    have agree := handed.agree heads
    have checks := a.trans (checkAll_afterChecks checkRounds ks u)
    obtain ⟨after, checked, out, -⟩ := grantAll_handsOut own grantRounds agree
    exact ⟨after, fun g => checked (handed.checked g), out.earlier ((n.trans (checkAll_noGrants ..)).beforeChecks checks) h.sound.once agree.sound
      (grantAll_afterChecks ..) after⟩
  obtain ⟨dropped, heads⟩ := dropDisplaced_handed h
  cases own with
  | none =>
    have done := conclude (dropDisplaced_noGrants s) (dropDisplaced_afterChecks s) dropped heads
    rw [← List.append_nil ls] at done
    exact done
  | some c =>
    obtain ⟨handed, heads, -, -⟩ := grantCheck_handed (own := []) dropped heads
    exact conclude ((dropDisplaced_noGrants s).trans (grantCheck_noGrants ..)) ((dropDisplaced_afterChecks s).trans (grantCheck_afterChecks ..))
      handed heads

end

end Sys2Proof.Machine


/-! What each kind of event makes of the lines and of the order of grants. -/

namespace Sys2Proof.Machine

/-- An event keeps the lines in agreement with the records, overlooks no claim, and hands the entries out in order. -/
structure LineMoves (s t : State) : Prop where
  agree : LinesAgree s → LinesAgree t
  checked : LinesAgree s → GrantsChecked s → GrantsChecked t
  order : LinesAgree s → HandsOut s.accepted s t

/-! ### Events before their grant checks -/

/-- What an event has done before its grant checks: it has accepted and granted no claim, and hands on some lines. -/
structure Handing (G : Prop) (s : State) (ls : List LineNo) (t : State) : Prop where
  before : BeforeChecks s t
  handed : Handed G [] ls t

theorem LinesAgree.handing {s : State} (agree : LinesAgree s) : Handing (GrantsChecked s) s [] s := ⟨.refl s, agree.handed []⟩

theorem Places.beforeChecks {s t : State} {c : ClaimSlot} {cl : Claim} (k : Places c cl s t) (same : t.accepted = s.accepted) :
    BeforeChecks s t := by
  refine ⟨same ▸ List.Sublist.refl _, fun d x r hx granted => ?_⟩
  rw [k.claims] at hx
  rcases place_cases hx with e | old
  · cases e
    have waiting := k.waiting
    simp [Claim.waiting, granted] at waiting
  · exact ⟨x, old, granted⟩

namespace Handing

variable {G : Prop} {s t u : State} {ls : List LineNo} (k : Handing G s ls t)
include k

theorem unchanged (same : Unchanged t u) : Handing G s ls u := ⟨k.before.trans same.beforeChecks, same.handed k.handed⟩

theorem mono {ls' : List LineNo} (sub : ls ⊆ ls') : Handing G s ls' t := ⟨k.before, k.handed.mono sub⟩

theorem close (why : CloseReason) {r : RouteSlot} {rt : Route} (route : t.route? r = some rt) (live : rt.live = true) :
    Handing G s (ls ++ linesGivenUp rt) (closeRoute why r t) :=
  ⟨k.before.trans (closeRoute_removes why k.handed.sound route live).beforeChecks, closeRoute_handed why k.handed route live⟩

theorem free {r : RouteSlot} {rt : Route} (route : t.route? r = some rt) : Handing G s (ls ++ linesGivenUp rt) (freeRoute r t) :=
  ⟨k.before.trans (freeRoute_removes k.handed.sound route).beforeChecks, freeRoute_handed k.handed route⟩

theorem drop (why : DropReason) {c : ClaimSlot} {cl : Claim} (claim : t.claim? c = some cl) :
    Handing G s (ls ++ changedHeads t (dropClaim why c t) (linesOf cl.members)) (dropClaim why c t) :=
  ⟨k.before.trans (dropClaim_removes why k.handed.sound claim).beforeChecks, dropClaim_handed why k.handed claim⟩

theorem cancel {c : ClaimSlot} {cl : Claim} (claim : t.claim? c = some cl) :
    Handing G s (ls ++ changedHeads t (freeClaim c (withdrawClaim c cl t)) (linesOf cl.members)) (freeClaim c (withdrawClaim c cl t)) :=
  ⟨k.before.trans (cancelled_removes k.handed.sound claim).beforeChecks, cancelled_handed k.handed claim⟩

theorem clear (h : HostId) : Handing G s (ls ++ touchedLines t h) (clearHost h t) :=
  ⟨k.before.trans (clearHost_removes h t).beforeChecks, clearHost_handed k.handed⟩

theorem demote {c : ClaimSlot} {cl : Claim} (claim : t.claim? c = some cl) (waiting : cl.waiting = true)
    (some_ : ∃ l, l ∈ linesOf cl.members) : Handing G s (ls ++ linesOf cl.members) (demote c cl t) :=
  have places := demote_places k.handed.sound claim waiting
  ⟨k.before.trans (places.beforeChecks (demote_accepted t c cl)), places.handed_lines k.handed some_⟩

end Handing

/-! ### Events without and with grant checks -/

section

variable {s t u : State}

theorem LineMoves.of_unchanged (k : Unchanged s t) : LineMoves s t := by
  refine ⟨fun agree => (Unchanged.agree k agree).1, fun agree => (Unchanged.agree k agree).2, fun _ => .of_none _ fun c cl r g => ?_⟩
  obtain ⟨⟨x, hx, waiting⟩, h, granted⟩ := g
  obtain ⟨y, hy, before⟩ := k.granted c cl r h granted
  cases hx.symm.trans hy
  simp [Claim.waiting, before] at waiting

/-- The Line Arbiter's part ends an event. -/
theorem LineMoves.of_handing {ls : List LineNo} (k : LinesAgree s → Handing (GrantsChecked s) s ls t) : LineMoves s (arbitrate none ls t) := by
  refine ⟨fun agree => ?_, fun agree checked => ?_, fun agree => ?_⟩
  · exact ((k agree).handed.arbitrate none).1
  · exact ((k agree).handed.arbitrate none).2.1 checked
  · obtain ⟨before, handed⟩ := k agree
    obtain ⟨after, -, out⟩ := handed.arbitrate none
    exact out.earlier before agree.sound.once handed.sound (arbitrate_afterChecks none ls t) after

/-- The grants of an event are those since any moment before its grant checks at which the same claims wait. -/
theorem HandsOut.of_unchanged {order : List ClaimSlot} (k : Unchanged s t) (out : HandsOut order t u) : HandsOut order s u := by
  have granted {c : ClaimSlot} {cl : Claim} {r : RouteSlot} (g : Granted s u c cl r) : Granted t u c cl r := by
    obtain ⟨⟨x, hx, waiting⟩, h, granted⟩ := g
    have view := k.claims c
    rw [if_pos rfl, waits_some.mpr ⟨hx, waiting⟩, Option.map_some] at view
    obtain ⟨y, hy, -⟩ := Option.map_eq_some_iff.mp view
    exact ⟨⟨y, waits_some.mp hy⟩, h, granted⟩
  exact ⟨fun c cl r g => out.left c cl r (granted g), fun c cl r d dl e gc gd => out.served c cl r d dl e (granted gc) (granted gd),
    fun c cl r g => out.live c cl r (granted g)⟩

theorem LineMoves.later (k : Unchanged s t) (moves : LineMoves t u) : LineMoves s u := by
  have accepted : t.accepted = s.accepted := k.accepted.trans (List.filter_true _)
  refine ⟨fun agree => ?_, fun agree checked => ?_, fun agree => ?_⟩ <;> obtain ⟨agree', checked'⟩ := Unchanged.agree k agree
  · exact moves.agree agree'
  · exact moves.checked agree' (checked' checked)
  · exact accepted ▸ (moves.order agree').of_unchanged k

theorem HandsOut.of_same {order : List ClaimSlot} (routes : u.routes = t.routes) (claims : u.claims = t.claims) (out : HandsOut order s t) :
    HandsOut order s u := by
  have granted {c : ClaimSlot} {cl : Claim} {r : RouteSlot} (g : Granted s u c cl r) : Granted s t c cl r :=
    ⟨g.1, (claim?_congr claims c).symm.trans g.2.1, g.2.2⟩
  refine ⟨fun c cl r g d dl h => out.left c cl r (granted g) d dl (waits_congr (claim?_congr claims d) ▸ h),
    fun c cl r d dl e gc gd => out.served c cl r d dl e (granted gc) (granted gd), fun c cl r g => ?_⟩
  rw [route?_congr routes]
  exact out.live c cl r (granted g)

theorem LineMoves.to_same (moves : LineMoves s t) (lines : u.lines = t.lines) (accepted : u.accepted = t.accepted)
    (routes : u.routes = t.routes) (claims : u.claims = t.claims) : LineMoves s u :=
  have k : Unchanged t u := .of_same lines accepted routes claims
  ⟨fun agree => (Unchanged.agree k (moves.agree agree)).1,
    fun agree checked => (Unchanged.agree k (moves.agree agree)).2 (moves.checked agree checked),
    fun agree => (moves.order agree).of_same routes claims⟩

end

/-! ### COLLECT, held status and leases -/

section

variable (s : State)

theorem reportRef_unchanged (h : HostId) (ref : ChangeRef) : Unchanged s (reportRef h ref s) := by
  cases ref with
  | claim c =>
    unfold reportRef
    dsimp only
    split
    · exact .of_same rfl rfl rfl rfl
    · rename_i cl claim
      split
      · exact .of_same rfl rfl rfl rfl
      · rename_i settled
        exact freeClaim_unchanged claim (by simpa using settled)
  | route r =>
    unfold reportRef
    dsimp only
    split
    · exact .of_same rfl rfl rfl rfl
    · rename_i rt route
      split
      · have untold : Unchanged s (unnoteRoute h r s) := .of_same rfl rfl rfl rfl
        exact untold.trans (updRoute_unchanged _ r (fun _ => rfl) fun _ => rfl)
      · rename_i dead
        exact freeRoute_unchanged route (by simpa using dead)

theorem foldl_unchanged {α : Type} {f : State → α → State} (each : ∀ s x, Unchanged s (f s x)) (xs : List α) (s : State) :
    Unchanged s (xs.foldl f s) :=
  List.foldlRecOn xs f (.refl s) fun t k x _ => k.trans (each t x)

theorem passHeldOn_unchanged (l : LineNo) : Unchanged s (passHeldOn l s) := by
  rcases passHeldOn_cases s l with e | ⟨r, rt, i, -, -, -, e⟩ <;> rw [e]
  · exact .refl s
  · exact (updRoute_unchanged s r (fun _ => by split <;> rfl) fun _ => by split <;> rfl).trans (noteRoute_unchanged _ _ r)

theorem passHeldChanges_unchanged (before : State) : Unchanged s (passHeldChanges before s) :=
  foldl_unchanged (fun t l => passHeldOn_unchanged t l) _ s

theorem clampRoute_unchanged (r : RouteSlot) : Unchanged s (clampRoute r s) := by
  unfold clampRoute
  split
  · exact .refl s
  · dsimp only
    split
    · refine Unchanged.trans (updRoute_unchanged s r ?_ ?_) (noteRoute_unchanged _ _ r) <;> exact fun _ => rfl
    · exact .refl s

end

/-! ### SET_POLICY -/

section

variable {first last : LineNo} {s : State}

theorem mem_affectedRoutes_live {x : RouteSlot × Route} (h : x ∈ affectedRoutes first last s) : s.route? x.1 = some x.2 ∧ x.2.live = true := by
  obtain ⟨r, -, hr⟩ := List.mem_filterMap.mp h
  split at hr
  · cases hr
  · rename_i rt route
    split at hr
    · rename_i both
      cases hr
      exact ⟨route, (Bool.and_eq_true_iff.mp both).1⟩
    · cases hr

theorem mem_affectedClaims_line {x : ClaimSlot × Claim} (h : x ∈ affectedClaims first last s) : ∃ l, l ∈ linesOf x.2.members := by
  obtain ⟨c, -, hc⟩ := List.mem_filterMap.mp h
  split at hc
  · cases hc
  · split at hc
    · rename_i both
      cases hc
      obtain ⟨l, member, -⟩ := List.any_eq_true.mp (Bool.and_eq_true_iff.mp both).2
      exact ⟨l, member⟩
    · cases hc

theorem closures_nodup (first last : LineNo) (s : State) : ((closures first last s).map Prod.fst).Nodup := by
  rw [closures, affectedRoutes_slots]
  exact nodup_filter_every _

theorem demotions_nodup (first last : LineNo) (s : State) : ((demotions first last s).map Prod.fst).Nodup := by
  rw [demotions, affectedClaims_slots]
  exact nodup_filter_every _

namespace Handing

variable {G : Prop} {t : State} {ls : List LineNo}

theorem closures (why : CloseReason) (xs : List (RouteSlot × Route)) (once : (xs.map Prod.fst).Nodup) (k : Handing G s ls t)
    (live : ∀ x ∈ xs, t.route? x.1 = some x.2 ∧ x.2.live = true) :
    Handing G s (ls ++ xs.flatMap fun x => linesGivenUp x.2) (xs.foldl (fun u x => closeRoute why x.1 u) t) := by
  induction xs generalizing t ls with
  | nil => exact k.mono (List.subset_append_left ..)
  | cons x xs ih =>
    obtain ⟨fresh, once⟩ := List.nodup_cons.mp once
    obtain ⟨⟨route, live⟩, rest⟩ := List.forall_mem_cons.mp live
    rw [List.flatMap_cons, ← List.append_assoc]
    refine ih once (k.close why route live) fun y hy => ?_
    rw [closeRoute_route? why route live, if_neg fun same => fresh (List.mem_map.mpr ⟨y, hy, same.symm⟩)]
    exact rest y hy

theorem drops (why : DropReason) (xs : List (ClaimSlot × Claim)) (once : (xs.map Prod.fst).Nodup) (k : Handing G s ls t)
    (claims : ∀ x ∈ xs, t.claim? x.1 = some x.2) :
    Handing G s (ls ++ xs.flatMap fun x => linesOf x.2.members) (xs.foldl (fun u x => dropClaim why x.1 u) t) := by
  induction xs generalizing t ls with
  | nil => exact k.mono (List.subset_append_left ..)
  | cons x xs ih =>
    obtain ⟨fresh, once⟩ := List.nodup_cons.mp once
    obtain ⟨claim, rest⟩ := List.forall_mem_cons.mp claims
    rw [List.flatMap_cons, ← List.append_assoc]
    have heads : ls ++ changedHeads t (dropClaim why x.1 t) (linesOf x.2.members) ⊆ ls ++ linesOf x.2.members :=
      List.append_subset.mpr ⟨List.subset_append_left .., fun l mem => List.mem_append_right _ (mem_changedHeads.mp mem).1⟩
    refine ih once ((k.drop why claim).mono heads) fun y hy => ?_
    rw [dropClaim_claim? why claim, if_neg fun same => fresh (List.mem_map.mpr ⟨y, hy, same.symm⟩)]
    exact rest y hy

theorem demotions (xs : List (ClaimSlot × Claim)) (once : (xs.map Prod.fst).Nodup) (k : Handing G s ls t)
    (claims : ∀ x ∈ xs, t.claim? x.1 = some x.2 ∧ x.2.waiting = true ∧ ∃ l, l ∈ linesOf x.2.members) :
    Handing G s (ls ++ xs.flatMap fun x => linesOf x.2.members) (xs.foldl (fun u x => Machine.demote x.1 x.2 u) t) := by
  induction xs generalizing t ls with
  | nil => exact k.mono (List.subset_append_left ..)
  | cons x xs ih =>
    obtain ⟨fresh, once⟩ := List.nodup_cons.mp once
    obtain ⟨⟨claim, waiting, some_⟩, rest⟩ := List.forall_mem_cons.mp claims
    rw [List.flatMap_cons, ← List.append_assoc]
    refine ih once (k.demote claim waiting some_) fun y hy => ?_
    rw [demote_claim? claim, if_neg fun same => fresh (List.mem_map.mpr ⟨y, hy, same.symm⟩)]
    exact rest y hy

end Handing

theorem demotions_not_dropped {x : ClaimSlot × Claim} (h : x ∈ demotions first last s) : x.1 ∉ (drops first last s).map Prod.fst := by
  obtain ⟨affected, permitted⟩ := List.mem_filter.mp h
  rw [mem_drops_slots]
  rintro ⟨cl, claim, forbidden⟩
  cases claim.symm.trans (RecordMoves.mem_affectedClaims_waiting affected).1
  simp_all

/-- Closures, drops and demotions hand their lines on. -/
theorem withDemotions_handing {G : Prop} {s₀ : State} (k : Handing G s₀ [] s) :
    Handing G s₀ (linesHandedOver first last s) (withDemotions first last s) := by
  have closed := k.closures .policy (closures first last s) (closures_nodup first last s) fun x hx =>
    mem_affectedRoutes_live (List.mem_of_mem_filter hx)
  have dropped := closed.drops .policy (drops first last s) (RecordMoves.drops_nodup first last s) fun x hx =>
    (RecordMoves.closures_claim? .policy _ s x.1).trans (RecordMoves.mem_affectedClaims_waiting (List.mem_of_mem_filter hx)).1
  have demoted := dropped.demotions (demotions first last s) (demotions_nodup first last s) fun x hx => by
    have affected := List.mem_of_mem_filter hx
    obtain ⟨claim, waiting⟩ := RecordMoves.mem_affectedClaims_waiting affected
    refine ⟨?_, waiting, mem_affectedClaims_line affected⟩
    have entry := withDrops_entry first last s x.1
    rw [if_neg (demotions_not_dropped hx)] at entry
    exact (congrArg ClaimEntry.claim entry).trans claim
  exact demoted

theorem policySet_handing {G : Prop} {p : Policy} (k : Handing G s [] s) :
    Handing G s (linesHandedOver first last (writePolicies first last p s)) (policySet first last s p) := by
  have written : Unchanged s (writePolicies first last p s) :=
    .of_same (writePolicies_lines ..) (by unfold writePolicies; rfl) (writePolicies_routes ..) (writePolicies_claims ..)
  have clamped := (withDemotions_handing (first := first) (last := last) (k.unchanged written)).unchanged
    (foldl_unchanged (fun t x => clampRoute_unchanged t x.1) (affectedRoutes first last (writePolicies first last p s)) _)
  exact clamped.unchanged (passHeldChanges_unchanged _ s)

end

/-! ### Every kind of event -/

theorem activate_lineMoves {s : State} {r : RouteSlot} {rt : Route} {d : Nat} (route : s.route? r = some rt)
    (connecting : rt.state = .connecting d) : LineMoves s (noteRoute rt.owner r (activate r s)) := by
  have claims := activate_claims s r
  have activated : LineMoves s (activate r s) := by
    refine ⟨fun agree => (activate_agree agree route connecting).1, fun agree => (activate_agree agree route connecting).2, fun _ =>
      .of_none _ fun c cl q g => ?_⟩
    exact not_granted_self s c cl q ⟨g.1, (claim?_congr claims c).symm.trans g.2.1, g.2.2⟩
  exact activated.to_same rfl rfl rfl rfl

theorem lineMoves_events : EventMoves LineMoves where
  refl s := .of_unchanged (.refl s)
  congr k before after := (LineMoves.later before.symm.unchanged k).to_same after.lines after.accepted after.routes after.claims
  later d s _ k := .later (advance_unchanged d s) k
  endSession {h s} _ := .of_handing fun agree => by
    have cleared := agree.handing.clear h
    rwa [List.nil_append] at cleared
  collect ps s _ := .of_handing fun agree => agree.handing.unchanged (foldl_unchanged (fun t ref => reportRef_unchanged t _ ref) _ s)
  listen _ members _ _ free := .of_unchanged (createListener_unchanged _ _ free members)
  release route := .of_handing fun agree => by
    have freed := agree.handing.free route
    rwa [List.nil_append] at freed
  close why r rt s route live := .of_handing fun agree => by
    have closed := agree.handing.close why route live
    rwa [List.nil_append] at closed
  renew r g s := .of_unchanged (updRoute_unchanged s r (fun _ => rfl) fun _ => rfl)
  cancel {c cl s} claim _ := by
    rw [cancelClaim_state]
    exact .of_handing fun agree => by
      have cancelled := agree.handing.cancel claim
      rwa [List.nil_append] at cancelled
  policy first last p s := by
    rw [applyPolicy_eq]
    exact .of_handing fun agree => policySet_handing agree.handing
  held before s := .of_unchanged (passHeldChanges_unchanged s before)
  activate route connecting := activate_lineMoves route connecting
  expireWait claim _ := .of_handing fun agree => by
    have dropped := agree.handing.drop .timedOut claim
    rwa [List.nil_append] at dropped

theorem lineMoves_attachAct (h : HostId) (ps : List Byte) (s : State) : LineMoves s (attachAct h ps s).1 := by
  unfold attachAct
  split
  · rename_i attached
    have ended : LineMoves s (endSession h s) := lineMoves_events.endSession attached
    exact ended.to_same rfl rfl rfl rfl
  · exact .of_unchanged (.of_same rfl rfl rfl rfl)

theorem lineMoves_reset (s : State) : LineMoves s State.reset :=
  ⟨fun _ => reset_linesAgree, fun _ _ => reset_grantsChecked, fun _ => .of_none _ fun c cl r g => by
    obtain ⟨-, h, -⟩ := g
    cases (reset_claim? c).symm.trans h⟩

end Sys2Proof.Machine


/-! CLAIM and AMEND, and LinesAgreeKept (O57). -/

namespace Sys2Proof.Machine

/-- A command keeps the lines in agreement with the records, overlooks no claim, and hands the entries out in order. -/
structure CommandMoves (i : Instr) (s t : State) : Prop where
  agree : LinesAgree t
  checked : GrantsChecked s → GrantsChecked t
  order : EntriesHandedInOrder i s t

/-- The state after a request taken from link h as frame f, with what its block makes of the state and answers. -/
def replied (s : State) (h : HostId) (f : List Byte) (o : State × Answer) : State := settle s (queueReply h f o.2 o.1)

theorem replied_keepsRecords (s : State) (h : HostId) (f : List Byte) (o : State × Answer) : KeepsRecords o.1 (replied s h f o) :=
  (updPort_keepsRecords o.1 h _).trans (settle_keepsRecords s _)

/-! ### The reply -/

/-- A refusal is no grant. -/
theorem claimRefusal_ne_granted {s : State} {h : HostId} {p : ClaimParams} {st : Status} (refused : claimRefusal s h p = some st) :
    st ≠ .granted := by
  unfold claimRefusal at refused
  grind

theorem claimRefRefusal_ne_granted {h : HostId} {cl : Option Claim} {st : Status} (refused : claimRefRefusal h cl = some st) :
    st ≠ .granted := by
  unfold claimRefRefusal at refused
  grind

theorem commonRefusal_ne_granted {code : ReqCode} {h : HostId} {ps : List Byte} {s : State} {st : Status}
    (refused : commonRefusal code h ps s = some st) : st ≠ .granted := by
  unfold commonRefusal at refused
  grind

theorem granted_of_byte {st : Status} (same : st.byte = Status.granted.byte) : st = .granted := by
  cases st with
  | granted => rfl
  | _ => cases same

theorem replyFrame_status (tag code epoch : Byte) (a : Answer) : (replyFrame tag code epoch a).getD 3 0#8 = a.status.byte := rfl

theorem replyFrame_result (tag code epoch : Byte) (st : Status) (b : Byte) (bs : List Byte) :
    (replyFrame tag code epoch ⟨st, b :: bs⟩).getD 5 0#8 = b := rfl

/-- A CLAIM or AMEND of a host that is answered says in that answer whether, and where, its claim is granted. -/
theorem GrantedInReply.answered {i : Instr} {s t : State} {h k : HostId} {f : List Byte} {a : Answer} {r : RouteSlot}
    (g : GrantedInReply i s t k r) (asks : i = .claim h ∨ i = .amend h) (answered : Answered s t h f a) :
    a.status = .granted ∧ ∀ b bs, a.results = b :: bs → b = BitVec.ofNat 8 r.val := by
  obtain ⟨command, f', replies, status, entry⟩ := g
  have same : h = k := by
    rcases asks with rfl | rfl <;> rcases command with e | e <;> cases e <;> rfl
  subst same
  rw [answered.replies] at replies
  cases List.append_cancel_left replies
  rw [replyFrame_status] at status
  refine ⟨granted_of_byte status, fun b bs results => ?_⟩
  obtain ⟨st, rs⟩ := a
  cases results
  rwa [replyFrame_result] at entry

theorem GrantedInReply.replies_ne {i : Instr} {s : State} {k : HostId} {r : RouteSlot} : ¬ GrantedInReply i s s k r := by
  rintro ⟨-, f, replies, -⟩
  have := congrArg List.length replies
  simp at this

/-! ### What the reply leaves of a claim that is granted -/

/-- The reply to a CLAIM or AMEND about claim c frees the record of a granted claim and names its entry; v is the state before the reply,
w the one it leaves. -/
structure OwnReply (c : ClaimSlot) (v w : State) (a : Answer) : Prop where
  routes : w.routes = v.routes
  unchanged : Unchanged v w
  claims : ∀ d dl, w.claim? d = some dl → v.claim? d = some dl ∧ (d = c → ∀ r, dl.state ≠ .granted r)
  granted : a.status = .granted → ∃ x r bs, v.claim? c = some x ∧ x.state = .granted r ∧ a.results = BitVec.ofNat 8 r.val :: bs

theorem answerClaim_reply (c : ClaimSlot) (v : State) : OwnReply c v (answerClaim c v).1 (answerClaim c v).2 := by
  cases claim : v.claim? c with
  | none =>
    have e : answerClaim c v = (v, ⟨.queued, []⟩) := by rw [answerClaim, claim]
    rw [e]
    refine ⟨rfl, .refl v, fun d dl h => ⟨h, ?_⟩, nofun⟩
    rintro rfl
    cases claim.symm.trans h
  | some cl =>
    cases state : cl.state with
    | granted r =>
      rw [answerClaim_granted claim state]
      refine ⟨freeClaim_routes .., freeClaim_unchanged claim (by simp [Claim.waiting, state]), fun d dl h => ?_, fun _ =>
        ⟨cl, r, _, claim, state, by rw [grantedResults, routeRefBytes, place_zero]; rfl⟩⟩
      rw [freeClaim_claim? claim] at h
      split at h
      · cases h
      · rename_i other
        exact ⟨h, fun same => absurd same.symm other⟩
    | waiting | dropped =>
      have e : answerClaim c v = (v, ⟨.queued, queuedResults v c cl⟩) := by
        rw [answerClaim, claim]
        dsimp only
        rw [state]
      rw [e]
      refine ⟨rfl, .refl v, fun d dl h => ⟨h, ?_⟩, nofun⟩
      rintro rfl
      cases claim.symm.trans h
      simp [state]

/-! ### A CLAIM or AMEND before its grant checks -/

/-- A CLAIM or AMEND i of host h has passed its checks and placed its claim c as cl; u is the state before its grant checks. -/
structure OwnPlaced (i : Instr) (h : HostId) (s : State) (c : ClaimSlot) (cl : Claim) (ls : List LineNo) (u : State) : Prop where
  asks : i = .claim h ∨ i = .amend h
  own : ownClaim? i s = some (c, cl.priority)
  order : acceptanceAt i s = u.accepted
  waiting : waits u c = some cl
  others : ∀ d, d ≠ c → waits u d = waits s d
  handed : Handed (GrantsChecked s) [c] ls u

namespace OwnPlaced

variable {i : Instr} {h : HostId} {s u t : State} {c : ClaimSlot} {cl : Claim} {ls : List LineNo} {f : List Byte}
  (k : OwnPlaced i h s c cl ls u)
include k

/-- The grants of the command are those of the grant checks, the one that the reply names among them. -/
theorem grants {w : State} {a : Answer} (reply : OwnReply c (arbitrate (some c) ls u) w a) (answered : Answered s t h f a)
    (claims : t.claims = w.claims) {d : ClaimSlot} {p : Priority} {r : RouteSlot} (g : GrantedAt i s t d p r) :
    ∃ dl, Granted u (arbitrate (some c) ls u) d dl r ∧ dl.priority = p := by
  rcases g with ⟨dl, ⟨⟨x, hx, waiting⟩, claim, granted⟩, priority⟩ | ⟨own, host, inReply⟩
  · obtain ⟨claim, foreign⟩ := reply.claims d dl ((claim?_congr claims d).symm.trans claim)
    have other : d ≠ c := fun same => foreign same r granted
    have before := (k.others d other).trans (waits_some.mpr ⟨hx, waiting⟩)
    exact ⟨dl, ⟨⟨x, waits_some.mp before⟩, claim, granted⟩, priority⟩
  · cases k.own.symm.trans own
    obtain ⟨status, result⟩ := inReply.answered k.asks answered
    obtain ⟨x, q, bs, claim, granted, results⟩ := reply.granted status
    have entry : q = r := by
      have bytes := congrArg BitVec.toNat (result _ bs results)
      rw [BitVec.toNat_ofNat, BitVec.toNat_ofNat, Nat.mod_eq_of_lt (by omega), Nat.mod_eq_of_lt (by omega)] at bytes
      exact Fin.ext bytes
    subst entry
    obtain ⟨placed, waiting⟩ := waits_some.mp k.waiting
    refine ⟨x, ⟨⟨cl, placed, waiting⟩, claim, granted⟩, ?_⟩
    rcases arbitrate_claim placed waiting ls with ⟨e, made⟩ | ⟨b, queued⟩
    · cases claim.symm.trans made
      rfl
    · cases claim.symm.trans queued
      rfl

/-- What the reply leaves. -/
theorem done {w : State} {a : Answer} (reply : OwnReply c (arbitrate (some c) ls u) w a) (answered : Answered s t h f a)
    (same : KeepsRecords w t) : CommandMoves i s t := by
  obtain ⟨agree, checked, out⟩ := Handed.arbitrate (some c) k.handed
  obtain ⟨agree', checked'⟩ := Unchanged.agree (reply.unchanged.trans same.unchanged) agree
  refine ⟨agree', fun g => checked' (checked g), fun d p r g e el claim waiting awaits => ?_, fun d p r e q j gd ge outranks => ?_,
    fun d p r g => ?_⟩
  · obtain ⟨dl, granted, rfl⟩ := k.grants reply answered same.claims g
    rw [k.order]
    exact out.left d dl r granted e el (waits_some.mpr ⟨(reply.claims e el ((claim?_congr same.claims e).symm.trans claim)).1, waiting⟩) awaits
  · obtain ⟨dl, grantedD, rfl⟩ := k.grants reply answered same.claims gd
    obtain ⟨el, grantedE, rfl⟩ := k.grants reply answered same.claims ge
    rw [k.order] at outranks
    exact out.served d dl r e el j grantedD grantedE outranks
  · obtain ⟨dl, granted, -⟩ := k.grants reply answered same.claims g
    rw [route?_congr same.routes, route?_congr reply.routes]
    exact out.live d dl r granted

end OwnPlaced

/-! ### The blocks of CLAIM and AMEND -/

section

variable {s : State} {h : HostId} {ps : List Byte}

theorem refuse_ne_granted (s : State) {st : Status} (ne : st ≠ .granted) : ∃ st', st' ≠ .granted ∧ refuse st s = (s, ⟨st', []⟩) :=
  ⟨st, ne, rfl⟩

theorem claimAct_cases (h : HostId) (ps : List Byte) (s : State) : (∃ st, st ≠ .granted ∧ claimAct h ps s = (s, ⟨st, []⟩)) ∨
    ∃ p c, claimParams? ps = some p ∧ firstFreeClaim s = some c ∧ claimAct h ps s = answerClaim c
      (arbitrate (some c) (changedHeads s (acceptClaim h p c s) (linesOf p.members)) (acceptClaim h p c s)) := by
  unfold claimAct
  split
  · exact .inl (refuse_ne_granted s nofun)
  · rename_i p params
    split
    · rename_i refused
      exact .inl (refuse_ne_granted s (claimRefusal_ne_granted refused))
    · exact .inl (refuse_ne_granted s nofun)
    · rename_i c _ free
      exact .inr ⟨p, c, params, free, rfl⟩

theorem amendAct_cases (h : HostId) (ps : List Byte) (s : State) : (∃ st, st ≠ .granted ∧ amendAct h ps s = (s, ⟨st, []⟩)) ∨
    ∃ c gen p limit cl, amendParams? ps = some (c, gen, p, limit) ∧ s.claim? c = some cl ∧ cl.waiting = true ∧
      amendAct h ps s = amendClaim c cl p limit s := by
  unfold amendAct
  split
  · exact .inl (refuse_ne_granted s nofun)
  · rename_i c gen p limit params
    split
    · rename_i refused
      exact .inl (refuse_ne_granted s (claimRefRefusal_ne_granted refused))
    · exact .inl (refuse_ne_granted s nofun)
    · rename_i cl passed named
      split
      · exact .inl (refuse_ne_granted s nofun)
      · obtain ⟨x, hx, -, waits⟩ := claimRefRefusal_none passed
        cases named.symm.trans hx
        exact .inr ⟨c, gen, p, limit, cl, params, (claimAt?_some named).1, waits, rfl⟩

/-- A claim just accepted stands at the end of the acceptance order. -/
theorem OwnPlaced.of_claim {f : List Byte} {p : ClaimParams} {c : ClaimSlot} (agree : LinesAgree s) (taken : takeableFrame s h = some f)
    (params : claimParams? (frameParams f) = some p) (free : firstFreeClaim s = some c) :
    OwnPlaced (.claim h) h s c (newClaim h p) (changedHeads (popFrame h s) (acceptClaim h p c (popFrame h s)) (linesOf p.members))
      (acceptClaim h p c (popFrame h s)) := by
  have popped : Unchanged s (popFrame h s) := .of_same rfl rfl rfl rfl
  have handed := Unchanged.handed popped (agree.handed [c])
  have places := acceptClaim_places (s := popFrame h s) (h := h) handed.sound (claimParams?_sound params).1 (firstFreeClaim_free free)
  have own : ownClaim? (.claim h) s = some (c, p.priority) := by simp [ownClaim?, taken, params, free]
  have unaccepted : c ∉ s.accepted := fun mem => by
    obtain ⟨x, hx⟩ := (agree.sound.accepted c).mp mem
    cases (firstFreeClaim_free free).symm.trans (waits_some.mp hx).1
  refine ⟨.inl rfl, own, ?_, places.waits_own, fun d other => places.waits_other other, ?_⟩
  · simp only [acceptanceAt, own]
    rw [if_neg fun both => unaccepted both.1, acceptClaim_accepted]
    exact congrArg (· ++ [c]) (List.filter_eq_self.mpr fun d hd => by simpa using fun same : d = c => unaccepted (same ▸ hd))
  · have placed := places.handed_heads handed
    rwa [List.nil_append] at placed

/-- A claim that an AMEND gives another priority stands at the end of the acceptance order, another stays where it is. -/
theorem OwnPlaced.of_amend {f : List Byte} {c : ClaimSlot} {gen : Byte} {p : Priority} {limit : Nat} {cl : Claim} (agree : LinesAgree s)
    (taken : takeableFrame s h = some f) (params : amendParams? (frameParams f) = some (c, gen, p, limit)) (claim : s.claim? c = some cl)
    (waiting : cl.waiting = true) :
    OwnPlaced (.amend h) h s c { cl with priority := p, waitLimit := timerOfMillis limit }
      (changedHeads (popFrame h s) (amended c cl p limit (popFrame h s)) (linesOf cl.members)) (amended c cl p limit (popFrame h s)) := by
  have popped : Unchanged s (popFrame h s) := .of_same rfl rfl rfl rfl
  have handed := Unchanged.handed popped (agree.handed [c])
  have claim' : (popFrame h s).claim? c = some cl := claim
  have claims := amended_claim? claim' p limit
  have own : ownClaim? (.amend h) s = some (c, p) := by simp [ownClaim?, taken, params]
  have waits_c : waits s c = some cl := waits_some.mpr ⟨claim, waiting⟩
  refine ⟨.inr rfl, own, ?_, waits_some.mpr ⟨by rw [claims, if_pos rfl], waiting⟩, fun d other => ?_, ?_⟩
  · simp only [acceptanceAt, own]
    rw [amended_accepted, claimPriority_of_waits waits_c, if_congr (and_iff_right ((agree.sound.accepted c).mpr ⟨cl, waits_c⟩)) rfl rfl]
    rfl
  · exact waits_congr ((claims d).trans (if_neg (Ne.symm other)))
  · by_cases same : cl.priority = p
    · have tuned : amended c cl p limit (popFrame h s) = (popFrame h s).updClaim c fun x => { x with waitLimit := timerOfMillis limit } := by
        rw [amended, reprioritise, if_pos same]
      rw [tuned]
      exact (Unchanged.handed (waitLimit_unchanged (popFrame h s) c _) handed).mono (List.nil_subset _)
    · have placed := (amended_places limit handed.sound claim' waiting same).handed_heads handed
      rwa [List.nil_append] at placed

end

/-! ### Every command -/

section

variable {i : Instr} {s t : State}

theorem EntriesHandedInOrder.of_none (none_ : ∀ c p r, ¬ GrantedAt i s t c p r) : EntriesHandedInOrder i s t :=
  ⟨fun c p r g => absurd g (none_ c p r), fun c p r _ _ _ g => absurd g (none_ c p r), fun c p r g => absurd g (none_ c p r)⟩

theorem not_grantedAt_self (c : ClaimSlot) (p : Priority) (r : RouteSlot) : ¬ GrantedAt i s s c p r := by
  rintro (⟨cl, g, -⟩ | ⟨-, k, g⟩)
  · exact not_granted_self s c cl r g
  · exact g.replies_ne

/-- What the taking of a request leaves: nothing, a refusal, or what its block makes of it. -/
theorem takeRequest_outcome (code : ReqCode) (h : HostId) (s : State) : takeRequest code code.act h s = s ∨
    ∃ f, takeableFrame s h = some f ∧
      ((∃ st, st ≠ .granted ∧ takeRequest code code.act h s = replied s h f (popFrame h s, ⟨st, []⟩)) ∨
        takeRequest code code.act h s = replied s h f (code.act h (frameParams f) (popFrame h s))) := by
  unfold takeRequest
  split
  · exact .inl rfl
  · rename_i f taken
    split
    · refine .inr ⟨f, taken, ?_⟩
      dsimp only
      unfold carryOut
      split
      · rename_i refused
        exact .inl ⟨_, commonRefusal_ne_granted refused, rfl⟩
      · exact .inr rfl
    · exact .inl rfl

section

variable {h : HostId} {f : List Byte}

/-- A refused CLAIM or AMEND grants nothing. -/
theorem refused_commandMoves {st : Status} (asks : i = .claim h ∨ i = .amend h) (agree : LinesAgree s) (ne : st ≠ .granted) :
    CommandMoves i s (replied s h f (popFrame h s, ⟨st, []⟩)) := by
  have same : KeepsRecords s (replied s h f (popFrame h s, ⟨st, []⟩)) :=
    (updPort_keepsRecords s h _).trans (replied_keepsRecords s h f (popFrame h s, ⟨st, []⟩))
  obtain ⟨agree', checked⟩ := Unchanged.agree same.unchanged agree
  refine ⟨agree', checked, .of_none fun c p r g => ?_⟩
  rcases g with ⟨cl, ⟨waits, claim, granted⟩, -⟩ | ⟨-, k, g⟩
  · exact not_granted_self s c cl r ⟨waits, (claim?_congr same.claims c).symm.trans claim, granted⟩
  · exact ne (g.answered asks (answered_of f rfl _)).1

theorem claimAct_commandMoves (agree : LinesAgree s) (taken : takeableFrame s h = some f) :
    CommandMoves (.claim h) s (replied s h f (claimAct h (frameParams f) (popFrame h s))) := by
  have ports : (claimAct h (frameParams f) (popFrame h s)).1.ports = (popFrame h s).ports :=
    (act_keepsSurroundings h (frameParams f) (popFrame h s) .claim).ports
  rcases claimAct_cases h (frameParams f) (popFrame h s) with ⟨st, ne, act⟩ | ⟨p, c, params, free, act⟩ <;> rw [act] at ports ⊢
  · exact refused_commandMoves (.inl rfl) agree ne
  · exact (OwnPlaced.of_claim agree taken params free).done (answerClaim_reply c _) (answered_of f ports _) (replied_keepsRecords ..)

theorem amendAct_commandMoves (agree : LinesAgree s) (taken : takeableFrame s h = some f) :
    CommandMoves (.amend h) s (replied s h f (amendAct h (frameParams f) (popFrame h s))) := by
  have ports : (amendAct h (frameParams f) (popFrame h s)).1.ports = (popFrame h s).ports :=
    (act_keepsSurroundings h (frameParams f) (popFrame h s) .amend).ports
  rcases amendAct_cases h (frameParams f) (popFrame h s) with ⟨st, ne, act⟩ | ⟨c, gen, p, limit, cl, params, claim, waiting, act⟩ <;>
    rw [act] at ports ⊢
  · exact refused_commandMoves (.inr rfl) agree ne
  · rw [amendClaim_eq] at ports ⊢
    exact (OwnPlaced.of_amend agree taken params claim waiting).done (answerClaim_reply c _) (answered_of f ports _)
      (replied_keepsRecords ..)

end

theorem CommandMoves.refl (agree : LinesAgree s) : CommandMoves i s s := ⟨agree, id, .of_none not_grantedAt_self⟩

/-- CLAIM and AMEND. -/
theorem ownClaim_commandMoves {code : ReqCode} {h : HostId} (isOwn : code = .claim ∨ code = .amend) (agree : LinesAgree s) :
    CommandMoves (code.command h) s (takeRequest code code.act h s) := by
  have asks : code.command h = .claim h ∨ code.command h = .amend h := by
    rcases isOwn with rfl | rfl
    · exact .inl rfl
    · exact .inr rfl
  rcases takeRequest_outcome code h s with e | ⟨f, taken, ⟨st, ne, e⟩ | e⟩ <;> rw [e]
  · exact .refl agree
  · exact refused_commandMoves asks agree ne
  · rcases isOwn with rfl | rfl
    · exact claimAct_commandMoves agree taken
    · exact amendAct_commandMoves agree taken

theorem ownClaim?_none (claim : ∀ h, i ≠ .claim h) (amend : ∀ h, i ≠ .amend h) : ownClaim? i s = none := by
  unfold ownClaim?
  split
  · exact absurd rfl (claim _)
  · exact absurd rfl (amend _)
  · rfl

/-- The grants of a command that is neither CLAIM nor AMEND are those of its event. -/
theorem LineMoves.handedInOrder (moves : LineMoves s t) (agree : LinesAgree s) (own : ownClaim? i s = none) : EntriesHandedInOrder i s t := by
  have out := moves.order agree
  have order : acceptanceAt i s = s.accepted := by simp only [acceptanceAt, own]
  have grants {c : ClaimSlot} {p : Priority} {r : RouteSlot} (g : GrantedAt i s t c p r) : ∃ cl, Granted s t c cl r ∧ cl.priority = p := by
    refine g.resolve_right ?_
    rintro ⟨same, -⟩
    cases own.symm.trans same
  refine ⟨fun c p r g d dl claim waiting awaits => ?_, fun c p r d q e gc gd outranks => ?_, fun c p r g => ?_⟩
  · obtain ⟨cl, granted, rfl⟩ := grants g
    rw [order]
    exact out.left c cl r granted d dl (waits_some.mpr ⟨claim, waiting⟩) awaits
  · obtain ⟨cl, grantedC, rfl⟩ := grants gc
    obtain ⟨dl, grantedD, rfl⟩ := grants gd
    rw [order] at outranks
    exact out.served c cl r d dl e grantedC grantedD outranks
  · obtain ⟨cl, granted, -⟩ := grants g
    exact out.live c cl r granted

theorem exec_commandMoves (agree : LinesAgree s) (step : exec i s = .next t) : CommandMoves i s t := by
  by_cases isOwn : ∃ code : ReqCode, ∃ h, (code = .claim ∨ code = .amend) ∧ i = code.command h
  · obtain ⟨code, h, isOwn, rfl⟩ := isOwn
    rw [exec_command] at step
    injection step with step
    subst step
    split
    · exact .refl agree
    · exact ownClaim_commandMoves isOwn agree
  · have moves : LineMoves s t := by
      refine lineMoves_events.exec (fun _ => lineMoves_reset s) (fun code h f e o _ => ?_) step
      cases code with
      | attach => exact lineMoves_attachAct h (frameParams f) (popFrame h s)
      | claim => exact absurd ⟨.claim, h, .inl rfl, e⟩ isOwn
      | amend => exact absurd ⟨.amend, h, .inr rfl, e⟩ isOwn
      | _ => cases o
    have own : ownClaim? i s = none :=
      ownClaim?_none (fun h e => isOwn ⟨.claim, h, .inl rfl, e⟩) fun h e => isOwn ⟨.amend, h, .inr rfl, e⟩
    exact ⟨moves.agree agree, moves.checked agree, moves.handedInOrder agree own⟩

end

/-- Settles O57. Each kind of event hands on the lines it changes; the grant checks bring these into agreement again, preempt for the heads
of priority 3 and mark the other heads; and the entry arbiter grants the marked claims in their order. -/
theorem linesAgreeKept : Obligations.LinesAgreeKept := by
  refine ⟨fun s t agree stepped => ?_, fun i s t agree step => (exec_commandMoves agree step).order⟩
  unfold step at stepped
  split at stepped
  · cases stepped
    exact Unchanged.agree (advance_unchanged 1 s) agree
  · rename_i i rest _
    have queued : KeepsRecords s { s with pending := rest } := ⟨rfl, rfl, rfl, rfl, rfl⟩
    obtain ⟨agree', checked'⟩ := Unchanged.agree queued.unchanged agree
    obtain ⟨after, checked, -⟩ := exec_commandMoves agree' stepped
    exact ⟨after, fun g => checked (checked' g)⟩

end Sys2Proof.Machine


/-! No free entry stands beside an eligible claim (O52). -/

namespace Sys2Proof.Machine

/-! ### Claims that await an entry -/

theorem awaitsAt_iff {s : State} {p : Priority} {c : ClaimSlot} :
    awaitsAt s p c = true ↔ ∃ cl, waits s c = some cl ∧ cl.awaiting = true ∧ cl.priority = p := by
  unfold awaitsAt waits
  cases s.claim? c with
  | none => simp
  | some cl => simp [Option.filter_some, and_assoc]

theorem bestAwaiting_none {s : State} : bestAwaiting s = none ↔ ∀ c ∈ s.accepted, ∀ p, awaitsAt s p c = false := by
  have every_priority (p : Priority) : p ∈ [3, 2, 1, 0] := by
    revert p
    decide
  simp only [bestAwaiting, List.findSome?_eq_none_iff, List.find?_eq_none, Bool.not_eq_true]
  exact ⟨fun none_ c accepted p => none_ p (every_priority p) c accepted, fun none_ p _ c accepted => none_ c accepted p⟩

theorem firstFreeRoute_eq_none {s : State} : firstFreeRoute s = none ↔ ∀ r, (s.route? r).isSome :=
  ⟨firstFreeRoute_none, fun full => List.find?_eq_none.mpr fun r _ => by simpa [Option.isSome_iff_ne_none] using full r⟩

section

variable {s t : State}

/-- Where no entry comes free and no claim comes to await one, none stand side by side. -/
theorem NoIdleEntry.of_kept (idle : NoIdleEntry s) (inUse : ∀ r, (s.route? r).isSome → (t.route? r).isSome)
    (accepted : t.accepted = s.accepted)
    (awaiting : ∀ c cl, waits t c = some cl → cl.awaiting = true → ∃ x, waits s c = some x ∧ x.awaiting = true ∧ x.priority = cl.priority) :
    NoIdleEntry t := by
  rcases idle with full | none_
  · exact .inl (firstFreeRoute_eq_none.mpr fun r => inUse r (firstFreeRoute_none full r))
  · refine .inr (bestAwaiting_none.mpr fun c mem p => ?_)
    rw [accepted] at mem
    rw [Bool.eq_false_iff]
    intro awaits
    obtain ⟨cl, waiting, marked, rfl⟩ := awaitsAt_iff.mp awaits
    obtain ⟨x, waited, mark, priority⟩ := awaiting c cl waiting marked
    exact Bool.eq_false_iff.mp (bestAwaiting_none.mp none_ c mem cl.priority) (awaitsAt_iff.mpr ⟨x, waited, mark, priority⟩)

theorem NoIdleEntry.of_unchanged (idle : NoIdleEntry s) (k : Unchanged s t) (inUse : ∀ r, (s.route? r).isSome → (t.route? r).isSome) :
    NoIdleEntry t := by
  refine idle.of_kept inUse (by rw [k.accepted, List.filter_true]) fun c cl waiting marked => ?_
  obtain ⟨x, waited, view⟩ := k.waited waiting
  obtain ⟨priority, -, mark⟩ : x.priority = cl.priority ∧ x.members = cl.members ∧ x.awaiting = cl.awaiting := by simpa [Claim.view] using view
  exact ⟨x, waited, mark.trans marked, priority⟩

theorem NoIdleEntry.of_claims (idle : NoIdleEntry s) (claims : t.claims = s.claims) (accepted : t.accepted = s.accepted)
    (inUse : ∀ r, (s.route? r).isSome → (t.route? r).isSome) : NoIdleEntry t :=
  idle.of_kept inUse accepted fun c cl waiting marked => ⟨cl, waits_congr (claim?_congr claims c) ▸ waiting, marked, rfl⟩

theorem NoIdleEntry.of_same (idle : NoIdleEntry s) (routes : t.routes = s.routes) (claims : t.claims = s.claims)
    (accepted : t.accepted = s.accepted) : NoIdleEntry t :=
  idle.of_claims claims accepted fun r => by rw [route?_congr routes]; exact id

end

/-! ### Every step -/

section

variable {s : State}

theorem updRoute_inUse (r : RouteSlot) (f : Route → Route) (q : RouteSlot) (used : (s.route? q).isSome) : ((s.updRoute r f).route? q).isSome := by
  rw [State.updRoute_route?]
  split <;> simpa using used

theorem OnlyForcings.inUse {t : State} (k : OnlyForcings s t) (r : RouteSlot) (used : (s.route? r).isSome) : (t.route? r).isSome := by
  obtain ⟨rt, route⟩ := Option.isSome_iff_exists.mp used
  obtain ⟨f, b, entry⟩ := k.route route
  rw [State.route?, entry]
  rfl

theorem activate_inUse (r q : RouteSlot) (used : (s.route? q).isSome) : ((activate r s).route? q).isSome := by
  rw [State.route?, activate_routeEntry]
  split
  · simpa using used
  · exact used

theorem noIdleEntry_events : EventMoves fun s t => NoIdleEntry s → NoIdleEntry t where
  refl _ := id
  congr k before after idle := (k (idle.of_same before.routes.symm before.claims.symm before.accepted.symm)).of_same after.routes
    after.claims after.accepted
  later d s _ k idle := k (idle.of_unchanged (advance_unchanged d s) fun r used => by rw [advance_route?]; simpa using used)
  endSession {h s} _ _ := arbitrate_noIdleEntry none (touchedLines s h) (clearHost h s)
  collect {h} _ {s} _ _ :=
    arbitrate_noIdleEntry none [] ((reportedRefs (s.session h).changes).foldl (fun t ref => reportRef h ref t) s)
  listen _ members _ _ free idle := idle.of_unchanged (createListener_unchanged _ _ free members) fun q used => by
    rw [createListener_route?]
    split
    · rfl
    · exact used
  release _ _ := arbitrate_noIdleEntry ..
  close _ _ _ _ _ _ _ := arbitrate_noIdleEntry ..
  renew r g s idle := idle.of_claims rfl rfl (updRoute_inUse r _)
  cancel _ _ _ := by
    rw [cancelClaim_state]
    exact arbitrate_noIdleEntry ..
  policy first last p s _ := by
    rw [applyPolicy_eq]
    exact arbitrate_noIdleEntry none (linesHandedOver first last (writePolicies first last p s)) (policySet first last s p)
  held before s idle := idle.of_claims (passHeldChanges_claims before s) (passHeldChanges_accepted before s)
    (passHeldChanges_onlyForcings before s).inUse
  activate {r rt d s} _ _ idle := idle.of_claims (activate_claims s r) (activate_accepted s r) (activate_inUse r)
  expireWait {c cl s} _ _ _ :=
    arbitrate_noIdleEntry none (changedHeads s (dropClaim .timedOut c s) (linesOf cl.members)) (dropClaim .timedOut c s)

/-- The answer to a CLAIM or AMEND frees a granted claim's record, which no longer waits. -/
theorem answerClaim_noIdleEntry (c : ClaimSlot) (idle : NoIdleEntry s) : NoIdleEntry (answerClaim c s).1 := by
  cases claim : s.claim? c with
  | none =>
    rw [answerClaim, claim]
    exact idle
  | some cl =>
    cases e : cl.state with
    | granted r =>
      rw [answerClaim_granted claim e]
      exact idle.of_unchanged (freeClaim_unchanged claim (by simp [Claim.waiting, e])) fun q used => by
        rw [route?_congr (freeClaim_routes s c)]
        exact used
    | waiting | dropped =>
      simp only [answerClaim, claim, e]
      exact idle

theorem ownAct_noIdleEntry {code : ReqCode} (h : HostId) (ps : List Byte) (isOwn : code.isOwn = true) (idle : NoIdleEntry s) :
    NoIdleEntry (code.act h ps s).1 := by
  cases code with
  | attach =>
    show NoIdleEntry (attachAct h ps s).1
    unfold attachAct
    split
    · have ended : NoIdleEntry (endSession h s) := arbitrate_noIdleEntry ..
      exact ended.of_same rfl rfl rfl
    · exact idle.of_same rfl rfl rfl
  | claim =>
    rcases claimAct_cases h ps s with ⟨st, -, refused⟩ | ⟨p, c, -, -, answered⟩
    · rw [ReqCode.act, refused]
      exact idle
    · rw [ReqCode.act, answered]
      exact answerClaim_noIdleEntry c (arbitrate_noIdleEntry ..)
  | amend =>
    rcases amendAct_cases h ps s with ⟨st, -, refused⟩ | ⟨c, _, p, limit, cl, -, -, -, answered⟩
    · rw [ReqCode.act, refused]
      exact idle
    · rw [ReqCode.act, answered, amendClaim_eq]
      exact answerClaim_noIdleEntry c (arbitrate_noIdleEntry ..)
  | _ => cases isOwn

end

/-- Settles O52. An event that ends in the entry arbiter leaves no free entry beside an eligible claim; every other event frees no entry
and makes no claim eligible. -/
theorem noIdleEntryKept : Obligations.NoIdleEntryKept := fun _ _ idle stepped =>
  noIdleEntry_events.step (fun _ _ => reset_noIdleEntry) (fun _ h f _ isOwn _ idle => ownAct_noIdleEntry h (frameParams f) isOwn idle)
    stepped idle

end Sys2Proof.Machine


/-! What every command does to the records under the policies and the held status it finds: the kinds of events again, for relations that read
what follows from policies and groups. -/

namespace Sys2Proof.Machine

/-! ### What grants and forcings read of policies and groups -/

/-- Held status, break intervals and longest leases of all lines are as they were. -/
structure SameRules (s t : State) : Prop where
  held : ∀ l, t.held l = s.held l
  breaks : ∀ l, (t.policy l).breakInterval = (s.policy l).breakInterval
  leases : ∀ l, (t.policy l).maxLease = (s.policy l).maxLease

namespace SameRules

variable {s t u : State}

theorem of_same (policies : t.policies = s.policies) (groups : t.groups = s.groups) : SameRules s t :=
  ⟨State.held_congr policies groups, fun l => by rw [policy_congr policies], fun l => by rw [policy_congr policies]⟩

theorem refl (s : State) : SameRules s s := ⟨fun _ => rfl, fun _ => rfl, fun _ => rfl⟩

theorem symm (k : SameRules s t) : SameRules t s := ⟨fun l => (k.held l).symm, fun l => (k.breaks l).symm, fun l => (k.leases l).symm⟩

theorem trans (a : SameRules s t) (b : SameRules t u) : SameRules s u :=
  ⟨fun l => (b.held l).trans (a.held l), fun l => (b.breaks l).trans (a.breaks l), fun l => (b.leases l).trans (a.leases l)⟩

theorem heldMembers (k : SameRules s t) (i : Nat) (ms : List Member) : heldMembers t i ms = heldMembers s i ms := by
  induction ms generalizing i with
  | nil => rfl
  | cons m ms ih => simp only [Machine.heldMembers, k.held, ih]

theorem longestBreak (k : SameRules s t) (ls : List LineNo) : longestBreak t ls = longestBreak s ls := by
  simp only [Machine.longestBreak, k.breaks]

theorem leaseFor (k : SameRules s t) (n : Nat) (ls : List LineNo) : leaseFor t n ls = leaseFor s n ls := by
  simp only [Machine.leaseFor, effectiveMax, k.leases]

end SameRules

theorem KeepsRest.sameRules {s t : State} (k : KeepsRest s t) : SameRules s t := .of_same k.policies k.groups

theorem advance_held (d : Nat) (s : State) (l : LineNo) : (advance d s).held l = s.held l := by
  have clear (g : GroupNo) : ((advance d s).group g).state.isClear = (s.group g).state.isClear := by
    simp only [advance, State.group, look_map]
    cases (look s.groups g).state <;> rfl
  simp only [State.held, clear]
  rfl

theorem advance_sameRules (d : Nat) (s : State) : SameRules s (advance d s) := ⟨advance_held d s, fun _ => rfl, fun _ => rfl⟩

theorem leaveReset_sameRules (a b : Level) (s : State) : SameRules s (leaveReset a b s) where
  held l := by simp only [State.held, leaveReset_policy, leaveReset_group]
  breaks l := by rw [leaveReset_policy]
  leases l := by rw [leaveReset_policy]

/-! ### The kinds of events -/

/-- Records and rules are as they were. -/
structure SameWorld (s t : State) : Prop where
  records : KeepsRecords s t
  rules : SameRules s t

namespace SameWorld

variable {s t u : State}

theorem refl (s : State) : SameWorld s s := ⟨.refl s, .refl s⟩

theorem symm (k : SameWorld s t) : SameWorld t s := ⟨k.records.symm, k.rules.symm⟩

theorem trans (a : SameWorld s t) (b : SameWorld t u) : SameWorld s u := ⟨a.records.trans b.records, a.rules.trans b.rules⟩

theorem updPort (s : State) (h : HostId) (f : Port → Port) : SameWorld s (s.updPort h f) :=
  ⟨updPort_keepsRecords s h f, .of_same rfl rfl⟩

theorem settle (s t : State) : SameWorld t (settle s t) :=
  ⟨settle_keepsRecords s t, .of_same (settle_policies s t) (settle_groups s t)⟩

theorem queued (s u : State) (h : HostId) (f : List Byte) (a : Answer) : SameWorld u (Machine.settle s (queueReply h f a u)) :=
  (updPort u h _).trans (settle s _)

end SameWorld

/-- A relation that holds over each kind of event, each under the rules it finds, but the opening of a session, a CLAIM, an AMEND and device
reset. -/
structure RuleMoves (R : State → State → Prop) : Prop where
  refl : ∀ s, R s s
  congr : ∀ {s s' t t'}, R s t → SameWorld s s' → SameWorld t t' → R s' t'
  /-- Time passes before the event. -/
  later : ∀ d {s t}, R (advance d s) t → R s t
  endSession : ∀ h s, R s (endSession h s)
  collect : ∀ h ps s, R s (collectAct h ps s).1
  listen : ∀ {h lease ms r s}, MembersSound ms → s.route? r = none → R s (createListener h lease ms r s)
  release : ∀ {r rt s}, s.route? r = some rt → R s (arbitrate none (linesGivenUp rt) (freeRoute r s))
  close : ∀ why {r rt s}, s.route? r = some rt → rt.live = true → R s (arbitrate none (linesGivenUp rt) (closeRoute why r s))
  renew : ∀ {r rt s} (lease : Route → Option Nat), s.route? r = some rt → rt.live = true → R s (s.updRoute r fun x => { x with lease := lease x })
  cancel : ∀ {c cl s}, s.claim? c = some cl → cl.waiting = true → R s (cancelClaim c cl s).1
  policy : ∀ first last p s, R s (applyPolicy first last p s).1
  group : ∀ g f s, R s (changeGroup g f s)
  activate : ∀ {r rt d s}, s.route? r = some rt → rt.state = .connecting d → R s (noteRoute rt.owner r (activate r s))
  expireWait : ∀ {c cl s}, s.claim? c = some cl → cl.waiting = true → R s (expireWait c cl s)

/-- A route whose state is no CLOSED one is live. -/
theorem Route.live_of_ne_closed {rt : Route} (still : ∀ why, rt.state ≠ .closed why) : rt.live = true := by
  cases e : rt.state with
  | closed why => exact absurd e (still why)
  | connecting | active => simp [Route.live, e]

namespace RuleMoves

variable {R : State → State → Prop} (m : RuleMoves R)
include m

theorem of_same {s t : State} (k : SameWorld s t) : R s t := m.congr (m.refl s) (.refl s) k

theorem qualifyAs (g : GroupNo) (level : Level) (f : Qualifier → Qualifier) (s : State) : R s (qualifyAs g level f s) :=
  have qualified : SameWorld s (s.updQualifier g fun q => { f q with qualified := level }) := ⟨⟨rfl, rfl, rfl, rfl, rfl⟩, .of_same rfl rfl⟩
  m.congr (m.group g (groupOnLevel level) _) qualified.symm (.refl _)

/-! ### The blocks of the requests -/

section

variable {h : HostId} {ps : List Byte} {s : State}

theorem listenAct : R s (listenAct h ps s).1 := by
  unfold Machine.listenAct
  split
  · exact m.refl s
  · rename_i params
    split
    · exact m.refl s
    · exact m.refl s
    · rename_i free
      exact m.listen (listenParams?_sound params).1 (firstFreeRoute_free free)

theorem routeRefAct {act : State × Answer} {r : RouteSlot} {gen : Byte} {f : Route → State × Answer}
    (eq : act = match routeAt? s r gen with
      | none => refuse .staleReference s
      | some rt => f rt) (each : ∀ rt, s.route? r = some rt → R s (f rt).1) : R s act.1 := by
  subst eq
  split
  · exact m.refl s
  · rename_i named
    exact each _ (routeAt?_some named)

theorem releaseAct : R s (releaseAct h ps s).1 := by
  unfold Machine.releaseAct
  split
  · exact m.refl s
  · refine m.routeRefAct rfl fun rt route => ?_
    split
    · exact m.refl s
    · exact m.release route

theorem renewAct : R s (renewAct h ps s).1 := by
  unfold Machine.renewAct
  split
  · exact m.refl s
  · refine m.routeRefAct rfl fun rt route => ?_
    split
    · exact m.refl s
    · split
      · exact m.refl s
      · rename_i still
        exact m.renew (fun x => leaseFor s _ (linesOf x.members)) route (Route.live_of_ne_closed still)

theorem revokeAct : R s (revokeAct h ps s).1 := by
  unfold Machine.revokeAct
  split
  · exact m.refl s
  · refine m.routeRefAct rfl fun rt route => ?_
    split
    · exact m.refl s
    · rename_i still
      exact m.close .revoked route (Route.live_of_ne_closed still)

theorem cancelAct : R s (cancelAct h ps s).1 := by
  unfold Machine.cancelAct
  split
  · exact m.refl s
  · split
    · exact m.refl s
    · exact m.refl s
    · rename_i passed named
      obtain ⟨x, hx, -, waits⟩ := claimRefRefusal_none passed
      cases named.symm.trans hx
      exact m.cancel (claimAt?_some named).1 waits

theorem setPolicyAct : R s (setPolicyAct h ps s).1 := by
  unfold Machine.setPolicyAct
  split
  · exact m.refl s
  · exact m.policy ..

theorem setGroupAct : R s (setGroupAct h ps s).1 := by
  unfold Machine.setGroupAct
  split
  · exact m.refl s
  · split
    · exact m.refl s
    · exact m.group ..

theorem tripAct : R s (tripAct h ps s).1 := by
  unfold Machine.tripAct
  split
  · exact m.refl s
  · split
    · exact m.refl s
    · exact m.group ..

theorem rearmAct : R s (rearmAct h ps s).1 := by
  unfold Machine.rearmAct
  split
  · exact m.refl s
  · split
    · exact m.refl s
    · split
      · exact m.refl s
      · exact m.group ..

theorem act {code : ReqCode} (own : code.isOwn = true → R s (code.act h ps s).1) : R s (code.act h ps s).1 := by
  have of_state {t : State} (e : t = s) : R s t := e ▸ m.refl s
  cases code with
  | attach | claim | amend => exact own rfl
  | detach => exact m.endSession h s
  | collect => exact m.collect h ps s
  | readLevels => exact m.refl s
  | queryLine => exact of_state (queryLineAct_state h ps s)
  | setPolicy => exact m.setPolicyAct (h := h)
  | queryPolicy => exact of_state (queryPolicyAct_state h ps s)
  | listen => exact m.listenAct
  | release => exact m.releaseAct
  | renew => exact m.renewAct
  | revoke => exact m.revokeAct (h := h)
  | queryRoute => exact of_state (queryRouteAct_state h ps s)
  | cancel => exact m.cancelAct
  | queryClaim => exact of_state (queryClaimAct_state h ps s)
  | setGroup => exact m.setGroupAct (h := h)
  | trip => exact m.tripAct (h := h)
  | rearm => exact m.rearmAct
  | queryGroup => exact of_state (queryGroupAct_state h ps s)

end

/-- What the taking of a request makes of the records is what its block makes of them. -/
theorem takeRequest {code : ReqCode} {h : HostId} {s : State}
    (own : code.isOwn = true → ∀ f, takeableFrame s h = some f → R s (replied s h f (code.act h (frameParams f) (popFrame h s)))) :
    R s (takeRequest code code.act h s) := by
  rcases takeRequest_outcome code h s with e | ⟨f, taken, ⟨st, -, e⟩ | e⟩ <;> rw [e]
  · exact m.refl s
  · exact m.of_same ((SameWorld.updPort s h _).trans (.queued s _ h f _))
  · by_cases isOwn : code.isOwn = true
    · exact own isOwn f taken
    · exact m.congr (m.act fun o => absurd o isOwn) (SameWorld.updPort s h _).symm (.queued s _ h f _)

/-! ### Links, timers and pins -/

section

variable {s : State}

theorem onKind (h : HostId) {f : Byte → State → State} (k : ∀ st, R s (f st s)) : R s (onKind h f s) := by
  unfold Machine.onKind
  split
  · exact m.refl s
  · exact k _

theorem takeUnknown (h : HostId) : R s (takeUnknown h s) := by
  unfold Machine.takeUnknown
  split
  · exact m.refl s
  · split
    · exact m.refl s
    · exact m.of_same ((SameWorld.updPort s h _).trans (.updPort _ h _))

theorem resetLink (h : HostId) (st : Byte) : R s (resetLink h st s) := by
  unfold Machine.resetLink
  dsimp only
  split
  · exact m.congr (m.endSession h s) (.refl s) (.updPort _ h _)
  · exact m.of_same (.updPort s h _)

theorem leaseEnd (r : RouteSlot) : R s (leaseEnd r s) := by
  unfold Machine.leaseEnd
  split
  · exact m.refl s
  · rename_i t rt runs
    obtain ⟨route, active⟩ := runningLease_some runs
    have later : (advance t s).route? r = some { rt with lease := rt.lease.map (· - t) } := by
      rw [advance_route?, route, Option.map_some, Route.after, active]
    have closed := m.close .expired later (by simp [Route.live, active])
    exact m.later t closed

theorem breakEnd (r : RouteSlot) : R s (breakEnd r s) := by
  unfold Machine.breakEnd
  split
  · exact m.refl s
  · rename_i t owner runs
    obtain ⟨rt, route, connecting, rfl⟩ := runningBreak_some runs
    have later : (advance t s).route? r = some { rt with state := .connecting (t - t) } := by
      rw [advance_route?, route, Option.map_some, Route.after, connecting]
    have activated := m.activate later rfl
    exact m.later t activated

theorem waitEnd (c : ClaimSlot) : R s (waitEnd c s) := by
  unfold Machine.waitEnd
  split
  · exact m.refl s
  · rename_i t cl runs
    obtain ⟨claim, waits⟩ := runningWait_some runs
    have later : (advance t s).claim? c = some { cl with waitLimit := cl.waitLimit.map (· - t) } := by
      rw [advance_claim?, claim, Option.map_some, Claim.after, waits]
    have expired := m.expireWait later (by simp [Claim.waiting, waits])
    exact m.later t expired

theorem settleEnd (g : GroupNo) : R s (settleEnd g s) := by
  unfold Machine.settleEnd
  split
  · exact m.later _ (m.group ..)
  · exact m.refl s

theorem qualify (g : GroupNo) : R s (qualify g s) := by
  unfold Machine.qualify
  split
  · exact m.qualifyAs ..
  · exact m.later _ (m.qualifyAs ..)
  · exact m.refl s

end

/-! ### Every command -/

theorem reaction {i : Instr} {s : State} (own : ∀ (code : ReqCode) h f, i = code.command h → code.isOwn = true → takeableFrame s h = some f →
    R s (replied s h f (code.act h (frameParams f) (popFrame h s)))) : R s (reaction i s) := by
  have port (h : HostId) (f : Port → Port) : R s (s.updPort h f) := m.of_same (.updPort s h f)
  have settled {t : State} (k : R s t) : R s (settle s t) := m.congr k (.refl s) (.settle s t)
  cases i with
  | transactionBegin h | write h => exact port h _
  | read h => exact m.onKind h (f := fun st t => t.updPort h (readReply st)) fun _ => port h _
  | readAgain h => exact m.onKind h (f := fun st t => t.updPort h (readReplyAgain st)) fun _ => port h _
  | linkReset h => exact m.onKind h (f := fun st t => settle t (Machine.resetLink h st t)) fun st => settled (m.resetLink h st)
  | unknownKind h =>
    unfold Machine.reaction
    dsimp only
    split
    · exact m.onKind h fun _ => port h _
    · exact m.refl s
  | unknownRequest h => exact m.takeUnknown h
  | attach h | detach h | collect h | readLevels h | queryLine h | setPolicy h | queryPolicy h | listen h | release h | renew h | revoke h
  | queryRoute h | claim h | amend h | cancel h | queryClaim h | setGroup h | trip h | rearm h | queryGroup h =>
    exact m.takeRequest fun o f => own _ h f rfl o
  | leaseExpiry r => exact settled (m.leaseEnd r)
  | breakExpiry r => exact settled (m.breakEnd r)
  | waitLimitExpiry c => exact settled (m.waitEnd c)
  | settleExpiry g => exact settled (m.settleEnd g)
  | qualifiedLevelChange g => exact settled (m.qualify g)
  | deviceReset | leaveReset | faultPinChange | terminalLevelChange | boardLineLevelChange => exact m.refl s

/-- A relation that holds over each kind of event holds over every command, if it holds over device reset and over the requests that decide
about their own session or claim. -/
theorem exec {i : Instr} {s t : State} (reset : i = .deviceReset → R s State.reset)
    (own : ∀ (code : ReqCode) h f, i = code.command h → code.isOwn = true → takeableFrame s h = some f →
      R s (replied s h f (code.act h (frameParams f) (popFrame h s)))) (step : exec i s = .next t) : R s t := by
  have pins {u : State} (k : SameWorld s u) : R s (settle s u) := m.of_same (k.trans (.settle s u))
  by_cases hi : actsInReset i = false
  · rw [exec_reaction hi] at step
    injection step with step
    subst step
    split
    · exact m.refl s
    · exact m.reaction own
  · cases i with
    | deviceReset =>
      cases step
      exact m.congr (reset rfl) (.refl s) ⟨⟨rfl, rfl, rfl, rfl, rfl⟩, .of_same rfl rfl⟩
    | leaveReset a b =>
      cases on : s.inReset with
      | true =>
        rw [exec_leaveReset a b s on] at step
        cases step
        exact pins ⟨⟨rfl, rfl, rfl, rfl, rfl⟩, leaveReset_sameRules a b s⟩
      | false =>
        rw [exec_leaveReset_running a b s on] at step
        cases step
        exact m.refl s
    | faultPinChange =>
      cases step
      exact m.of_same ⟨⟨rfl, rfl, rfl, rfl, rfl⟩, .of_same rfl rfl⟩
    | terminalLevelChange k n v =>
      cases step
      exact pins ⟨⟨rfl, rfl, rfl, rfl, rfl⟩, .of_same rfl rfl⟩
    | boardLineLevelChange l v =>
      cases step
      exact pins ⟨⟨rfl, rfl, rfl, rfl, rfl⟩, .of_same rfl rfl⟩
    | _ => exact absurd rfl hi

end RuleMoves

end Sys2Proof.Machine


/-! Forced sets follow the held status of their lines over every step (R50, R63, R114). -/

namespace Sys2Proof.Machine

/-! ### Forced sets beside a held status -/

/-- The forced set of a route is what the held status of its lines asks of it. -/
structure Route.ForcedFor (held : LineNo → Bool) (rt : Route) : Prop where
  members : MembersSound rt.members
  listener : rt.isDriver = false → ∀ d, rt.state ≠ .connecting d
  active : rt.active = true → rt.isDriver = true → ∀ i m, rt.members[i]? = some m → rt.forced.getLsbD i = held m.line
  other : rt.active = false ∨ rt.isDriver = false → rt.forced = 0#8

/-- Every route's forced set is what a held status asks of it; members are sound. -/
structure ForcedBy (held : LineNo → Bool) (s : State) : Prop where
  routes : ∀ r rt, s.route? r = some rt → rt.ForcedFor held
  claims : ∀ c cl, s.claim? c = some cl → MembersSound cl.members

theorem ForcedExact.forcedBy {s : State} (e : ForcedExact s) : ForcedBy s.held s where
  routes r rt route := ⟨e.lines.routeMembers r rt route, e.listener r rt route, e.active r rt route, e.other r rt route⟩
  claims := e.lines.claimMembers

theorem ForcedBy.exact {s : State} (f : ForcedBy s.held s) (agree : LinesAgree s) : ForcedExact s where
  lines := agree
  listener r rt route := (f.routes r rt route).listener
  active r rt route := (f.routes r rt route).active
  other r rt route := (f.routes r rt route).other

theorem MembersSound.index_lt {ms : List Member} (sound : MembersSound ms) {i : Nat} {m : Member} (h : ms[i]? = some m) : i < 8 :=
  Nat.lt_of_lt_of_le (List.getElem?_eq_some_iff.mp h).1 sound.1

/-- A line stands at one place of a member list. -/
theorem MembersSound.index_unique {ms : List Member} (sound : MembersSound ms) {i j : Nat} {m m' : Member} (hi : ms[i]? = some m)
    (hj : ms[j]? = some m') (same : m.line = m'.line) : i = j := by
  have line {k : Nat} {x : Member} (h : ms[k]? = some x) : (linesOf ms)[k]? = some x.line := by
    rw [linesOf, List.getElem?_map, h]
    rfl
  have small : i < (linesOf ms).length := (List.getElem?_eq_some_iff.mp (line hi)).1
  exact (List.getElem?_inj small sound.2).mp ((line hi).trans (same ▸ (line hj).symm))

/-- The held members of a list whose first index is i. -/
theorem heldMembers_getLsbD (s : State) (i : Nat) (ms : List Member) {k : Nat} (small : k < 8) :
    (heldMembers s i ms).getLsbD k = (decide (i ≤ k) && (ms[k - i]?.map fun m => s.held m.line).getD false) := by
  induction ms generalizing i with
  | nil => simp [heldMembers]
  | cons m ms ih =>
    have head : (if s.held m.line then memberBit i else 0#8).getLsbD k = (decide (k = i) && s.held m.line) := by
      cases s.held m.line with
      | true => rw [if_pos rfl, memberBit_getLsbD k i small, Bool.and_true]
      | false => rw [if_neg Bool.false_ne_true, BitVec.getLsbD_zero, Bool.and_false]
    rw [heldMembers, BitVec.getLsbD_or, head, ih]
    rcases Nat.lt_trichotomy k i with before | here | after
    · simp [show ¬ i ≤ k by omega, show ¬ i + 1 ≤ k by omega, show k ≠ i by omega]
    · subst here
      simp
    · obtain ⟨d, rfl⟩ : ∃ d, k = i + (d + 1) := ⟨k - i - 1, by omega⟩
      simp [show i + (d + 1) - (i + 1) = d by omega, show i + 1 ≤ i + (d + 1) by omega]

/-- The member of each index is among the held ones as its line is held. -/
theorem heldMembers_member {s : State} {ms : List Member} (sound : MembersSound ms) {i : Nat} {m : Member} (h : ms[i]? = some m) :
    (heldMembers s 0 ms).getLsbD i = s.held m.line := by
  simp [heldMembers_getLsbD s 0 ms (sound.index_lt h), h]

namespace Route.ForcedFor

variable {held : LineNo → Bool} {rt x : Route}

/-- A route that is not ACTIVE and CONNECTING only as a driver has no forced members. -/
theorem of_idle (members : MembersSound rt.members) (idle : rt.active = false) (listener : rt.isDriver = false → ∀ d, rt.state ≠ .connecting d)
    (none : rt.forced = 0#8) : rt.ForcedFor held :=
  ⟨members, listener, fun active => absurd active (by rw [idle]; exact Bool.false_ne_true), fun _ => none⟩

/-- What the forced set of a route has to be follows from its kind, state and members. -/
theorem of_same (f : x.ForcedFor held) (kind : rt.kind = x.kind) (state : rt.state = x.state) (members : rt.members = x.members)
    (forced : rt.forced = x.forced) : rt.ForcedFor held := by
  obtain ⟨owner, k, st, ms, fs, since, clamped, lease⟩ := rt
  subst kind state members forced
  exact ⟨f.members, f.listener, f.active, f.other⟩

theorem closed (f : rt.ForcedFor held) (why : CloseReason) : Route.ForcedFor held { rt with state := .closed why, lease := none, forced := 0#8 } :=
  .of_idle f.members rfl nofun rfl

theorem close (f : rt.ForcedFor held) (why : CloseReason) : (rt.close why).ForcedFor held := by
  unfold Route.close
  split
  · exact f.closed why
  · exact f

theorem activated {s : State} (members : MembersSound rt.members) (driver : rt.isDriver = true) (since : Bool) :
    Route.ForcedFor s.held { rt with state := .active, forced := heldMembers s 0 rt.members, forcedSince := since } where
  members := members
  listener := nofun
  active _ _ _ _ h := heldMembers_member members h
  other idle := by
    rcases idle with idle | idle
    · cases idle
    · exact absurd driver (by rw [show rt.isDriver = false from idle]; exact Bool.false_ne_true)

theorem after (f : rt.ForcedFor held) (d : Nat) : (rt.after d).ForcedFor held := by
  unfold Route.after
  cases e : rt.state with
  | connecting t =>
    exact .of_idle f.members rfl (fun k => absurd e (f.listener k t)) (f.other (.inl (by simp [Route.active, e])))
  | active => exact f.of_same rfl e.symm rfl rfl
  | closed => exact f

theorem enforced (f : rt.ForcedFor held) (first last : LineNo) (s : State) : (rt.enforced first last s).ForcedFor held := by
  unfold Route.enforced
  split
  · split
    · unfold Route.clamp
      dsimp only
      split
      · exact f.of_same rfl rfl rfl rfl
      · exact f
    · exact f.close .policy
  · exact f

/-- The held status of a line on which the route drives nothing does not matter. -/
theorem update_off (f : rt.ForcedFor held) {l : LineNo} (b : Bool)
    (off : rt.active = true → rt.isDriver = true → l ∉ linesOf rt.members) : rt.ForcedFor (Function.update held l b) where
  members := f.members
  listener := f.listener
  other := f.other
  active a k i m h := by
    have elsewhere : m.line ≠ l := fun e => off a k (e ▸ List.mem_map_of_mem (List.mem_of_getElem? h))
    rw [Function.update_of_ne elsewhere, f.active a k i m h]

/-- The member on a line is forced or released as the line is now held. -/
theorem forcing (f : rt.ForcedFor held) {l : LineNo} {i : Nat} (index : memberIndex rt.members l = some i) (active : rt.active = true)
    (driver : rt.isDriver = true) (b since : Bool) :
    (rt.withForced (if b then rt.forced ||| memberBit i else rt.forced &&& ~~~memberBit i) since).ForcedFor (Function.update held l b) where
  members := f.members
  listener := f.listener
  other idle := by
    rcases idle with idle | idle
    · exact absurd active (by rw [show rt.active = false from idle]; exact Bool.false_ne_true)
    · exact absurd driver (by rw [show rt.isDriver = false from idle]; exact Bool.false_ne_true)
  active _ _ j m h := by
    have h : rt.members[j]? = some m := h
    obtain ⟨m', h', rfl⟩ := memberIndex_line index
    show (if b then rt.forced ||| memberBit i else rt.forced &&& ~~~memberBit i).getLsbD j = _
    rw [getLsbD_forcing _ _ _ _ (f.members.index_lt h)]
    by_cases same : m.line = m'.line
    · rw [if_pos (f.members.index_unique h h' same), same, Function.update_self]
    · rw [Function.update_of_ne same, if_neg fun e => same (by subst e; rw [Option.some.inj (h.symm.trans h')]), f.active active driver j m h]

end Route.ForcedFor

namespace ForcedBy

variable {held : LineNo → Bool} {s t : State}

/-- Routes stay, are new or change within what their lines ask; claims stay, with their members, or go. -/
theorem of (f : ForcedBy held s) (routes : ∀ r rt, t.route? r = some rt → rt.ForcedFor held ∨ s.route? r = some rt)
    (claims : ∀ c cl, t.claim? c = some cl → ∃ x, s.claim? c = some x ∧ x.members = cl.members) : ForcedBy held t where
  routes r rt route := (routes r rt route).elim id (f.routes r rt)
  claims c cl claim := by
    obtain ⟨x, hx, e⟩ := claims c cl claim
    exact e ▸ f.claims c x hx

theorem of_same (f : ForcedBy held s) (routes : t.routes = s.routes) (claims : t.claims = s.claims) : ForcedBy held t where
  routes r rt route := f.routes r rt ((route?_congr routes r).symm.trans route)
  claims c cl claim := f.claims c cl ((claim?_congr claims c).symm.trans claim)

/-- Claims stay. -/
theorem of_routes (f : ForcedBy held s) (claims : t.claims = s.claims)
    (routes : ∀ r rt, t.route? r = some rt → rt.ForcedFor held ∨ s.route? r = some rt) : ForcedBy held t :=
  f.of routes fun c cl claim => ⟨cl, (claim?_congr claims c).symm.trans claim, rfl⟩

/-- Routes stay. -/
theorem of_claims (f : ForcedBy held s) (routes : t.routes = s.routes)
    (claims : ∀ c cl, t.claim? c = some cl → MembersSound cl.members ∨ s.claim? c = some cl) : ForcedBy held t where
  routes r rt route := f.routes r rt ((route?_congr routes r).symm.trans route)
  claims c cl claim := (claims c cl claim).elim id (f.claims c cl)

theorem updRoute (f : ForcedBy held s) (r : RouteSlot) (g : Route → Route)
    (keeps : ∀ rt, s.route? r = some rt → rt.ForcedFor held → (g rt).ForcedFor held) : ForcedBy held (s.updRoute r g) :=
  f.of_routes rfl fun q rt route => by
    rw [State.updRoute_route?] at route
    split at route
    · rename_i same
      subst same
      obtain ⟨x, hx, rfl⟩ := Option.map_eq_some_iff.mp route
      exact .inl (keeps x hx (f.routes r x hx))
    · exact .inr route

theorem updClaim (f : ForcedBy held s) (c : ClaimSlot) (g : Claim → Claim) (keeps : ∀ cl, (g cl).members = cl.members) :
    ForcedBy held (s.updClaim c g) :=
  f.of_claims rfl fun d cl claim => by
    rw [State.updClaim_claim?] at claim
    split at claim
    · rename_i same
      subst same
      obtain ⟨x, hx, rfl⟩ := Option.map_eq_some_iff.mp claim
      exact .inl ((keeps x).symm ▸ f.claims c x hx)
    · exact .inr claim

theorem closeRoute (f : ForcedBy held s) (why : CloseReason) (r : RouteSlot) : ForcedBy held (closeRoute why r s) :=
  f.of_routes (closeRoute_claims s r why) fun q rt route => by
    rw [State.route?, closeRoute_entry] at route
    split at route
    · obtain ⟨x, hx, rfl⟩ := Option.map_eq_some_iff.mp route
      exact .inl ((f.routes q x hx).close why)
    · exact .inr route

theorem freeRoute {r : RouteSlot} {rt : Route} (f : ForcedBy held s) (route : s.route? r = some rt) : ForcedBy held (freeRoute r s) :=
  f.of_routes (freeRoute_claims s r) fun q x route' => by
    rw [freeRoute_route? route] at route'
    exact (place_cases route').imp nofun id

theorem freeClaim {c : ClaimSlot} {cl : Claim} (f : ForcedBy held s) (claim : s.claim? c = some cl) : ForcedBy held (freeClaim c s) :=
  f.of_claims (freeClaim_routes s c) fun d x claim' => by
    rw [freeClaim_claim? claim] at claim'
    exact (place_cases claim').imp nofun id

theorem dropClaim (f : ForcedBy held s) (why : DropReason) (c : ClaimSlot) : ForcedBy held (dropClaim why c s) :=
  f.of_claims (dropClaim_routes s c why) fun d x claim => by
    rw [State.claim?, dropClaim_entry] at claim
    split at claim
    · obtain ⟨y, hy, rfl⟩ := Option.map_eq_some_iff.mp claim
      exact .inl (f.claims d y hy)
    · exact .inr claim

theorem createListener {h : HostId} {lease : Nat} {ms : List Member} {r : RouteSlot} (f : ForcedBy held s) (members : MembersSound ms) :
    ForcedBy held (createListener h lease ms r s) :=
  f.of_routes (createListener_claims s h r lease ms) fun q rt route => by
    rw [createListener_route?] at route
    refine (place_cases route).imp (fun e => ?_) id
    cases e
    exact ⟨members, nofun, nofun, fun _ => rfl⟩

theorem activate {r : RouteSlot} {rt : Route} {d : Nat} (f : ForcedBy held s) (same : s.held = held) (route : s.route? r = some rt)
    (connecting : rt.state = .connecting d) : ForcedBy held (activate r s) :=
  same ▸ (same ▸ f : ForcedBy s.held s).of_routes (activate_claims s r) fun q x route' => by
    rw [activate_route? route] at route'
    refine (place_cases route').imp (fun e => ?_) id
    cases e
    have driver : rt.isDriver = true := by
      by_contra listener
      exact (f.routes r rt route).listener (by simpa using listener) d connecting
    exact .activated (f.routes r rt route).members driver _

theorem clearHost (f : ForcedBy held s) (h : HostId) : ForcedBy held (clearHost h s) :=
  f.of (fun _ _ route => .inr ((clearHost_route?_some ..).mp route).1) fun _ cl claim => ⟨cl, ((clearHost_claim?_some ..).mp claim).1, rfl⟩

theorem reportRef (f : ForcedBy held s) (h : HostId) (ref : ChangeRef) : ForcedBy held (reportRef h ref s) := by
  cases ref with
  | claim c =>
    unfold Machine.reportRef
    dsimp only
    split
    · exact f.of_same rfl rfl
    · rename_i claim
      split
      · exact f.of_same rfl rfl
      · exact f.freeClaim claim
  | route r =>
    unfold Machine.reportRef
    dsimp only
    split
    · exact f.of_same rfl rfl
    · rename_i route
      split
      · exact ForcedBy.updRoute (f.of_same (t := unnoteRoute h r s) rfl rfl) r _ fun _ _ x => x.of_same rfl rfl rfl rfl
      · exact f.freeRoute route

theorem advance (f : ForcedBy held s) (d : Nat) : ForcedBy held (advance d s) where
  routes r rt route := by
    rw [advance_route?] at route
    obtain ⟨x, hx, rfl⟩ := Option.map_eq_some_iff.mp route
    exact (f.routes r x hx).after d
  claims c cl claim := by
    rw [advance_claim?] at claim
    obtain ⟨x, hx, rfl⟩ := Option.map_eq_some_iff.mp claim
    have members : (x.after d).members = x.members := by
      unfold Claim.after
      split <;> rfl
    exact members ▸ f.claims c x hx

end ForcedBy

/-! ### The Line Arbiter -/

theorem KeepsRest.held {s t : State} (k : KeepsRest s t) : t.held = s.held := funext (State.held_congr k.policies k.groups)

/-- A grant's route has sound members, and is forced as its lines are held if it is ACTIVE at once. -/
theorem ForcedBy.grant {s : State} (f : ForcedBy s.held s) (own : Option ClaimSlot) {c : ClaimSlot} (r : RouteSlot) {cl : Claim}
    (claim : s.claim? c = some cl) : ForcedBy s.held (grant own c r s).1 := by
  obtain ⟨t, u, ht, hu, e⟩ := grant_cases (own := own) (r := r) claim
  have base : ForcedBy s.held (grantBase c cl r s) := by
    refine f.of (fun q rt route => ?_) fun d x claim' => ?_
    · rw [grantBase_route?] at route
      refine (place_cases route).imp (fun e => ?_) id
      cases e
      exact .of_idle (f.claims c cl claim) rfl nofun rfl
    · rw [grantBase_claim? _ _ _ _ claim] at claim'
      rcases place_cases claim' with e | old
      · cases e
        split at claim'
        · rename_i same
          exact ⟨cl, same ▸ claim, rfl⟩
        · exact ⟨_, claim', rfl⟩
      · exact ⟨x, old, rfl⟩
  have kept : KeepsRest s (grantBase c cl r s) :=
    ((takeEntry_keepsRest s r _).trans (takeLines_keeps _ r _).rest).trans (settleGranted_keepsRest c cl r _)
  obtain ⟨before, same, route⟩ : ForcedBy s.held t ∧ t.held = s.held ∧ t.route? r = some (grantedRoute s cl) := by
    have route : (grantBase c cl r s).route? r = some (grantedRoute s cl) := by rw [grantBase_route?, if_pos rfl]
    rcases ht with rfl | rfl
    · exact ⟨base, kept.held, route⟩
    · exact ⟨base.of_same rfl rfl, ((kept.trans (noteClaim_keepsRest ..)).trans (noteRoute_keepsRest ..)).held, route⟩
  have after : ForcedBy s.held u := by
    have activated := before.activate same route rfl
    rcases hu with rfl | rfl | rfl
    · exact before
    · exact activated
    · exact activated.of_same rfl rfl
  rw [e]
  exact after.of_same (setLineStates_keep ..).routes (setLineStates_keep ..).claims

theorem forced_arbiterMoves (own : Option ClaimSlot) : ArbiterMoves own fun s t => ForcedBy s.held s → ForcedBy t.held t where
  refl _ := id
  trans a b f := b (a f)
  line s l f := by
    have kept := setLineState_keeps s l
    rw [kept.rest.held]
    exact f.of_same kept.routes kept.claims
  mark s c b f := f.updClaim c _ fun _ => rfl
  preempt s r f := by
    rw [(closeRoute_keepsRest s r .preempted).held]
    exact f.closeRoute .preempted r
  grant s c r cl claim waits free f := by
    rw [(grant_afterChecks own claim waits free).rest.held]
    exact f.grant own r claim

theorem ForcedBy.arbitrate {s : State} (f : ForcedBy s.held s) (own : Option ClaimSlot) (ls : List LineNo) :
    ForcedBy (arbitrate own ls s).held (arbitrate own ls s) := (forced_arbiterMoves own).arbitrate ls s f

/-- The grant checks after an event that changes no held status. -/
theorem ForcedBy.arbitrated {s t : State} (f : ForcedBy s.held t) (kept : KeepsRest s t) (own : Option ClaimSlot) (ls : List LineNo) :
    ForcedBy (Machine.arbitrate own ls t).held (Machine.arbitrate own ls t) := ForcedBy.arbitrate (kept.held ▸ f) own ls

/-! ### Changes of held status -/

/-- Once a line's held status is handed on, the routes are forced by what it is now. -/
theorem ForcedBy.passHeldOn {held : LineNo → Bool} {s : State} (f : ForcedBy held s) (sound : LinesSound s) (l : LineNo) :
    ForcedBy (Function.update held l (s.held l)) (passHeldOn l s) := by
  have others {q : RouteSlot} {x : Route} (route : s.route? q = some x)
      (not_driver : x.active = true → lineDriver s l ≠ some (q, x)) : x.ForcedFor (Function.update held l (s.held l)) :=
    (f.routes q x route).update_off _ fun active driver on =>
      not_driver active (sound.lineDriver_some.mpr ⟨drives_some.mpr ⟨route, Route.live_of_active active, driver⟩, on⟩)
  have untouched (idle : ∀ r rt, lineDriver s l = some (r, rt) → rt.active = false) :
      ForcedBy (Function.update held l (s.held l)) (Machine.passHeldOn l s) := by
    rw [passHeldOn_idle s l idle]
    exact ⟨fun q x route => others route fun active driver => by simp [idle q x driver] at active, f.claims⟩
  cases driver : lineDriver s l with
  | none => exact untouched (by simp [driver])
  | some p =>
    obtain ⟨r, rt⟩ := p
    by_cases active : rt.active = true
    · obtain ⟨drives, on⟩ := sound.lineDriver_some.mp driver
      obtain ⟨route, -, isDriver⟩ := drives_some.mp drives
      obtain ⟨m, member, rfl⟩ := List.mem_map.mp on
      obtain ⟨i, index, -⟩ := memberIndex_of_mem (f.routes r rt route).members.2 member
      have e : Machine.passHeldOn m.line s = noteRoute rt.owner r (s.updRoute r fun x =>
          if s.held m.line then { x with forced := x.forced ||| memberBit i, forcedSince := true }
          else { x with forced := x.forced &&& ~~~memberBit i }) := by
        simp only [Machine.passHeldOn, driver, active, index, if_true]
      refine ⟨fun q x after => ?_, fun c cl claim => f.claims c cl ((claim?_congr (passHeldOn_claims s _) c).symm.trans claim)⟩
      rw [e, route?_congr (noteRoute_routes ..), State.updRoute_route?] at after
      split at after
      · rename_i same
        subst same
        rw [route, Option.map_some, Option.some.injEq] at after
        subst after
        cases held : s.held m.line with
        | true => exact (f.routes r rt route).forcing index active isDriver true true
        | false => exact (f.routes r rt route).forcing index active isDriver false rt.forcedSince
      · rename_i other
        exact others after fun _ same => other (congrArg Prod.fst (Option.some.inj (driver.symm.trans same)))
    · refine untouched fun q x same => ?_
      cases driver.symm.trans same
      simpa using active

/-- Once every change of held status is handed on, the routes are forced by what it is now. -/
theorem ForcedBy.passHeldChanges {before s : State} (f : ForcedBy before.held s) (sound : LinesSound s) :
    ForcedBy (passHeldChanges before s).held (passHeldChanges before s) := by
  have fold (ls : List LineNo) {held : LineNo → Bool} {u : State} (f : ForcedBy held u) (sound : LinesSound u) :
      ForcedBy (fun l => if l ∈ ls then u.held l else held l) (ls.foldl (fun t l => Machine.passHeldOn l t) u) := by
    induction ls generalizing held u with
    | nil => simpa using f
    | cons l ls ih =>
      have same := (passHeldOn_keepsRest u l).held
      have rest := ih (f.passHeldOn sound l) ((passHeldOn_unchanged u l).sound sound)
      rw [same] at rest
      refine (congrArg (ForcedBy · _) (funext fun k => ?_)).mp rest
      by_cases here : k = l
      · subst here
        simp
      · simp [here]
  have all := fold ((every 40).filter fun l => before.held l ≠ s.held l) f sound
  rw [(passHeldChanges_keepsRest before s).held]
  refine (congrArg (ForcedBy · _) (funext fun l => ?_)).mp all
  by_cases changed : before.held l = s.held l
  · simp [changed]
  · simp [changed, List.mem_filter, mem_every]

/-- SET_POLICY closes, drops, demotes and clamps by the new records, then hands on what their writing changes of held status. -/
theorem ForcedExact.policySet {s : State} (e : ForcedExact s) (first last : LineNo) (p : Policy) :
    ForcedBy (policySet first last s p).held (policySet first last s p) := by
  have written : Unchanged s (writePolicies first last p s) :=
    .of_same (writePolicies_lines ..) (by unfold writePolicies; rfl) (writePolicies_routes ..) (writePolicies_claims ..)
  have sound : LinesSound (enforced first last (writePolicies first last p s)) :=
    Removes.sound (foldl_unchanged (fun t x => clampRoute_unchanged t x.1) (affectedRoutes first last (writePolicies first last p s)) _)
      (withDemotions_handing (e.lines.handing.unchanged written)).handed.sound
  refine ForcedBy.passHeldChanges ⟨fun r rt route => ?_, fun c cl claim => ?_⟩ sound
  · rw [State.route?, enforced_entry] at route
    obtain ⟨x, hx, rfl⟩ := Option.map_eq_some_iff.mp route
    exact (e.forcedBy.routes r x hx).enforced ..
  · exact sound.claimMembers c cl claim

/-! ### Every step -/

/-- The entry of every event into the step lemma: from exact forced sets to routes that are forced by the held status after it. -/
theorem forced_ruleMoves : RuleMoves fun s t => ForcedExact s → ForcedBy t.held t where
  refl _ e := e.forcedBy
  congr {s s' t t'} k before after e := by
    have agree : LinesAgree s := (Unchanged.agree before.records.symm.unchanged e.lines).1
    have same (x y : State) (k : SameWorld x y) : y.held = x.held := funext k.rules.held
    have start : ForcedBy s.held s := same _ _ before ▸ e.forcedBy.of_same before.records.routes.symm before.records.claims.symm
    rw [same _ _ after]
    exact (k (start.exact agree)).of_same after.records.routes after.records.claims
  later d s t k e := k (ForcedBy.exact (funext (advance_held d s) ▸ e.forcedBy.advance d) (Unchanged.agree (advance_unchanged d s) e.lines).1)
  endSession h s e := (e.forcedBy.clearHost h).arbitrated (by constructor <;> rfl) none (touchedLines s h)
  collect h ps s e := by
    have reported := List.foldlRecOn (motive := ForcedBy s.held) (reportedRefs (s.session h).changes) (fun t ref => reportRef h ref t)
      e.forcedBy fun t f ref _ => f.reportRef h ref
    exact reported.arbitrated (foldl_keepsRest s (fun t ref => reportRef_keepsRest h t ref) (reportedRefs (s.session h).changes)) none []
  listen {h lease ms r s} members _ e := by
    rw [(createListener_keepsRest ..).held]
    exact e.forcedBy.createListener members
  release {r rt s} route e := (e.forcedBy.freeRoute route).arbitrated (freeRoute_keepsRest s r) none (linesGivenUp rt)
  close why {r rt s} _ _ e := (e.forcedBy.closeRoute why r).arbitrated (closeRoute_keepsRest s r why) none (linesGivenUp rt)
  renew {r rt s} lease _ _ e := e.forcedBy.updRoute r _ fun _ _ f => f.of_same rfl rfl rfl rfl
  cancel {c cl s} claim _ e := by
    rw [cancelClaim_state]
    have withdrawn : ForcedBy s.held (withdrawClaim c cl s) := e.forcedBy.of_same (withdrawClaim_routes s c cl) (withdrawClaim_claims s c cl)
    exact (withdrawn.freeClaim ((claim?_congr (withdrawClaim_claims s c cl) c).trans claim)).arbitrated
      ((withdrawClaim_keepsRest s c cl).trans (freeClaim_keepsRest ..)) none _
  policy first last p s e := by
    rw [applyPolicy_eq]
    exact (e.policySet first last p).arbitrate none (linesHandedOver first last (writePolicies first last p s))
  group g f s e := ForcedBy.passHeldChanges (s := s.updGroup g f) (e.forcedBy.of_same rfl rfl)
    ((Removes.sound (.of_same rfl rfl rfl rfl : Unchanged s (s.updGroup g f))) e.lines.sound)
  activate {r rt d s} route connecting e := by
    have kept : KeepsRest s (noteRoute rt.owner r (activate r s)) := (activate_keepsRest s r).trans (noteRoute_keepsRest ..)
    rw [kept.held]
    exact (e.forcedBy.activate rfl route connecting).of_same rfl rfl
  expireWait {c cl s} _ _ e := (e.forcedBy.dropClaim .timedOut c).arbitrated (dropClaim_keepsRest s c .timedOut) none
    (changedHeads s (dropClaim .timedOut c s) (linesOf cl.members))

/-- The answer to a CLAIM or AMEND frees a granted claim's record. -/
theorem ForcedBy.answerClaim {s : State} (f : ForcedBy s.held s) (c : ClaimSlot) :
    ForcedBy (answerClaim c s).1.held (answerClaim c s).1 := by
  rw [(answerClaim_keepsRest s c).held]
  unfold Machine.answerClaim
  split
  · exact f
  · rename_i claim
    split
    · exact f.freeClaim claim
    · exact f

theorem ownAct_forcedBy {s : State} {code : ReqCode} (h : HostId) (ps : List Byte) (isOwn : code.isOwn = true) (e : ForcedExact s) :
    ForcedBy (code.act h ps s).1.held (code.act h ps s).1 := by
  cases code with
  | attach =>
    show ForcedBy (attachAct h ps s).1.held (attachAct h ps s).1
    unfold attachAct
    split
    · exact ForcedBy.of_same (forced_ruleMoves.endSession h s e) rfl rfl
    · exact e.forcedBy.of_same rfl rfl
  | claim =>
    rcases claimAct_cases h ps s with ⟨st, -, refused⟩ | ⟨p, c, params, -, answered⟩
    · rw [ReqCode.act, refused]
      exact e.forcedBy
    · rw [ReqCode.act, answered]
      have accepted : ForcedBy s.held (acceptClaim h p c s) := e.forcedBy.of_claims (acceptClaim_routes s h p c) fun d cl claim => by
        rw [acceptClaim_claim?] at claim
        refine (place_cases claim).imp (fun same => ?_) id
        cases same
        exact (claimParams?_sound params).1
      exact (accepted.arbitrated (acceptClaim_keepsRest h s p c) (some c) _).answerClaim c
  | amend =>
    rcases amendAct_cases h ps s with ⟨st, -, refused⟩ | ⟨c, _, p, limit, cl, -, claim, -, answered⟩
    · rw [ReqCode.act, refused]
      exact e.forcedBy
    · rw [ReqCode.act, answered, amendClaim_eq]
      have prepares := amended_prepares (p := p) (limit := limit) claim
      have moved : ForcedBy s.held (amended c cl p limit s) := e.forcedBy.of_claims prepares.routes fun d x after => by
        rw [State.claim?, amended, amended_claimEntry _ claim] at after
        split at after
        · cases after
          exact .inl (e.forcedBy.claims c cl claim)
        · exact .inr after
      exact (moved.arbitrated prepares.rest (some c) _).answerClaim c
  | _ => cases isOwn

theorem exec_forcedBy {i : Instr} {s t : State} (e : ForcedExact s) (stepped : exec i s = .next t) : ForcedBy t.held t := by
  refine forced_ruleMoves.exec (fun _ _ => reset_forcedExact.forcedBy) (fun code h f _ isOwn _ => ?_) stepped e
  exact forced_ruleMoves.congr (ownAct_forcedBy h (frameParams f) isOwn) (SameWorld.updPort s h _).symm (.queued s _ h f _)

/-- Settles O58. Each kind of event leaves every forced set as the held status after it asks: grants, activations and closures by what they
write, changes of held status by being handed on, and everything else by leaving forced sets and held status alone. -/
theorem forcedExactKept : Obligations.ForcedExactKept := by
  intro s t e stepped
  refine ForcedBy.exact ?_ (linesAgreeKept.1 s t e.lines stepped).1
  unfold step at stepped
  split at stepped
  · cases stepped
    exact funext (advance_held 1 s) ▸ e.forcedBy.advance 1
  · rename_i i rest _
    have queued : KeepsRecords s { s with pending := rest } := ⟨rfl, rfl, rfl, rfl, rfl⟩
    have begun : ForcedBy s.held { s with pending := rest } := e.forcedBy.of_same rfl rfl
    exact exec_forcedBy (ForcedBy.exact begun (Unchanged.agree queued.unchanged e.lines).1) stepped

end Sys2Proof.Machine


/-! Timers: a microsecond that passes, and the expiries of leases and break intervals (R50, R51, R57, R97, log entry 6). -/

namespace Sys2Proof.Machine

/-! ### Time that passes -/

section

variable (d : Nat) (s : State)

theorem advance_routeEntry (r : RouteSlot) : (advance d s).routeEntry r = { s.routeEntry r with route := (s.route? r).map (Route.after d) } := by
  rw [State.routeEntry, advance, look_map]
  rfl

theorem advance_claimEntry (c : ClaimSlot) : (advance d s).claimEntry c = { s.claimEntry c with claim := (s.claim? c).map (Claim.after d) } := by
  rw [State.claimEntry, advance, look_map]
  rfl

theorem advance_group (g : GroupNo) : (advance d s).group g = { s.group g with state := (s.group g).state.after d } := by
  rw [State.group, advance, look_map]
  rfl

theorem advance_qualifier (g : GroupNo) :
    (advance d s).qualifier g = { s.qualifier g with count := (s.qualifier g).count.map (· - d) } := by
  rw [State.qualifier, advance, look_map]
  rfl

end

theorem Claim.after_eq (d : Nat) (cl : Claim) :
    cl.after d = if cl.waiting then { cl with waitLimit := cl.waitLimit.map (· - d) } else cl := by
  unfold Claim.after Claim.waiting
  cases cl.state <;> rfl

theorem Route.after_zero (rt : Route) : rt.after 0 = rt := by
  obtain ⟨owner, kind, state, members, forced, since, clamped, lease⟩ := rt
  cases state <;> simp [Route.after]

theorem Claim.after_zero (cl : Claim) : cl.after 0 = cl := by
  rw [Claim.after_eq]
  split <;> simp

theorem GroupState.after_zero (x : GroupState) : x.after 0 = x := by cases x <;> rfl

/-- Where no time passes, nothing changes. -/
theorem advance_zero (s : State) : advance 0 s = s := by
  have routes : (advance 0 s).routes = s.routes := ext_look fun r => by
    show (advance 0 s).routeEntry r = s.routeEntry r
    rw [advance_routeEntry, show Route.after 0 = id from funext Route.after_zero, Option.map_id]
    rfl
  have claims : (advance 0 s).claims = s.claims := ext_look fun c => by
    show (advance 0 s).claimEntry c = s.claimEntry c
    rw [advance_claimEntry, show Claim.after 0 = id from funext Claim.after_zero, Option.map_id]
    rfl
  have groups : (advance 0 s).groups = s.groups := ext_look fun g => by
    show (advance 0 s).group g = s.group g
    rw [advance_group, GroupState.after_zero]
  have qualifiers : (advance 0 s).qualifiers = s.qualifiers := ext_look fun g => by
    show (advance 0 s).qualifier g = s.qualifier g
    rw [advance_qualifier, show (fun n : Nat => n - 0) = id from rfl, Option.map_id]
    rfl
  calc advance 0 s = { s with
        routes := (advance 0 s).routes, claims := (advance 0 s).claims
        groups := (advance 0 s).groups, qualifiers := (advance 0 s).qualifiers } := rfl
    _ = s := by rw [routes, claims, groups, qualifiers]

/-- Settles O2: the one step of an empty queue is a microsecond for every running timer. -/
theorem emptyQueuePassesAMicrosecond : Obligations.EmptyQueuePassesAMicrosecond := by
  intro s empty
  refine ⟨advance 1 s, by simp only [step, empty], rfl, fun r => advance_routeEntry 1 s r, fun c => ?_, fun g => ?_, advance_qualifier 1 s⟩
  · rw [advance_claimEntry, show Claim.after 1 = _ from funext (Claim.after_eq 1)]
  · rw [advance_group]
    cases (s.group g).state <;> rfl

/-! ### Events that pins follow -/

/-- What an event that leaves circuits, pins, ports, supervisor and queue alone leaves as it was once the pins follow. -/
theorem KeepsSurroundings.settled {s u : State} (k : KeepsSurroundings s u) :
    KeepsOutside s (settle s u) ∧ PinsFollow s (settle s u) ∧ (settle s u).ports = s.ports where
  left := ⟨(settle_inReset s u).trans k.inReset, (settle_supervisor s u).trans k.supervisor, (settle_pending s u).trans k.pending,
    (settle_terminals s u).trans k.terminals, fun l => by rw [settle_board, State.pin, k.pins]; rfl⟩
  right := ⟨settle_pinsFollow s u k.pins, (settle_ports s u).trans k.ports⟩

theorem KeepsRest.settledSettings {s u : State} (k : KeepsRest s u) : KeepsSettings s (settle s u) :=
  ⟨(settle_policies s u).trans k.policies, (settle_groups s u).trans k.groups, (settle_qualifiers s u).trans k.qualifiers⟩

/-! ### A route that is closed, with the grant checks of its lines -/

/-- A live route is CLOSED for a reason and told to its owner; what else changes is the grant checks of its lines. -/
structure ClosedWithChecks (why : CloseReason) (r : RouteSlot) (rt : Route) (s t : State) : Prop where
  entry : t.routeEntry r = closedEntry (s.routeEntry r) rt why
  told : r ∈ (t.session rt.owner).changes.routes
  others : ∀ q, q ≠ r → EntryAfterChecks (s.routeEntry q) (t.routeEntry q)
  claims : ClaimsAfterChecks s.claimEntry t
  sessions : ∀ k, (t.session k).attached = (s.session k).attached ∧ (t.session k).epoch = (s.session k).epoch

/-- Closing a live route and checking the lines it gives up does just that. -/
theorem closeRoute_checked {s : State} {r : RouteSlot} {rt : Route} (why : CloseReason) (route : s.route? r = some rt)
    (live : rt.live = true) : ClosedWithChecks why r rt s (arbitrate none (linesGivenUp rt) (closeRoute why r s)) := by
  have entry (q : RouteSlot) := closeRoute_routeEntry route live why q
  have closed : (closeRoute why r s).routeEntry r = closedEntry (s.routeEntry r) rt why := by rw [entry, if_pos rfl, closedEntry]
  have checks := arbitrate_afterChecks none (linesGivenUp rt) (closeRoute why r s)
  have session (k : HostId) := closeRoute_session why route live k
  refine ⟨(checks.closedRoute (by rw [State.route?, closed, closedEntry]) rfl).trans closed, checks.sessions.notedRoutes _ ?_,
    fun q ne => ?_, fun c => ?_, fun k => ?_⟩
  · rw [session, if_pos rfl]
    exact mem_insertAsc.mpr (.inl rfl)
  · have after := checks.routes q
    rwa [entry, if_neg (Ne.symm ne)] at after
  · have after := checks.claims c
    rwa [State.claimEntry, closeRoute_claims] at after
  · rw [checks.sessions.attached, checks.sessions.epoch, session]
    split <;> exact ⟨rfl, rfl⟩

theorem KeepsRecords.routeEntry {s t : State} (k : KeepsRecords s t) (r : RouteSlot) : t.routeEntry r = s.routeEntry r := by
  rw [State.routeEntry, k.routes]
  rfl

theorem KeepsRecords.claimEntry {s t : State} (k : KeepsRecords s t) (c : ClaimSlot) : t.claimEntry c = s.claimEntry c := by
  rw [State.claimEntry, k.claims]
  rfl

/-- What a closing does is read off the records alone. -/
theorem ClosedWithChecks.congr {why : CloseReason} {r : RouteSlot} {rt : Route} {s s' t t' : State} (k : ClosedWithChecks why r rt s t)
    (before : KeepsRecords s s') (after : KeepsRecords t t') : ClosedWithChecks why r rt s' t' := by
  refine ⟨?_, ?_, fun q ne => ?_, fun c => ?_, fun h => ?_⟩
  · rw [after.routeEntry, before.routeEntry]
    exact k.entry
  · rw [session_congr after.sessions]
    exact k.told
  · rw [after.routeEntry, before.routeEntry]
    exact k.others q ne
  · rw [after.claimEntry, before.claimEntry]
    exact k.claims c
  · rw [session_congr after.sessions, session_congr before.sessions]
    exact k.sessions h

theorem leaseEnd_expired {s : State} {r : RouteSlot} {rt : Route} (route : s.route? r = some rt) (active : rt.active = true)
    (ended : rt.lease = some 0) : leaseEnd r s = arbitrate none (linesGivenUp rt) (closeRoute .expired r s) := by
  simp [leaseEnd, runningLease, route, active, ended, advance_zero, expireLease]

theorem leaseEnd_idle {s : State} {r : RouteSlot} (idle : ∀ rt, s.route? r = some rt → rt.state = .active → rt.lease = none) :
    leaseEnd r s = s := by
  have none : runningLease s r = none := by
    unfold runningLease
    split
    · rfl
    · rename_i rt route
      split
      · rename_i active
        rw [idle rt route (by unfold Route.active at active; split at active <;> simp_all), Option.map_none]
      · rfl
  rw [leaseEnd, none]

/-- Settles O44: the expiry closes the route and checks its lines; where no lease runs, it comes to nothing. -/
theorem leaseExpiryClosesTheRoute : Obligations.LeaseExpiryClosesTheRoute := by
  refine ⟨fun r rt s running route active ended => ?_, fun r s idle => ?_⟩
  · have live : rt.live = true := by rw [Route.live, active]
    have e := leaseEnd_expired route (by rw [Route.active, active]) ended
    have closed := closeRoute_checked .expired route live
    have rest : KeepsRest s (leaseEnd r s) := e ▸ (closeRoute_keepsRest s r .expired).trans (arbitrate_keepsRest ..)
    obtain ⟨entry, told, others, claims, sessions⟩ := (e ▸ closed).congr (.refl s) (settle_keepsRecords s (leaseEnd r s))
    obtain ⟨outside, pins, ports⟩ := rest.surroundings.settled
    exact ⟨settle s (leaseEnd r s), by rw [exec_reaction rfl, whileRunning, running]; rfl, outside, rest.settledSettings, pins, ports,
      entry, told, others, claims, sessions⟩
  · rw [exec_reaction rfl, whileRunning]
    split
    · rfl
    · show Host.Outcome.next (settle s (leaseEnd r s)) = _
      rw [leaseEnd_idle idle, settle_same s s fun _ => ⟨rfl, rfl⟩]

/-! ### A break interval that ends -/

theorem breakEnd_expired {s : State} {r : RouteSlot} {rt : Route} (route : s.route? r = some rt) (ended : rt.state = .connecting 0) :
    breakEnd r s = noteRoute rt.owner r (activate r s) := by
  simp [breakEnd, runningBreak, route, ended, advance_zero, expireBreak]

/-- The bits of the members whose lines are held. -/
theorem heldMembers_iff {s : State} {ms : List Member} (few : ms.length ≤ 8) (i : Nat) :
    (heldMembers s 0 ms).getLsbD i = true ↔ ∃ m, ms[i]? = some m ∧ s.held m.line = true := by
  by_cases small : i < 8
  · rw [heldMembers_getLsbD s 0 ms small]
    cases ms[i]? <;> simp
  · have beyond : ms[i]? = none := List.getElem?_eq_none (by omega)
    simp [beyond, BitVec.getLsbD_of_ge _ _ (Nat.le_of_not_lt small)]

/-- Settles O45: the route becomes ACTIVE with its held members forced, its lines' states are set, and its owner is told. -/
theorem breakExpiryActivatesTheRoute : Obligations.BreakExpiryActivatesTheRoute := by
  intro r rt s running route ended driver few drives
  have e := breakEnd_expired route ended
  have rest : KeepsRest s (breakEnd r s) := e ▸ (activate_keepsRest s r).trans (noteRoute_keepsRest ..)
  obtain ⟨outside, pins, ports⟩ := rest.surroundings.settled
  have route' : (activate r s).route? r = some { rt with
      state := .active, forced := heldMembers s 0 rt.members
      forcedSince := rt.forcedSince || heldMembers s 0 rt.members != 0#8 } := by rw [activate_route? route, if_pos rfl]
  have line (l : LineNo) := activate_line route l
  have session (h : HostId) : (settle s (breakEnd r s)).session h = (noteRoute rt.owner r s).session h := by
    rw [State.session, settle_sessions, e]
    exact session_congr (by simp only [noteRoute, State.updSession, activate_sessions]) h
  refine ⟨settle s (breakEnd r s), by rw [exec_reaction rfl, whileRunning, running]; rfl, outside, rest.settledSettings, pins, ports,
    ?_, ?_, fun q ne => ?_, ?_, ⟨heldMembers s 0 rt.members, ?_, heldMembers_iff few⟩, fun m member => ?_, fun l => ?_, fun h => ?_, ?_⟩
  · rw [settle_claims, e, noteRoute_claims, activate_claims]
  · rw [settle_accepted, e, noteRoute_accepted, activate_accepted]
  · rw [State.routeEntry, settle_routes, e, noteRoute_routes]
    show (activate r s).routeEntry q = _
    rw [activate_routeEntry, if_neg (Ne.symm ne)]
  · rw [State.routeEntry, settle_routes, e, noteRoute_routes]
    show ((activate r s).routeEntry r).generation = _
    rw [activate_routeEntry]
    split <;> rfl
  · rw [route?_congr (settle_routes ..), e, route?_congr (noteRoute_routes ..), route']
  · rw [State.line, settle_lines, e, noteRoute_lines]
    show ((activate r s).line m.line).state = _
    have on : m.line ∈ linesOf rt.members := List.mem_map_of_mem member
    have record : (activate r s).line m.line = { s.line m.line with state := lineStateOf (activate r s) m.line } := by rw [line, if_pos on]
    have driven : lineDriver (activate r s) m.line = some (r, _) := lineDriver_some.mpr
      ⟨by rw [record]; exact drives m member, drives_some.mpr ⟨route', rfl, driver⟩⟩
    rw [record, lineStateOf, driven]
    rfl
  · rw [State.line, settle_lines, e, noteRoute_lines]
    show ((activate r s).line l).driver = _ ∧ ((activate r s).line l).queue = _
    rw [line]
    split <;> exact ⟨rfl, rfl⟩
  · rw [session, noteRoute, State.updSession_session]
    by_cases own : rt.owner = h
    · rw [if_pos own, if_pos own.symm]
    · rw [if_neg own, if_neg (Ne.symm own)]
  · rw [session]
    exact mem_noteRoute ..

end Sys2Proof.Machine


/-! Requests on existing routes and claims: which reference is refused and how (R47, R68), and REVOKE (R61). -/

namespace Sys2Proof.Machine

/-! ### References that name nothing -/

section

variable {s : State}

theorem routeAt?_of_stale {r : RouteSlot} {gen : Byte} (stale : ¬ ∃ rt, NamesRoute s r gen rt) : routeAt? s r gen = none := by
  unfold routeAt?
  split
  · rename_i same
    exact Option.eq_none_iff_forall_ne_some.mpr fun rt route => stale ⟨rt, route, same⟩
  · rfl

theorem claimAt?_of_stale {c : ClaimSlot} {gen : Byte} (stale : ¬ ∃ cl, NamesClaim s c gen cl) : claimAt? s c gen = none := by
  unfold claimAt?
  split
  · rename_i same
    exact Option.eq_none_iff_forall_ne_some.mpr fun cl claim => stale ⟨cl, claim, same⟩
  · rfl

/-! ### What the block of a request makes of the reference it carries -/

variable {h : HostId} {ps : List Byte} {code : ReqCode}

theorem routeRefAct_stale {r : RouteSlot} {gen : Byte} (carries : code.routeReference? ps = some (r, gen)) (stale : routeAt? s r gen = none) :
    code.act h ps s = refuse .staleReference s := by
  cases code with
  | release | revoke | queryRoute =>
    have params : routeRef? ps = some (r, gen) := carries
    simp only [ReqCode.act, releaseAct, revokeAct, queryRouteAct, params, stale]
  | renew =>
    obtain ⟨⟨r', gen', lease⟩, params, same⟩ := Option.map_eq_some_iff.mp carries
    cases same
    simp only [ReqCode.act, renewAct, params, stale]
  | _ => cases carries

/-- RELEASE and RENEW are the owner's alone. -/
theorem routeRefAct_notOwner {r : RouteSlot} {gen : Byte} {rt : Route} (carries : code.routeReference? ps = some (r, gen))
    (named : routeAt? s r gen = some rt) (other : rt.owner ≠ h) (owners : code = .release ∨ code = .renew) :
    code.act h ps s = refuse .notOwner s := by
  rcases owners with rfl | rfl
  · have params : routeRef? ps = some (r, gen) := carries
    simp only [ReqCode.act, releaseAct, params, named, if_pos other]
  · obtain ⟨⟨r', gen', lease⟩, params, same⟩ := Option.map_eq_some_iff.mp carries
    cases same
    simp only [ReqCode.act, renewAct, params, named, if_pos other]

/-- AMEND and CANCEL are refused what their shared checks of the reference say. -/
theorem claimRefAct_refused {c : ClaimSlot} {gen : Byte} {st : Status} (carries : code.claimReference? ps = some (c, gen))
    (owners : code = .amend ∨ code = .cancel) (refused : claimRefRefusal h (claimAt? s c gen) = some st) :
    code.act h ps s = refuse st s := by
  rcases owners with rfl | rfl
  · obtain ⟨⟨c', gen', p, limit⟩, params, same⟩ := Option.map_eq_some_iff.mp carries
    cases same
    simp only [ReqCode.act, amendAct, params, refused]
  · have params : claimRef? ps = some (c, gen) := carries
    simp only [ReqCode.act, cancelAct, params, refused]

theorem claimRefAct_stale {c : ClaimSlot} {gen : Byte} (carries : code.claimReference? ps = some (c, gen)) (stale : claimAt? s c gen = none) :
    code.act h ps s = refuse .staleReference s := by
  cases code with
  | amend => exact claimRefAct_refused carries (.inl rfl) (by rw [stale]; rfl)
  | cancel => exact claimRefAct_refused carries (.inr rfl) (by rw [stale]; rfl)
  | queryClaim =>
    have params : claimRef? ps = some (c, gen) := carries
    simp only [ReqCode.act, queryClaimAct, params, stale]
  | _ => cases carries

end

/-- Settles O17: the block of each request reads its reference first, then the owner, then the state of the claim. -/
theorem referencesAreChecked : Obligations.ReferencesAreChecked := by
  refine ⟨fun code h f s r gen offers admitted carries => ⟨fun stale => ?_, fun rt names other owners => ?_⟩,
    fun code h f s c gen offers admitted carries => ⟨fun stale => ?_, fun cl names owners => ⟨fun other => ?_, fun owner settled => ?_⟩⟩⟩
  · exact offers.only_answers admitted (routeRefAct_stale carries (routeAt?_of_stale stale))
  · exact offers.only_answers admitted (routeRefAct_notOwner carries (routeAt?_of_names names) other owners)
  · exact offers.only_answers admitted (claimRefAct_stale carries (claimAt?_of_stale stale))
  · refine offers.only_answers admitted (claimRefAct_refused carries owners ?_)
    rw [show claimAt? (popFrame h s) c gen = some cl from claimAt?_of_names names, claimRefRefusal, if_pos other]
  · refine offers.only_answers admitted (claimRefAct_refused carries owners ?_)
    rw [show claimAt? (popFrame h s) c gen = some cl from claimAt?_of_names names, claimRefRefusal, if_neg (not_not_intro owner), settled]
    rfl

/-! ### REVOKE -/

theorem routeRef?_bytes (r : RouteSlot) (gen : Byte) : routeRef? [BitVec.ofNat 8 r.val, gen] = some (r, gen) := by
  rw [routeRef?, below?_ofNat r (by decide)]
  rfl

theorem alreadyClosed_eq (why : CloseReason) : alreadyClosed why = ⟨.alreadyClosed, [BitVec.ofNat 8 why.code]⟩ := by
  rw [alreadyClosed, place_zero]

section

variable {s : State} {h : HostId} {r : RouteSlot} {gen : Byte} {rt : Route}

theorem revokeAct_live (names : NamesRoute s r gen rt) (live : rt.live = true) : revokeAct h [BitVec.ofNat 8 r.val, gen] s =
    (arbitrate none (linesGivenUp rt) (closeRoute .revoked r s), ⟨.ok, []⟩) := by
  rw [revokeAct, routeRef?_bytes]
  dsimp only
  rw [routeAt?_of_names names]
  cases state : rt.state with
  | closed => simp [Route.live, state] at live
  | connecting | active => simp only [state]

theorem revokeAct_closed {why : CloseReason} (names : NamesRoute s r gen rt) (closed : rt.state = .closed why) :
    revokeAct h [BitVec.ofNat 8 r.val, gen] s = (s, ⟨.alreadyClosed, [BitVec.ofNat 8 why.code]⟩) := by
  rw [revokeAct, routeRef?_bytes]
  dsimp only
  rw [routeAt?_of_names names]
  simp only [closed, alreadyClosed_eq]

end

theorem queued_keepsRecords (s u : State) (h : HostId) (f : List Byte) (a : Answer) : KeepsRecords u (settle s (queueReply h f a u)) :=
  (SameWorld.queued s u h f a).records

/-- Settles O32: a live route is closed and its lines are checked; of a CLOSED one the reason is told. -/
theorem revokeClosesTheRoute : Obligations.RevokeClosesTheRoute := by
  intro h f s r gen rt offers admitted params names
  refine ⟨fun live => ?_, fun why closed => ?_⟩
  · have done : ReqCode.revoke.act h (frameParams f) (popFrame h s) =
        (arbitrate none (linesGivenUp rt) (closeRoute .revoked r (popFrame h s)), ⟨.ok, []⟩) := by
      rw [params]
      exact revokeAct_live (s := popFrame h s) (h := h) names live
    have rest : KeepsRest (popFrame h s) (arbitrate none (linesGivenUp rt) (closeRoute .revoked r (popFrame h s))) :=
      (closeRoute_keepsRest (popFrame h s) r .revoked).trans (arbitrate_keepsRest ..)
    obtain ⟨entry, told, others, claims, sessions⟩ :=
      (closeRoute_checked (s := popFrame h s) .revoked names.1 live).congr (updPort_keepsRecords s h _).symm
        (queued_keepsRecords s _ h f ⟨.ok, []⟩)
    exact ⟨_, offers.exec admitted done, answeredWithin_of f rest _, taken_keepsSettings rest _, entry, told, others, claims, sessions⟩
  · refine offers.only_answers admitted ?_
    rw [params]
    exact revokeAct_closed (s := popFrame h s) (h := h) names closed

end Sys2Proof.Machine


/-! Fault groups (chapter 7): what handing on the changes of held status does, and the events that change a group. -/

namespace Sys2Proof.Machine

/-! ### Changes of held status handed on -/

/-- Part of the changes of held status from s to u are handed on: v is s but for what they do to their routes. -/
structure PassingOn (s u v : State) : Prop where
  lines : v.lines = s.lines
  routes : ∀ r, ∃ forced since, v.routeEntry r = { s.routeEntry r with
      route := (s.route? r).map fun rt => { rt with forced := forced, forcedSince := rt.forcedSince || since } } ∧
    (∀ rt i, s.route? r = some rt → (∀ l, ¬ ForcingOn s u l r rt i) → forced.getLsbD i = rt.forced.getLsbD i) ∧
    (since = true → ∃ l rt, s.held l = false ∧ u.held l = true ∧ lineDriver s l = some (r, rt) ∧ rt.active = true)
  untouched : ∀ r, (∀ l rt, s.held l ≠ u.held l → lineDriver s l = some (r, rt) → rt.active = false) → v.routeEntry r = s.routeEntry r
  sessions : ∀ h, ∃ rs, v.session h = { s.session h with changes := ⟨(s.session h).changes.claims, rs⟩ } ∧
    ∀ r ∈ rs, r ∈ (s.session h).changes.routes ∨
      ∃ l rt, s.held l ≠ u.held l ∧ lineDriver s l = some (r, rt) ∧ rt.active = true ∧ rt.owner = h

/-- An entry is given by its generation and its route. -/
theorem RouteEntry.of_route {e : RouteEntry} {x : Option Route} (route : e.route = x) : e = { e with route := x } := by
  subst route
  rfl

namespace PassingOn

variable {s u v : State}

theorem start (routes : v.routes = s.routes) (lines : v.lines = s.lines) (sessions : v.sessions = s.sessions) : PassingOn s u v where
  lines := lines
  routes r := by
    have same : v.routeEntry r = s.routeEntry r := by rw [State.routeEntry, routes]; rfl
    cases route : s.route? r with
    | none => exact ⟨0#8, false, same.trans (RouteEntry.of_route route), nofun, nofun⟩
    | some rt =>
      refine ⟨rt.forced, false, same.trans (RouteEntry.of_route (route.trans ?_)), fun x i e _ => by cases e; rfl, nofun⟩
      rw [Option.map_some, Bool.or_false]
  untouched r _ := by rw [State.routeEntry, routes]; rfl
  sessions h := ⟨(s.session h).changes.routes, session_congr sessions h, fun r => .inl⟩

/-- The driver of a line in between is the driver before, but for its forced set. -/
theorem driver (p : PassingOn s u v) {l : LineNo} {r : RouteSlot} {x : Route} (driver : lineDriver v l = some (r, x)) :
    ∃ rt, lineDriver s l = some (r, rt) ∧ x.members = rt.members ∧ x.active = rt.active ∧ x.owner = rt.owner := by
  obtain ⟨line, drives⟩ := lineDriver_some.mp driver
  obtain ⟨route, live, isDriver⟩ := drives_some.mp drives
  obtain ⟨forced, since, entry, -, -⟩ := p.routes r
  rw [State.route?, entry] at route
  obtain ⟨rt, before, rfl⟩ := Option.map_eq_some_iff.mp route
  refine ⟨rt, lineDriver_some.mpr ⟨?_, drives_some.mpr ⟨before, live, isDriver⟩⟩, rfl, rfl, rfl⟩
  rwa [State.line, p.lines] at line

/-- A forced set in which a member is forced or released differs just there. -/
theorem forcing_getLsbD (held : Bool) (x : BitVec 8) {i j : Nat} (other : j < 8 → j ≠ i) :
    (if held then x ||| memberBit i else x &&& ~~~memberBit i).getLsbD j = x.getLsbD j := by
  by_cases small : j < 8
  · rw [getLsbD_forcing held x j i small, if_neg (other small)]
  · rw [BitVec.getLsbD_of_ge _ _ (Nat.le_of_not_lt small), BitVec.getLsbD_of_ge _ _ (Nat.le_of_not_lt small)]

theorem passHeldOn (p : PassingOn s u v) {l : LineNo} (status : v.held l = u.held l) (changed : s.held l ≠ u.held l) :
    PassingOn s u (passHeldOn l v) := by
  rcases passHeldOn_cases v l with same | ⟨r, x, i, driverNow, activeNow, index, e⟩
  · rw [same]
    exact p
  · obtain ⟨rt, driver, members, active, owner⟩ := p.driver driverNow
    have route := (drives_some.mp (lineDriver_some.mp driver).2).1
    rw [active] at activeNow
    rw [members] at index
    rw [e]
    refine ⟨p.lines, fun q => ?_, fun q idle => ?_, fun h => ?_⟩
    · by_cases same : q = r
      · subst same
        obtain ⟨forced, since, entry, bits, since_held⟩ := p.routes q
        refine ⟨if v.held l then forced ||| memberBit i else forced &&& ~~~memberBit i, since || v.held l, ?_, fun y j ry out => ?_, ?_⟩
        · show State.routeEntry (v.updRoute q _) q = _
          rw [updRoute_routeEntry, if_pos rfl, entry, RouteEntry.onRoute, route]
          cases v.held l with
          | true => simp
          | false => simp
        · cases route.symm.trans ry
          rw [forcing_getLsbD, bits rt j route out]
          rintro small rfl
          exact out l ⟨changed, driver, activeNow, index, small⟩
        · intro now
          rcases Bool.or_eq_true _ _ ▸ now with before | held
          · exact since_held before
          · rw [status] at held
            exact ⟨l, rt, by simpa [held] using changed, held, driver, activeNow⟩
      · have other : (noteRoute x.owner r (v.updRoute r fun x =>
            if v.held l then { x with forced := x.forced ||| memberBit i, forcedSince := true }
            else { x with forced := x.forced &&& ~~~memberBit i })).routeEntry q = v.routeEntry q := by
          show State.routeEntry (v.updRoute r _) q = _
          rw [updRoute_routeEntry, if_neg (Ne.symm same)]
        rw [other]
        exact p.routes q
    · have other : q ≠ r := by
        rintro rfl
        have := idle l rt changed driver
        rw [activeNow] at this
        cases this
      show State.routeEntry (v.updRoute r _) q = _
      rw [updRoute_routeEntry, if_neg (Ne.symm other)]
      exact p.untouched q idle
    · obtain ⟨rs, session, told⟩ := p.sessions h
      rw [noteRoute, State.updSession_session, State.session, State.updRoute_sessions, ← State.session, session]
      split
      · rename_i own
        refine ⟨insertAsc r rs, rfl, fun q hq => ?_⟩
        rcases mem_insertAsc.mp hq with rfl | before
        · exact .inr ⟨l, rt, changed, driver, activeNow, owner ▸ own⟩
        · exact told q before
      · exact ⟨rs, rfl, told⟩

end PassingOn

/-- Handing on the changes of held status does what R63 and R65 ask, and nothing else. -/
theorem passHeldChanges_heldPassedOn {s u : State} (routes : u.routes = s.routes) (lines : u.lines = s.lines)
    (sessions : u.sessions = s.sessions) : HeldPassedOn s (passHeldChanges s u) := by
  have status : (passHeldChanges s u).held = u.held := (passHeldChanges_keepsRest s u).held
  have passed : PassingOn s u (passHeldChanges s u) := by
    have fold := List.foldlRecOn (motive := fun v : State => PassingOn s u v ∧ v.held = u.held)
      ((every 40).filter fun l => s.held l ≠ u.held l) (fun t l => passHeldOn l t) ⟨.start routes lines sessions, rfl⟩
      fun v p l changed => ⟨p.1.passHeldOn (congrFun p.2 l) (of_decide_eq_true (List.mem_filter.mp changed).2),
        (passHeldOn_keepsRest v l).held.trans p.2⟩
    exact fold.1
  refine ⟨fun l r rt i forcing => ?_, ?_, ?_, ?_⟩
  · obtain ⟨changed, driver, active, index, small⟩ := forcing
    rw [status] at changed ⊢
    obtain ⟨line, drives⟩ := lineDriver_some.mp driver
    obtain ⟨route, -, isDriver⟩ := drives_some.mp drives
    have on : DrivesLine l r rt.owner rt.members u := ⟨by rwa [State.line, lines], rt, (route?_congr routes r).trans route, active, isDriver, rfl, rfl⟩
    obtain ⟨told, x, after, -, bit, since⟩ := on.forced index small changed
    exact ⟨told, fun y hy _ => by cases after.symm.trans hy; exact ⟨bit, since⟩⟩
  · simpa only [ForcingOn, status] using passed.routes
  · simpa only [status] using passed.untouched
  · simpa only [status] using passed.sessions

/-! ### An event that changes one group -/

theorem lineDriver_congr {s t : State} (k : KeepsRecords s t) (l : LineNo) : lineDriver t l = lineDriver s l := by
  simp only [lineDriver, State.line, k.lines, route?_congr k.routes]

/-- What is handed on is read off the records and the held status alone. -/
theorem HeldPassedOn.congr {s s' t t' : State} (p : HeldPassedOn s t) (before : SameWorld s s') (after : SameWorld t t') :
    HeldPassedOn s' t' := by
  have held : s'.held = s.held := funext before.rules.held
  have heldAfter : t'.held = t.held := funext after.rules.held
  refine ⟨?_, ?_, ?_, ?_⟩
  · simpa only [ForcingTold, ForcingOn, held, heldAfter, lineDriver_congr before.records, session_congr after.records.sessions,
      route?_congr after.records.routes] using p.told
  · simpa only [ForcingOn, held, heldAfter, lineDriver_congr before.records, route?_congr before.records.routes,
      before.records.routeEntry, after.records.routeEntry] using p.routes
  · simpa only [held, heldAfter, lineDriver_congr before.records, before.records.routeEntry, after.records.routeEntry] using p.untouched
  · simpa only [held, heldAfter, lineDriver_congr before.records, session_congr before.records.sessions,
      session_congr after.records.sessions] using p.sessions

/-- One group becomes what x is, changes of held status are handed on, and nothing else changes but fault inputs. -/
structure OnlyGroup (g : GroupNo) (x : Group) (s t : State) : Prop where
  policies : t.policies = s.policies
  claims : t.claims = s.claims
  accepted : t.accepted = s.accepted
  lines : t.lines = s.lines
  others : ∀ k, k ≠ g → t.group k = s.group k
  group : t.group g = x
  passed : HeldPassedOn s t

theorem changeGroup_group (g k : GroupNo) (f : Group → Group) (s : State) :
    (changeGroup g f s).group k = if g = k then f (s.group k) else s.group k := by
  rw [State.group, changeGroup, (passHeldChanges_keepsRest s _).groups]
  exact State.updGroup_group s g f k

theorem changeGroup_qualifiers (g : GroupNo) (f : Group → Group) (s : State) : (changeGroup g f s).qualifiers = s.qualifiers :=
  (passHeldChanges_keepsRest s _).qualifiers

/-- A group that changes, from a state that is the one before the event but for ports and fault inputs, with pins and ports to follow. -/
theorem changeGroup_onlyGroup {s u t : State} (g : GroupNo) (f : Group → Group) (before : SameWorld s u) (policies : u.policies = s.policies)
    (groups : u.groups = s.groups) (after : SameWorld (changeGroup g f u) t) (policies' : t.policies = (changeGroup g f u).policies)
    (groups' : t.groups = (changeGroup g f u).groups) : OnlyGroup g (f (s.group g)) s t := by
  have group (k : GroupNo) : t.group k = if g = k then f (s.group k) else s.group k := by
    rw [State.group, groups', ← State.group, changeGroup_group, State.group, groups]
    rfl
  refine ⟨policies'.trans ((passHeldChanges_keepsRest u _).policies.trans policies),
    after.records.claims.trans ((passHeldChanges_claims ..).trans before.records.claims),
    after.records.accepted.trans ((passHeldChanges_accepted ..).trans before.records.accepted),
    after.records.lines.trans ((passHeldChanges_lines ..).trans before.records.lines), fun k ne => by rw [group, if_neg (Ne.symm ne)],
    by rw [group, if_pos rfl], ?_⟩
  have passed : HeldPassedOn u (changeGroup g f u) := passHeldChanges_heldPassedOn (u := u.updGroup g f) rfl rfl rfl
  exact passed.congr before.symm after

/-- The same for an event outside the requests, at whose end the pins follow. -/
theorem changeGroup_settled (g : GroupNo) (f : Group → Group) (s : State) : OnlyGroup g (f (s.group g)) s (settle s (changeGroup g f s)) :=
  changeGroup_onlyGroup g f (.refl s) rfl rfl (.settle s _) (settle_policies ..) (settle_groups ..)

/-- And for a request, at whose end its reply is queued. -/
theorem changeGroup_replied (g : GroupNo) (f : Group → Group) (s : State) (h : HostId) (frame : List Byte) (a : Answer) :
    OnlyGroup g (f (s.group g)) s (settle s (queueReply h frame a (changeGroup g f (popFrame h s)))) :=
  changeGroup_onlyGroup g f (.updPort s h _) rfl rfl (.queued s _ h frame a) (settle_policies ..) (settle_groups ..)

/-! ### SETTLE_EXPIRY and QUALIFIED_LEVEL_CHANGE -/

theorem settleEnd_expired {g : GroupNo} {s : State} (ended : (s.group g).state = .settling 0) :
    settleEnd g s = changeGroup g (fun x => { x with state := .clear }) s := by
  rw [settleEnd, ended]
  dsimp only
  rw [advance_zero]

theorem isClear_iff {x : GroupState} : x.isClear = true ↔ x = .clear := by cases x <;> simp [GroupState.isClear]

/-- A line is free of groups just when every group its policy names is CLEAR. -/
theorem held_false_iff {s : State} {l : LineNo} :
    s.held l = false ↔ ∀ k : GroupNo, (s.policy l).groupSet.getLsbD k.val = true → (s.group k).state = .clear := by
  rw [State.held, List.any_eq_false]
  refine ⟨fun none k named => ?_, fun clear k _ => ?_⟩
  · have := none k (mem_every k)
    rw [named, Bool.true_and, Bool.not_eq_true, Bool.not_eq_false'] at this
    exact isClear_iff.mp this
  · cases named : (s.policy l).groupSet.getLsbD k.val with
    | false => simp
    | true => simp [isClear_iff.mpr (clear k named)]

/-- Settles O43: the group becomes CLEAR, and what it alone held is released. -/
theorem settleExpiryClearsTheGroup : Obligations.SettleExpiryClearsTheGroup := by
  intro g s running ended
  have e := settleEnd_expired ended
  obtain ⟨outside, pins, ports⟩ := (changeGroup_keepsSurroundings s g fun x => { x with state := .clear }).settled
  obtain ⟨policies, claims, accepted, lines, others, group, passed⟩ := changeGroup_settled g (fun x => { x with state := .clear }) s
  refine ⟨settle s (changeGroup g (fun x => { x with state := .clear }) s),
    by rw [exec_reaction rfl, whileRunning, running, ← e]; rfl, outside, pins, policies,
    (settle_qualifiers ..).trans (changeGroup_qualifiers ..), claims, accepted, lines, ports, others, group, fun l _ => ?_, passed⟩
  rw [held_false_iff, policy_congr policies]
  refine ⟨fun clear k ne named => (others k ne) ▸ clear k named, fun clear k named => ?_⟩
  by_cases same : k = g
  · rw [same, group]
  · rw [others k same]
    exact clear k same named

theorem assertedOf_iff {p : Polarity} {level : Level} :
    assertedOf p level = true ↔ (p = .activeLow ∧ level = .low) ∨ (p = .activeHigh ∧ level = .high) := by
  cases p <;> cases level <;> simp [assertedOf]

/-- The event of a qualified level: the oldest due, or the one whose count has passed. -/
theorem qualify_cases {g : GroupNo} {level : Level} {q : Qualifier} {s : State}
    (due : ((s.qualifier g).due = [] ∧ (s.qualifier g).count = some 0 ∧ level = (s.qualifier g).pin ∧
        q = { pin := level, qualified := level, due := [], count := none }) ∨
      ∃ ls, (s.qualifier g).due = level :: ls ∧ q = { s.qualifier g with qualified := level, due := ls }) :
    ∃ f, qualify g s = changeGroup g (groupOnLevel level) (s.updQualifier g f) ∧ f (s.qualifier g) = q := by
  rcases due with ⟨none, passed, rfl, rfl⟩ | ⟨ls, some, rfl⟩
  · refine ⟨fun q => { q with count := Option.none, qualified := (s.qualifier g).pin }, ?_, ?_⟩
    · rw [qualify, none, passed]
      dsimp only
      rw [advance_zero]
      rfl
    · rw [← none]
  · refine ⟨fun q => { q with due := ls, qualified := level }, ?_, rfl⟩
    rw [qualify, some]
    rfl

/-- Settles O42: the fault input takes the level, then the group acts on it by the table of 7.3. -/
theorem qualifiedLevelDecidesTheGroup : Obligations.QualifiedLevelDecidesTheGroup := by
  intro g level q s running due
  obtain ⟨f, e, qualified⟩ := qualify_cases due
  have kept : KeepsSurroundings s (qualify g s) := e ▸ KeepsSurroundings.trans (by constructor <;> rfl)
    (changeGroup_keepsSurroundings (s.updQualifier g f) g (groupOnLevel level))
  obtain ⟨outside, pins, ports⟩ := kept.settled
  have same : SameWorld s (s.updQualifier g f) := ⟨⟨rfl, rfl, rfl, rfl, rfl⟩, .of_same rfl rfl⟩
  obtain ⟨policies, claims, accepted, lines, others, group, passed⟩ : OnlyGroup g (groupOnLevel level (s.group g)) s (settle s (qualify g s)) :=
    changeGroup_onlyGroup g (groupOnLevel level) same rfl rfl (e ▸ .settle s _) (by rw [settle_policies, e]) (by rw [settle_groups, e])
  have qualifier (k : GroupNo) : (settle s (qualify g s)).qualifier k = if g = k then f (s.qualifier k) else s.qualifier k := by
    rw [settle_qualifier, e, State.qualifier, changeGroup_qualifiers]
    exact State.updQualifier_qualifier s g f k
  have flag : ((settle s (qualify g s)).group g).inputAsserted = assertedOf (s.group g).polarity level := by rw [group]; rfl
  have state : ((settle s (qualify g s)).group g).state =
      if !(s.group g).enabled || assertedOf (s.group g).polarity level = (s.group g).inputAsserted then (s.group g).state
      else if assertedOf (s.group g).polarity level then stateOnAssert (s.group g) else stateOnDeassert (s.group g) := by rw [group]; rfl
  refine ⟨settle s (qualify g s), by rw [exec_reaction rfl, whileRunning, running]; rfl, outside, pins, policies, claims, accepted, lines,
    ports, fun k ne => ⟨others k ne, by rw [qualifier, if_neg (Ne.symm ne)]⟩, by rw [qualifier, if_pos rfl, qualified],
    by rw [group]; rfl, by rw [flag, assertedOf_iff], fun stays => ?_, fun enabled was now => ?_, fun enabled was now tripped => ?_, passed⟩
  · rw [flag] at stays
    rw [state, if_pos (by simpa using stays)]
  · rw [flag] at now
    rw [state, enabled, was, now]
    rfl
  · rw [flag] at now
    rw [state, enabled, was, now]
    simp only [stateOnDeassert, tripped, Config.microsPerMilli]
    rfl

/-! ### SET_GROUP, TRIP and REARM -/

section

variable {s : State} {h : HostId} {f : List Byte} {code : ReqCode} {g : GroupNo}

theorem groupParam?_byte (g : GroupNo) : groupParam? [BitVec.ofNat 8 g.val] = some g := below?_ofNat g (by omega)

/-- An admitted request that changes a group and answers with its status. -/
theorem Offers.changesGroup (offers : Offers s h code f) (admitted : Admitted s h code f) {x : Group → Group}
    (done : code.act h (frameParams f) (popFrame h s) =
      (changeGroup g x (popFrame h s), groupAnswer (changeGroup g x (popFrame h s)) g)) :
    ∃ t b, Machine.exec (code.command h) s = .next t ∧ AnsweredWithin s t h f ⟨.ok, [b]⟩ ∧ t.qualifiers = s.qualifiers ∧
      OnlyGroup g (x (s.group g)) s t ∧ (b.extractLsb' 0 2).toNat = (t.group g).state.code ∧ b.getLsbD 4 = (t.group g).inputAsserted := by
  have only := changeGroup_replied g x s h f ⟨.ok, [groupStatus ((changeGroup g x (popFrame h s)).group g)]⟩
  obtain ⟨code, asserted, -⟩ := groupStatus_bits ((changeGroup g x (popFrame h s)).group g)
  have group : (changeGroup g x (popFrame h s)).group g = x (s.group g) := by rw [changeGroup_group, if_pos rfl]; rfl
  refine ⟨_, _, offers.exec admitted done, (changeGroup_keepsSurroundings (popFrame h s) g x).answeredWithin f _, ?_, only, ?_, ?_⟩
  · rw [settle_qualifiers, queueReply_qualifiers, changeGroup_qualifiers]
    rfl
  · rw [code, group]
    exact (congrArg (fun y => y.state.code) only.group).symm
  · rw [asserted, group]
    exact (congrArg Group.inputAsserted only.group).symm

end

/-- Settles O38: a CLEAR group is configured, and trips if it is enabled and its input is asserted under the new polarity. -/
theorem setGroupConfigures : Obligations.SetGroupConfigures := by
  intro h f s g cfg offers admitted params
  refine ⟨fun used => offers.only_answers admitted ?_, fun clear => ?_⟩
  · show setGroupAct h (frameParams f) (popFrame h s) = _
    rw [setGroupAct, params]
    have busy : ((popFrame h s).group g).state.isClear = false := by
      rw [Bool.eq_false_iff]
      exact fun c => used (isClear_iff.mp c)
    simp only [busy]
    rfl
  · have done : ReqCode.setGroup.act h (frameParams f) (popFrame h s) =
        (changeGroup g (configureGroup cfg (s.qualifier g).qualified) (popFrame h s),
          groupAnswer (changeGroup g (configureGroup cfg (s.qualifier g).qualified) (popFrame h s)) g) := by
      show setGroupAct h (frameParams f) (popFrame h s) = _
      rw [setGroupAct, params]
      have free : ((popFrame h s).group g).state.isClear = true := isClear_iff.mpr clear
      simp only [free]
      rfl
    obtain ⟨t, b, step, answered, qualifiers, only, code, asserted⟩ := offers.changesGroup admitted done
    refine ⟨t, b, step, answered, only.policies, qualifiers, only.claims, only.accepted, only.lines, only.others, ?_⟩
    rw [only.group] at code asserted ⊢
    refine ⟨rfl, rfl, rfl, rfl, rfl, rfl, assertedOf_iff, ?_, code, asserted, only.passed⟩
    simp only [configureGroup, clear, Bool.and_eq_true]

theorem isTripped_iff {x : GroupState} : x.isTripped = true ↔ x = .tripped := by cases x <;> simp [GroupState.isTripped]

theorem fltstat_of_group {s : State} {g : GroupNo} (held : (s.group g).state ≠ .clear) : fltstat s = true :=
  List.any_eq_true.mpr ⟨g, mem_every g, by simpa using fun c => held (isClear_iff.mp c)⟩

/-- Settles O39: TRIP and REARM after their checks set and clear the group. -/
theorem tripAndRearm : Obligations.TripAndRearm := by
  refine ⟨fun h f s g offers admitted params => ?_, fun h f s g offers admitted params => ?_⟩
  · have trip : ReqCode.trip.act h (frameParams f) (popFrame h s) = if !(s.group g).enabled then refuse .wrongState (popFrame h s) else
        (changeGroup g (fun x => { x with state := .tripped, softTrip := true }) (popFrame h s),
          groupAnswer (changeGroup g (fun x => { x with state := .tripped, softTrip := true }) (popFrame h s)) g) := by
      show tripAct h (frameParams f) (popFrame h s) = _
      rw [tripAct, params, groupParam?_byte]
      rfl
    refine ⟨fun disabled => offers.only_answers admitted (trip.trans (by rw [disabled]; rfl)), fun enabled => ?_⟩
    obtain ⟨t, b, step, answered, qualifiers, only, code, asserted⟩ := offers.changesGroup admitted (trip.trans (by rw [enabled]; rfl))
    have flagged : fltstat t = true := fltstat_of_group (g := g) (by rw [only.group]; exact nofun)
    rw [only.group] at code asserted
    exact ⟨t, b, step, answered, only.policies, qualifiers, only.claims, only.accepted, only.lines, only.others, only.group, code, asserted,
      flagged, only.passed⟩
  · have rearm : ReqCode.rearm.act h (frameParams f) (popFrame h s) =
        if h ≠ s.supervisor && !(s.group g).rearmMask.getLsbD h.val then refuse .notAuthorized (popFrame h s)
        else if (s.group g).state.isTripped && (s.group g).inputAsserted then refuse .faultPresent (popFrame h s)
        else (changeGroup g (fun x => { x with state := .clear, softTrip := if x.state.isTripped then false else x.softTrip }) (popFrame h s),
          groupAnswer (changeGroup g (fun x =>
            { x with state := .clear, softTrip := if x.state.isTripped then false else x.softTrip }) (popFrame h s)) g) := by
      show rearmAct h (frameParams f) (popFrame h s) = _
      rw [rearmAct, params, groupParam?_byte]
      rfl
    refine ⟨fun other out => offers.only_answers admitted (rearm.trans ?_), fun may => ?_⟩
    · rw [if_pos (by rw [out, Bool.not_false, Bool.and_true]; exact decide_eq_true other)]
      rfl
    · have authorized : ¬ (h ≠ s.supervisor && !(s.group g).rearmMask.getLsbD h.val) = true := by
        rcases may with rfl | named
        · simp
        · rw [named, Bool.not_true, Bool.and_false]
          exact Bool.false_ne_true
      rw [if_neg authorized] at rearm
      refine ⟨fun ⟨tripped, present⟩ => offers.only_answers admitted (rearm.trans ?_), fun absent => ?_⟩
      · rw [if_pos (by simp [isTripped_iff.mpr tripped, present])]
        rfl
      · rw [if_neg fun both => absent (by simpa [isTripped_iff] using both)] at rearm
        obtain ⟨t, b, step, answered, qualifiers, only, code, asserted⟩ := offers.changesGroup admitted rearm
        refine ⟨t, b, step, answered, only.policies, qualifiers, only.claims, only.accepted, only.lines, only.others, ?_, ?_, ?_, only.passed⟩
        · rw [only.group]
          simp only [isTripped_iff]
        · rw [code, only.group]
          rfl
        · rw [asserted, only.group]

end Sys2Proof.Machine


/-! Generations, settled records and grants over every command (R48, R49, R52, R53, R65, R67, R94, R96). -/

namespace Sys2Proof.Machine

/-! ### Before the grant checks of an event -/

/-- An entry before the grant checks: its generation stays, a CLOSED route stays or is freed, and no route comes. -/
structure EntryLeads (e e' : RouteEntry) : Prop where
  generation : e'.generation = e.generation
  closed : ∀ rt, e.route = some rt → rt.live = false → e'.route = some rt ∨ e'.route = none
  free : e.route = none → e'.route = none

/-- A claim record before the grant checks: its generation stays, a settled claim stays or is freed, and no claim comes, comes to wait or
is granted. -/
structure RecordLeads (e e' : ClaimEntry) : Prop where
  generation : e'.generation = e.generation
  settled : ∀ cl, e.claim = some cl → cl.waiting = false → e'.claim = some cl ∨ e'.claim = none
  origin : ∀ cl, e'.claim = some cl → ∃ x, e.claim = some x ∧ (cl.waiting = true → x.waiting = true) ∧
    ∀ r, cl.state = .granted r → x.state = .granted r

namespace EntryLeads

theorem refl (e : RouteEntry) : EntryLeads e e := ⟨rfl, fun _ h _ => .inl h, id⟩

theorem freed (e : RouteEntry) : EntryLeads e (freedEntry e) := ⟨rfl, fun _ _ _ => .inr rfl, fun _ => rfl⟩

/-- A route changes, but not once it is CLOSED. -/
theorem onRoute {f : Route → Route} (e : RouteEntry) (still : ∀ rt, e.route = some rt → rt.live = false → f rt = rt) :
    EntryLeads e (e.onRoute f) := by
  refine ⟨rfl, fun rt route closed => .inl ?_, fun free => ?_⟩
  · rw [RouteEntry.onRoute, route, Option.map_some, still rt route closed]
  · rw [RouteEntry.onRoute, free]
    rfl

theorem trans {a b c : RouteEntry} (h : EntryLeads a b) (k : EntryLeads b c) : EntryLeads a c := by
  refine ⟨k.generation.trans h.generation, fun rt route closed => ?_, fun free => k.free (h.free free)⟩
  rcases h.closed rt route closed with same | free
  · exact k.closed rt same closed
  · exact .inr (k.free free)

end EntryLeads

namespace RecordLeads

theorem refl (e : ClaimEntry) : RecordLeads e e := ⟨rfl, fun _ h _ => .inl h, fun cl h => ⟨cl, h, id, fun _ => id⟩⟩

theorem freed (e : ClaimEntry) : RecordLeads e (freedRecord e) := ⟨rfl, fun _ _ _ => .inr rfl, nofun⟩

/-- A claim changes, but not once it is settled; and it is not granted by that. -/
theorem onClaim {f : Claim → Claim} (e : ClaimEntry) (still : ∀ cl, e.claim = some cl → cl.waiting = false → f cl = cl)
    (ungranted : ∀ cl, e.claim = some cl → cl.waiting = true → ∀ r, (f cl).state ≠ .granted r) : RecordLeads e (e.onClaim f) := by
  refine ⟨rfl, fun cl claim settled => .inl ?_, fun cl after => ?_⟩
  · rw [ClaimEntry.onClaim, claim, Option.map_some, still cl claim settled]
  · obtain ⟨x, claim, rfl⟩ := Option.map_eq_some_iff.mp after
    cases waits : x.waiting with
    | true => exact ⟨x, claim, fun _ => waits, fun r granted => absurd granted (ungranted x claim waits r)⟩
    | false =>
      rw [still x claim waits]
      exact ⟨x, claim, id, fun _ => id⟩

theorem trans {a b c : ClaimEntry} (h : RecordLeads a b) (k : RecordLeads b c) : RecordLeads a c := by
  refine ⟨k.generation.trans h.generation, fun cl claim settled => ?_, fun cl claim => ?_⟩
  · rcases h.settled cl claim settled with same | free
    · exact k.settled cl same settled
    · refine .inr (Option.eq_none_iff_forall_ne_some.mpr fun y hy => ?_)
      obtain ⟨x, hx, -⟩ := k.origin y hy
      cases free.symm.trans hx
  · obtain ⟨x, hx, waits, granted⟩ := k.origin cl claim
    obtain ⟨y, hy, waits', granted'⟩ := h.origin x hx
    exact ⟨y, hy, waits' ∘ waits, fun r => granted' r ∘ granted r⟩

end RecordLeads

/-- What an event makes of the records before its grant checks; the claim that a request is about, if any, is new or was WAITING, and
waits. -/
structure Leads (own : Option ClaimSlot) (s u : State) : Prop where
  routes : ∀ r, EntryLeads (s.routeEntry r) (u.routeEntry r)
  claims : ∀ d, own ≠ some d → RecordLeads (s.claimEntry d) (u.claimEntry d)
  own : ∀ c, own = some c → (∀ cl, s.claim? c = some cl → cl.waiting = true) ∧ (∃ cl, u.claim? c = some cl ∧ cl.waiting = true) ∧
    ((u.claimEntry c).generation = (s.claimEntry c).generation ∨
      (u.claimEntry c).generation = (s.claimEntry c).generation + 1#8 ∧ s.claim? c = none)

theorem Leads.of {s u : State} (routes : ∀ r, EntryLeads (s.routeEntry r) (u.routeEntry r))
    (claims : ∀ d, RecordLeads (s.claimEntry d) (u.claimEntry d)) : Leads none s u := ⟨routes, fun d _ => claims d, nofun⟩

theorem Leads.refl (s : State) : Leads none s s := .of (fun _ => .refl _) fun _ => .refl _

theorem Leads.trans {s t u : State} (a : Leads none s t) (b : Leads none t u) : Leads none s u :=
  .of (fun r => (a.routes r).trans (b.routes r)) fun d => (a.claims d nofun).trans (b.claims d nofun)

/-- The claims stay. -/
theorem Leads.of_routes {s u : State} (claims : u.claims = s.claims) (routes : ∀ r, EntryLeads (s.routeEntry r) (u.routeEntry r)) :
    Leads none s u := .of routes fun d => by
  rw [State.claimEntry, State.claimEntry, claims]
  exact .refl _

/-- The routes stay. -/
theorem Leads.of_claims {s u : State} (routes : u.routes = s.routes) (claims : ∀ d, RecordLeads (s.claimEntry d) (u.claimEntry d)) :
    Leads none s u := .of (fun r => by
  rw [State.routeEntry, State.routeEntry, routes]
  exact .refl _) claims

theorem Leads.of_same {s u : State} (routes : u.routes = s.routes) (claims : u.claims = s.claims) : Leads none s u :=
  .of_routes claims fun r => by
    rw [State.routeEntry, State.routeEntry, routes]
    exact .refl _

/-! ### After them -/

/-- What a whole event makes of generations and settled records (R48, R52, R67, R82). -/
structure SlotsAdvance (s t : State) : Prop where
  generation : ∀ r, (t.routeEntry r).generation = (s.routeEntry r).generation ∨
    ((t.routeEntry r).generation = (s.routeEntry r).generation + 1#8 ∧ (t.route? r).isSome)
  claimGeneration : ∀ d, (t.claimEntry d).generation = (s.claimEntry d).generation ∨
    ((t.claimEntry d).generation = (s.claimEntry d).generation + 1#8 ∧ s.claim? d = none)
  closed : ∀ r rt, s.route? r = some rt → rt.live = false →
    t.route? r = some rt ∨ t.route? r = none ∨ (t.routeEntry r).generation = (s.routeEntry r).generation + 1#8
  settled : ∀ d cl, s.claim? d = some cl → cl.waiting = false → t.claim? d = none ∨ t.claim? d = some cl

/-- And of grants; the claim own is not told of its grant. -/
structure Advanced (own : Option ClaimSlot) (s t : State) : Prop extends SlotsAdvance s t where
  route : ∀ c cl r, Granted s t c cl r → GrantedRoute s t cl r
  told : ∀ c cl r, Granted s t c cl r → own ≠ some c → c ∈ (t.session cl.owner).changes.claims ∧ r ∈ (t.session cl.owner).changes.routes
  claimed : ∀ r rt, NewDriver s t r rt → ∃ c cl, t.claim? c = some cl ∧ cl.state = .granted r ∧ (own = some c ∨ Granted s t c cl r)
  lowest : ∀ r rt, NewDriver s t r rt → ∀ q, q < r → (t.route? q).isSome

theorem GrantedRoute.of_generation {s u t : State} {cl : Claim} {r : RouteSlot} (g : GrantedRoute u t cl r)
    (same : (u.routeEntry r).generation = (s.routeEntry r).generation) : GrantedRoute s t cl r := by
  obtain ⟨rt, entry, rest⟩ := g
  exact ⟨rt, same ▸ entry, rest⟩

/-- What leads to the grant checks, and what these do. -/
theorem Leads.advanced {own : Option ClaimSlot} {s u t : State} (k : Leads own s u) (a : AfterChecks u t) (g : GrantSteps own u t) :
    Advanced own s t := by
  have generation (r : RouteSlot) := (k.routes r).generation
  have waitedBefore {d : ClaimSlot} {cl : Claim} (claim : u.claim? d = some cl) (waits : cl.waiting = true) :
      own = some d ∨ ∃ x, s.claim? d = some x ∧ x.waiting = true := by
    by_cases mine : own = some d
    · exact .inl mine
    · obtain ⟨x, before, waited, -⟩ := (k.claims d mine).origin cl claim
      exact .inr ⟨x, before, waited waits⟩
  have between {c : ClaimSlot} {cl : Claim} {r : RouteSlot} (made : Granted s t c cl r) : Granted u t c cl r := by
    obtain ⟨⟨x, before, waited⟩, after, granted⟩ := made
    refine ⟨?_, after, granted⟩
    have record := (a.claims c).2
    cases claim : u.claim? c with
    | none =>
      rw [show (u.claimEntry c).claim = none from claim] at record
      cases after.symm.trans record
    | some y =>
      refine ⟨y, rfl, ?_⟩
      by_contra settled
      have settled : y.waiting = false := by simpa using settled
      cases after.symm.trans (a.settled claim settled)
      by_cases mine : own = some c
      · obtain ⟨-, ⟨z, hz, waits⟩, -⟩ := k.own c mine
        cases claim.symm.trans hz
        rw [settled] at waits
        cases waits
      · obtain ⟨z, hz, -, was⟩ := (k.claims c mine).origin cl claim
        cases before.symm.trans hz
        simp [Claim.waiting, was r granted] at waited
  have newDriver {r : RouteSlot} {rt : Route} (new : NewDriver s t r rt) : NewDriver u t r rt := ⟨generation r ▸ new.1, new.2⟩
  refine ⟨⟨fun r => ?_, fun d => ?_, fun r rt route closed => ?_, fun d cl claim settled => ?_⟩, fun c cl r made => ?_,
    fun c cl r made => ?_, fun r rt new => ?_, fun r rt new => ?_⟩
  · by_cases same : (t.routeEntry r).generation = (u.routeEntry r).generation
    · exact .inl (same.trans (generation r))
    · obtain ⟨-, next, rt, route, -⟩ := a.taken same
      exact .inr ⟨generation r ▸ next, by rw [route]; rfl⟩
  · rw [(a.claims d).1]
    by_cases mine : own = some d
    · exact (k.own d mine).2.2
    · exact .inl (k.claims d mine).generation
  · rcases (k.routes r).closed rt route closed with same | free
    · exact .inl ((congrArg RouteEntry.route (a.closedRoute same closed)).trans same)
    · rcases a.routes r with same | ⟨x, hx, -⟩ | ⟨-, next, -⟩
      · exact .inr (.inl ((congrArg RouteEntry.route same).trans free))
      · cases free.symm.trans hx
      · exact .inr (.inr (generation r ▸ next))
  · have other : own ≠ some d := fun mine => by
      have := (k.own d mine).1 cl claim
      rw [settled] at this
      cases this
    rcases (k.claims d other).settled cl claim settled with same | free
    · exact .inr (a.settled same settled)
    · have record := (a.claims d).2
      rw [free] at record
      exact .inl record
  · exact (g.route c cl r (between made)).of_generation (generation r)
  · exact g.told c cl r (between made)
  · obtain ⟨c, cl, made⟩ := g.claimed r rt (newDriver new)
    obtain ⟨⟨x, claim, waits⟩, after, granted⟩ := made
    exact ⟨c, cl, after, granted, (waitedBefore claim waits).imp id fun before => ⟨before, after, granted⟩⟩
  · exact g.lowest r rt (newDriver new)

/-- An event that ends in the Line Arbiter. -/
theorem Leads.arbitrated {own : Option ClaimSlot} {s u : State} (k : Leads own s u) (ls : List LineNo) :
    Advanced own s (arbitrate own ls u) := k.advanced (arbitrate_afterChecks own ls u) (arbitrate_grants own ls u)

/-- An event without grant checks. -/
theorem Leads.unchecked {s u : State} (k : Leads none s u) : Advanced none s u :=
  k.advanced (.refl u) ((NoGrants.refl u).grantSteps none)

theorem GrantedRoute.congr {s s' t t' : State} {cl : Claim} {r : RouteSlot} (g : GrantedRoute s t cl r)
    (before : s'.routeEntry r = s.routeEntry r) (after : t'.routeEntry r = t.routeEntry r) (rules : SameRules t t') :
    GrantedRoute s' t' cl r := by
  obtain ⟨rt, entry, owner, kind, members, clamped, state⟩ := g
  refine ⟨rt, by rw [after, before, entry], owner, kind, members, clamped, ?_⟩
  rw [rules.leaseFor, rules.longestBreak, rules.heldMembers]
  exact state

theorem SlotsAdvance.congr {s s' t t' : State} (k : SlotsAdvance s t) (routes : s'.routes = s.routes) (claims : s'.claims = s.claims)
    (routes' : t'.routes = t.routes) (claims' : t'.claims = t.claims) : SlotsAdvance s' t' := by
  refine ⟨fun r => ?_, fun d => ?_, fun r => ?_, fun d => ?_⟩
  · rw [State.routeEntry, State.routeEntry, routes, routes', route?_congr routes']
    exact k.generation r
  · rw [State.claimEntry, State.claimEntry, claims, claims', claim?_congr claims]
    exact k.claimGeneration d
  · rw [State.routeEntry, State.routeEntry, routes, routes', route?_congr routes, route?_congr routes']
    exact k.closed r
  · rw [claim?_congr claims, claim?_congr claims']
    exact k.settled d

/-- All this is read off routes, claims, change sets and rules. -/
theorem Advanced.congr {own : Option ClaimSlot} {s s' t t' : State} (k : Advanced own s t) (routes : s'.routes = s.routes)
    (claims : s'.claims = s.claims) (routes' : t'.routes = t.routes) (claims' : t'.claims = t.claims)
    (changes : ∀ h, (t'.session h).changes = (t.session h).changes) (rules : SameRules t t') : Advanced own s' t' := by
  have entry (r : RouteSlot) : s'.routeEntry r = s.routeEntry r := by rw [State.routeEntry, routes]; rfl
  have entry' (r : RouteSlot) : t'.routeEntry r = t.routeEntry r := by rw [State.routeEntry, routes']; rfl
  have made {c : ClaimSlot} {cl : Claim} {r : RouteSlot} : Granted s' t' c cl r ↔ Granted s t c cl r := by
    rw [Granted, Granted, claim?_congr claims, claim?_congr claims']
  have new {r : RouteSlot} {rt : Route} : NewDriver s' t' r rt ↔ NewDriver s t r rt := by
    rw [NewDriver, NewDriver, entry, entry', route?_congr routes']
  refine ⟨k.toSlotsAdvance.congr routes claims routes' claims', fun c cl r g => ?_, fun c cl r g => ?_, fun r rt n => ?_, fun r rt n q => ?_⟩
  · exact (k.route c cl r (made.mp g)).congr (entry r) (entry' r) rules
  · rw [changes]
    exact k.told c cl r (made.mp g)
  · obtain ⟨c, cl, claim, granted, whose⟩ := k.claimed r rt (new.mp n)
    exact ⟨c, cl, (claim?_congr claims' c).trans claim, granted, whose.imp id made.mpr⟩
  · rw [route?_congr routes']
    exact k.lowest r rt (new.mp n) q

/-! ### Each kind of event -/

/-- No claim is granted by new policy records. -/
theorem Claim.enforced_ne_granted (first last : LineNo) (s : State) {cl : Claim} (waits : cl.waiting = true) (r : RouteSlot) :
    (cl.enforced first last s).state ≠ .granted r := by
  have still : cl.state ≠ .granted r := fun granted => by simp [Claim.waiting, granted] at waits
  unfold Claim.enforced
  split
  · split
    · split <;> exact still
    · exact nofun
  · exact still

section

variable {s : State}

theorem freeRoute_routeEntry {r : RouteSlot} {rt : Route} (route : s.route? r = some rt) (q : RouteSlot) :
    (freeRoute r s).routeEntry q = if r = q then freedEntry (s.routeEntry q) else s.routeEntry q := by
  have same (q : RouteSlot) : (if rt.live then giveUp r rt s else s).routeEntry q = s.routeEntry q := by
    split
    · rw [State.routeEntry, giveUp_routes]
      rfl
    · rfl
  simp only [freeRoute, route]
  rw [State.updRouteEntry_routeEntry]
  split
  · exact congrArg freedEntry (same q)
  · exact same q

theorem freeRoute_leads {r : RouteSlot} {rt : Route} (route : s.route? r = some rt) : Leads none s (freeRoute r s) :=
  .of_routes (freeRoute_claims s r) fun q => by
    rw [freeRoute_routeEntry route]
    split
    · exact .freed _
    · exact .refl _

theorem closeRoute_leads (why : CloseReason) (r : RouteSlot) : Leads none s (closeRoute why r s) :=
  .of_routes (closeRoute_claims s r why) fun q => by
    rw [closeRoute_entry]
    split
    · exact .onRoute _ fun rt _ closed => by simp [Route.close, closed]
    · exact .refl _

theorem freeClaim_leads {c : ClaimSlot} {cl : Claim} (claim : s.claim? c = some cl) : Leads none s (freeClaim c s) :=
  .of_claims (freeClaim_routes s c) fun d => by
    rw [freeClaim_claimEntry claim]
    split
    · exact .freed _
    · exact .refl _

theorem clearHost_leads (h : HostId) : Leads none s (clearHost h s) := by
  refine .of (fun r => ?_) fun d => ?_
  · rw [clearHost_routeEntry]
    split
    · exact .freed _
    · exact .refl _
  · rw [clearHost_claimEntry]
    split
    · exact .freed _
    · exact .refl _

theorem updRoute_leads (r : RouteSlot) (f : Route → Route) (still : ∀ rt, s.route? r = some rt → rt.live = false → f rt = rt) :
    Leads none s (s.updRoute r f) :=
  .of_routes rfl fun q => by
    rw [updRoute_routeEntry]
    split
    · rename_i same
      exact .onRoute _ (same ▸ still)
    · exact .refl _

theorem reportRef_leads (h : HostId) (ref : ChangeRef) : Leads none s (reportRef h ref s) := by
  cases ref with
  | claim c =>
    unfold reportRef
    dsimp only
    split
    · exact .of_same rfl rfl
    · rename_i claim
      split
      · exact .of_same rfl rfl
      · exact freeClaim_leads claim
  | route r =>
    unfold reportRef
    dsimp only
    split
    · exact .of_same rfl rfl
    · rename_i route
      split
      · rename_i live
        have unnoted : Leads none s (unnoteRoute h r s) := .of_same rfl rfl
        exact unnoted.trans (updRoute_leads r _ fun x hx closed => by cases route.symm.trans hx; simp [live] at closed)
      · exact freeRoute_leads route

theorem dropClaim_leads {why : DropReason} {c : ClaimSlot} {cl : Claim} (claim : s.claim? c = some cl) (waits : cl.waiting = true) :
    Leads none s (dropClaim why c s) :=
  .of_claims (dropClaim_routes s c why) fun d => by
    rw [dropClaim_entry]
    split
    · rename_i same
      subst same
      exact .onClaim _ (fun x hx settled => by cases claim.symm.trans hx; simp [waits] at settled) fun _ _ _ _ => nofun
    · exact .refl _

theorem advance_leads (d : Nat) : Leads none s (advance d s) := by
  refine .of (fun r => ?_) fun c => ?_
  · rw [advance_routeEntry]
    exact .onRoute _ fun rt _ closed => by
      unfold Route.after
      cases e : rt.state <;> simp_all [Route.live]
  · rw [advance_claimEntry]
    refine .onClaim _ (fun cl _ settled => by rw [Claim.after_eq, settled]; rfl) fun cl _ waits r granted => ?_
    rw [Claim.after_eq, if_pos waits] at granted
    simp [Claim.waiting, show cl.state = .granted r from granted] at waits

theorem passHeldChanges_leads (before : State) : Leads none s (passHeldChanges before s) :=
  .of_routes (passHeldChanges_claims before s) fun r => by
    by_cases live : ∃ rt, s.route? r = some rt ∧ rt.live = true
    · obtain ⟨rt, route, live⟩ := live
      obtain ⟨f, b, entry⟩ := passHeldChanges_onlyForcings before s r
      rw [entry]
      exact .onRoute _ fun x hx closed => by cases route.symm.trans hx; simp [live] at closed
    · rw [passHeldChanges_other before s fun rt route active => absurd ⟨rt, route, Route.live_of_active active⟩ live]
      exact .refl _

theorem policySet_leads (first last : LineNo) (p : Policy) : Leads none s (policySet first last s p) := by
  have settledStays (cl : Claim) (t : State) (settled : cl.waiting = false) : cl.enforced first last t = cl :=
    Claim.enforced_outside _ fun waits => by rw [settled] at waits; cases waits
  have enforced : Leads none s (enforced first last (writePolicies first last p s)) := by
    refine .of (fun r => ?_) fun d => ?_
    · rw [enforced_entry]
      exact .onRoute _ fun rt _ closed => Route.enforced_outside _ fun live => by rw [closed] at live; cases live
    · rw [enforced_claimEntry, writePolicies_claimEntry]
      exact .onClaim _ (fun cl _ settled => settledStays cl _ settled) fun cl _ waits r => Claim.enforced_ne_granted first last _ waits r
  exact enforced.trans (passHeldChanges_leads s)

theorem activate_leads {r : RouteSlot} {rt : Route} {d : Nat} (route : s.route? r = some rt) (connecting : rt.state = .connecting d) :
    Leads none s (activate r s) :=
  .of_routes (activate_claims s r) fun q => by
    rw [activate_routeEntry]
    split
    · rename_i same
      subst same
      refine ⟨rfl, fun x hx closed => ?_, fun free => ?_⟩
      · cases route.symm.trans hx
        simp [Route.live, connecting] at closed
      · cases route.symm.trans free
    · exact .refl _

end

/-! ### Events whose grants are all told -/

theorem Advanced.congr_world {s s' t t' : State} (k : Advanced none s t) (before : SameWorld s s') (after : SameWorld t t') :
    Advanced none s' t' :=
  k.congr before.records.routes before.records.claims after.records.routes after.records.claims
    (fun h => by rw [session_congr after.records.sessions]) after.rules

/-- A new listener route takes its entry under the next generation. -/
theorem createListener_advanced {h : HostId} {lease : Nat} {ms : List Member} {r : RouteSlot} {s : State} (free : s.route? r = none) :
    Advanced none s (createListener h lease ms r s) := by
  have entry (q : RouteSlot) := createListener_routeEntry h lease ms r s q
  have claim (d : ClaimSlot) : (createListener h lease ms r s).claimEntry d = s.claimEntry d := rfl
  have ungranted {c : ClaimSlot} {cl : Claim} {q : RouteSlot} : ¬ Granted s (createListener h lease ms r s) c cl q :=
    not_granted_self s c cl q
  have undriven {q : RouteSlot} {rt : Route} : ¬ NewDriver s (createListener h lease ms r s) q rt := by
    rintro ⟨moved, route, driver⟩
    rw [State.route?, entry] at route
    rw [entry] at moved
    split at moved
    · rename_i same
      rw [if_pos same] at route
      cases route
      cases (driver : (listenerRoute s h lease ms).isDriver = true)
    · exact moved rfl
  refine ⟨⟨fun q => ?_, fun d => .inl rfl, fun q rt route closed => ?_, fun d cl claim _ => .inr claim⟩, fun c cl q g => absurd g ungranted,
    fun c cl q g => absurd g ungranted, fun q rt n => absurd n undriven, fun q rt n => absurd n undriven⟩
  · rw [State.route?, entry]
    split
    · exact .inr ⟨rfl, rfl⟩
    · exact .inl rfl
  · refine .inl ?_
    rw [State.route?, entry, if_neg]
    · exact route
    · rintro rfl
      cases free.symm.trans route

/-- Time that passes before an event changes nothing of this. -/
theorem Advanced.later {d : Nat} {s t : State} (k : Advanced none (advance d s) t) : Advanced none s t := by
  have generation (r : RouteSlot) : ((advance d s).routeEntry r).generation = (s.routeEntry r).generation := by rw [advance_routeEntry]
  have claimGeneration (c : ClaimSlot) : ((advance d s).claimEntry c).generation = (s.claimEntry c).generation := by rw [advance_claimEntry]
  have waitsOn (cl : Claim) : (cl.after d).waiting = cl.waiting := by
    rw [Claim.after_eq]
    split <;> rfl
  have made {c : ClaimSlot} {cl : Claim} {r : RouteSlot} (g : Granted s t c cl r) : Granted (advance d s) t c cl r := by
    obtain ⟨⟨x, claim, waits⟩, after, granted⟩ := g
    exact ⟨⟨x.after d, by rw [advance_claim?, claim]; rfl, (waitsOn x).trans waits⟩, after, granted⟩
  have made' {c : ClaimSlot} {cl : Claim} {r : RouteSlot} (g : Granted (advance d s) t c cl r) : Granted s t c cl r := by
    obtain ⟨⟨y, claim, waits⟩, after, granted⟩ := g
    rw [advance_claim?] at claim
    obtain ⟨x, before, rfl⟩ := Option.map_eq_some_iff.mp claim
    exact ⟨⟨x, before, (waitsOn x).symm.trans waits⟩, after, granted⟩
  have new {r : RouteSlot} {rt : Route} (n : NewDriver s t r rt) : NewDriver (advance d s) t r rt := ⟨generation r ▸ n.1, n.2⟩
  refine ⟨⟨fun r => ?_, fun c => ?_, fun r rt route closed => ?_, fun c cl claim settled => ?_⟩, fun c cl r g => ?_, fun c cl r g => ?_,
    fun r rt n => ?_, fun r rt n => k.lowest r rt (new n)⟩
  · exact generation r ▸ k.generation r
  · refine claimGeneration c ▸ (k.claimGeneration c).imp id fun ⟨next, free⟩ => ⟨next, ?_⟩
    rwa [advance_claim?, Option.map_eq_none_iff] at free
  · have still : rt.after d = rt := by
      unfold Route.after
      cases e : rt.state <;> simp_all [Route.live]
    exact generation r ▸ k.closed r rt (by rw [advance_route?, route, Option.map_some, still]) closed
  · refine k.settled c cl ?_ settled
    rw [advance_claim?, claim, Option.map_some, Claim.after_eq, settled]
    rfl
  · exact (k.route c cl r (made g)).of_generation (generation r)
  · exact k.told c cl r (made g)
  · obtain ⟨c, cl, claim, granted, whose⟩ := k.claimed r rt (new n)
    exact ⟨c, cl, claim, granted, whose.imp id made'⟩

theorem advanced_ruleMoves : RuleMoves (Advanced none) where
  refl s := (Leads.refl s).unchecked
  congr k before after := k.congr_world before after
  later d s t k := k.later
  endSession h s := (clearHost_leads h).arbitrated (touchedLines s h)
  collect h ps s := by
    have reported : Leads none s ((reportedRefs (s.session h).changes).foldl (fun t ref => reportRef h ref t) s) :=
      List.foldlRecOn (motive := Leads none s) _ _ (.refl s) fun t k ref _ => k.trans (reportRef_leads h ref)
    exact reported.arbitrated []
  listen _ free := createListener_advanced free
  release {r rt s} route := (freeRoute_leads route).arbitrated (linesGivenUp rt)
  close why {r rt s} _ _ := (closeRoute_leads why r).arbitrated (linesGivenUp rt)
  renew {r rt s} lease route live := (updRoute_leads r _ fun x hx closed => by
    cases route.symm.trans hx
    rw [live] at closed
    cases closed).unchecked
  cancel {c cl s} claim _ := by
    rw [cancelClaim_state]
    have withdrawn : Leads none s (withdrawClaim c cl s) := .of_same (withdrawClaim_routes s c cl) (withdrawClaim_claims s c cl)
    exact (withdrawn.trans (freeClaim_leads ((claim?_congr (withdrawClaim_claims s c cl) c).trans claim))).arbitrated _
  policy first last p s := by
    rw [applyPolicy_eq]
    exact (policySet_leads first last p).arbitrated (linesHandedOver first last (writePolicies first last p s))
  group g f s := by
    have grouped : Leads none s (s.updGroup g f) := .of_same rfl rfl
    exact (grouped.trans (passHeldChanges_leads s)).unchecked
  activate {r rt d s} route connecting := by
    have noted : Leads none (activate r s) (noteRoute rt.owner r (activate r s)) := .of_same rfl rfl
    exact ((activate_leads route connecting).trans noted).unchecked
  expireWait {c cl s} claim waits := (dropClaim_leads claim waits).arbitrated (changedHeads s (dropClaim .timedOut c s) (linesOf cl.members))

/-- ATTACH ends the session that stands, if any, and opens one. -/
theorem attachAct_advanced (h : HostId) (ps : List Byte) (s : State) : Advanced none s (attachAct h ps s).1 := by
  have opened (t : State) (k : Advanced none s t) : Advanced none s (openSession h t) :=
    k.congr rfl rfl rfl rfl (fun k => by rw [openSession_session]; split <;> rfl) (.of_same rfl rfl)
  unfold attachAct
  split
  · exact opened _ (advanced_ruleMoves.endSession h s)
  · exact opened _ (Leads.refl s).unchecked

/-! ### CLAIM and AMEND -/

theorem acceptClaim_leads {h : HostId} {p : ClaimParams} {c : ClaimSlot} {s : State} (free : s.claim? c = none) :
    Leads (some c) s (acceptClaim h p c s) where
  routes r := by
    rw [State.routeEntry, State.routeEntry, acceptClaim_routes]
    exact .refl _
  claims d other := by
    rw [(acceptClaim_prepares s h p c).claims d fun same => other (same ▸ rfl)]
    exact .refl _
  own d same := by
    cases same
    refine ⟨fun cl claim => ?_, ⟨newClaim h p, by rw [acceptClaim_claim?, if_pos rfl], rfl⟩, .inr ⟨?_, free⟩⟩
    · cases free.symm.trans claim
    · rw [acceptClaim_claimEntry, if_pos rfl]

theorem amended_leads {c : ClaimSlot} {cl : Claim} {p : Priority} {limit : Nat} {s : State} (claim : s.claim? c = some cl)
    (waits : cl.waiting = true) : Leads (some c) s (amended c cl p limit s) where
  routes r := by
    rw [State.routeEntry, State.routeEntry, (amended_prepares claim).routes]
    exact .refl _
  claims d other := by
    rw [(amended_prepares claim).claims d fun same => other (same ▸ rfl)]
    exact .refl _
  own d same := by
    cases same
    have entry : (amended c cl p limit s).claimEntry c =
        ⟨(s.claimEntry c).generation, some { cl with priority := p, waitLimit := timerOfMillis limit }⟩ := by
      rw [amended, amended_claimEntry s claim, if_pos rfl]
    refine ⟨fun x hx => ?_, ⟨_, congrArg ClaimEntry.claim entry, waits⟩, .inl (by rw [entry])⟩
    cases claim.symm.trans hx
    exact waits

/-- The outcome of a command for O49: the slots, and the grants, one of them perhaps told in the reply to its owner's request. -/
def Outcome (i : Instr) (s t : State) : Prop :=
  SlotsAdvance s t ∧ ∃ inReply, GrantsMade inReply s t ∧ ∀ r, inReply = some r → ∃ h, GrantedInReply i s t h r

/-- Where no grant is the request's own, every grant is told. -/
theorem Advanced.outcome {own : Option ClaimSlot} {i : Instr} {s t : State} (k : Advanced own s t)
    (ungranted : ∀ c cl r, own = some c → t.claim? c = some cl → cl.state ≠ .granted r) : Outcome i s t := by
  refine ⟨k.toSlotsAdvance, none, ⟨k.route, fun c cl r made => k.told c cl r made fun mine => ?_, fun r rt new => .inr ?_, k.lowest⟩, nofun⟩
  · exact ungranted c cl r mine made.2.1 made.2.2
  · obtain ⟨c, cl, claim, granted, whose⟩ := k.claimed r rt new
    exact ⟨c, cl, whose.resolve_left fun mine => ungranted c cl r mine claim granted⟩

/-- What a CLAIM or AMEND leaves and answers once its claim is granted: the record is freed, the reply names the entry. -/
theorem Advanced.outcome_granted {i : Instr} {s v t : State} {c : ClaimSlot} {x : Claim} {q : RouteSlot} {h : HostId} {f : List Byte}
    (k : Advanced (some c) s v) (claim : v.claim? c = some x) (granted : x.state = .granted q) (asks : i = .claim h ∨ i = .amend h)
    (after : SameWorld (freeClaim c v) t) (answered : Answered s t h f ⟨.granted, grantedResults v q⟩) : Outcome i s t := by
  have claims (d : ClaimSlot) : t.claim? d = if c = d then none else v.claim? d :=
    (claim?_congr after.records.claims d).trans (freeClaim_claim? claim d)
  have claimGeneration (d : ClaimSlot) : (t.claimEntry d).generation = (v.claimEntry d).generation := by
    rw [after.records.claimEntry, freeClaim_claimEntry claim]
    split <;> rfl
  have routes : t.routes = v.routes := after.records.routes.trans (freeClaim_routes ..)
  have entry (r : RouteSlot) : t.routeEntry r = v.routeEntry r := by rw [State.routeEntry, routes]; rfl
  have rules : SameRules v t := (freeClaim_keepsRest v c).sameRules.trans after.rules
  have other {d : ClaimSlot} {cl : Claim} {r : RouteSlot} (made : Granted s t d cl r) : d ≠ c ∧ Granted s v d cl r := by
    obtain ⟨before, now, state⟩ := made
    rw [claims] at now
    split at now
    · cases now
    · rename_i ne
      exact ⟨Ne.symm ne, before, now, state⟩
  have told {d : ClaimSlot} {o : HostId} (ne : d ≠ c) (noted : d ∈ (v.session o).changes.claims) : d ∈ (t.session o).changes.claims := by
    rw [session_congr after.records.sessions, freeClaim_session claim]
    split
    · exact List.mem_filter.mpr ⟨noted, by simpa using ne⟩
    · exact noted
  have toldRoutes (o : HostId) : (t.session o).changes.routes = (v.session o).changes.routes := by
    rw [session_congr after.records.sessions, freeClaim_session claim]
    split <;> rfl
  have new {r : RouteSlot} {rt : Route} (n : NewDriver s t r rt) : NewDriver s v r rt := by
    rwa [NewDriver, entry, route?_congr routes] at n
  refine ⟨⟨fun r => ?_, fun d => ?_, fun r rt => ?_, fun d cl before settled => ?_⟩, some q, ⟨fun d cl r made => ?_, fun d cl r made => ?_,
    fun r rt n => ?_, fun r rt n p low => ?_⟩, ?_⟩
  · rw [entry, route?_congr routes]
    exact k.generation r
  · rw [claimGeneration]
    exact k.claimGeneration d
  · rw [entry, route?_congr routes]
    exact k.closed r rt
  · rw [claims]
    split
    · exact .inl rfl
    · exact k.settled d cl before settled
  · exact (k.route d cl r (other made).2).congr rfl (entry r) rules
  · obtain ⟨ne, made⟩ := other made
    obtain ⟨noted, notedRoute⟩ := k.told d cl r made fun same => ne (Option.some.inj same).symm
    exact ⟨told ne noted, (toldRoutes _).symm ▸ notedRoute⟩
  · obtain ⟨d, cl, now, state, whose⟩ := k.claimed r rt (new n)
    by_cases mine : d = c
    · subst mine
      cases claim.symm.trans now
      exact .inl (congrArg some (ClaimState.granted.inj (granted.symm.trans state)))
    · have made := whose.resolve_left fun same => mine (Option.some.inj same).symm
      exact .inr ⟨d, cl, made.1, by rw [claims, if_neg (Ne.symm mine)]; exact now, state⟩
  · rw [route?_congr routes]
    exact k.lowest r rt (new n) p low
  · rintro r same
    cases same
    refine ⟨h, asks, _, answered.replies, replyFrame_status .., ?_⟩
    rw [grantedResults, routeRefBytes, place_zero]
    exact replyFrame_result ..

/-- What a CLAIM or AMEND leaves and answers once its grant checks are done. -/
theorem Advanced.outcome_answered {i : Instr} {s v t : State} {c : ClaimSlot} {h : HostId} {f : List Byte} (k : Advanced (some c) s v)
    (asks : i = .claim h ∨ i = .amend h) (after : SameWorld (answerClaim c v).1 t) (answered : Answered s t h f (answerClaim c v).2) :
    Outcome i s t := by
  by_cases granted : ∃ x q, v.claim? c = some x ∧ x.state = .granted q
  · obtain ⟨x, q, claim, granted⟩ := granted
    rw [answerClaim_granted claim granted] at after answered
    exact k.outcome_granted claim granted asks after answered
  · have same : (answerClaim c v).1 = v := by
      unfold answerClaim
      split
      · rfl
      · rename_i x claim
        split
        · rename_i q state
          exact absurd ⟨x, q, claim, state⟩ granted
        · rfl
    rw [same] at after
    have moved : Advanced (some c) s t := k.congr rfl rfl after.records.routes after.records.claims
      (fun o => by rw [session_congr after.records.sessions]) after.rules
    refine moved.outcome fun d x q mine claim state => granted ⟨x, q, ?_, state⟩
    cases mine
    exact (claim?_congr after.records.claims c).symm.trans claim

/-- A request that only answers. -/
theorem SameWorld.outcome {i : Instr} {s t : State} (same : SameWorld s t) : Outcome i s t :=
  (((Leads.refl s).unchecked).congr_world (.refl s) same).outcome nofun

theorem ownClaim_outcome {code : ReqCode} {h : HostId} {s : State} (isOwn : code = .claim ∨ code = .amend) :
    Outcome (code.command h) s (takeRequest code code.act h s) := by
  have popped : SameWorld s (popFrame h s) := .updPort s h _
  have outcome {c : ClaimSlot} {v : State} {f : List Byte} (k : Advanced (some c) (popFrame h s) v)
      (done : code.act h (frameParams f) (popFrame h s) = answerClaim c v) :
      Outcome (code.command h) s (replied s h f (code.act h (frameParams f) (popFrame h s))) := by
    have ports := (act_keepsSurroundings h (frameParams f) (popFrame h s) code).ports
    rw [done] at ports ⊢
    refine Advanced.outcome_answered (k.congr rfl rfl rfl rfl (fun _ => rfl) (.refl v)) ?_ (.queued s _ h f _) (answered_of f ports _)
    rcases isOwn with rfl | rfl
    · exact .inl rfl
    · exact .inr rfl
  rcases takeRequest_outcome code h s with e | ⟨f, -, ⟨st, -, e⟩ | e⟩ <;> rw [e]
  · exact (SameWorld.refl s).outcome
  · exact (popped.trans (.queued s _ h f _)).outcome
  · have refused {st : Status} (done : code.act h (frameParams f) (popFrame h s) = (popFrame h s, ⟨st, []⟩)) :
        Outcome (code.command h) s (replied s h f (code.act h (frameParams f) (popFrame h s))) := by
      rw [done]
      exact (popped.trans (.queued s _ h f _)).outcome
    rcases isOwn with rfl | rfl
    · rcases claimAct_cases h (frameParams f) (popFrame h s) with ⟨st, -, done⟩ | ⟨p, c, -, free, done⟩
      · exact refused done
      · exact outcome ((acceptClaim_leads (firstFreeClaim_free free)).arbitrated _) done
    · rcases amendAct_cases h (frameParams f) (popFrame h s) with ⟨st, -, done⟩ | ⟨c, gen, p, limit, cl, -, claim, waits, done⟩
      · exact refused done
      · exact outcome ((amended_leads claim waits).arbitrated _) (done.trans amendClaim_eq)

/-- Settles O49. What leads to the grant checks of an event takes no slot and moves no settled record but to free it; the grant checks take
free entries for the claims they grant, and tell all but the claim whose owner the reply tells. -/
theorem generationsAdvanceAndSettledRecordsStand : Obligations.GenerationsAdvanceAndSettledRecordsStand := by
  intro i s t step running
  have done : Outcome i s t := by
    by_cases isOwn : ∃ code : ReqCode, ∃ h, (code = .claim ∨ code = .amend) ∧ i = code.command h
    · obtain ⟨code, h, isOwn, rfl⟩ := isOwn
      rw [exec_command] at step
      injection step with step
      subst step
      split
      · exact (SameWorld.refl s).outcome
      · exact ownClaim_outcome isOwn
    · refine (advanced_ruleMoves.exec (fun reset => absurd reset running) (fun code h f command own _ => ?_) step).outcome nofun
      cases code with
      | attach => exact (attachAct_advanced h (frameParams f) (popFrame h s)).congr_world (SameWorld.updPort s h _).symm (.queued s _ h f _)
      | claim => exact absurd ⟨.claim, h, .inl rfl, command⟩ isOwn
      | amend => exact absurd ⟨.amend, h, .inr rfl, command⟩ isOwn
      | _ => cases own
  obtain ⟨slots, grants⟩ := done
  exact ⟨slots.generation, slots.claimGeneration, slots.closed, slots.settled, grants⟩

end Sys2Proof.Machine


/-! RELEASE: the entry that comes free, and the claim it goes to (R53, R54, R59). -/

namespace Sys2Proof.Machine

/-! ### The claim that comes first for an entry -/

theorem bestAwaiting_eq {s : State} {c : ClaimSlot} {cl : Claim} (accepted : c ∈ s.accepted) (waiting : waits s c = some cl)
    (awaits : cl.awaiting = true)
    (first : ∀ d ∈ s.accepted, ∀ dl, d ≠ c → waits s d = some dl → dl.awaiting = true → Outranks s.accepted c cl.priority d dl.priority) :
    bestAwaiting s = some c := by
  have mine : awaitsAt s cl.priority c = true := awaitsAt_iff.mpr ⟨cl, waiting, awaits, rfl⟩
  cases best : bestAwaiting s with
  | none =>
    have := bestAwaiting_none.mp best c accepted cl.priority
    rw [mine] at this
    cases this
  | some e =>
    by_contra other
    have other : e ≠ c := fun same => other (congrArg some same)
    obtain ⟨higher, p, lower, split, found, nobody⟩ := List.findSome?_eq_some_iff.mp best
    obtain ⟨el, el_waits, el_awaits, rfl⟩ := awaitsAt_iff.mp (List.find?_some found)
    obtain ⟨own, before, after, order, earlier⟩ := List.find?_eq_some_iff_append.mp found
    rcases first e (List.mem_of_find?_eq_some found) el other el_waits el_awaits with above | ⟨same, sooner⟩
    · have listed : cl.priority ∈ higher ++ el.priority :: lower := by
        rw [← split]
        generalize cl.priority = q
        revert q
        decide
      have descending : (higher ++ el.priority :: lower).Pairwise (· > ·) := split ▸ by decide
      rcases List.mem_append.mp listed with mem | mem
      · exact List.find?_eq_none.mp (nobody cl.priority mem) c accepted mine
      · rcases List.mem_cons.mp mem with same | below
        · exact absurd same (ne_of_gt above)
        · exact absurd above (not_lt_of_gt ((List.pairwise_cons.mp (List.pairwise_append.mp descending).2.1).1 _ below))
    · have absent : e ∉ before := fun mem => by
        have := earlier e mem
        rw [own] at this
        cases this
      rw [order, List.idxOf_append_of_notMem absent, List.idxOf_cons_self, Nat.add_zero] at sooner
      have mem : c ∈ before := by
        by_contra late
        rw [List.idxOf_append_of_notMem late] at sooner
        omega
      have := earlier c mem
      rw [← same, mine] at this
      cases this

/-! ### Grant checks that have nothing to check -/

/-- A claim that a change leaves as it is. -/
theorem updClaim_same {s : State} {c : ClaimSlot} {f : Claim → Claim} (same : ∀ cl, s.claim? c = some cl → f cl = cl) :
    s.updClaim c f = s := by
  have claims : (s.updClaim c f).claims = s.claims := ext_look fun d => by
    show (s.updClaim c f).claimEntry d = s.claimEntry d
    rw [updClaim_claimEntry]
    split
    · rename_i here
      subst here
      exact ClaimEntry.onClaim_same same
    · rfl
  calc s.updClaim c f = { s with claims := (s.updClaim c f).claims } := rfl
    _ = s := by rw [claims]

/-- Where every claim that awaits an entry heads all its queues, none is displaced. -/
theorem dropDisplaced_same {s : State} (heads : ∀ c ∈ s.accepted, ∀ cl, s.claim? c = some cl → cl.waiting = true → cl.awaiting = true →
    headsAll s c (linesOf cl.members) = true) : dropDisplaced s = s := by
  refine List.foldlRecOn (motive := fun t => t = s) _ _ rfl fun t same c accepted => ?_
  subst same
  split
  · rfl
  · rename_i cl claim
    split
    · rename_i displaced
      refine updClaim_same fun x hx => ?_
      cases claim.symm.trans hx
      rw [Bool.and_eq_true, Bool.not_eq_true'] at displaced
      have unmarked : cl.awaiting = false := by
        by_contra marked
        rw [heads c accepted cl claim displaced.1 (by simpa using marked)] at displaced
        cases displaced.2
      rw [← unmarked]
    · rfl

/-- The first claim in order gets the lowest free entry, and keeps it through what follows. -/
theorem grantAll_first {s : State} {c : ClaimSlot} {r : RouteSlot} {cl : Claim} (best : bestAwaiting s = some c)
    (lowest : firstFreeRoute s = some r) (claim : s.claim? c = some cl) (n : Nat) :
    (grantAll none (n + 1) s).claim? c = some { cl with state := .granted r, waitLimit := none, awaiting := false } := by
  have granted : (grant none c r s).1.claim? c = some { cl with state := .granted r, waitLimit := none, awaiting := false } := by
    rw [State.claim?, grant_claimEntry none claim, if_pos rfl]
  rw [grantAll, best, lowest]
  exact ((checkAll_afterChecks ..).trans (grantAll_afterChecks ..)).settled granted rfl

/-! ### RELEASE -/

section

variable {s : State} {h : HostId} {r : RouteSlot} {gen : Byte} {rt : Route}

theorem releaseAct_owner (names : NamesRoute s r gen rt) (owner : rt.owner = h) :
    releaseAct h [BitVec.ofNat 8 r.val, gen] s = releaseRoute r rt s := by
  rw [releaseAct, routeRef?_bytes]
  dsimp only
  rw [routeAt?_of_names names]
  simp only [owner, ne_eq, not_true_eq_false, if_false]

theorem releaseRoute_state : (releaseRoute r rt s).1 = arbitrate none (linesGivenUp rt) (freeRoute r s) := rfl

theorem releaseRoute_answer : (∀ d, rt.state = .connecting d → (releaseRoute r rt s).2 = ⟨.ok, [0#8]⟩) ∧
    (rt.state = .active → (releaseRoute r rt s).2 = ⟨.ok, [1#8]⟩) ∧
    ∀ why, rt.state = .closed why → (releaseRoute r rt s).2 = ⟨.alreadyClosed, [BitVec.ofNat 8 why.code]⟩ := by
  refine ⟨fun d state => ?_, fun state => ?_, fun why state => ?_⟩ <;> simp only [releaseRoute, state]
  · rfl
  · rfl
  · exact alreadyClosed_eq why

/-- The one entry that comes free goes to the claim that comes first. -/
theorem release_grants {c : ClaimSlot} {cl : Claim} (route : s.route? r = some rt) (dead : rt.live = false)
    (full : ∀ q, q ≠ r → (s.route? q).isSome)
    (heads : ∀ c ∈ s.accepted, ∀ cl, s.claim? c = some cl → cl.waiting = true → cl.awaiting = true →
      headsAll s c (linesOf cl.members) = true)
    (accepted : c ∈ s.accepted) (claim : s.claim? c = some cl) (waiting : cl.waiting = true) (awaits : cl.awaiting = true)
    (first : ∀ d ∈ s.accepted, ∀ dl, d ≠ c → s.claim? d = some dl → dl.waiting = true → dl.awaiting = true →
      Outranks s.accepted c cl.priority d dl.priority) :
    (arbitrate none (linesGivenUp rt) (freeRoute r s)).claim? c =
      some { cl with state := .granted r, waitLimit := none, awaiting := false } := by
  have claims (d : ClaimSlot) : (freeRoute r s).claim? d = s.claim? d := claim?_congr (freeRoute_claims s r) d
  have order : (freeRoute r s).accepted = s.accepted := freeRoute_accepted s r
  have line (l : LineNo) : (freeRoute r s).line l = s.line l := freeRoute_line_dead route dead l
  have headsSame (d : ClaimSlot) (ls : List LineNo) : headsAll (freeRoute r s) d ls = headsAll s d ls := by
    rw [Bool.eq_iff_iff, headsAll_iff, headsAll_iff]
    simp only [queueHead, line]
  have nothing : linesGivenUp rt = [] := by simp [linesGivenUp, dead]
  have best : bestAwaiting (freeRoute r s) = some c := by
    refine bestAwaiting_eq (order ▸ accepted) (waits_some.mpr ⟨(claims c).trans claim, waiting⟩) awaits fun d mem dl ne d_waits d_awaits => ?_
    obtain ⟨d_claim, d_waiting⟩ := waits_some.mp d_waits
    rw [order] at mem ⊢
    exact first d mem dl ne ((claims d).symm.trans d_claim) d_waiting d_awaits
  have lowest : firstFreeRoute (freeRoute r s) = some r := by
    refine firstFreeRoute_eq (by rw [freeRoute_route? route, if_pos rfl]) fun q below => ?_
    have ne : q ≠ r := ne_of_lt below
    rw [freeRoute_route? route, if_neg (Ne.symm ne)]
    exact full q ne
  have still : dropDisplaced (freeRoute r s) = freeRoute r s := dropDisplaced_same fun d mem dl d_claim d_waiting d_awaits => by
    rw [headsSame]
    exact heads d (order ▸ mem) dl ((claims d).symm.trans d_claim) d_waiting d_awaits
  have arbiter : arbitrate none (linesGivenUp rt) (freeRoute r s) = grantAll none grantRounds (freeRoute r s) := by
    rw [nothing, arbitrate, still]
    rfl
  rw [arbiter]
  exact grantAll_first best lowest ((claims c).trans claim) 32

end

/-- Settles O30: the entry is freed, the lines it gave up are checked, and the arbiter offers it. -/
theorem releaseFreesTheRoute : Obligations.ReleaseFreesTheRoute := by
  intro h f s r gen rt offers admitted params names owner
  have done : ReqCode.release.act h (frameParams f) (popFrame h s) =
      (arbitrate none (linesGivenUp rt) (freeRoute r (popFrame h s)), (releaseRoute r rt (popFrame h s)).2) := by
    rw [params]
    exact releaseAct_owner (s := popFrame h s) names owner
  have route : (popFrame h s).route? r = some rt := names.1
  have checks := arbitrate_afterChecks none (linesGivenUp rt) (freeRoute r (popFrame h s))
  have rest : KeepsRest (popFrame h s) (arbitrate none (linesGivenUp rt) (freeRoute r (popFrame h s))) :=
    (freeRoute_keepsRest (popFrame h s) r).trans checks.rest
  have idle : NoIdleEntry (arbitrate none (linesGivenUp rt) (freeRoute r (popFrame h s))) :=
    arbitrate_noIdleEntry none (linesGivenUp rt) (freeRoute r (popFrame h s))
  obtain ⟨connecting, active, closed⟩ := releaseRoute_answer (s := popFrame h s) (r := r) (rt := rt)
  refine ⟨_, _, offers.exec admitted done, answeredWithin_of f rest _, taken_keepsSettings rest _, connecting, active, closed, fun q => ?_,
    fun c => ?_, idle.of_same (settle_routes ..) (settle_claims ..) (settle_accepted ..), fun k => ?_,
    fun dead full heads c cl accepted claim waiting awaits first => ?_⟩
  · rw [taken_routeEntry]
    dsimp only
    have after := checks.routes q
    rw [freeRoute_routeEntry route] at after
    by_cases same : q = r
    · subst same
      rw [if_pos rfl] at after ⊢
      exact after
    · rw [if_neg (Ne.symm same)] at after
      rw [if_neg same]
      exact after
  · rw [taken_claimEntry]
    have after := checks.claims c
    rw [State.claimEntry, freeRoute_claims] at after
    exact after
  · rw [taken_session, checks.sessions.attached, checks.sessions.epoch, freeRoute_session route]
    split <;> exact ⟨rfl, rfl⟩
  · rw [taken_claim?]
    exact release_grants (s := popFrame h s) route dead full heads accepted claim waiting awaits first

end Sys2Proof.Machine


/-! A CLAIM that heads all its queues: it is granted at once on free lines, and preempts at priority 3 (R48, R50, R73, R89, R91, R94). -/

namespace Sys2Proof.Machine

/-! ### Claims at the head of their queues -/

/-- A claim placed where every other claim has lower priority comes first. -/
theorem placeInQueue_head {s : State} {c : ClaimSlot} {q : List ClaimSlot} (first : ∀ d ∈ q, d ≠ c → ahead s c d = true) :
    (placeInQueue s c q).head? = some c := by
  cases q with
  | nil => rfl
  | cons d ds =>
    rw [placeInQueue]
    split
    · rfl
    · rename_i behind
      by_contra other
      exact behind (first d List.mem_cons_self fun same => other (same ▸ rfl))

/-- Marks come and go; queues, drivers and routes stay, and a claim keeps all but its mark. -/
structure OnlyMarks (s t : State) : Prop where
  lines : t.lines = s.lines
  routes : t.routes = s.routes
  accepted : t.accepted = s.accepted
  claims : ∀ d cl, s.claim? d = some cl → ∃ b, t.claim? d = some { cl with awaiting := b }

theorem OnlyMarks.refl (s : State) : OnlyMarks s s := ⟨rfl, rfl, rfl, fun _ cl h => ⟨cl.awaiting, h⟩⟩

theorem OnlyMarks.mark {s t : State} (k : OnlyMarks s t) (c : ClaimSlot) (b : Bool) :
    OnlyMarks s (t.updClaim c fun cl => { cl with awaiting := b }) := by
  refine ⟨k.lines, k.routes, k.accepted, fun d cl claim => ?_⟩
  obtain ⟨a, after⟩ := k.claims d cl claim
  rw [State.updClaim_claim?, after]
  split
  · exact ⟨b, rfl⟩
  · exact ⟨a, rfl⟩

theorem OnlyMarks.lineDriver {s t : State} (k : OnlyMarks s t) (l : LineNo) : lineDriver t l = lineDriver s l := by
  simp only [Machine.lineDriver, State.line, k.lines, route?_congr k.routes]

theorem OnlyMarks.headsAll {s t : State} (k : OnlyMarks s t) (c : ClaimSlot) (ls : List LineNo) : headsAll t c ls = headsAll s c ls := by
  rw [Bool.eq_iff_iff, headsAll_iff, headsAll_iff]
  simp only [queueHead, State.line, k.lines]

theorem dropDisplaced_onlyMarks (s : State) : OnlyMarks s (dropDisplaced s) :=
  List.foldlRecOn (motive := OnlyMarks s) s.accepted displace (.refl s) fun t k c _ => by
    rcases displace_cases t c with ⟨e, -⟩ | ⟨e, -⟩ <;> rw [e]
    · exact k.mark c false
    · exact k

/-! ### Preemption -/

/-- Routes closed one after the other, of which one is live: it is CLOSED and told. -/
theorem closeRoutes_closed {why : CloseReason} {r : RouteSlot} {rt : Route} (ps : List (RouteSlot × Route)) {s : State}
    (listed : r ∈ ps.map Prod.fst) (route : s.route? r = some rt) (live : rt.live = true) :
    (ps.foldl (fun t p => closeRoute why p.1 t) s).routeEntry r = closedEntry (s.routeEntry r) rt why ∧
      r ∈ ((ps.foldl (fun t p => closeRoute why p.1 t) s).session rt.owner).changes.routes := by
  induction ps generalizing s with
  | nil => cases listed
  | cons p ps ih =>
    rw [List.foldl_cons]
    by_cases here : p.1 = r
    · rw [here]
      have entry : (closeRoute why r s).routeEntry r = closedEntry (s.routeEntry r) rt why := by
        rw [closeRoute_routeEntry route live, if_pos rfl, closedEntry]
      have told : r ∈ ((closeRoute why r s).session rt.owner).changes.routes := by
        rw [closeRoute_session why route live, if_pos rfl]
        exact mem_insertAsc.mpr (.inl rfl)
      refine List.foldlRecOn (motive := fun t : State => t.routeEntry r = closedEntry (s.routeEntry r) rt why ∧
        r ∈ (t.session rt.owner).changes.routes) ps _ ⟨entry, told⟩ fun t k q _ => ⟨?_, (closeRoute_sessionsAfter t q.1 why).notedRoutes _ k.2⟩
      rw [closeRoute_entry]
      split
      · rw [k.1]
        rfl
      · exact k.1
    · have entry : (closeRoute why p.1 s).routeEntry r = s.routeEntry r := by rw [closeRoute_entry, if_neg here]
      have later := ih ((List.mem_cons.mp listed).resolve_left (Ne.symm here)) (s := closeRoute why p.1 s)
        ((congrArg RouteEntry.route entry).trans route)
      rwa [entry] at later

/-- The grant check of a claim of priority 3 at the head of its queues preempts all the drivers it finds, if it may. -/
theorem grantCheck_preempts {s : State} {c : ClaimSlot} {cl : Claim} {l : LineNo} {r : RouteSlot} {rt : Route} (claim : s.claim? c = some cl)
    (waits : cl.waiting = true) (heads : headsAll s c (linesOf cl.members) = true) (top : cl.priority = 3)
    (weak : ∀ l ∈ linesOf cl.members, ∀ r rt, lineDriver s l = some (r, rt) → rt.preemptible = true) (on : l ∈ linesOf cl.members)
    (driver : lineDriver s l = some (r, rt)) : (grantCheck c s).1.routeEntry r = closedEntry (s.routeEntry r) rt .preempted ∧
      r ∈ ((grantCheck c s).1.session rt.owner).changes.routes := by
  have mem : (r, rt) ∈ driversOn s (linesOf cl.members) := List.mem_filterMap.mpr ⟨l, on, driver⟩
  have some_ : (driversOn s (linesOf cl.members)).isEmpty = false := List.isEmpty_eq_false_iff_exists_mem.mpr ⟨_, mem⟩
  have all : ((driversOn s (linesOf cl.members)).all fun p => p.2.preemptible) = true := List.all_eq_true.mpr fun p hp => by
    obtain ⟨k, hk, hd⟩ := List.mem_filterMap.mp hp
    exact weak k hk p.1 p.2 hd
  obtain ⟨route, live, -⟩ := drives_some.mp (lineDriver_some.mp driver).2
  have closed := closeRoutes_closed (why := .preempted) (driversOn s (linesOf cl.members)) (List.mem_map_of_mem mem) route live
  have e : (grantCheck c s).1 = markAwaiting c ((driversOn s (linesOf cl.members)).foldl (fun t p => closeRoute .preempted p.1 t) s) := by
    simp only [grantCheck, claim, waits, heads, some_, top, all, Bool.not_true, Bool.false_eq_true, if_false, decide_true, Bool.and_self,
      if_true]
  rw [e]
  exact closed

theorem lt_three {q : Priority} (other : q ≠ 3) : q < 3 := by
  revert q
  decide

section

variable {h : HostId} {p : ClaimParams} {c : ClaimSlot} {s : State}

theorem acceptClaim_heads (once : (linesOf p.members).Nodup)
    (first : ∀ l ∈ linesOf p.members, ∀ d ∈ (s.line l).queue, d ≠ c → ahead (acceptClaim h p c s) c d = true) :
    headsAll (acceptClaim h p c s) c (linesOf p.members) = true := by
  refine headsAll_iff.mpr fun l on => ?_
  rw [queueHead, acceptClaim_line h p once, if_pos on]
  exact placeInQueue_head (first l on)

theorem acceptClaim_lineDriver (once : (linesOf p.members).Nodup) (l : LineNo) : lineDriver (acceptClaim h p c s) l = lineDriver s l := by
  have driver : ((acceptClaim h p c s).line l).driver = (s.line l).driver := by
    rw [acceptClaim_line h p once]
    split <;> rfl
  simp only [lineDriver, driver, route?_congr (acceptClaim_routes s h p c)]

/-- A claim of priority 3 stands ahead of every claim of lower priority. -/
theorem acceptClaim_ahead (top : p.priority = 3) {d : ClaimSlot} (lower : ∀ cl, s.claim? d = some cl → cl.priority ≠ 3) (other : d ≠ c) :
    ahead (acceptClaim h p c s) c d = true := by
  have own : claimPriority (acceptClaim h p c s) c = 3 := by rw [claimPriority, acceptClaim_claim?, if_pos rfl]; exact top
  have below : claimPriority (acceptClaim h p c s) d < 3 := by
    rw [claimPriority, acceptClaim_claim?, if_neg (Ne.symm other)]
    cases claim : s.claim? d with
    | none => decide
    | some cl => exact lt_three (lower cl claim)
  rw [ahead, own, Bool.or_eq_true]
  exact .inl (decide_eq_true below)

/-- The grant checks of an accepted claim of priority 3 that heads its queues preempt all the drivers of its lines. -/
theorem acceptClaim_preempts (once : (linesOf p.members).Nodup) (top : p.priority = 3)
    (lower : ∀ l ∈ linesOf p.members, ∀ d ∈ (s.line l).queue, ∀ cl, s.claim? d = some cl → cl.priority ≠ 3)
    (weak : ∀ l ∈ linesOf p.members, ∀ r rt, lineDriver s l = some (r, rt) → rt.preemptible = true) (ls : List LineNo) {l : LineNo}
    {r : RouteSlot} {rt : Route} (on : l ∈ linesOf p.members) (driver : lineDriver s l = some (r, rt)) :
    (arbitrate (some c) ls (acceptClaim h p c s)).routeEntry r = closedEntry (s.routeEntry r) rt .preempted ∧
      r ∈ ((arbitrate (some c) ls (acceptClaim h p c s)).session rt.owner).changes.routes := by
  have marks := dropDisplaced_onlyMarks (acceptClaim h p c s)
  have driverSame (k : LineNo) : lineDriver (dropDisplaced (acceptClaim h p c s)) k = lineDriver s k :=
    (marks.lineDriver k).trans (acceptClaim_lineDriver once k)
  obtain ⟨b, claim⟩ := marks.claims c (newClaim h p) (by rw [acceptClaim_claim?, if_pos rfl])
  have heads : headsAll (dropDisplaced (acceptClaim h p c s)) c (linesOf p.members) = true :=
    (marks.headsAll c _).trans (acceptClaim_heads once fun k hk d hd ne => acceptClaim_ahead top (lower k hk d hd) ne)
  have preempted := grantCheck_preempts claim rfl heads top (fun k hk q x hd => weak k hk q x (driverSame k ▸ hd)) on
    ((driverSame l).trans driver)
  have entry : (dropDisplaced (acceptClaim h p c s)).routeEntry r = s.routeEntry r := by
    rw [State.routeEntry, marks.routes, acceptClaim_routes]
    rfl
  rw [entry] at preempted
  have later : AfterChecks (grantCheck c (dropDisplaced (acceptClaim h p c s))).1 (arbitrate (some c) ls (acceptClaim h p c s)) :=
    (checkAll_afterChecks ..).trans (grantAll_afterChecks ..)
  exact ⟨(later.closedRoute (congrArg RouteEntry.route preempted.1) rfl).trans preempted.1, later.sessions.notedRoutes _ preempted.2⟩

end

theorem answerClaim_routeNotes (c : ClaimSlot) (s : State) (k : HostId) :
    ((answerClaim c s).1.session k).changes.routes = (s.session k).changes.routes := by
  unfold answerClaim
  split
  · rfl
  · rename_i claim
    split
    · rw [freeClaim_session claim]
      split <;> rfl
    · rfl

theorem firstFreeClaim_exists {s : State} (free : ∃ c, s.claim? c = none) : ∃ c, firstFreeClaim s = some c := by
  obtain ⟨d, empty⟩ := free
  cases found : firstFreeClaim s with
  | some c => exact ⟨c, rfl⟩
  | none =>
    have used := firstFreeClaim_none found d
    rw [empty] at used
    cases used

/-- Settles O35: the claim heads its queues, finds only routes it may preempt, and closes them all. -/
theorem priorityThreePreempts : Obligations.PriorityThreePreempts := by
  intro h f s p offers admitted params passed free top lower weak
  obtain ⟨c, found⟩ := firstFreeClaim_exists free
  obtain ⟨v, hv⟩ : ∃ v, v = arbitrate (some c) (changedHeads (popFrame h s) (acceptClaim h p c (popFrame h s)) (linesOf p.members))
    (acceptClaim h p c (popFrame h s)) := ⟨_, rfl⟩
  have act : ReqCode.claim.act h (frameParams f) (popFrame h s) = ((answerClaim c v).1, (answerClaim c v).2) :=
    hv ▸ claimAct_passed params (claimRefusal_none passed) found
  have once := (claimParams?_sound params).1.2
  refine ⟨_, offers.exec admitted act, fun m member r rt driver => ?_⟩
  have onLine {l : LineNo} (on : l ∈ linesOf p.members) : ∃ m ∈ p.members, m.line = l := List.mem_map.mp on
  obtain ⟨entry, told⟩ := acceptClaim_preempts (s := popFrame h s) (h := h) (c := c) once top
    (fun l on => by obtain ⟨k, hk, rfl⟩ := onLine on; exact lower k hk)
    (fun l on q x hd => by
      obtain ⟨k, hk, rfl⟩ := onLine on
      obtain ⟨pr, mode, kind, below⟩ := weak k hk q x hd
      rw [Route.preemptible, kind]
      exact decide_eq_true (lt_three below))
    (changedHeads (popFrame h s) (acceptClaim h p c (popFrame h s)) (linesOf p.members)) (List.mem_map_of_mem member) driver
  rw [← hv] at entry told
  rw [taken_routeEntry, taken_session, answerClaim_routeNotes, State.routeEntry, (answerClaim_reply c v).routes]
  exact ⟨entry, told⟩

end Sys2Proof.Machine


/-! A CLAIM on free lines: its grant checks find nothing in the way, and its grant nothing to check (R48, R50, R73, R89, R94). -/

namespace Sys2Proof.Machine

/-! ### Work lists that only set line states -/

/-- The states of the listed lines, set one after the other. -/
def setStates (ls : List LineNo) (s : State) : State := ls.foldl (fun t l => setLineState l t) s

theorem setStates_keeps (ls : List LineNo) (s : State) : KeepsAllButLines s (setStates ls s) := setLineStates_keep s ls

theorem setStates_line (ls : List LineNo) (s : State) (l : LineNo) : (setStates ls s).line l =
    if l ∈ ls then { s.line l with state := lineStateOf s l } else s.line l := setLineStates_line s l ls

/-- A work list whose queue heads have nothing to change sets the states of its lines. -/
theorem checkLines_sets {ls : List LineNo} {s : State}
    (idle : ∀ l ∈ ls, ∀ (ks : List LineNo) d, queueHead s l = some d →
      grantCheck d (setStates ks s) = (setStates ks s, [])) :
    checkLines ls s = (setStates ls s, []) := by
  induction ls generalizing s with
  | nil => rfl
  | cons l ls ih =>
    have line : checkLine l s = (setLineState l s, []) := by
      rw [checkLine]
      cases head : queueHead (setLineState l s) l with
      | none => rfl
      | some d => exact idle l List.mem_cons_self [l] d ((setLineState_head s l l).symm.trans head)
    have rest := ih (s := setLineState l s) fun k mem ks d head =>
      idle k (List.mem_cons_of_mem _ mem) (l :: ks) d ((setLineState_head s k l).symm.trans head)
    rw [checkLines, line]
    dsimp only
    rw [rest]
    rfl

theorem checkAll_of_checkLines {n : Nat} {ls : List LineNo} {s t : State} (round : checkLines ls s = (t, [])) :
    checkAll (n + 1) ls s = t := by
  have done (u : State) : checkAll n [] u = u := by cases n <;> rfl
  cases ls with
  | nil =>
    cases round
    rfl
  | cons l ls =>
    rw [checkAll, round]
    exact done t

/-- A WAITING claim that heads all its queues and finds no driver awaits an entry (R89). -/
theorem grantCheck_marks {s : State} {c : ClaimSlot} {cl : Claim} (claim : s.claim? c = some cl) (waiting : cl.waiting = true)
    (heads : headsAll s c (linesOf cl.members) = true) (free : driversOn s (linesOf cl.members) = []) :
    grantCheck c s = (markAwaiting c s, []) := by
  simp [grantCheck, claim, waiting, heads, free]

theorem markAwaiting_claim? {s : State} {c : ClaimSlot} {cl : Claim} (claim : s.claim? c = some cl) :
    (markAwaiting c s).claim? c = some { cl with awaiting := true } := by
  rw [markAwaiting, State.updClaim_claim?, if_pos rfl, claim]
  rfl

theorem markAwaiting_same {s : State} {c : ClaimSlot} {cl : Claim} (claim : s.claim? c = some cl) (awaits : cl.awaiting = true) :
    markAwaiting c s = s := updClaim_same fun x hx => by
  cases claim.symm.trans hx
  rw [← awaits]

/-! ### The grant of a claim that stands alone on free lines -/

/-- The state in which the claim is granted: it awaits an entry, and the states of some lines are set. -/
def readyToGrant (c : ClaimSlot) (ls : List LineNo) (s : State) : State := setStates ls (markAwaiting c s)

section

variable {s : State} {c : ClaimSlot} {cl : Claim} {r : RouteSlot} {ls : List LineNo}

theorem readyToGrant_routes : (readyToGrant c ls s).routes = s.routes := (setStates_keeps _ _).routes

theorem readyToGrant_policies : (readyToGrant c ls s).policies = s.policies := (setStates_keeps _ _).rest.policies

theorem readyToGrant_claim? (claim : s.claim? c = some cl) : (readyToGrant c ls s).claim? c = some { cl with awaiting := true } := by
  rw [State.claim?, State.claimEntry, readyToGrant, (setStates_keeps _ _).claims]
  exact markAwaiting_claim? claim

theorem readyToGrant_claim?_other {d : ClaimSlot} (other : d ≠ c) : (readyToGrant c ls s).claim? d = s.claim? d := by
  rw [State.claim?, State.claimEntry, readyToGrant, (setStates_keeps _ _).claims]
  exact (State.updClaim_claim? ..).trans (if_neg (Ne.symm other))

theorem readyToGrant_accepted : (readyToGrant c ls s).accepted = s.accepted := (setStates_keeps _ _).accepted

theorem readyToGrant_queueDriver (l : LineNo) :
    ((readyToGrant c ls s).line l).queue = (s.line l).queue ∧ ((readyToGrant c ls s).line l).driver = (s.line l).driver := by
  rw [readyToGrant, setStates_line]
  split <;> exact ⟨rfl, rfl⟩

/-- The grant leaves the lines of a claim that stood alone on them without queue, so that its checks set line states alone. -/
theorem checks_after_grant (claim : s.claim? c = some cl) (alone : ∀ l ∈ linesOf cl.members, (s.line l).queue = [c]) (own : Option ClaimSlot) :
    checkAll checkRounds (grant own c r s).2 (grant own c r s).1 =
      setStates (grant own c r s).2 (grant own c r s).1 :=
  checkAll_of_checkLines (checkLines_sets fun l mem ks d head => by
    have empty : ((grant own c r s).1.line l).queue = [] := by
      have on := grant_lines own r claim l mem
      rw [grant_line own claim, if_pos on, alone l on]
      simp
    rw [queueHead, empty] at head
    cases head)

/-- A WAITING claim alone on lines without driver, while no other claim awaits an entry, is granted in the lowest free entry; the checks
after the grant set line states alone. -/
theorem arbitrate_alone (claim : s.claim? c = some cl) (waiting : cl.waiting = true) (accepted : c ∈ s.accepted)
    (alone : ∀ l ∈ linesOf cl.members, (s.line l).queue = [c]) (undriven : ∀ l ∈ linesOf cl.members, (s.line l).driver = none)
    (others : ∀ d ∈ s.accepted, d ≠ c → ∀ p, awaitsAt s p d = false) (listed : ∀ l ∈ ls, l ∈ linesOf cl.members)
    (lowest : firstFreeRoute s = some r) :
    ∃ more, arbitrate (some c) ls s = setStates more (grant (some c) c r (readyToGrant c ls s)).1 := by
  have heads : headsAll s c (linesOf cl.members) = true := headsAll_iff.mpr fun l on => by rw [queueHead, alone l on]; rfl
  have kept : dropDisplaced s = s := dropDisplaced_same fun d mem dl hd waiting awaits => by
    by_cases other : d = c
    · subst other
      cases claim.symm.trans hd
      exact heads
    · have idle := others d mem other dl.priority
      rw [awaitsAt_iff.mpr ⟨dl, waits_some.mpr ⟨hd, waiting⟩, awaits, rfl⟩] at idle
      cases idle
  have free (t : State) (same : ∀ l, (t.line l).driver = (s.line l).driver) : driversOn t (linesOf cl.members) = [] :=
    driversOn_eq_nil.mpr fun l on => by simp [lineDriver, same, undriven l on]
  have checked : grantCheck c s = (markAwaiting c s, []) := grantCheck_marks claim waiting heads (free s fun _ => rfl)
  have ready_heads (ks : List LineNo) : headsAll (readyToGrant c ks s) c (linesOf cl.members) = true := headsAll_iff.mpr fun l on => by
    rw [queueHead, (readyToGrant_queueDriver l).1, alone l on]
    rfl
  have set : checkAll checkRounds ls (markAwaiting c s) = readyToGrant c ls s :=
    checkAll_of_checkLines (checkLines_sets fun l mem ks d head => by
      have own : d = c := by
        rw [queueHead, show ((markAwaiting c s).line l).queue = [c] from alone l (listed l mem)] at head
        exact (Option.some.inj head).symm
      rw [own]
      have claim' := readyToGrant_claim? (ls := ks) claim
      have marks := grantCheck_marks claim' (waiting := waiting) (ready_heads ks) (free _ fun k => (readyToGrant_queueDriver k).2)
      rwa [markAwaiting_same claim' rfl] at marks)
  have ready := readyToGrant_claim? (ls := ls) claim
  have best : bestAwaiting (readyToGrant c ls s) = some c :=
    bestAwaiting_eq (readyToGrant_accepted.symm ▸ accepted : c ∈ (readyToGrant c ls s).accepted) (waits_some.mpr ⟨ready, waiting⟩) rfl fun d mem dl other hd awaits => by
      obtain ⟨hd, waits'⟩ := waits_some.mp hd
      rw [readyToGrant_claim?_other other] at hd
      have idle := others d (readyToGrant_accepted (ls := ls) ▸ mem) other dl.priority
      rw [awaitsAt_iff.mpr ⟨dl, waits_some.mpr ⟨hd, waits'⟩, awaits, rfl⟩] at idle
      cases idle
  have first : firstFreeRoute (readyToGrant c ls s) = some r := by
    rw [← lowest]
    simp only [firstFreeRoute, route?_congr readyToGrant_routes]
  have after := checks_after_grant (r := r) ready (fun l on => (readyToGrant_queueDriver l).1.trans (alone l on)) (some c)
  generalize granted : grant (some c) c r (readyToGrant c ls s) = g at after
  have none_ : bestAwaiting (setStates g.2 g.1) = none := bestAwaiting_none.mpr fun d mem p => by
    rw [(setStates_keeps _ _).accepted, ← granted, grant_accepted _ ready, List.mem_filter, readyToGrant_accepted] at mem
    have other : d ≠ c := by simpa using mem.2
    have same : (setStates g.2 g.1).claim? d = s.claim? d := by
      rw [State.claim?, State.claimEntry, (setStates_keeps _ _).claims, ← granted]
      show ((grant (some c) c r (readyToGrant c ls s)).1.claimEntry d).claim = _
      rw [grant_claimEntry _ ready, if_neg (Ne.symm other)]
      exact readyToGrant_claim?_other other
    rw [awaitsAt, same]
    exact others d mem.1 other p
  have stop (n : Nat) {t : State} (none_ : bestAwaiting t = none) : grantAll (some c) n t = t := by
    cases n with
    | zero => rfl
    | succ n => rw [grantAll, none_]
  refine ⟨g.2, ?_⟩
  rw [arbitrate, kept]
  dsimp only
  rw [checked]
  dsimp only
  rw [List.append_nil, set, show grantRounds = 32 + 1 from rfl, grantAll, best, first]
  dsimp only
  rw [granted]
  rw [after]
  exact stop _ none_

end

/-! ### What the grant leaves -/

theorem noteRoute_bindings (s : State) (h : HostId) (r : RouteSlot) (k : HostId) :
    ((noteRoute h r s).session k).bindings = (s.session k).bindings := by
  rw [noteRoute, State.updSession_session]
  split <;> rfl

theorem noteClaim_bindings (s : State) (h : HostId) (c : ClaimSlot) (k : HostId) :
    ((noteClaim h c s).session k).bindings = (s.session k).bindings := by
  rw [noteClaim, State.updSession_session]
  split <;> rfl

theorem grant_bindings {s : State} {c : ClaimSlot} {cl : Claim} (own : Option ClaimSlot) (r : RouteSlot) (claim : s.claim? c = some cl) :
    ((grant own c r s).1.session cl.owner).bindings = setBindings (.route r) 0 cl.members (s.session cl.owner).bindings := by
  obtain ⟨t, u, told, active, e⟩ := grant_cases (own := own) (r := r) claim
  have granted : (t.session cl.owner).bindings = setBindings (.route r) 0 cl.members (s.session cl.owner).bindings := by
    rcases told with rfl | rfl
    · rw [grantBase_session, if_pos rfl]
    · rw [noteRoute_bindings, noteClaim_bindings, grantBase_session, if_pos rfl]
  have kept : (u.session cl.owner).bindings = (t.session cl.owner).bindings := by
    rcases active with rfl | rfl | rfl
    · rfl
    · rw [session_congr (activate_sessions ..)]
    · rw [noteRoute_bindings, session_congr (activate_sessions ..)]
  rw [e, session_congr (setLineStates_keep _ _).sessions, kept, granted]

theorem le_longestBreak {s : State} {ls : List LineNo} {l : LineNo} (mem : l ∈ ls) : (s.policy l).breakInterval ≤ longestBreak s ls := by
  induction ls with
  | nil => cases mem
  | cons k ls ih =>
    rcases List.mem_cons.mp mem with rfl | mem
    · exact le_max_left ..
    · exact (ih mem).trans (le_max_right ..)

theorem longestBreak_le {s : State} {ls : List LineNo} {n : Nat} (all : ∀ l ∈ ls, (s.policy l).breakInterval ≤ n) :
    longestBreak s ls ≤ n := by
  induction ls with
  | nil => exact Nat.zero_le n
  | cons k ls ih => exact max_le (all k List.mem_cons_self) (ih fun l mem => all l (List.mem_cons_of_mem _ mem))

/-- The claim in record c of s has been granted as route r, and nothing else has happened to routes and to its lines. -/
structure GrantedAlone (s v : State) (c : ClaimSlot) (cl : Claim) (r : RouteSlot) : Prop where
  claim : ∃ x, v.claim? c = some x ∧ x.state = .granted r
  others : ∀ q, q ≠ r → v.routeEntry q = s.routeEntry q
  route : ∃ rt, v.route? r = some rt ∧
    rt.state = if longestBreak s (linesOf cl.members) = 0 then .active else .connecting (longestBreak s (linesOf cl.members))
  lines : ∀ l ∈ linesOf cl.members, (v.line l).driver = some r ∧ (v.line l).queue = [] ∧
    ((v.line l).state = .connecting ∨ (v.line l).state = .driven)
  bindings : (v.session cl.owner).bindings = setBindings (.route r) 0 cl.members (s.session cl.owner).bindings

/-- A line whose driver is live is CONNECTING or DRIVEN. -/
theorem lineStateOf_driven {s : State} {l : LineNo} {r : RouteSlot} {rt : Route} (driver : lineDriver s l = some (r, rt)) :
    lineStateOf s l = .connecting ∨ lineStateOf s l = .driven := by
  rw [lineStateOf, driver]
  dsimp only
  split
  · exact .inr rfl
  · exact .inl rfl

theorem grant_alone {s : State} {c : ClaimSlot} {cl : Claim} {r : RouteSlot} {ls more : List LineNo} (own : Option ClaimSlot)
    (claim : s.claim? c = some cl) (waiting : cl.waiting = true) (free : s.route? r = none)
    (alone : ∀ l ∈ linesOf cl.members, (s.line l).queue = [c]) :
    GrantedAlone s (setStates more (grant own c r (readyToGrant c ls s)).1) c cl r := by
  have ready := readyToGrant_claim? (ls := ls) claim
  have readyFree : (readyToGrant c ls s).route? r = none := (route?_congr readyToGrant_routes r).trans free
  have granted := grant_grantedRoute own ready waiting readyFree
  obtain ⟨-, rt, route, -, kind, -, -, -, live⟩ := (grant_routeEntry own (r := r) ready r).2 rfl
  have line (l : LineNo) := grant_line own (r := r) ready l
  have lineDriven (l : LineNo) (on : l ∈ linesOf cl.members) :
      lineStateOf (grant own c r (readyToGrant c ls s)).1 l = .connecting ∨
        lineStateOf (grant own c r (readyToGrant c ls s)).1 l = .driven := by
    refine lineStateOf_driven (lineDriver_some.mpr ⟨?_, drives_some.mpr ⟨route, live, by rw [Route.isDriver, kind]⟩⟩)
    rw [line, if_pos on]
  have policies : (grant own c r (readyToGrant c ls s)).1.policies = s.policies :=
    (grant_afterChecks own ready waiting readyFree).rest.policies.trans readyToGrant_policies
  have entry (q : RouteSlot) (other : q ≠ r) := (grant_routeEntry own (r := r) ready q).1 (Ne.symm other)
  have settled := grant_claimEntry own (r := r) ready c
  have bindings := grant_bindings own r ready
  generalize (grant own c r (readyToGrant c ls s)).1 = g at *
  have keeps := setStates_keeps more g
  constructor
  case claim =>
    rw [State.claim?, State.claimEntry, keeps.claims]
    exact ⟨_, by rw [← State.claimEntry, settled, if_pos rfl], rfl⟩
  case others =>
    intro q other
    rw [State.routeEntry, keeps.routes]
    exact (entry q other).trans (by rw [State.routeEntry, readyToGrant_routes]; rfl)
  case route =>
    obtain ⟨x, hx, -, -, -, -, state⟩ := granted
    have same : x = rt := Option.some.inj ((congrArg RouteEntry.route hx).symm.trans route)
    subst same
    refine ⟨x, (route?_congr keeps.routes r).trans route, ?_⟩
    rcases state with closed | ⟨-, open_⟩
    · rw [Route.live, closed] at live
      cases live
    · rw [← longestBreak_congr policies]
      split at open_
      · rename_i zero
        rw [if_pos zero]
        exact open_.1
      · rename_i positive
        rw [if_neg positive]
        exact open_.1
  case lines =>
    intro l on
    have before := line l
    rw [if_pos on] at before
    have empty : ((readyToGrant c ls s).line l).queue.filter (· ≠ c) = [] := by
      rw [(readyToGrant_queueDriver l).1, alone l on]
      simp
    rw [empty] at before
    rw [setStates_line, before]
    split <;> exact ⟨rfl, rfl, lineDriven l on⟩
  case bindings =>
    rw [session_congr keeps.sessions, bindings, readyToGrant, session_congr (setStates_keeps _ _).sessions]
    rfl

theorem firstFreeClaim_lowest {s : State} {c : ClaimSlot} (found : firstFreeClaim s = some c) (d : ClaimSlot) (below : d < c) :
    (s.claim? d).isSome := by
  rw [firstFreeClaim, every, ← Fin.find?_eq_find?_finRange, Fin.find?_eq_some_iff] at found
  simpa using found.2 d below

section

variable {s : State} {h : HostId} {p : ClaimParams} {c : ClaimSlot} {r : RouteSlot}

/-- A claim accepted on free lines stands alone in their queues, so that its grant checks grant it in the lowest free entry. -/
theorem acceptClaim_grantedAlone (once : (linesOf p.members).Nodup)
    (empty : ∀ l ∈ linesOf p.members, (s.line l).driver = none ∧ (s.line l).queue = []) (nobody : bestAwaiting s = none)
    (free : s.route? r = none) (lower : ∀ q, q < r → (s.route? q).isSome) : GrantedAlone (acceptClaim h p c s)
      (arbitrate (some c) (changedHeads s (acceptClaim h p c s) (linesOf p.members)) (acceptClaim h p c s)) c (newClaim h p) r := by
  have claim : (acceptClaim h p c s).claim? c = some (newClaim h p) := by rw [acceptClaim_claim?, if_pos rfl]
  have line (l : LineNo) (on : l ∈ linesOf p.members) :
      ((acceptClaim h p c s).line l).queue = [c] ∧ ((acceptClaim h p c s).line l).driver = none := by
    rw [acceptClaim_line h p once, if_pos on]
    dsimp only
    rw [(empty l on).2]
    exact ⟨rfl, (empty l on).1⟩
  have others (d : ClaimSlot) (mem : d ∈ (acceptClaim h p c s).accepted) (other : d ≠ c) (q : Priority) :
      awaitsAt (acceptClaim h p c s) q d = false := by
    rw [acceptClaim_accepted] at mem
    rw [awaitsAt, acceptClaim_claim?, if_neg (Ne.symm other)]
    exact bestAwaiting_none.mp nobody d ((List.mem_append.mp mem).resolve_right fun own => other (List.mem_singleton.mp own)) q
  have routes := route?_congr (acceptClaim_routes s h p c)
  have lowest : firstFreeRoute (acceptClaim h p c s) = some r :=
    firstFreeRoute_eq ((routes r).trans free) fun q below => (routes q).symm ▸ lower q below
  obtain ⟨more, checks⟩ := arbitrate_alone (ls := changedHeads s (acceptClaim h p c s) (linesOf p.members)) claim rfl
    (by rw [acceptClaim_accepted]; exact List.mem_append_right _ List.mem_cons_self) (fun l on => (line l on).1)
    (fun l on => (line l on).2) others (fun l mem => (mem_changedHeads.mp mem).1) lowest
  rw [checks]
  exact grant_alone (some c) claim rfl (firstFreeRoute_free lowest) fun l on => (line l on).1

end

/-- A route in use whose entry was free before, in a table where nothing else changed, is the new one. -/
theorem GrantedAlone.new_route {s v : State} {c : ClaimSlot} {cl : Claim} {r q : RouteSlot} {rt : Route} (alone : GrantedAlone s v c cl r)
    (route : v.route? q = some rt) (free : s.route? q = none) : q = r := by
  by_contra other
  rw [State.route?, alone.others q other] at route
  cases route.symm.trans free

/-- Settles O34: an accepted claim on free lines heads its queues alone and is granted by the entry arbiter; no line then has a queue whose
head could be checked. -/
theorem claimOnFreeLinesIsGranted : Obligations.ClaimOnFreeLinesIsGranted := by
  intro h f s p r offers admitted params passed empty room free lower nobody
  obtain ⟨c, found⟩ := firstFreeClaim_exists room
  obtain ⟨t, a, ht, within, -, -, -, -, -, reply⟩ :=
    claimIsGrantedOrQueued h f s p c offers admitted params passed (firstFreeClaim_free found) (firstFreeClaim_lowest found)
  have act := claimAct_passed params (claimRefusal_none passed) found
  obtain ⟨once, terminals⟩ := claimParams?_sound params
  have alone := acceptClaim_grantedAlone (s := popFrame h s) (h := h) (c := c) once.2
    (fun l on => by
      obtain ⟨m, hm, rfl⟩ := List.mem_map.mp on
      exact empty m hm) nobody free lower
  have routesBefore (q : RouteSlot) : (acceptClaim h p c (popFrame h s)).route? q = s.route? q :=
    route?_congr (s := s) (acceptClaim_routes (popFrame h s) h p c) q
  have break_ : longestBreak (acceptClaim h p c (popFrame h s)) (linesOf p.members) = longestBreak s (linesOf p.members) :=
    longestBreak_congr (s := s) (acceptClaim_keepsRest h (popFrame h s) p c).policies _
  generalize acceptClaim h p c (popFrame h s) = u at act alone routesBefore break_
  generalize arbitrate (some c) _ u = v at act alone
  obtain ⟨x, settled, grantedAs⟩ := alone.claim
  rw [answerClaim_granted settled grantedAs] at act
  obtain rfl : settle s (queueReply h f ⟨.granted, grantedResults v r⟩ (freeClaim c v)) = t :=
    Host.Outcome.next.inj ((offers.exec admitted act).symm.trans ht)
  have bindings (k : HostId) : ((freeClaim c v).session k).bindings = (v.session k).bindings := by
    rw [freeClaim_session settled]
    split <;> rfl
  have breaks (m : Member) (hm : m ∈ p.members) : (s.policy m.line).breakInterval ≤ longestBreak s (linesOf p.members) :=
    le_longestBreak (List.mem_map_of_mem hm)
  have breaks_le {n : Nat} (all : ∀ m ∈ p.members, (s.policy m.line).breakInterval ≤ n) : longestBreak s (linesOf p.members) ≤ n :=
    longestBreak_le fun l on => by
      obtain ⟨m, hm, rfl⟩ := List.mem_map.mp on
      exact all m hm
  rcases reply with ⟨status, -, q, rt, route, new, owner, kind, members, -, results, -⟩ | ⟨-, b, waits, -⟩
  · rw [taken_route?, route?_congr (freeClaim_routes v c)] at route
    obtain rfl := alone.new_route route ((routesBefore q).trans new)
    obtain ⟨y, hy, state⟩ := alone.route
    cases route.symm.trans hy
    rw [show linesOf (newClaim h p).members = linesOf p.members from rfl, break_] at state
    refine ⟨_, a, ht, within, status, by rw [results]; rfl, ⟨rt, ?_, owner, kind, members, ?active, ?connecting⟩, ?lines, ?bound⟩
    · rw [taken_route?, route?_congr (freeClaim_routes v c)]
      exact route
    case active =>
      intro zero
      rwa [if_pos (Nat.le_zero.mp (breaks_le fun m hm => (zero m hm).le))] at state
    case connecting =>
      rintro n positive ⟨m, hm, rfl⟩ most
      have longest := le_antisymm (breaks_le most) (breaks m hm)
      rwa [longest, if_neg positive] at state
    case lines =>
      intro m hm
      rw [taken_line, State.line, freeClaim_lines]
      exact alone.lines m.line (List.mem_map_of_mem hm)
    case bound =>
      intro i m hm
      rw [taken_session, bindings]
      have bound := alone.bindings
      rw [show (newClaim h p).owner = h from rfl] at bound
      rw [bound]
      exact (setBindings_getElem? (.route q) 0 p.members _ terminals hm).trans (by rw [Nat.zero_add])
  · rw [taken_claim?, freeClaim_claim? settled, if_pos rfl] at waits
    cases waits

end Sys2Proof.Machine


/-! QUERY_LINE, QUERY_ROUTE and QUERY_CLAIM: their reports read back as the records (R62, R84, R105, 10.6). -/

namespace Sys2Proof.Machine

/-! ### Lists of words of one length -/

theorem flatMap_length_words {α : Type} {xs : List α} {f : α → List Byte} {n : Nat} (words : ∀ x ∈ xs, (f x).length = n) :
    (xs.flatMap f).length = n * xs.length := by
  rw [List.length_flatMap, List.map_congr_left words]
  simp [Nat.mul_comm]

theorem flatMap_getD_words {α : Type} {xs : List α} {f : α → List Byte} {n i j : Nat} {x : α} (words : ∀ x ∈ xs, (f x).length = n)
    (here : xs[i]? = some x) (small : j < n) (b : Byte) : (xs.flatMap f).getD (n * i + j) b = (f x).getD j b := by
  induction xs generalizing i with
  | nil => cases here
  | cons y ys ih =>
    have first := words y List.mem_cons_self
    rw [List.flatMap_cons]
    cases i with
    | zero =>
      cases here
      rw [Nat.mul_zero, Nat.zero_add, List.getD_append _ _ _ _ (by omega)]
    | succ i =>
      rw [List.getD_append_right _ _ _ _ (by rw [first, Nat.mul_succ]; omega), first,
        show n * (i + 1) + j - n = n * i + j by rw [Nat.mul_succ]; omega]
      exact ih (fun z hz => words z (List.mem_cons_of_mem _ hz)) here

/-! ### Bytes and their fields -/

theorem millisOfTimer_eq (d : Nat) : millisOfTimer d = max 1 ((d + 999) / 1000) := rfl

theorem millisOfTimer_lt {d : Nat} (small : d ≤ 65535 * 1000) : millisOfTimer d < 65536 := by
  rw [millisOfTimer_eq]
  omega

theorem queryLineByte_fields (code : Nat) (small : code < 4) (held awaits a b c d : Bool) :
    let x := place code 6 ||| flagAt held 5 ||| flagAt awaits 4 ||| (flagAt a 0 ||| flagAt b 1 ||| flagAt c 2 ||| flagAt d 3)
    (x.extractLsb' 6 2).toNat = code ∧ x.getLsbD 5 = held ∧ x.getLsbD 4 = awaits ∧ x.getLsbD 0 = a ∧ x.getLsbD 1 = b ∧ x.getLsbD 2 = c ∧
      x.getLsbD 3 = d := by
  revert held awaits a b c d
  interval_cases code <;> decide

theorem driverByte_fields (owner : HostId) (p : Priority) (m : DriveMode) (forced : Bool) :
    let x := place owner.val 6 ||| place p.val 4 ||| place m.code 3 ||| flagAt forced 2
    (x.extractLsb' 6 2).toNat = owner.val ∧ (x.extractLsb' 4 2).toNat = p.val ∧ x.getLsbD 3 = decide (m = .openDrain) ∧
      x.getLsbD 2 = forced := by
  revert owner p forced
  cases m <;> decide

theorem queueByte_fields (owner : HostId) (p : Priority) :
    ((place owner.val 6 ||| place p.val 4).extractLsb' 6 2).toNat = owner.val ∧
      ((place owner.val 6 ||| place p.val 4).extractLsb' 4 2).toNat = p.val := by
  revert owner p
  decide

theorem routeByte_fields (rt : Route) : ((routeByte rt).extractLsb' 6 2).toNat = rt.owner.val ∧ (routeByte rt).getLsbD 5 = !rt.isDriver ∧
    ((routeByte rt).extractLsb' 3 2).toNat = rt.state.code := by
  have small : rt.state.code < 3 := by cases rt.state <;> simp [RouteState.code]
  rw [routeByte]
  generalize rt.owner = o, rt.isDriver = b, rt.state.code = c at *
  revert o b
  interval_cases c <;> decide

/-- The code of the close reason, 0 for a route that has none. -/
def RouteState.reasonCode : RouteState → Nat
  | .closed why => why.code
  | _ => 0

theorem RouteState.reasonCode_lt (st : RouteState) : st.reasonCode < 4 := by
  cases st with
  | closed why => cases why <;> decide
  | connecting d => exact Nat.zero_lt_succ 3
  | active => exact Nat.zero_lt_succ 3

theorem routeFlagsByte_eq (rt : Route) : routeFlagsByte rt =
    (match rt.kind with
      | .driver p m => place p.val 6 ||| place m.code 5
      | .listener => 0#8) ||| place rt.state.reasonCode 3 ||| flagAt rt.forcedSince 1 ||| flagAt rt.leaseClamped 0 := by
  rw [routeFlagsByte]
  cases rt.state <;> rfl

theorem driverFlags_fields (p : Priority) (m : DriveMode) (n : Nat) (small : n < 4) (since clamped : Bool) :
    let x := place p.val 6 ||| place m.code 5 ||| place n 3 ||| flagAt since 1 ||| flagAt clamped 0
    (x.extractLsb' 6 2).toNat = p.val ∧ x.getLsbD 5 = decide (m = .openDrain) ∧ (x.extractLsb' 3 2).toNat = n ∧ x.getLsbD 1 = since ∧
      x.getLsbD 0 = clamped := by
  revert p since clamped
  cases m <;> interval_cases n <;> decide

theorem listenerFlags_fields (n : Nat) (small : n < 4) (since clamped : Bool) :
    let x := 0#8 ||| place n 3 ||| flagAt since 1 ||| flagAt clamped 0
    x.extractLsb' 5 3 = 0#3 ∧ (x.extractLsb' 3 2).toNat = n ∧ x.getLsbD 1 = since ∧ x.getLsbD 0 = clamped := by
  revert since clamped
  interval_cases n <;> decide

theorem routeFlagsByte_fields (rt : Route) :
    (∀ p m, rt.kind = .driver p m →
      ((routeFlagsByte rt).extractLsb' 6 2).toNat = p.val ∧ (routeFlagsByte rt).getLsbD 5 = decide (m = .openDrain)) ∧
    (rt.kind = .listener → (routeFlagsByte rt).extractLsb' 5 3 = 0#3) ∧
    ((routeFlagsByte rt).extractLsb' 3 2).toNat = rt.state.reasonCode ∧ (routeFlagsByte rt).getLsbD 1 = rt.forcedSince ∧
    (routeFlagsByte rt).getLsbD 0 = rt.leaseClamped := by
  have small := rt.state.reasonCode_lt
  rw [routeFlagsByte_eq]
  cases rt.kind with
  | listener =>
    obtain ⟨kind, rest⟩ := listenerFlags_fields _ small rt.forcedSince rt.leaseClamped
    exact ⟨nofun, fun _ => kind, rest⟩
  | driver p m =>
    obtain ⟨priority, mode, rest⟩ := driverFlags_fields p m _ small rt.forcedSince rt.leaseClamped
    refine ⟨fun q k same => ?_, nofun, rest⟩
    cases same
    exact ⟨priority, mode⟩

theorem claimByte_fields (cl : Claim) : ((claimByte cl).extractLsb' 6 2).toNat = cl.owner.val ∧
    ((claimByte cl).extractLsb' 4 2).toNat = cl.state.code ∧ ((claimByte cl).extractLsb' 2 2).toNat = cl.priority.val ∧
    (claimByte cl).getLsbD 1 = decide (cl.mode = .openDrain) ∧ (claimByte cl).getLsbD 0 = (cl.waiting && cl.awaiting) := by
  have small : cl.state.code < 3 := by cases cl.state <;> simp [ClaimState.code]
  rw [claimByte]
  generalize cl.owner = o, cl.state.code = c, cl.priority = p, (cl.waiting && cl.awaiting) = b, cl.mode = m at *
  revert o p b
  cases m <;> interval_cases c <;> decide

/-- The terminal and the queue position in the second byte of a member word. -/
theorem memberByte_terminal (t : TermNo) (x : Nat) : ((place t.val 0 ||| place x 4).extractLsb' 0 4).toNat = t.val := by
  have low : (place t.val 0 ||| place x 4).extractLsb' 0 4 = (BitVec.ofNat 8 t.val).extractLsb' 0 4 := by
    refine BitVec.eq_of_getLsbD_eq fun i hi => ?_
    simp [place, hi]
  rw [low]
  clear low
  revert t
  decide

theorem memberByte_position (t : TermNo) {x : Nat} (small : x < 4) : ((place t.val 0 ||| place x 4).extractLsb' 4 4).toNat = x := by
  revert t
  interval_cases x <;> decide

/-! ### QUERY_LINE -/

/-- The results of QUERY_LINE (R105, 10.6). -/
def lineReport (s : State) (l : LineNo) : List Byte :=
  [place l.val 0, place (s.line l).state.code 6 ||| flagAt (s.held l) 5 ||| flagAt (headAwaits s l) 4 ||| listenerHosts s l] ++
    driverBytes s l ++ (s.line l).queue.flatMap (queueEntryBytes s)

theorem queryLineAct_ofNat (h : HostId) (l : LineNo) (s : State) :
    queryLineAct h [BitVec.ofNat 8 l.val] s = (s, ⟨.ok, lineReport s l⟩) := by
  have slot : lineParam? [BitVec.ofNat 8 l.val] = some l := below?_ofNat l (by omega)
  rw [queryLineAct, slot]
  rfl

theorem queryLine_admitted {h : HostId} {f : List Byte} (s : State) {b : Byte} (params : frameParams f = [b]) :
    Admitted s h .queryLine f := by
  show commonRefusal .queryLine h (frameParams f) s = none
  simp [commonRefusal, params, ReqCode.lengthOk, ReqCode.needsAttachment, ReqCode.needsSupervisor]

section

variable {s : State} {l : LineNo}

theorem listensOn_iff {k : HostId} : listensOn s k l = true ↔
    ∃ r rt, s.route? r = some rt ∧ rt.owner = k ∧ rt.isDriver = false ∧ rt.active = true ∧ l ∈ linesOf rt.members := by
  rw [listensOn, List.any_eq_true]
  refine exists_congr fun r => ?_
  cases s.route? r with
  | none => simp
  | some rt => simp [mem_every, and_assoc]

theorem headAwaits_iff : headAwaits s l = true ↔
    (s.line l).state = .pending ∧ ∃ c cl, (s.line l).queue.head? = some c ∧ s.claim? c = some cl ∧ cl.awaiting = true := by
  unfold headAwaits queueHead
  cases (s.line l).state <;> cases (s.line l).queue.head? with
  | none => simp
  | some c => cases claim : s.claim? c <;> simp [claim]

theorem lineReport_byte : (((lineReport s l).getD 1 0#8).extractLsb' 6 2).toNat = (s.line l).state.code ∧
    ((lineReport s l).getD 1 0#8).getLsbD 5 = s.held l ∧ ((lineReport s l).getD 1 0#8).getLsbD 4 = headAwaits s l ∧
    ∀ k : HostId, ((lineReport s l).getD 1 0#8).getLsbD k.val = listensOn s k l := by
  have small : (s.line l).state.code < 4 := by cases (s.line l).state <;> decide
  obtain ⟨code, held, awaits, a, b, c, d⟩ := queryLineByte_fields _ small (s.held l) (headAwaits s l) (listensOn s 0 l) (listensOn s 1 l)
    (listensOn s 2 l) (listensOn s 3 l)
  refine ⟨code, held, awaits, fun k => ?_⟩
  match k with
  | 0 => exact a
  | 1 => exact b
  | 2 => exact c
  | 3 => exact d

theorem driverBytes_length : (driverBytes s l).length = 5 := by
  unfold driverBytes
  split <;> rfl

theorem lineReport_driver {i : Nat} (small : i < 5) : (lineReport s l).getD (2 + i) 0#8 = (driverBytes s l).getD i 0#8 := by
  rw [lineReport, List.append_assoc, List.getD_append_right _ _ _ _ (by simp), List.getD_append _ _ _ _ (by simp [driverBytes_length, small])]
  simp

theorem lineReport_queue (i : Nat) :
    (lineReport s l).getD (7 + i) 0#8 = ((s.line l).queue.flatMap (queueEntryBytes s)).getD i 0#8 := by
  rw [lineReport, List.getD_append_right _ _ _ _ (by simp [driverBytes_length])]
  simp [driverBytes_length]

/-- The time left of a break interval, 0 for a route that is not CONNECTING. -/
def RouteState.breakLeft : RouteState → Nat
  | .connecting t => t
  | _ => 0

/-- The driver bytes of a line with a live driver. -/
theorem driverBytes_eq {r : RouteSlot} {rt : Route} {p : Priority} {m : DriveMode} (driver : lineDriver s l = some (r, rt))
    (kind : rt.kind = .driver p m) : driverBytes s l = [BitVec.ofNat 8 r.val, (s.routeEntry r).generation,
      place rt.owner.val 6 ||| place p.val 4 ||| place m.code 3 ||| flagAt (((memberIndex rt.members l).map rt.forced.getLsbD).getD false) 2] ++
      bytes16 rt.state.breakLeft := by
  rw [driverBytes, driver]
  dsimp only
  rw [kind, place_zero]
  rfl

theorem queueEntryBytes_eq {c : ClaimSlot} {cl : Claim} (claim : s.claim? c = some cl) : queueEntryBytes s c =
    [BitVec.ofNat 8 c.val, (s.claimEntry c).generation, place cl.owner.val 6 ||| place cl.priority.val 4] := by
  rw [queueEntryBytes, claim, place_zero]

/-- The entry at place i of the queue stands in three bytes of the report. -/
theorem lineReport_entry (known : ∀ c ∈ (s.line l).queue, (s.claim? c).isSome) {i j : Nat} {c : ClaimSlot} {cl : Claim}
    (here : (s.line l).queue[i]? = some c) (claim : s.claim? c = some cl) (small : j < 3) :
    (lineReport s l).getD (7 + (3 * i + j)) 0#8 = ([BitVec.ofNat 8 c.val, (s.claimEntry c).generation,
      place cl.owner.val 6 ||| place cl.priority.val 4] : List Byte).getD j 0#8 := by
  rw [lineReport_queue, flatMap_getD_words (n := 3) (fun d mem => ?_) here small, queueEntryBytes_eq claim]
  obtain ⟨dl, hd⟩ := Option.isSome_iff_exists.mp (known d mem)
  rw [queueEntryBytes_eq hd]
  rfl

theorem lineReport_length (known : ∀ c ∈ (s.line l).queue, (s.claim? c).isSome) :
    (lineReport s l).length = 7 + 3 * (s.line l).queue.length := by
  have words := flatMap_length_words (xs := (s.line l).queue) (f := queueEntryBytes s) (n := 3) fun d mem => by
    obtain ⟨dl, hd⟩ := Option.isSome_iff_exists.mp (known d mem)
    rw [queueEntryBytes_eq hd]
    rfl
  simp only [lineReport, List.length_append, List.length_cons, List.length_nil, driverBytes_length, words]

end

/-- What the report tells of a line's driver. -/
theorem lineReport_driven {s : State} {l : LineNo} {r : RouteSlot} {rt : Route} {p : Priority} {m : DriveMode}
    (driver : lineDriver s l = some (r, rt)) (kind : rt.kind = .driver p m) :
    (lineReport s l).getD 2 0#8 = BitVec.ofNat 8 r.val ∧ (lineReport s l).getD 3 0#8 = (s.routeEntry r).generation ∧
      (lineReport s l).getD 4 0#8 = place rt.owner.val 6 ||| place p.val 4 ||| place m.code 3 |||
        flagAt (((memberIndex rt.members l).map rt.forced.getLsbD).getD false) 2 ∧
      (rt.state.breakLeft < 65536 → word16 ((lineReport s l).getD 5 0#8) ((lineReport s l).getD 6 0#8) = rt.state.breakLeft) := by
  have bytes (i : Nat) (small : i < 5) := lineReport_driver (s := s) (l := l) small
  rw [driverBytes_eq driver kind] at bytes
  refine ⟨bytes 0 (by decide), bytes 1 (by decide), bytes 2 (by decide), fun small => ?_⟩
  rw [bytes 3 (by decide), bytes 4 (by decide)]
  exact word16_bytes16 small

theorem lineReport_undriven {s : State} {l : LineNo} (none_ : lineDriver s l = none) (i : Nat) (least : 2 ≤ i) (most : i ≤ 6) :
    (lineReport s l).getD i 0#8 = 0#8 := by
  obtain ⟨j, rfl⟩ := Nat.exists_eq_add_of_le least
  rw [lineReport_driver (by omega), driverBytes, none_]
  have small : j < 5 := by omega
  interval_cases j <;> rfl

/-! ### QUERY_ROUTE -/

theorem queryRouteAct_bytes {s : State} {r : RouteSlot} {gen : Byte} {rt : Route} (h : HostId) (names : NamesRoute s r gen rt) :
    queryRouteAct h [BitVec.ofNat 8 r.val, gen] s = (s, ⟨.ok, routeReport s r rt⟩) := by
  rw [queryRouteAct, routeRef?_bytes]
  dsimp only
  rw [routeAt?_of_names names]

theorem queryRoute_admitted {h : HostId} {f : List Byte} (s : State) {b c : Byte} (params : frameParams f = [b, c]) :
    Admitted s h .queryRoute f := by
  show commonRefusal .queryRoute h (frameParams f) s = none
  simp [commonRefusal, params, ReqCode.lengthOk, ReqCode.needsAttachment, ReqCode.needsSupervisor]

section

variable {s : State} {r : RouteSlot} {rt : Route}

theorem routeDetailBytes_length : (routeDetailBytes rt).length = 2 := by
  unfold routeDetailBytes
  split <;> rfl

theorem routeReport_reference : (routeReport s r rt).getD 0 0#8 = BitVec.ofNat 8 r.val ∧
    (routeReport s r rt).getD 1 0#8 = (s.routeEntry r).generation := ⟨place_zero _, rfl⟩

theorem routeReport_lease (small : (if rt.live then millisOf? rt.lease else 0) < 65536) :
    word16 ((routeReport s r rt).getD 4 0#8) ((routeReport s r rt).getD 5 0#8) = if rt.live then millisOf? rt.lease else 0 :=
  word16_bytes16 small

theorem routeReport_detail {i : Nat} (small : i < 2) : (routeReport s r rt).getD (6 + i) 0#8 = (routeDetailBytes rt).getD i 0#8 := by
  rw [routeReport, List.getD_append _ _ _ _ (by simp [routeRefBytes, bytes16, routeDetailBytes_length]; omega),
    List.getD_append_right _ _ _ _ (by simp [routeRefBytes, bytes16])]
  simp [routeRefBytes, bytes16]

theorem routeReport_connecting {d : Nat} (connecting : rt.state = .connecting d) (small : d < 65536) :
    word16 ((routeReport s r rt).getD 6 0#8) ((routeReport s r rt).getD 7 0#8) = d := by
  have bytes (i : Nat) (small : i < 2) := routeReport_detail (s := s) (r := r) (rt := rt) small
  rw [bytes 0 (by decide), bytes 1 (by decide), routeDetailBytes, connecting]
  exact word16_bytes16 small

theorem routeReport_forced (active : rt.active = true) (driver : rt.isDriver = true) :
    (routeReport s r rt).getD 6 0#8 = 0#8 ∧ (routeReport s r rt).getD 7 0#8 = rt.forced := by
  have bytes (i : Nat) (small : i < 2) := routeReport_detail (s := s) (r := r) (rt := rt) small
  rw [bytes 0 (by decide), bytes 1 (by decide)]
  unfold routeDetailBytes
  cases state : rt.state <;> simp only [Route.active, state, Bool.false_eq_true] at active
  cases kind : rt.kind <;> simp only [Route.isDriver, kind, Bool.false_eq_true] at driver
  exact ⟨rfl, rfl⟩

theorem routeReport_plain (plain : rt.live = false ∨ rt.active = true ∧ rt.isDriver = false) :
    (routeReport s r rt).getD 6 0#8 = 0#8 ∧ (routeReport s r rt).getD 7 0#8 = 0#8 := by
  have bytes (i : Nat) (small : i < 2) := routeReport_detail (s := s) (r := r) (rt := rt) small
  rw [bytes 0 (by decide), bytes 1 (by decide)]
  unfold routeDetailBytes
  cases state : rt.state with
  | closed why => exact ⟨rfl, rfl⟩
  | connecting d => simp [Route.live, Route.active, state] at plain
  | active =>
    cases kind : rt.kind with
    | listener => exact ⟨rfl, rfl⟩
    | driver p m => simp [Route.live, Route.isDriver, state, kind] at plain

theorem routeReport_member {i j : Nat} {m : Member} (here : rt.members[i]? = some m) (small : j < 2) :
    (routeReport s r rt).getD (8 + (2 * i + j)) 0#8 = (memberWord m 0).getD j 0#8 := by
  rw [routeReport, List.getD_append_right _ _ _ _ (by simp [routeRefBytes, bytes16, routeDetailBytes_length]),
    ← flatMap_getD_words (f := fun m => memberWord m 0) (n := 2) (fun _ _ => rfl) here small]
  simp [routeRefBytes, bytes16, routeDetailBytes_length]

theorem routeReport_length : (routeReport s r rt).length = 8 + 2 * rt.members.length := by
  have words := flatMap_length_words (xs := rt.members) (f := fun m => memberWord m 0) (n := 2) fun _ _ => rfl
  simp only [routeReport, List.length_append, List.length_cons, List.length_nil, routeDetailBytes_length, words, routeRefBytes, bytes16]

end

/-! ### QUERY_CLAIM -/

theorem queryClaimAct_bytes {s : State} {c : ClaimSlot} {gen : Byte} {cl : Claim} (h : HostId) (names : NamesClaim s c gen cl) :
    queryClaimAct h [BitVec.ofNat 8 c.val, gen] s = (s, ⟨.ok, claimReport s c cl⟩) := by
  rw [queryClaimAct, claimRef?_bytes]
  dsimp only
  rw [claimAt?_of_names names]

theorem queryClaim_admitted {h : HostId} {f : List Byte} (s : State) {b c : Byte} (params : frameParams f = [b, c]) :
    Admitted s h .queryClaim f := by
  show commonRefusal .queryClaim h (frameParams f) s = none
  simp [commonRefusal, params, ReqCode.lengthOk, ReqCode.needsAttachment, ReqCode.needsSupervisor]

section

variable {s : State} {c : ClaimSlot} {cl : Claim}

theorem claimDetailBytes_length : (claimDetailBytes cl).length = 2 := by
  unfold claimDetailBytes
  split <;> rfl

theorem claimReport_detail {i : Nat} (small : i < 2) : (claimReport s c cl).getD (5 + i) 0#8 = (claimDetailBytes cl).getD i 0#8 := by
  rw [claimReport, List.getD_append _ _ _ _ (by simp [claimRefBytes, bytes16, claimDetailBytes_length]; omega),
    List.getD_append_right _ _ _ _ (by simp [claimRefBytes, bytes16])]
  simp [claimRefBytes, bytes16]

theorem claimReport_waiting (waiting : cl.waiting = true) (small : millisOf? cl.waitLimit < 65536) :
    word16 ((claimReport s c cl).getD 5 0#8) ((claimReport s c cl).getD 6 0#8) = millisOf? cl.waitLimit := by
  have bytes (i : Nat) (small : i < 2) := claimReport_detail (s := s) (c := c) (cl := cl) small
  have state : cl.state = .waiting := by
    cases state : cl.state <;> simp only [Claim.waiting, state, Bool.false_eq_true] at waiting
    rfl
  rw [bytes 0 (by decide), bytes 1 (by decide), claimDetailBytes, state]
  exact word16_bytes16 small

theorem claimReport_dropped {why : DropReason} (dropped : cl.state = .dropped why) :
    word16 ((claimReport s c cl).getD 5 0#8) ((claimReport s c cl).getD 6 0#8) = why.code := by
  have bytes (i : Nat) (small : i < 2) := claimReport_detail (s := s) (c := c) (cl := cl) small
  have word (y : DropReason) : word16 0#8 (place y.code 0) = y.code := by cases y <;> decide
  rw [bytes 0 (by decide), bytes 1 (by decide), claimDetailBytes, dropped]
  exact word why

theorem claimReport_granted {r : RouteSlot} (granted : cl.state = .granted r) :
    word16 ((claimReport s c cl).getD 5 0#8) ((claimReport s c cl).getD 6 0#8) = r.val := by
  have bytes (i : Nat) (small : i < 2) := claimReport_detail (s := s) (c := c) (cl := cl) small
  have word (q : RouteSlot) : word16 0#8 (place q.val 0) = q.val := by
    revert q
    decide
  rw [bytes 0 (by decide), bytes 1 (by decide), claimDetailBytes, granted]
  exact word r

theorem claimReport_member {i j : Nat} {m : Member} (here : cl.members[i]? = some m) (small : j < 2) :
    (claimReport s c cl).getD (7 + (2 * i + j)) 0#8 =
      (memberWord m (if cl.waiting then queuePosition s c m.line - 1 else 0)).getD j 0#8 := by
  rw [claimReport, List.getD_append_right _ _ _ _ (by simp [claimRefBytes, bytes16, claimDetailBytes_length]),
    ← flatMap_getD_words (f := fun m => memberWord m (if cl.waiting then queuePosition s c m.line - 1 else 0)) (n := 2) (fun _ _ => rfl)
      here small]
  simp [claimRefBytes, bytes16, claimDetailBytes_length]

theorem claimReport_length : (claimReport s c cl).length = 7 + 2 * cl.members.length := by
  have words := flatMap_length_words (xs := cl.members)
    (f := fun m => memberWord m (if cl.waiting then queuePosition s c m.line - 1 else 0)) (n := 2) fun _ _ => rfl
  simp only [claimReport, List.length_append, List.length_cons, List.length_nil, claimDetailBytes_length, words, claimRefBytes, bytes16]

end

/-- Settles O24: each report reads back field by field, and its query changes no record. -/
theorem lineRouteAndClaimQueries : Obligations.LineRouteAndClaimQueries := by
  refine ⟨fun h f s l offers params => ?line, fun h f s r gen rt offers params names => ?route, fun h f s c gen cl offers params names => ?claim⟩
  case line =>
    obtain ⟨t, ht, answered⟩ := offers.only_answers (a := ⟨.ok, lineReport s l⟩) (queryLine_admitted s params)
      (by rw [params]; exact queryLineAct_ofNat h l _)
    obtain ⟨code, held, awaits, listens⟩ := lineReport_byte (s := s) (l := l)
    refine ⟨t, _, ht, answered, rfl, place_zero _, code, held, ?_, fun k => ?_, fun r rt p m driver kind => ?_,
      lineReport_undriven, fun known => ⟨lineReport_length known, fun i c cl here claim => ?_⟩⟩
    · rw [awaits]
      exact headAwaits_iff
    · rw [listens]
      exact listensOn_iff
    · obtain ⟨ref, generation, byte, left⟩ := lineReport_driven driver kind
      obtain ⟨owner, priority, mode, forced⟩ := driverByte_fields rt.owner p m (((memberIndex rt.members l).map rt.forced.getLsbD).getD false)
      rw [byte]
      refine ⟨ref, generation, owner, priority, mode, fun i index => ?_, fun d connecting small => ?_, fun active => ?_⟩
      · rw [forced, index]
        rfl
      · rw [connecting] at left
        exact left small
      · rw [active] at left
        exact left (by decide)
    · have bytes (j : Nat) (small : j < 3) := lineReport_entry known here claim small
      obtain ⟨owner, priority⟩ := queueByte_fields cl.owner cl.priority
      have place_ (j : Nat) : 7 + j + 3 * i = 7 + (3 * i + j) := by omega
      have third := bytes 2 (by decide)
      rw [← place_] at third
      refine ⟨bytes 0 (by decide), (place_ 1 ▸ bytes 1 (by decide) :), ?_, ?_⟩
      · rw [third]
        exact owner
      · rw [third]
        exact priority
  case route =>
    obtain ⟨t, ht, answered⟩ := offers.only_answers (a := ⟨.ok, routeReport s r rt⟩) (queryRoute_admitted s params)
      (by rw [params]; exact queryRouteAct_bytes h (s := popFrame h s) names)
    obtain ⟨owner, kind, state⟩ := routeByte_fields rt
    obtain ⟨driver, listener, reason, since, clamped⟩ := routeFlagsByte_fields rt
    obtain ⟨ref, generation⟩ := routeReport_reference (s := s) (r := r) (rt := rt)
    refine ⟨t, _, ht, answered, rfl, routeReport_length, ref, generation.trans names.2, owner, kind, state, driver, listener,
      reason.trans (by cases rt.state <;> rfl), since, clamped, fun none_ => ?_, fun d live lease small => ?_,
      fun d connecting small => routeReport_connecting connecting small, routeReport_forced, routeReport_plain, fun i m here => ?_⟩
    · have zero : (if rt.live then millisOf? rt.lease else 0) = 0 := by
        rcases none_ with ended | none_
        · rw [ended]
          rfl
        · rw [none_]
          exact ite_self _
      exact (routeReport_lease (by rw [zero]; decide)).trans zero
    · have left : (if rt.live then millisOf? rt.lease else 0) = millisOfTimer d := by rw [live, lease]; rfl
      exact (routeReport_lease (by rw [left]; exact millisOfTimer_lt small)).trans left
    · have bytes (j : Nat) (small : j < 2) := routeReport_member (s := s) (r := r) here small
      have second := bytes 1 (by decide)
      rw [show 8 + (2 * i + 1) = 9 + 2 * i by omega] at second
      refine ⟨(bytes 0 (by decide)).trans (place_zero _), second.trans ?_⟩
      simp [memberWord, place]
  case claim =>
    obtain ⟨t, ht, answered⟩ := offers.only_answers (a := ⟨.ok, claimReport s c cl⟩) (queryClaim_admitted s params)
      (by rw [params]; exact queryClaimAct_bytes h (s := popFrame h s) names)
    obtain ⟨owner, state, priority, mode, awaits⟩ := claimByte_fields cl
    refine ⟨t, _, ht, answered, rfl, claimReport_length, place_zero _, names.2, owner, state, priority, mode, awaits, word16_bytes16,
      fun waiting none_ => ?_, fun d waiting limit small => ?_, fun why => claimReport_dropped, fun r => claimReport_granted,
      fun i m here => ?_⟩
    · rw [claimReport_waiting waiting (by rw [none_]; decide), none_]
      rfl
    · rw [claimReport_waiting waiting (by rw [limit]; exact millisOfTimer_lt small), limit]
      rfl
    · have bytes (j : Nat) (small : j < 2) := claimReport_member (s := s) (c := c) here small
      have second := bytes 1 (by decide)
      rw [show 7 + (2 * i + 1) = 8 + 2 * i by omega] at second
      rw [second]
      refine ⟨(bytes 0 (by decide)).trans (place_zero _), memberByte_terminal .., fun waiting near => ?_, fun settled => ?_⟩
      · rw [waiting, if_pos rfl]
        exact memberByte_position m.terminal near
      · rw [settled]
        exact BitVec.eq_of_toNat_eq (memberByte_position m.terminal (by decide : 0 < 4))

end Sys2Proof.Machine


/-! COLLECT: the report, the records it frees and clears, and the references that the grants after it place (R54, R125, R127, R128). -/

namespace Sys2Proof.Machine

/-! ### What the grant checks do to the change set of a host -/

/-- The change set of a host holds each reference once, in order. -/
def NotedOnce (s : State) (h : HostId) : Prop :=
  Ascending (s.session h).changes.claims ∧ Ascending (s.session h).changes.routes

theorem NotedOnce.congr {s t : State} {h : HostId} (once : NotedOnce s h) (same : (t.session h).changes = (s.session h).changes) :
    NotedOnce t h := by
  rwa [NotedOnce, same]

theorem NotedOnce.noteRoute {s : State} {h : HostId} (once : NotedOnce s h) (k : HostId) (r : RouteSlot) : NotedOnce (noteRoute k r s) h := by
  rw [NotedOnce, Machine.noteRoute, State.updSession_session]
  split
  · rename_i own
    subst own
    exact ⟨once.1, insertAsc_ascending r once.2⟩
  · exact once

theorem NotedOnce.noteClaim {s : State} {h : HostId} (once : NotedOnce s h) (k : HostId) (c : ClaimSlot) : NotedOnce (noteClaim k c s) h := by
  rw [NotedOnce, Machine.noteClaim, State.updSession_session]
  split
  · rename_i own
    subst own
    exact ⟨insertAsc_ascending c once.1, once.2⟩
  · exact once

/-- Records in use stay in use under their owner, CLOSED routes CLOSED and settled claims settled; a reference that enters the host's
change set is to a record of the host that has just closed, settled or come into use. -/
structure NotesArise (h : HostId) (s t : State) : Prop where
  once : NotedOnce s h → NotedOnce t h
  routes : ∀ r rt, s.route? r = some rt → ∃ rt', t.route? r = some rt' ∧ rt'.owner = rt.owner ∧ (rt.live = false → rt'.live = false)
  claims : ∀ c cl, s.claim? c = some cl → ∃ cl', t.claim? c = some cl' ∧ cl'.owner = cl.owner ∧ (cl.waiting = false → cl'.waiting = false)
  notedRoutes : ∀ r ∈ (t.session h).changes.routes, r ∈ (s.session h).changes.routes ∨
    ∃ rt, t.route? r = some rt ∧ rt.owner = h ∧ (rt.live = false ∨ s.route? r = none)
  notedClaims : ∀ c ∈ (t.session h).changes.claims, c ∈ (s.session h).changes.claims ∨
    ∃ cl, t.claim? c = some cl ∧ cl.owner = h ∧ cl.waiting = false

namespace NotesArise

variable {h : HostId} {s t u : State}

theorem refl (s : State) : NotesArise h s s :=
  ⟨id, fun _ rt route => ⟨rt, route, rfl, id⟩, fun _ cl claim => ⟨cl, claim, rfl, id⟩, fun _ => .inl, fun _ => .inl⟩

theorem trans (a : NotesArise h s t) (b : NotesArise h t u) : NotesArise h s u := by
  refine ⟨b.once ∘ a.once, fun r rt route => ?_, fun c cl claim => ?_, fun r noted => ?_, fun c noted => ?_⟩
  · obtain ⟨x, hx, owner, closed⟩ := a.routes r rt route
    obtain ⟨y, hy, owner', closed'⟩ := b.routes r x hx
    exact ⟨y, hy, owner'.trans owner, closed' ∘ closed⟩
  · obtain ⟨x, hx, owner, settled⟩ := a.claims c cl claim
    obtain ⟨y, hy, owner', settled'⟩ := b.claims c x hx
    exact ⟨y, hy, owner'.trans owner, settled' ∘ settled⟩
  · have free (later : t.route? r = none) : s.route? r = none := by
      by_contra used
      obtain ⟨x, hx⟩ := Option.ne_none_iff_exists'.mp used
      obtain ⟨y, hy, -⟩ := a.routes r x hx
      cases later.symm.trans hy
    rcases b.notedRoutes r noted with before | ⟨rt, route, owner, why⟩
    · rcases a.notedRoutes r before with old | ⟨x, hx, owner, why⟩
      · exact .inl old
      · obtain ⟨y, hy, owner', closed⟩ := b.routes r x hx
        exact .inr ⟨y, hy, owner'.trans owner, why.imp closed id⟩
    · exact .inr ⟨rt, route, owner, why.imp id free⟩
  · rcases b.notedClaims c noted with before | new
    · rcases a.notedClaims c before with old | ⟨x, hx, owner, settled⟩
      · exact .inl old
      · obtain ⟨y, hy, owner', settled'⟩ := b.claims c x hx
        exact .inr ⟨y, hy, owner'.trans owner, settled' settled⟩
    · exact .inr new

theorem of_same (sessions : t.sessions = s.sessions) (routes : t.routes = s.routes) (claims : t.claims = s.claims) : NotesArise h s t := by
  have session := session_congr sessions h
  refine ⟨fun once => once.congr (by rw [session]), fun r rt route => ⟨rt, (route?_congr routes r).trans route, rfl, id⟩,
    fun c cl claim => ⟨cl, (claim?_congr claims c).trans claim, rfl, id⟩, fun r noted => .inl (session ▸ noted),
    fun c noted => .inl (session ▸ noted)⟩

theorem mark (s : State) (c : ClaimSlot) (b : Bool) : NotesArise h s (s.updClaim c fun cl => { cl with awaiting := b }) := by
  refine ⟨id, fun _ rt route => ⟨rt, route, rfl, id⟩, fun d cl claim => ?_, fun _ => .inl, fun _ => .inl⟩
  rw [State.updClaim_claim?, claim]
  split
  · exact ⟨_, rfl, rfl, id⟩
  · exact ⟨cl, rfl, rfl, id⟩

theorem preempt (s : State) (r : RouteSlot) : NotesArise h s (closeRoute .preempted r s) := by
  by_cases live : ∃ rt, s.route? r = some rt ∧ rt.live = true
  · obtain ⟨rt, route, live⟩ := live
    have closed := closeRoute_route? .preempted route live
    have session := closeRoute_session .preempted route live h
    refine ⟨fun once => ?_, fun q x hx => ?_, fun c cl claim => ⟨cl, (claim?_congr (closeRoute_claims ..) c).trans claim, rfl, id⟩,
      fun q noted => ?_, fun c noted => .inl (closeRoute_notedClaims s .preempted r h ▸ noted)⟩
    · rw [NotedOnce, session]
      split
      · exact ⟨once.1, insertAsc_ascending r once.2⟩
      · exact once
    · rw [closed]
      split
      · rename_i here
        subst here
        cases route.symm.trans hx
        exact ⟨_, rfl, rfl, fun _ => rfl⟩
      · exact ⟨x, hx, rfl, id⟩
    · rw [session] at noted
      split at noted
      · rename_i owner
        rcases mem_insertAsc.mp noted with rfl | old
        · exact .inr ⟨_, (closed _).trans (if_pos rfl), owner, .inl rfl⟩
        · exact .inl old
      · exact .inl noted
  · rw [closeRoute_idle fun rt hr => Bool.eq_false_iff.mpr fun hl => live ⟨rt, hr, hl⟩]
    exact .refl s

theorem grant (own : Option ClaimSlot) {s : State} {c : ClaimSlot} {r : RouteSlot} {cl : Claim} (claim : s.claim? c = some cl)
    (free : s.route? r = none) : NotesArise h s (grant own c r s).1 := by
  have entry (q : RouteSlot) := grant_routeEntry own (r := r) claim q
  refine ⟨fun once => ?_, fun q x hx => ?_, fun d x hx => ?_, fun q noted => ?_, fun d noted => ?_⟩
  · obtain ⟨t, u, told, active, e⟩ := grant_cases (own := own) (r := r) claim
    have base : NotedOnce (grantBase c cl r s) h := once.congr (grantBase_changes ..)
    have told : NotedOnce t h := by
      rcases told with rfl | rfl
      · exact base
      · exact (base.noteClaim ..).noteRoute ..
    have kept (v : State) (once : NotedOnce v h) : NotedOnce (activate r v) h := once.congr (by rw [session_congr (activate_sessions ..)])
    have active : NotedOnce u h := by
      rcases active with rfl | rfl | rfl
      · exact told
      · exact kept _ told
      · exact (kept _ told).noteRoute ..
    rw [e]
    exact active.congr (by rw [session_congr (setLineStates_keep _ _).sessions])
  · have other : r ≠ q := fun same => by
      subst same
      cases free.symm.trans hx
    exact ⟨x, (congrArg RouteEntry.route ((entry q).1 other)).trans hx, rfl, id⟩
  · rw [State.claim?, grant_claimEntry own claim]
    split
    · rename_i here
      subst here
      cases claim.symm.trans hx
      exact ⟨_, rfl, rfl, fun _ => rfl⟩
    · exact ⟨x, hx, rfl, id⟩
  · rcases (grant_notedRoutes own claim r q h).mp noted with old | ⟨rfl, rfl, -⟩
    · exact .inl old
    · obtain ⟨-, rt, route, owner, -⟩ := (entry q).2 rfl
      exact .inr ⟨rt, route, owner, .inr free⟩
  · rcases (grant_notedClaims own claim r d h).mp noted with old | ⟨rfl, rfl, -⟩
    · exact .inl old
    · refine .inr ⟨{ cl with state := .granted r, waitLimit := none, awaiting := false }, ?_, rfl, rfl⟩
      rw [State.claim?, grant_claimEntry own claim, if_pos rfl]

theorem moves (h : HostId) (own : Option ClaimSlot) : ArbiterMoves own (NotesArise h) where
  refl := .refl
  trans := .trans
  line s l := .of_same (setLineState_keeps s l).sessions (setLineState_keeps s l).routes (setLineState_keeps s l).claims
  mark := .mark
  preempt := .preempt
  grant _ _ _ _ claim _ free := .grant own claim free

theorem arbitrated (h : HostId) (ls : List LineNo) (s : State) : NotesArise h s (arbitrate none ls s) :=
  ((moves h none).dropDisplaced s).trans (((moves h none).checkAll ..).trans ((moves h none).grantAll ..))

end NotesArise

/-- A grant check finds nothing to do where nothing awaits an entry that is free, and no claim is displaced. -/
theorem arbitrate_idle {s : State} (idle : NoIdleEntry s) (heads : ∀ c ∈ s.accepted, ∀ cl, s.claim? c = some cl → cl.awaiting = true →
    headsAll s c (linesOf cl.members) = true) : arbitrate none [] s = s := by
  have kept : dropDisplaced s = s := dropDisplaced_same fun c mem cl claim _ awaits => heads c mem cl claim awaits
  have stop (n : Nat) : grantAll none n s = s := by
    cases n with
    | zero => rfl
    | succ n =>
      rw [grantAll]
      rcases idle with full | nobody
      · rw [full]
        cases bestAwaiting s <;> rfl
      · rw [nobody]
  rw [arbitrate, kept]
  exact stop _

/-! ### What the reported references leave -/

section

variable {s : State} {refs : List ChangeRef}

theorem entryAfterReport_other {r : RouteSlot} (absent : .route r ∉ refs) : entryAfterReport s refs r = s.routeEntry r := by
  rw [entryAfterReport]
  cases s.route? r with
  | none => rfl
  | some rt => exact if_neg absent

theorem entryAfterReport_mem {r : RouteSlot} {rt : Route} (mem : .route r ∈ refs) (route : s.route? r = some rt) :
    entryAfterReport s refs r =
      if rt.live then { s.routeEntry r with route := some { rt with forcedSince := false, leaseClamped := false } }
      else freedEntry (s.routeEntry r) := by
  rw [entryAfterReport, route]
  exact if_pos mem

theorem entryAfterReport_congr {refs' : List ChangeRef} {r : RouteSlot} (same : .route r ∈ refs' ↔ .route r ∈ refs) :
    entryAfterReport s refs' r = entryAfterReport s refs r := by
  simp only [entryAfterReport, same]

theorem recordAfterReport_other {c : ClaimSlot} (absent : .claim c ∉ refs) : recordAfterReport s refs c = s.claimEntry c := by
  rw [recordAfterReport]
  cases s.claim? c with
  | none => rfl
  | some cl => exact if_neg fun both => absent both.1

theorem recordAfterReport_mem {c : ClaimSlot} {cl : Claim} (mem : .claim c ∈ refs) (claim : s.claim? c = some cl) :
    recordAfterReport s refs c = if cl.waiting then s.claimEntry c else freedRecord (s.claimEntry c) := by
  rw [recordAfterReport, claim]
  dsimp only
  cases cl.waiting <;> simp [mem]

theorem recordAfterReport_congr {refs' : List ChangeRef} {c : ClaimSlot} (same : .claim c ∈ refs' ↔ .claim c ∈ refs) :
    recordAfterReport s refs' c = recordAfterReport s refs c := by
  simp only [recordAfterReport, same]

end

/-- The references of the list `done` have been reported to host h: they have left its change set, and their records are as a report leaves
them; no session opens or ends. -/
structure Reported (s : State) (h : HostId) (done : List ChangeRef) (t : State) : Prop where
  routes : ∀ r, t.routeEntry r = entryAfterReport s done r
  claims : ∀ c, t.claimEntry c = recordAfterReport s done c
  noted : (t.session h).changes = ⟨(s.session h).changes.claims.filter fun c => .claim c ∉ done,
    (s.session h).changes.routes.filter fun r => .route r ∉ done⟩
  sessions : ∀ k, (t.session k).attached = (s.session k).attached ∧ (t.session k).epoch = (s.session k).epoch

/-- The reference names a record in use of the host. -/
def OwnReference (s : State) (h : HostId) : ChangeRef → Prop
  | .claim c => ∃ cl, s.claim? c = some cl ∧ cl.owner = h
  | .route r => ∃ rt, s.route? r = some rt ∧ rt.owner = h

namespace Reported

variable {s t : State} {h : HostId} {done : List ChangeRef}

theorem nil (s : State) (h : HostId) : Reported s h [] s := by
  refine ⟨fun r => (entryAfterReport_other List.not_mem_nil).symm, fun c => (recordAfterReport_other List.not_mem_nil).symm, ?_,
    fun k => ⟨rfl, rfl⟩⟩
  simp

theorem claim (k : Reported s h done t) {c : ClaimSlot} (new : .claim c ∉ done) (own : OwnReference s h (.claim c)) :
    Reported s h (done ++ [.claim c]) (reportRef h (.claim c) t) := by
  obtain ⟨cl, before, owner⟩ := own
  have entry : t.claimEntry c = s.claimEntry c := (k.claims c).trans (recordAfterReport_other new)
  have claim : t.claim? c = some cl := (congrArg ClaimEntry.claim entry).trans before
  have mem : ChangeRef.claim c ∈ done ++ [.claim c] := List.mem_append_right _ List.mem_cons_self
  have routes (r : RouteSlot) : entryAfterReport s (done ++ [.claim c]) r = entryAfterReport s done r := entryAfterReport_congr (by simp)
  have others {d : ClaimSlot} (other : c ≠ d) : recordAfterReport s (done ++ [.claim c]) d = recordAfterReport s done d :=
    recordAfterReport_congr (by simp [Ne.symm other])
  have left : (t.session h).changes.claims.filter (· ≠ c) = (s.session h).changes.claims.filter fun d => .claim d ∉ done ++ [.claim c] := by
    rw [k.noted, List.filter_filter]
    exact List.filter_congr fun d _ => by simp [and_comm]
  have stay : (t.session h).changes.routes = (s.session h).changes.routes.filter fun r => .route r ∉ done ++ [.claim c] := by
    rw [k.noted]
    exact List.filter_congr fun r _ => by simp
  rw [reportRef, claim]
  dsimp only
  cases waiting : cl.waiting with
  | true =>
    rw [if_pos rfl]
    refine ⟨fun r => (k.routes r).trans (routes r).symm, fun d => ?_, ?_, fun m => ?_⟩
    · show t.claimEntry d = _
      by_cases here : c = d
      · subst here
        rw [entry, recordAfterReport_mem mem before, waiting, if_pos rfl]
      · rw [others here, k.claims]
    · rw [unnoteClaim, State.updSession_session, if_pos rfl, ← left, ← stay]
    · rw [unnoteClaim, State.updSession_session]
      split <;> exact k.sessions m
  | false =>
    rw [if_neg Bool.false_ne_true]
    refine ⟨fun r => ?_, fun d => ?_, ?_, fun m => ?_⟩
    · rw [routes, ← k.routes, State.routeEntry, freeClaim_routes]
      rfl
    · rw [freeClaim_claimEntry claim]
      split
      · rename_i here
        subst here
        rw [entry, recordAfterReport_mem mem before, waiting, if_neg Bool.false_ne_true]
        rfl
      · rename_i other
        rw [others other, k.claims]
    · rw [freeClaim_session claim, if_pos owner, ← left, ← stay]
    · rw [freeClaim_session claim]
      split <;> exact k.sessions m

theorem route (k : Reported s h done t) {r : RouteSlot} (new : .route r ∉ done) (own : OwnReference s h (.route r)) :
    Reported s h (done ++ [.route r]) (reportRef h (.route r) t) := by
  obtain ⟨rt, before, owner⟩ := own
  have entry : t.routeEntry r = s.routeEntry r := (k.routes r).trans (entryAfterReport_other new)
  have route : t.route? r = some rt := (congrArg RouteEntry.route entry).trans before
  have mem : ChangeRef.route r ∈ done ++ [.route r] := List.mem_append_right _ List.mem_cons_self
  have claims (c : ClaimSlot) : recordAfterReport s (done ++ [.route r]) c = recordAfterReport s done c := recordAfterReport_congr (by simp)
  have others {q : RouteSlot} (other : r ≠ q) : entryAfterReport s (done ++ [.route r]) q = entryAfterReport s done q :=
    entryAfterReport_congr (by simp [Ne.symm other])
  have left : (t.session h).changes.routes.filter (· ≠ r) = (s.session h).changes.routes.filter fun q => .route q ∉ done ++ [.route r] := by
    rw [k.noted, List.filter_filter]
    exact List.filter_congr fun q _ => by simp [and_comm]
  have stay : (t.session h).changes.claims = (s.session h).changes.claims.filter fun c => .claim c ∉ done ++ [.route r] := by
    rw [k.noted]
    exact List.filter_congr fun c _ => by simp
  rw [reportRef, route]
  dsimp only
  cases live : rt.live with
  | true =>
    rw [if_pos rfl]
    refine ⟨fun q => ?_, fun c => (k.claims c).trans (claims c).symm, ?_, fun m => ?_⟩
    · rw [updRoute_routeEntry]
      split
      · rename_i here
        subst here
        rw [entryAfterReport_mem mem before, live, if_pos rfl, ← entry]
        show RouteEntry.onRoute _ (t.routeEntry r) = _
        rw [RouteEntry.onRoute, show (t.routeEntry r).route = some rt from route]
        rfl
      · rename_i other
        rw [others other, ← k.routes]
        rfl
    · show ((unnoteRoute h r t).session h).changes = _
      rw [unnoteRoute, State.updSession_session, if_pos rfl, ← left, ← stay]
    · show ((unnoteRoute h r t).session m).attached = _ ∧ ((unnoteRoute h r t).session m).epoch = _
      rw [unnoteRoute, State.updSession_session]
      split <;> exact k.sessions m
  | false =>
    rw [if_neg Bool.false_ne_true]
    refine ⟨fun q => ?_, fun c => ?_, ?_, fun m => ?_⟩
    · rw [freeRoute_routeEntry route]
      split
      · rename_i here
        subst here
        rw [entry, entryAfterReport_mem mem before, live, if_neg Bool.false_ne_true]
      · rename_i other
        rw [others other, k.routes]
    · rw [claims, ← k.claims, State.claimEntry, freeRoute_claims]
      rfl
    · rw [freeRoute_session route, if_pos owner, ← left, ← stay]
    · rw [freeRoute_session route]
      split <;> exact k.sessions m

/-- Reporting the references of a list one after the other. -/
theorem foldl (refs : List ChangeRef) (once : refs.Nodup) (own : ∀ ref ∈ refs, OwnReference s h ref) :
    Reported s h refs (refs.foldl (fun t ref => reportRef h ref t) s) := by
  induction refs using List.reverseRecOn with
  | nil => exact nil s h
  | append_singleton done ref ih =>
    rw [List.foldl_append]
    have before := ih once.of_append_left fun x mem => own x (List.mem_append_left _ mem)
    have new : ref ∉ done := fun mem => List.disjoint_of_nodup_append once mem List.mem_cons_self
    have mine := own ref (List.mem_append_right _ List.mem_cons_self)
    cases ref with
    | claim c => exact before.claim new mine
    | route r => exact before.route new mine

end Reported

/-! ### The report -/

/-- The digit of the remaining count in the entry at place i (R146). -/
def digitAt (n i : Nat) : Nat := if i = 0 then n % 8 else if i = 1 then n / 8 else 0

theorem addDigit_zero (e : List Byte) : addDigit 0 e = e := by
  cases e with
  | nil => rfl
  | cons b bs => simp [addDigit, place]

theorem addDigit_length (d : Nat) (e : List Byte) : (addDigit d e).length = e.length := by
  cases e <;> rfl

theorem withDigits_getElem? (n i : Nat) (es : List (List Byte)) : (withDigits n es)[i]? = es[i]?.map (addDigit (digitAt n i)) := by
  match es, i with
  | [], _ => simp [withDigits]
  | [e], 0 => rfl
  | [e], i + 1 => simp [withDigits]
  | e :: e' :: es, 0 => rfl
  | e :: e' :: es, 1 => rfl
  | e :: e' :: es, i + 2 =>
    rw [show digitAt n (i + 2) = 0 by simp [digitAt], funext addDigit_zero]
    simp [withDigits]

/-- The results of a COLLECT that reports the references, n of them remaining. -/
def collectReport (s : State) (n : Nat) (refs : List ChangeRef) : List Byte := (withDigits n (refs.map (reportEntry s))).flatten

section

variable {s : State} {h : HostId} {n : Nat} {refs : List ChangeRef}

theorem reportEntry_length {ref : ChangeRef} (own : OwnReference s h ref) : (reportEntry s ref).length = 4 := by
  cases ref with
  | claim c =>
    obtain ⟨cl, claim, -⟩ := own
    rw [reportEntry, claim]
    rfl
  | route r =>
    obtain ⟨rt, route, -⟩ := own
    rw [reportEntry, route]
    rfl

theorem withDigits_words (own : ∀ ref ∈ refs, OwnReference s h ref) : ∀ e ∈ withDigits n (refs.map (reportEntry s)), e.length = 4 := by
  intro e mem
  obtain ⟨i, here⟩ := List.mem_iff_getElem?.mp mem
  rw [withDigits_getElem?, List.getElem?_map] at here
  obtain ⟨x, hx, rfl⟩ := Option.map_eq_some_iff.mp here
  obtain ⟨ref, listed, rfl⟩ := Option.map_eq_some_iff.mp hx
  rw [addDigit_length]
  exact reportEntry_length (own ref (List.mem_of_getElem? listed))

theorem withDigits_length (n : Nat) (es : List (List Byte)) : (withDigits n es).length = es.length := by
  match es with
  | [] => rfl
  | [e] => rfl
  | e :: e' :: es => rfl

theorem collectReport_length (own : ∀ ref ∈ refs, OwnReference s h ref) : (collectReport s n refs).length = 4 * refs.length := by
  have words := flatMap_length_words (f := id) (withDigits_words (n := n) own)
  rwa [List.flatMap_id, withDigits_length, List.length_map] at words

/-- The entry at place i of the report, with its digit. -/
theorem collectReport_getD (own : ∀ ref ∈ refs, OwnReference s h ref) {i j : Nat} {ref : ChangeRef} (here : refs[i]? = some ref)
    (small : j < 4) : (collectReport s n refs).getD (4 * i + j) 0#8 = (addDigit (digitAt n i) (reportEntry s ref)).getD j 0#8 := by
  have listed : (withDigits n (refs.map (reportEntry s)))[i]? = some (addDigit (digitAt n i) (reportEntry s ref)) := by
    rw [withDigits_getElem?, List.getElem?_map, here]
    rfl
  have entry := flatMap_getD_words (f := id) (withDigits_words (n := n) own) listed small 0#8
  rwa [List.flatMap_id] at entry

theorem digitAt_lt (small : n < 64) (i : Nat) : digitAt n i < 8 := by
  unfold digitAt
  split
  · omega
  · split <;> omega

theorem claimEntryByte_fields (code : Nat) (small : code < 3) (p : Priority) (d : Fin 8) :
    let x := place code 5 ||| place p.val 3 ||| place d.val 0
    (x.extractLsb' 5 3).toNat = code ∧ (x.extractLsb' 3 2).toNat = p.val ∧ (x.extractLsb' 0 3).toNat = d.val := by
  revert p d
  interval_cases code <;> decide

theorem routeEntryByte_fields (code : Nat) (small : code < 8) (since clamped : Bool) (d : Fin 8) :
    let x := place code 5 ||| flagAt since 4 ||| flagAt clamped 3 ||| place d.val 0
    (x.extractLsb' 5 3).toNat = code ∧ x.getLsbD 4 = since ∧ x.getLsbD 3 = clamped ∧ (x.extractLsb' 0 3).toNat = d.val := by
  revert since clamped d
  interval_cases code <;> decide

theorem claimSlot_byte (c : ClaimSlot) : (place c.val 0).toNat = c.val := by
  revert c
  decide

theorem routeSlot_byte (r : RouteSlot) : (place r.val 0).toNat = r.val := by
  revert r
  decide

theorem claimDetail_toNat (cl : Claim) : (claimDetail cl).toNat =
    match cl.state with
    | .waiting => 0
    | .granted r => r.val
    | .dropped why => why.code := by
  rw [claimDetail]
  cases cl.state with
  | waiting => rfl
  | granted r => exact routeSlot_byte r
  | dropped why => cases why <;> rfl

theorem routeDetail_eq (rt : Route) : routeDetail rt =
    match rt.state with
    | .connecting _ => 0#8
    | .active => if rt.isDriver then rt.forced else 0#8
    | .closed why => BitVec.ofNat 8 why.code := by
  rw [routeDetail]
  cases rt.state with
  | connecting d => cases rt.kind <;> rfl
  | active =>
    rw [Route.isDriver]
    cases rt.kind <;> rfl
  | closed why => exact place_zero _

theorem routeEntryCode_eq (rt : Route) : routeEntryCode rt =
    if rt.isDriver = true then 3 + rt.state.code else if rt.live = true then 6 else 7 := by
  rw [routeEntryCode, Route.isDriver, Route.live]
  cases rt.kind <;> cases rt.state <;> rfl

theorem routeEntryCode_lt (rt : Route) : routeEntryCode rt < 8 := by
  unfold routeEntryCode
  split <;> omega

/-- What the report tells of a claim. -/
theorem collectReport_claim (own : ∀ ref ∈ refs, OwnReference s h ref) (few : n < 64) {i : Nat} {c : ClaimSlot} {cl : Claim}
    (here : refs[i]? = some (.claim c)) (claim : s.claim? c = some cl) :
    (((collectReport s n refs).getD (4 * i) 0#8).extractLsb' 5 3).toNat = cl.state.code ∧
      (((collectReport s n refs).getD (4 * i) 0#8).extractLsb' 3 2).toNat = cl.priority.val ∧
      (((collectReport s n refs).getD (4 * i) 0#8).extractLsb' 0 3).toNat = digitAt n i ∧
      ((collectReport s n refs).getD (4 * i + 1) 0#8).toNat = c.val ∧
      (collectReport s n refs).getD (4 * i + 2) 0#8 = (s.claimEntry c).generation ∧
      (collectReport s n refs).getD (4 * i + 3) 0#8 = claimDetail cl := by
  have bytes (j : Nat) (small : j < 4) := collectReport_getD (n := n) own here small
  simp only [reportEntry, claim] at bytes
  have first := bytes 0 (by decide)
  have code : claimEntryCode cl = cl.state.code := by
    rw [claimEntryCode]
    cases cl.state <;> rfl
  have small : cl.state.code < 3 := by cases cl.state <;> simp [ClaimState.code]
  obtain ⟨kind, priority, digit⟩ := claimEntryByte_fields _ small cl.priority ⟨digitAt n i, digitAt_lt few i⟩
  rw [Nat.add_zero, code] at first
  refine ⟨?_, ?_, ?_, by rw [bytes 1 (by decide)]; exact claimSlot_byte c, bytes 2 (by decide), bytes 3 (by decide)⟩ <;> rw [first]
  · exact kind
  · exact priority
  · exact digit

/-- What the report tells of a route. -/
theorem collectReport_route (own : ∀ ref ∈ refs, OwnReference s h ref) (few : n < 64) {i : Nat} {r : RouteSlot} {rt : Route}
    (here : refs[i]? = some (.route r)) (route : s.route? r = some rt) :
    (((collectReport s n refs).getD (4 * i) 0#8).extractLsb' 5 3).toNat = routeEntryCode rt ∧
      ((collectReport s n refs).getD (4 * i) 0#8).getLsbD 4 = rt.forcedSince ∧
      ((collectReport s n refs).getD (4 * i) 0#8).getLsbD 3 = rt.leaseClamped ∧
      (((collectReport s n refs).getD (4 * i) 0#8).extractLsb' 0 3).toNat = digitAt n i ∧
      ((collectReport s n refs).getD (4 * i + 1) 0#8).toNat = r.val ∧
      (collectReport s n refs).getD (4 * i + 2) 0#8 = (s.routeEntry r).generation ∧
      (collectReport s n refs).getD (4 * i + 3) 0#8 = routeDetail rt := by
  have bytes (j : Nat) (small : j < 4) := collectReport_getD (n := n) own here small
  simp only [reportEntry, route] at bytes
  have first := bytes 0 (by decide)
  obtain ⟨kind, since, clamped, digit⟩ := routeEntryByte_fields _ (routeEntryCode_lt rt) rt.forcedSince rt.leaseClamped
    ⟨digitAt n i, digitAt_lt few i⟩
  rw [Nat.add_zero] at first
  refine ⟨?_, ?_, ?_, ?_, by rw [bytes 1 (by decide)]; exact routeSlot_byte r, bytes 2 (by decide), bytes 3 (by decide)⟩ <;> rw [first]
  · exact kind
  · exact since
  · exact clamped
  · exact digit

/-- Every entry carries its digit of the remaining count. -/
theorem collectReport_digit (own : ∀ ref ∈ refs, OwnReference s h ref) (few : n < 64) {i : Nat} (inside : i < refs.length) :
    (((collectReport s n refs).getD (4 * i) 0#8).extractLsb' 0 3).toNat = digitAt n i := by
  have here : refs[i]? = some refs[i] := List.getElem?_eq_getElem inside
  have mine := own _ (List.getElem_mem inside)
  generalize refs[i] = ref at here mine
  cases ref with
  | claim c =>
    obtain ⟨cl, claim, -⟩ := mine
    obtain ⟨-, -, digit, -⟩ := collectReport_claim own few here claim
    exact digit
  | route r =>
    obtain ⟨rt, route, -⟩ := mine
    obtain ⟨-, -, -, digit, -⟩ := collectReport_route own few here route
    exact digit

end

/-! ### What remains in the change set -/

/-- A host whose counts are exact has at most 40 references in its change set (R40, R41). -/
theorem CountsExact.few_references {t : State} {h : HostId} (counts : CountsExact t h) (once : NotedOnce t h)
    (claims : ∀ c ∈ (t.session h).changes.claims, OwnReference t h (.claim c))
    (routes : ∀ r ∈ (t.session h).changes.routes, OwnReference t h (.route r)) : (t.session h).changes.size ≤ 40 := by
  have claims_le : (t.session h).changes.claims.length ≤ (claimsOf t h).length :=
    (List.subperm_of_subset (once.1.imp ne_of_lt) fun c mem =>
      List.mem_filter.mpr ⟨mem_every c, (ownsClaim_iff h).mpr (claims c mem)⟩).length_le
  have routes_le : (t.session h).changes.routes.length ≤ (routesOf t h).length :=
    (List.subperm_of_subset (once.2.imp ne_of_lt) fun r mem =>
      List.mem_filter.mpr ⟨mem_every r, (ownsRoute_iff h).mpr (routes r mem)⟩).length_le
  have limits : Config.hostRouteLimit = 32 ∧ Config.hostClaimLimit = 8 := ⟨rfl, rfl⟩
  obtain ⟨inUse, records, -, routeLimit, claimLimit⟩ := counts
  rw [ChangeSet.size]
  omega

theorem ChangeSetsExact.own_references {s : State} (exact_ : ChangeSetsExact s) (h : HostId) :
    ∀ ref ∈ reportedRefs (s.session h).changes, OwnReference s h ref := by
  intro ref mem
  rcases List.mem_append.mp (List.mem_of_mem_take mem) with claim | route
  · obtain ⟨c, hc, rfl⟩ := List.mem_map.mp claim
    exact exact_.claimsOwn h c hc
  · obtain ⟨r, hr, rfl⟩ := List.mem_map.mp route
    exact exact_.routesOwn h r hr

theorem ChangeSetsExact.references_once {s : State} (exact_ : ChangeSetsExact s) (h : HostId) :
    (reportedRefs (s.session h).changes).Nodup := by
  refine List.Nodup.sublist (List.take_sublist _ _) (List.nodup_append'.mpr ⟨?_, ?_, ?_⟩)
  · exact List.Nodup.map (fun _ _ same => ChangeRef.claim.inj same) ((exact_.claimsOnce h).imp ne_of_lt)
  · exact List.Nodup.map (fun _ _ same => ChangeRef.route.inj same) ((exact_.routesOnce h).imp ne_of_lt)
  · intro ref claim route
    obtain ⟨c, -, rfl⟩ := List.mem_map.mp claim
    obtain ⟨r, -, other⟩ := List.mem_map.mp route
    cases other

namespace Reported

variable {s u v : State} {h : HostId} {refs : List ChangeRef}

theorem mem_claims (k : Reported s h refs u) {c : ClaimSlot} :
    c ∈ (u.session h).changes.claims ↔ c ∈ (s.session h).changes.claims ∧ .claim c ∉ refs := by
  simp [k.noted]

theorem mem_routes (k : Reported s h refs u) {r : RouteSlot} :
    r ∈ (u.session h).changes.routes ↔ r ∈ (s.session h).changes.routes ∧ .route r ∉ refs := by
  simp [k.noted]

theorem notedOnce (k : Reported s h refs u) (exact_ : ChangeSetsExact s) : NotedOnce u h := by
  rw [NotedOnce, k.noted]
  exact ⟨(exact_.claimsOnce h).filter _, (exact_.routesOnce h).filter _⟩

/-- After the grants that follow a report, the change set still names records of its host alone. -/
theorem own_after (k : Reported s h refs u) (exact_ : ChangeSetsExact s) (later : NotesArise h u v) :
    (∀ c ∈ (v.session h).changes.claims, OwnReference v h (.claim c)) ∧ ∀ r ∈ (v.session h).changes.routes, OwnReference v h (.route r) := by
  refine ⟨fun c mem => ?_, fun r mem => ?_⟩
  · rcases later.notedClaims c mem with old | ⟨cl, claim, owner, -⟩
    · obtain ⟨noted, unreported⟩ := k.mem_claims.mp old
      obtain ⟨cl, claim, owner⟩ := exact_.claimsOwn h c noted
      have entry := (k.claims c).trans (recordAfterReport_other unreported)
      obtain ⟨x, hx, same, -⟩ := later.claims c cl ((congrArg ClaimEntry.claim entry).trans claim)
      exact ⟨x, hx, same.trans owner⟩
    · exact ⟨cl, claim, owner⟩
  · rcases later.notedRoutes r mem with old | ⟨rt, route, owner, -⟩
    · obtain ⟨noted, unreported⟩ := k.mem_routes.mp old
      obtain ⟨rt, route, owner⟩ := exact_.routesOwn h r noted
      have entry := (k.routes r).trans (entryAfterReport_other unreported)
      obtain ⟨x, hx, same, -⟩ := later.routes r rt ((congrArg RouteEntry.route entry).trans route)
      exact ⟨x, hx, same.trans owner⟩
    · exact ⟨rt, route, owner⟩

/-- A reported route stands in the set again only with another record: the report has left it live or free. -/
theorem route_noted_again (k : Reported s h refs u) (own : ∀ ref ∈ refs, OwnReference s h ref) (later : NotesArise h u v) {r : RouteSlot}
    (mem : .route r ∈ refs) (noted : r ∈ (v.session h).changes.routes) : v.routeEntry r ≠ entryAfterReport s refs r := by
  rcases later.notedRoutes r noted with old | ⟨rt, route, -, why⟩
  · exact absurd mem (k.mem_routes.mp old).2
  · intro same
    rw [← k.routes] at same
    have before : u.route? r = some rt := (congrArg RouteEntry.route same).symm.trans route
    rcases why with closed | free
    · obtain ⟨x, hx, -⟩ := own _ mem
      rw [State.route?, k.routes, entryAfterReport_mem mem hx] at before
      split at before
      · rename_i live
        cases before
        cases live.symm.trans closed
      · cases before
    · cases free.symm.trans before

theorem claim_noted_again (k : Reported s h refs u) (own : ∀ ref ∈ refs, OwnReference s h ref) (later : NotesArise h u v) {c : ClaimSlot}
    (mem : .claim c ∈ refs) (noted : c ∈ (v.session h).changes.claims) : v.claimEntry c ≠ recordAfterReport s refs c := by
  rcases later.notedClaims c noted with old | ⟨cl, claim, -, settled⟩
  · exact absurd mem (k.mem_claims.mp old).2
  · intro same
    obtain ⟨x, hx, -⟩ := own _ mem
    rw [State.claim?, same, recordAfterReport_mem mem hx] at claim
    split at claim
    · rename_i waiting
      cases hx.symm.trans claim
      cases waiting.symm.trans settled
    · cases claim

end Reported

/-- Settles O22: the records and the change set after the reported references are those of the statement, and the grants that follow place a
reference only where they close, settle or create a record. -/
theorem collectReportsAndClears : Obligations.CollectReportsAndClears := by
  intro h f s offers admitted exact_ counts
  have own := exact_.own_references h
  have once := exact_.references_once h
  obtain ⟨refs, listed⟩ : ∃ refs, refs = reportedRefs (s.session h).changes := ⟨_, rfl⟩
  obtain ⟨u, folded⟩ : ∃ u, u = refs.foldl (fun t ref => reportRef h ref t) (popFrame h s) := ⟨_, rfl⟩
  obtain ⟨v, checked⟩ : ∃ v, v = arbitrate none [] u := ⟨_, rfl⟩
  obtain ⟨n, size⟩ : ∃ n, n = (v.session h).changes.size := ⟨_, rfl⟩
  rw [← listed] at own once
  have act : ReqCode.collect.act h (frameParams f) (popFrame h s) = (v, ⟨.ok, collectReport s n refs⟩) := by
    rw [size, checked, folded, listed]
    rfl
  have reported : Reported s h refs u := by
    obtain ⟨routes, claims, noted, sessions⟩ := Reported.foldl (s := popFrame h s) (h := h) refs once fun ref mem => by
      have mine := own ref mem
      cases ref <;> exact mine
    exact folded ▸ ⟨routes, claims, noted, sessions⟩
  have rest : KeepsRest (popFrame h s) u := folded ▸ foldl_keepsRest _ (fun t ref => reportRef_keepsRest h t ref) _
  have after : AfterChecks u v := checked ▸ arbitrate_afterChecks ..
  have later : NotesArise h u v := checked ▸ NotesArise.arbitrated ..
  have step := offers.exec admitted act
  have few : n < 64 := by
    obtain ⟨claims, routes⟩ := reported.own_after exact_ later
    have countsAfter : CountsExact (settle s (queueReply h f ⟨.ok, collectReport s n refs⟩ v)) h := (countsExact_moves h).exec counts step
    have countsAfter : CountsExact v h := countsAfter.of_same (by rw [taken_session]; exact ⟨rfl, rfl, rfl⟩)
      (by rw [routesOf_congr fun r => by rw [taken_route?]]) (by rw [claimsOf_congr fun c => by rw [taken_claim?]])
      (by rw [waitingOf_congr fun c => by rw [taken_claim?]])
    have most := countsAfter.few_references (later.once (reported.notedOnce exact_)) claims routes
    omega
  refine ⟨_, _, step, answeredWithin_of f (rest.trans after.rest) _, taken_keepsSettings (rest.trans after.rest) _, rfl, ?report, ?idle,
    ?sessions, ?empty⟩
  case report =>
    intro refs' same
    obtain rfl : refs' = refs := same.trans listed.symm
    refine ⟨collectReport_length own, fun i c cl here claim => ?_, fun i r rt here route => ?_, fun m count => ?_, fun r => ?_,
      fun c => ?_, fun r mem noted => ?_, fun c mem noted => ?_, fun r noted unreported => ?_, fun c noted unreported => ?_⟩
    · obtain ⟨code, priority, -, slot, generation, detail⟩ := collectReport_claim own few here claim
      exact ⟨code, priority, slot, generation, by rw [detail]; exact claimDetail_toNat cl⟩
    · obtain ⟨code, since, clamped, -, slot, generation, detail⟩ := collectReport_route own few here route
      exact ⟨code.trans (routeEntryCode_eq rt), since, clamped, slot, generation, detail.trans (routeDetail_eq rt)⟩
    · rw [taken_session] at count
      obtain rfl : m = n := count.trans size.symm
      refine ⟨fun one => collectReport_digit own few (i := 0) (by omega), fun two => ?_⟩
      rw [collectReport_digit own few (i := 0) (by omega), collectReport_digit own few (i := 1) (by omega)]
      exact Nat.mod_add_div m 8
    · rw [taken_routeEntry, ← reported.routes]
      exact after.routes r
    · rw [taken_claimEntry, ← reported.claims]
      exact after.claims c
    · rw [taken_session] at noted
      rw [taken_routeEntry]
      exact reported.route_noted_again own later mem noted
    · rw [taken_session] at noted
      rw [taken_claimEntry]
      exact reported.claim_noted_again own later mem noted
    · rw [taken_session]
      exact after.sessions.notedRoutes h (reported.mem_routes.mpr ⟨noted, unreported⟩)
    · rw [taken_session]
      exact after.sessions.notedClaims h (reported.mem_claims.mpr ⟨noted, unreported⟩)
  case idle =>
    have idle : NoIdleEntry v := checked ▸ arbitrate_noIdleEntry ..
    exact idle.of_same (by simp) (by simp) (by simp)
  case sessions =>
    intro k
    rw [taken_session]
    obtain ⟨attached, epoch⟩ := reported.sessions k
    exact ⟨(after.sessions.attached k).trans attached, (after.sessions.epoch k).trans epoch⟩
  case empty =>
    intro none_
    have nothing : refs = [] := by rw [listed, none_]; rfl
    subst nothing
    refine ⟨rfl, fun idle heads => ?_⟩
    have same : v = popFrame h s := by
      rw [checked, folded]
      exact arbitrate_idle idle heads
    rw [same]
    constructor <;> simp

end Sys2Proof.Machine


/-! The acceptance order holds every WAITING claim once and nothing else (O56). -/

namespace Sys2Proof.Machine

/-! ### The acceptance order beside the WAITING claims -/

section

variable {s t : State} {c : ClaimSlot} {cl : Claim}

theorem waits_isSome : (waits s c).isSome = true ↔ ∃ cl, s.claim? c = some cl ∧ cl.waiting = true := by
  rw [Option.isSome_iff_exists]
  exact exists_congr fun _ => waits_some

theorem waits_none (settled : ∀ cl, s.claim? c = some cl → cl.waiting = false) : waits s c = none :=
  Option.filter_eq_none_iff.mpr fun cl claim => by simp [settled cl claim]

namespace AcceptanceExact

theorem mem_iff (exact_ : AcceptanceExact s) (c : ClaimSlot) : c ∈ s.accepted ↔ (waits s c).isSome = true :=
  (exact_.waiting c).trans waits_isSome.symm

theorem of_mem_iff (once : t.accepted.Nodup) (mem : ∀ d, d ∈ t.accepted ↔ (waits t d).isSome = true) : AcceptanceExact t :=
  ⟨once, fun d => (mem d).trans waits_isSome⟩

/-- The claims that stop waiting leave the order; the others stay where they stand. -/
theorem filter (exact_ : AcceptanceExact s) {p : ClaimSlot → Bool} (accepted : t.accepted = s.accepted.filter p)
    (waiting : ∀ d, (waits t d).isSome = (p d && (waits s d).isSome)) : AcceptanceExact t := by
  refine of_mem_iff (accepted ▸ exact_.once.filter p) fun d => ?_
  rw [accepted, List.mem_filter, exact_.mem_iff, waiting, Bool.and_eq_true, and_comm]

theorem removes (exact_ : AcceptanceExact s) {p : ClaimSlot → Bool} {q : RouteSlot → Bool} (k : Removes p q s t) : AcceptanceExact t :=
  exact_.filter k.accepted fun d => by
    rw [← Option.isSome_map (f := Claim.view), k.claims]
    cases p d <;> simp

/-- The order stays, and so does who waits. -/
theorem of_waits (exact_ : AcceptanceExact s) (accepted : t.accepted = s.accepted)
    (waiting : ∀ d, (waits t d).isSome = (waits s d).isSome) : AcceptanceExact t :=
  of_mem_iff (accepted ▸ exact_.once) fun d => by rw [accepted, waiting, exact_.mem_iff]

theorem of_claims (exact_ : AcceptanceExact s) (accepted : t.accepted = s.accepted) (claims : t.claims = s.claims) : AcceptanceExact t :=
  exact_.of_waits accepted fun d => by rw [waits_congr (claim?_congr claims d)]

/-- One claim changes, but neither starts nor stops waiting. -/
theorem tune (exact_ : AcceptanceExact s) {f : Claim → Claim} (accepted : t.accepted = s.accepted)
    (claims : ∀ d, t.claim? d = if c = d then (s.claim? d).map f else s.claim? d) (same : ∀ cl, (f cl).waiting = cl.waiting) :
    AcceptanceExact t := by
  refine exact_.of_waits accepted fun d => ?_
  rw [waits, waits, claims]
  split
  · rw [Option.filter_map, Option.isSome_map, show Claim.waiting ∘ f = Claim.waiting from funext same]
  · rfl

/-- One claim leaves the order and waits no more. -/
theorem leave (exact_ : AcceptanceExact s) {o : Option Claim} (accepted : t.accepted = s.accepted.filter (· ≠ c))
    (claims : ∀ d, t.claim? d = if c = d then o else s.claim? d) (settled : ∀ cl, o = some cl → cl.waiting = false) :
    AcceptanceExact t := by
  refine exact_.filter accepted fun d => ?_
  by_cases same : c = d
  · subst same
    rw [waits_none fun cl claim => settled cl (by rwa [claims, if_pos rfl] at claim)]
    simp
  · rw [waits_congr ((claims d).trans (if_neg same))]
    simp [Ne.symm same]

/-- One claim waits, and stands last in the order. -/
theorem enter (exact_ : AcceptanceExact s) (accepted : t.accepted = s.accepted.filter (· ≠ c) ++ [c])
    (claims : ∀ d, t.claim? d = if c = d then some cl else s.claim? d) (waiting : cl.waiting = true) : AcceptanceExact t := by
  refine of_mem_iff ?_ fun d => ?_
  · rw [accepted]
    exact List.nodup_append.mpr ⟨exact_.once.filter _, List.nodup_singleton c, fun d hd e he => by
      rw [List.mem_singleton.mp he]
      simpa using (List.mem_filter.mp hd).2⟩
  · rw [accepted, List.mem_append, List.mem_filter, List.mem_singleton]
    by_cases same : c = d
    · subst same
      simpa using waits_isSome.mpr ⟨cl, by rw [claims, if_pos rfl], waiting⟩
    · rw [waits_congr ((claims d).trans (if_neg same)), ← exact_.mem_iff]
      simp [Ne.symm same]

end AcceptanceExact

end

/-! ### Single operations, and the Line Arbiter -/

namespace AcceptanceExact

variable {s : State} (exact_ : AcceptanceExact s)
include exact_

theorem closeRoute (why : CloseReason) (r : RouteSlot) : AcceptanceExact (closeRoute why r s) :=
  exact_.of_claims (closeRoute_accepted ..) (closeRoute_claims ..)

theorem dropClaim (why : DropReason) (c : ClaimSlot) : AcceptanceExact (dropClaim why c s) := by
  cases claim : s.claim? c with
  | none =>
    rw [Machine.dropClaim, claim]
    exact exact_
  | some cl => exact exact_.leave (by rw [dropClaim_accepted, claim]; rfl) (dropClaim_claim? why claim) fun x hx => by cases hx; rfl

theorem demote (c : ClaimSlot) (cl : Claim) : AcceptanceExact (demote c cl s) :=
  exact_.tune (c := c) (f := fun x => { x with priority := 2 }) (demote_accepted ..) (fun d => by
    rw [State.claim?, demote_entry]
    split <;> rfl) fun _ => rfl

theorem mark (c : ClaimSlot) (b : Bool) : AcceptanceExact (s.updClaim c fun cl => { cl with awaiting := b }) :=
  exact_.tune rfl (fun _ => State.updClaim_claim? ..) fun _ => rfl

theorem grant (own : Option ClaimSlot) {c : ClaimSlot} {cl : Claim} (r : RouteSlot) (claim : s.claim? c = some cl) :
    AcceptanceExact (grant own c r s).1 :=
  exact_.leave (o := some { cl with state := .granted r, waitLimit := none, awaiting := false }) (grant_accepted own claim) (fun d => by
    rw [State.claim?, grant_claimEntry own claim]
    split <;> rfl) fun x hx => by cases hx; rfl

omit exact_ in
theorem arbiterMoves (own : Option ClaimSlot) : ArbiterMoves own fun s t => AcceptanceExact s → AcceptanceExact t where
  refl _ := id
  trans a b := b ∘ a
  line s l exact_ := exact_.of_claims (setLineState_keeps s l).accepted (setLineState_keeps s l).claims
  mark _ c b exact_ := exact_.mark c b
  preempt _ r exact_ := exact_.closeRoute .preempted r
  grant _ _ r _ claim _ _ exact_ := exact_.grant own r claim

theorem arbitrate (own : Option ClaimSlot) (ls : List LineNo) : AcceptanceExact (arbitrate own ls s) :=
  (arbiterMoves own).arbitrate ls s exact_

theorem foldl {α : Type} {f : State → α → State} (each : ∀ t x, AcceptanceExact t → AcceptanceExact (f t x)) (xs : List α) :
    AcceptanceExact (xs.foldl f s) :=
  List.foldlRecOn xs f exact_ fun t k x _ => each t x k

/-- A SET_POLICY drops claims and demotes others before its grant checks. -/
theorem policySet (first last : LineNo) (p : Policy) : AcceptanceExact (policySet first last s p) := by
  have written : AcceptanceExact (writePolicies first last p s) := exact_.of_claims (by unfold writePolicies; rfl) (writePolicies_claims ..)
  have closed : AcceptanceExact (withClosures first last (writePolicies first last p s)) :=
    written.foldl (fun t x k => k.closeRoute .policy x.1) _
  have dropped : AcceptanceExact (withDrops first last (writePolicies first last p s)) :=
    closed.foldl (fun t x k => k.dropClaim .policy x.1) _
  have demoted : AcceptanceExact (withDemotions first last (writePolicies first last p s)) :=
    dropped.foldl (fun t x k => k.demote x.1 x.2) _
  have clamped : AcceptanceExact (enforced first last (writePolicies first last p s)) :=
    demoted.foldl (fun t x k => k.removes (clampRoute_unchanged t x.1)) _
  exact clamped.removes (passHeldChanges_unchanged _ s)

theorem acceptClaim {h : HostId} (p : ClaimParams) {c : ClaimSlot} (free : s.claim? c = none) : AcceptanceExact (acceptClaim h p c s) := by
  have unaccepted : c ∉ s.accepted := fun mem => by
    obtain ⟨cl, claim, -⟩ := (exact_.waiting c).mp mem
    cases free.symm.trans claim
  refine exact_.enter ?_ (acceptClaim_claim? s h c · p) rfl
  rw [acceptClaim_accepted, List.filter_eq_self.mpr fun d mem => by simpa using ne_of_mem_of_not_mem mem unaccepted]

theorem amended {c : ClaimSlot} {cl : Claim} (p : Priority) (limit : Nat) (claim : s.claim? c = some cl) (waits : cl.waiting = true) :
    AcceptanceExact (amended c cl p limit s) := by
  by_cases same : cl.priority = p
  · refine exact_.tune (c := c) (f := fun x => { x with priority := p, waitLimit := timerOfMillis limit })
      (by rw [amended_accepted, if_pos same]) (fun d => ?_) fun _ => rfl
    rw [amended_claim? claim]
    split
    · rename_i own
      rw [← own, claim]
      rfl
    · rfl
  · exact exact_.enter (by rw [amended_accepted, if_neg same]) (amended_claim? claim p limit) waits

/-- The answer to a CLAIM or AMEND frees a granted claim's record, which no longer waits. -/
theorem answerClaim (c : ClaimSlot) : AcceptanceExact (answerClaim c s).1 := by
  cases claim : s.claim? c with
  | none =>
    rw [Machine.answerClaim, claim]
    exact exact_
  | some cl =>
    cases e : cl.state with
    | granted r =>
      rw [answerClaim_granted claim e]
      exact exact_.removes (freeClaim_unchanged claim (by simp [Claim.waiting, e]))
    | waiting | dropped =>
      simp only [Machine.answerClaim, claim, e]
      exact exact_

end AcceptanceExact

/-! ### Every step -/

theorem acceptanceExact_events : EventMoves fun s t => AcceptanceExact s → AcceptanceExact t where
  refl _ := id
  congr k before after exact_ := (k (exact_.removes before.symm.unchanged)).removes after.unchanged
  later d s _ k exact_ := k (exact_.removes (advance_unchanged d s))
  endSession {h s} _ exact_ := (exact_.removes (clearHost_removes h s)).arbitrate none _
  collect {h} _ {s} _ exact_ :=
    (exact_.foldl (fun t ref k => k.removes (reportRef_unchanged t h ref)) (reportedRefs (s.session h).changes)).arbitrate none []
  listen _ members _ _ free exact_ := exact_.removes (createListener_unchanged _ _ free members)
  release {r _ s} _ exact_ := (exact_.of_claims (freeRoute_accepted s r) (freeRoute_claims s r)).arbitrate none _
  close why r _ _ _ _ exact_ := (exact_.closeRoute why r).arbitrate none _
  renew r g s exact_ := exact_.of_claims rfl rfl
  cancel {c cl s} claim _ exact_ := by
    have cancelled : AcceptanceExact (freeClaim c (withdrawClaim c cl s)) :=
      exact_.leave (cancelled_accepted s c cl) (cancelled_claim? claim) nofun
    exact cancelled.arbitrate none _
  policy first last p s exact_ := by
    rw [applyPolicy_eq]
    exact (exact_.policySet first last p).arbitrate none _
  held before s exact_ := exact_.removes (passHeldChanges_unchanged s before)
  activate {r rt d s} _ _ exact_ := exact_.of_claims (activate_accepted s r) (activate_claims s r)
  expireWait {c cl s} _ _ exact_ := (exact_.dropClaim .timedOut c).arbitrate none _

theorem attachAct_acceptanceExact (h : HostId) (ps : List Byte) {s : State} (exact_ : AcceptanceExact s) :
    AcceptanceExact (attachAct h ps s).1 := by
  have opened {t : State} (k : AcceptanceExact t) : AcceptanceExact (openSession h t) := k.of_claims rfl rfl
  unfold attachAct
  split
  · rename_i attached
    exact opened (acceptanceExact_events.endSession attached exact_)
  · exact opened exact_

theorem claimAct_acceptanceExact (h : HostId) (ps : List Byte) {s : State} (exact_ : AcceptanceExact s) :
    AcceptanceExact (claimAct h ps s).1 := by
  rcases claimAct_cases h ps s with ⟨st, -, refused⟩ | ⟨p, c, -, free, answered⟩
  · rw [refused]
    exact exact_
  · rw [answered]
    exact ((exact_.acceptClaim p (firstFreeClaim_free free)).arbitrate (some c) _).answerClaim c

theorem amendAct_acceptanceExact (h : HostId) (ps : List Byte) {s : State} (exact_ : AcceptanceExact s) :
    AcceptanceExact (amendAct h ps s).1 := by
  rcases amendAct_cases h ps s with ⟨st, -, refused⟩ | ⟨c, _, p, limit, cl, -, claim, waits, answered⟩
  · rw [refused]
    exact exact_
  · rw [answered, amendClaim_eq]
    exact ((exact_.amended p limit claim waits).arbitrate (some c) _).answerClaim c

theorem ownAct_acceptanceExact {code : ReqCode} (h : HostId) (ps : List Byte) {s : State} (isOwn : code.isOwn = true)
    (exact_ : AcceptanceExact s) : AcceptanceExact (code.act h ps s).1 := by
  cases code with
  | attach => exact attachAct_acceptanceExact h ps exact_
  | claim => exact claimAct_acceptanceExact h ps exact_
  | amend => exact amendAct_acceptanceExact h ps exact_
  | _ => cases isOwn

/-- Settles O56. A claim enters the order as it comes to wait, at a CLAIM, and leaves it as it is granted, dropped, cancelled or cleared
away; an AMEND to another priority moves it to the end. -/
theorem acceptanceExactKept : Obligations.AcceptanceExactKept := fun _ _ exact_ stepped =>
  acceptanceExact_events.step (fun _ _ => reset_acceptanceExact)
    (fun _ h f _ isOwn _ exact_ => ownAct_acceptanceExact h (frameParams f) isOwn exact_) stepped exact_

end Sys2Proof.Machine


/-! WAIT_LIMIT_EXPIRY (O46). -/

namespace Sys2Proof.Machine

/-! ### The wait limit of a claim -/

theorem waitEnd_expired {s : State} {c : ClaimSlot} {cl : Claim} (claim : s.claim? c = some cl) (waits : cl.waiting = true)
    (ended : cl.waitLimit = some 0) : waitEnd c s = expireWait c cl s := by
  simp [waitEnd, runningWait, claim, waits, ended, advance_zero]

theorem waitEnd_idle {s : State} {c : ClaimSlot} (idle : ∀ cl, s.claim? c = some cl → cl.waiting = true → cl.waitLimit = none) :
    waitEnd c s = s := by
  have none_ : runningWait s c = none := by
    unfold runningWait
    split
    · rfl
    · rename_i cl claim
      split
      · rename_i waits
        rw [idle cl claim waits, Option.map_none]
      · rfl
  rw [waitEnd, none_]

/-! ### A claim that is dropped, with the grant checks of its lines -/

/-- The Line Arbiter's part of an event places no claim in a queue. -/
theorem queue_moves (own : Option ClaimSlot) (l : LineNo) : ArbiterMoves own fun s t => (t.line l).queue.Sublist (s.line l).queue where
  refl _ := List.Sublist.refl _
  trans a b := b.trans a
  line s k := by
    rw [setLineState_line]
    split <;> exact List.Sublist.refl _
  mark _ _ _ := List.Sublist.refl _
  preempt s r := by rw [closeRoute_queue]
  grant s c r cl claim _ _ := by
    rw [grant_line own claim]
    split
    · exact List.filter_sublist
    · exact List.Sublist.refl _

section

variable (s : State) (c : ClaimSlot) (cl : Claim)

theorem expireWait_eq : expireWait c cl s =
    arbitrate none (changedHeads s (dropClaim .timedOut c s) (linesOf cl.members)) (dropClaim .timedOut c s) := rfl

theorem expireWait_afterChecks : AfterChecks (dropClaim .timedOut c s) (expireWait c cl s) := by
  rw [expireWait_eq]
  exact arbitrate_afterChecks ..

theorem expireWait_otherClaim {d : ClaimSlot} (other : d ≠ c) :
    RecordAfterChecks (s.claimEntry d) ((expireWait c cl s).claimEntry d) := by
  have after := (expireWait_afterChecks s c cl).claims d
  rwa [dropClaim_entry, if_neg (Ne.symm other)] at after

theorem expireWait_routes : RoutesAfterChecks s.routeEntry (expireWait c cl s) := fun r => by
  have after := (expireWait_afterChecks s c cl).routes r
  rwa [State.routeEntry, dropClaim_routes] at after

end

section

variable {s : State} {c : ClaimSlot} {cl : Claim} (claim : s.claim? c = some cl)
include claim

/-- The record of the claim, DROPPED, stays in use. -/
theorem expireWait_entry : (expireWait c cl s).claimEntry c = { s.claimEntry c with claim := some (cl.drop .timedOut) } := by
  have dropped : (dropClaim .timedOut c s).claim? c = some (cl.drop .timedOut) := by rw [dropClaim_claim? .timedOut claim, if_pos rfl]
  rw [(expireWait_afterChecks s c cl).settledEntry dropped rfl, dropClaim_entry, if_pos rfl, ClaimEntry.onClaim,
    show (s.claimEntry c).claim = some cl from claim]
  rfl

theorem expireWait_unaccepted : c ∉ (expireWait c cl s).accepted := fun mem => by
  have mem := (expireWait_afterChecks s c cl).accepted.subset mem
  rw [dropClaim_accepted, claim] at mem
  simp at mem

theorem expireWait_unqueued {l : LineNo} (member : l ∈ linesOf cl.members) : c ∉ ((expireWait c cl s).line l).queue := fun mem => by
  rw [expireWait_eq] at mem
  have mem := ((queue_moves none l).arbitrate _ _).subset mem
  rw [dropClaim_line .timedOut claim, if_pos member] at mem
  simp at mem

theorem expireWait_told : c ∈ ((expireWait c cl s).session cl.owner).changes.claims := by
  refine (expireWait_afterChecks s c cl).sessions.notedClaims _ ?_
  rw [dropClaim_session .timedOut claim, if_pos rfl]
  exact mem_insertAsc.mpr (.inl rfl)

theorem expireWait_session (k : HostId) : ((expireWait c cl s).session k).attached = (s.session k).attached ∧
    ((expireWait c cl s).session k).epoch = (s.session k).epoch := by
  have sessions := (expireWait_afterChecks s c cl).sessions
  rw [sessions.attached, sessions.epoch, dropClaim_session .timedOut claim]
  split <;> exact ⟨rfl, rfl⟩

end

/-- Settles O46: the expiry drops the claim and checks the lines whose heads change; where no wait limit runs, it comes to nothing. -/
theorem waitLimitExpiryDropsTheClaim : Obligations.WaitLimitExpiryDropsTheClaim := by
  refine ⟨fun c cl s running claim waits ended => ?_, fun c s idle => ?_⟩
  · obtain ⟨outside, pins, ports⟩ := (expireWait_keepsRest s c cl).surroundings.settled
    have kept := settle_keepsRecords s (expireWait c cl s)
    refine ⟨settle s (expireWait c cl s), ?_, outside, (expireWait_keepsRest s c cl).settledSettings, pins, ports, ?_, ?_,
      fun m member => ?_, ?_, fun d other => ?_, fun r => ?_, fun k => ?_⟩
    · rw [exec_reaction rfl, whileRunning, running, ← waitEnd_expired claim waits ended]
      rfl
    · rw [kept.claimEntry]
      exact expireWait_entry claim
    · rw [kept.accepted]
      exact expireWait_unaccepted claim
    · rw [State.line, kept.lines]
      exact expireWait_unqueued claim (List.mem_map_of_mem member)
    · rw [session_congr kept.sessions]
      exact expireWait_told claim
    · rw [kept.claimEntry]
      exact expireWait_otherClaim s c cl other
    · rw [kept.routeEntry]
      exact expireWait_routes s c cl r
    · rw [session_congr kept.sessions]
      exact expireWait_session claim k
  · rw [exec_reaction rfl, whileRunning]
    split
    · rfl
    · show Host.Outcome.next (settle s (waitEnd c s)) = _
      rw [waitEnd_idle idle, settle_same s s fun _ => ⟨rfl, rfl⟩]

end Sys2Proof.Machine

/-! Fault groups and fault inputs under every command (O40, O41, O50). -/

namespace Sys2Proof.Machine

/-! ### A change at a fault pin -/

/-- The qualifiers are all that a change at a fault pin touches, so the state is as it was where they are. -/
theorem faultPin_eq_of_qualifiers {g : GroupNo} {level : Level} {s u : State} (rest : u = { s with qualifiers := u.qualifiers })
    (same : ∀ k, (faultPin g level u).qualifier k = s.qualifier k) : faultPin g level u = s := by
  have qualifiers : (faultPin g level u).qualifiers = s.qualifiers := ext_look same
  calc faultPin g level u = { u with qualifiers := (faultPin g level u).qualifiers } := rfl
    _ = { s with qualifiers := (faultPin g level u).qualifiers } := by rw [rest]
    _ = s := by rw [qualifiers]

theorem faultPin_other {g k : GroupNo} (level : Level) (s : State) (other : k ≠ g) : (faultPin g level s).qualifier k = s.qualifier k :=
  (State.updQualifier_qualifier s g _ k).trans (if_neg (Ne.symm other))

theorem faultPin_same (g : GroupNo) (s : State) : faultPin g (s.qualifier g).pin s = s := by
  refine faultPin_eq_of_qualifiers rfl fun k => ?_
  by_cases same : k = g
  · rw [same, faultPin_qualifier, if_pos rfl]
  · exact faultPin_other _ s same

theorem faultPin_inReset {g : GroupNo} {level : Level} {s : State} (new : level ≠ (s.qualifier g).pin) (on : s.inReset = true) :
    (faultPin g level s).qualifier g = { s.qualifier g with pin := level, due := [], count := none } := by
  rw [faultPin_qualifier, if_neg (Ne.symm new), if_pos on]

theorem faultPin_running {g : GroupNo} {level : Level} {s : State} (new : level ≠ (s.qualifier g).pin) (running : s.inReset = false) :
    (faultPin g level s).qualifier g = { s.qualifier g with due := (s.qualifier g).dueOnReturn }.recount level := by
  rw [faultPin_qualifier, if_neg (Ne.symm new), running]
  rfl

/-- Whatever its count, an input takes the level of its pin and keeps its qualified level until the event. -/
theorem faultPin_levels (g : GroupNo) (level : Level) (s : State) :
    ((faultPin g level s).qualifier g).pin = level ∧ ((faultPin g level s).qualifier g).qualified = (s.qualifier g).qualified := by
  rw [faultPin_qualifier]
  split
  · rename_i same
    exact ⟨same, rfl⟩
  · split <;> exact ⟨rfl, rfl⟩

theorem Qualifier.recount_count (level : Level) (q : Qualifier) :
    (q.recount level).count = if level = q.lastDue then none else some 2 := rfl

/-- A pin that leaves the qualified level and returns before its count has run out leaves no trace (R106). -/
theorem faultPin_pulse {g : GroupNo} {s : State} (level : Level) (settled : (s.qualifier g).pin = (s.qualifier g).qualified)
    (nothingDue : (s.qualifier g).due = []) (idle : (s.qualifier g).count = none) :
    faultPin g (s.qualifier g).pin (faultPin g level s) = s := by
  refine faultPin_eq_of_qualifiers rfl fun k => ?_
  by_cases other : k = g
  · subst other
    by_cases new : level = (s.qualifier k).pin
    · rw [new, faultPin_same, faultPin_same]
    · have back : (s.qualifier k).pin ≠ ((faultPin k level s).qualifier k).pin := by
        rw [(faultPin_levels k level s).1]
        exact Ne.symm new
      generalize e : s.qualifier k = q at *
      obtain ⟨pin, qualified, due, count⟩ := q
      dsimp only at settled nothingDue idle new back ⊢
      subst settled nothingDue idle
      cases on : s.inReset with
      | true => rw [faultPin_inReset back on, faultPin_inReset (by rwa [e]) on, e]
      | false =>
        have counting : (faultPin k level s).qualifier k = { pin := level, qualified := pin, due := [], count := some 2 } := by
          rw [faultPin_running (by rwa [e]) on, e]
          simp [Qualifier.recount, Qualifier.dueOnReturn, Qualifier.lastDue, new, Config.qualifyMicros]
        rw [faultPin_running back on, counting]
        simp [Qualifier.recount, Qualifier.dueOnReturn, Qualifier.lastDue]
  · rw [faultPin_other _ _ other, faultPin_other _ _ other]

/-- Settles O41: the new level counts against the level that is, or is about to be, the qualified one. -/
theorem faultPinRestartsTheCount : Obligations.FaultPinRestartsTheCount := by
  refine ⟨fun g level s => ?_, fun g level s t settled nothingDue idle stepped => ?_⟩
  · obtain ⟨pin, qualified⟩ := faultPin_levels g level s
    refine ⟨faultPin g level s, rfl, rfl, fun k other => faultPin_other level s other, pin, qualified, ?_, fun new on => ?_,
      fun new running ended => ?_, fun new running counts => ?_⟩
    · rintro rfl
      exact faultPin_same g s
    · rw [faultPin_inReset new on]
      exact ⟨rfl, rfl⟩
    · have due : (s.qualifier g).dueOnReturn = (s.qualifier g).due ++ [(s.qualifier g).pin] := Qualifier.dueOnReturn_ended ended
      rw [faultPin_running new running, Qualifier.recount_count, Qualifier.lastDue_append due, if_neg new]
      exact ⟨due, rfl⟩
    · have due : (s.qualifier g).dueOnReturn = (s.qualifier g).due := Qualifier.dueOnReturn_running counts
      rw [faultPin_running new running, Qualifier.recount_count, Qualifier.recount_due]
      refine ⟨due, fun none => ?_, fun ls l some => ?_⟩
      · rw [Qualifier.lastDue_none (due.trans none)]
      · rw [Qualifier.lastDue_append (due.trans some)]
  · cases stepped
    exact congrArg Host.Outcome.next (faultPin_pulse level settled nothingDue idle)

/-! ### What a command can make of one group -/

/-- A group after d microseconds. -/
def Group.after (d : Nat) (x : Group) : Group := { x with state := x.state.after d }

theorem advance_group_after (d : Nat) (s : State) (g : GroupNo) : (advance d s).group g = (s.group g).after d := advance_group d s g

theorem Group.after_zero (x : Group) : x.after 0 = x := by rw [Group.after, GroupState.after_zero]

/-- The group after a REARM that passes its checks (R119). -/
def Group.rearmed (x : Group) : Group := { x with state := .clear, softTrip := if x.state.isTripped then false else x.softTrip }

/-- All that a command can make of a group x with the qualified level q, in or out of reset: time passes, or one of the events of chapter 7
takes place, or device reset begins or ends. -/
inductive GroupEvent (inReset : Bool) (x : Group) (q : Level) : Instr → Group → Level → Prop
  | elapsed {c : Instr} (d : Nat) : GroupEvent inReset x q c (x.after d) q
  | settled (g : GroupNo) {left : Nat} : x.state = .settling left → GroupEvent inReset x q (.settleExpiry g) { x with state := .clear } q
  | qualified (g : GroupNo) (d : Nat) (level : Level) :
    GroupEvent inReset x q (.qualifiedLevelChange g) (groupOnLevel level (x.after d)) level
  | configured (h : HostId) (cfg : GroupConfig) : x.state = .clear → GroupEvent inReset x q (.setGroup h) (configureGroup cfg q x) q
  | tripped (h : HostId) : x.enabled = true → GroupEvent inReset x q (.trip h) { x with state := .tripped, softTrip := true } q
  | rearmed (h : HostId) : ¬ (x.state = .tripped ∧ x.inputAsserted = true) → GroupEvent inReset x q (.rearm h) x.rearmed q
  | reset : GroupEvent inReset x q .deviceReset Group.reset .high
  | started (a b : Level) (level : Level) : inReset = true →
    GroupEvent inReset x q (.leaveReset a b) { x with inputAsserted := assertedOf x.polarity level } level

theorem GroupState.after_eq_iff {d : Nat} {x y : GroupState} (notSettling : ∀ t, y ≠ .settling t) : x.after d = y ↔ x = y := by
  cases x with
  | settling t => exact ⟨fun e => absurd e.symm (notSettling _), fun e => absurd e.symm (notSettling _)⟩
  | _ => rfl

@[simp] theorem GroupState.after_eq_clear {d : Nat} {x : GroupState} : x.after d = .clear ↔ x = .clear := after_eq_iff nofun

@[simp] theorem GroupState.after_eq_tripped {d : Nat} {x : GroupState} : x.after d = .tripped ↔ x = .tripped := after_eq_iff nofun

/-- What a new qualified level can make of a group's state: nothing, where it is no event or the group is not enabled; TRIPPED, as the input
asserts; or what deassertion makes of it (R109, R110). -/
theorem groupOnLevel_cases (level : Level) (x : Group) :
    (groupOnLevel level x).state = x.state ∧ (x.enabled = false ∨ (groupOnLevel level x).inputAsserted = x.inputAsserted) ∨
    x.enabled = true ∧ ((groupOnLevel level x).inputAsserted = true ∧ (groupOnLevel level x).state = .tripped ∨
      x.inputAsserted = true ∧ (groupOnLevel level x).inputAsserted = false ∧ (groupOnLevel level x).state = stateOnDeassert x) := by
  have flag : (groupOnLevel level x).inputAsserted = assertedOf x.polarity level := rfl
  have state : (groupOnLevel level x).state = if !x.enabled || assertedOf x.polarity level = x.inputAsserted then x.state
      else if assertedOf x.polarity level then stateOnAssert x else stateOnDeassert x := rfl
  rw [flag, state]
  split
  · rename_i stays
    exact .inl ⟨rfl, by simpa using stays⟩
  · rename_i changes
    obtain ⟨on, other⟩ : x.enabled = true ∧ assertedOf x.polarity level ≠ x.inputAsserted := by simpa using changes
    split
    · rename_i asserts
      exact .inr ⟨on, .inl ⟨asserts, rfl⟩⟩
    · rename_i deasserts
      rw [Bool.not_eq_true] at deasserts
      exact .inr ⟨on, .inr ⟨by simpa [deasserts] using other, deasserts, rfl⟩⟩

/-- What deassertion makes of a TRIPPED group (R110). -/
theorem stateOnDeassert_cases {x : Group} (tripped : x.state = .tripped) :
    x.softTrip = true ∧ stateOnDeassert x = .tripped ∨ x.softTrip = false ∧
      (stateOnDeassert x = .settling (x.settleInterval * Config.microsPerMilli) ∨ stateOnDeassert x = .latched) := by
  rw [stateOnDeassert, tripped]
  cases x.softTrip with
  | true => exact .inl ⟨rfl, rfl⟩
  | false =>
    cases x.recovery with
    | auto => exact .inr ⟨rfl, .inl rfl⟩
    | manual => exact .inr ⟨rfl, .inr rfl⟩

/-! ### Events keep a group in agreement with its input -/

namespace GroupAgrees

variable {x : Group} {q q' : Qualifier}

theorem after (a : GroupAgrees x q) (d : Nat) : GroupAgrees (x.after d) q where
  flag := a.flag
  disabled off := GroupState.after_eq_clear.mpr (a.disabled off)
  softTrip trip := GroupState.after_eq_tripped.mpr (a.softTrip trip)
  tripped st := a.tripped (GroupState.after_eq_tripped.mp st)
  calm on st := a.calm on fun e => st (GroupState.after_eq_tripped.mpr e)
  settling t st := by
    cases e : x.state with
    | settling left =>
      have total := a.settling left e
      rw [Group.after, e] at st
      cases st
      exact (Nat.sub_le left d).trans total
    | _ => rw [Group.after, e] at st; cases st

/-- A group that becomes CLEAR, with no soft trip, and whose input is clear if it is enabled. -/
theorem clears (a : GroupAgrees x q) {trip : Bool} (noTrip : trip = false) (calm : x.enabled = true → x.inputAsserted = false) :
    GroupAgrees { x with state := .clear, softTrip := trip } q where
  flag := a.flag
  disabled _ := rfl
  softTrip set := by cases noTrip.symm.trans set
  tripped := nofun
  calm on _ := calm on
  settling := nofun

theorem noSoftTrip (a : GroupAgrees x q) (st : x.state ≠ .tripped) : x.softTrip = false :=
  Bool.eq_false_iff.mpr fun set => st (a.softTrip set)

theorem onLevel (a : GroupAgrees x q) {level : Level} (new : q'.qualified = level) : GroupAgrees (groupOnLevel level x) q' := by
  have flag : (groupOnLevel level x).inputAsserted = assertedOf x.polarity q'.qualified := by rw [new]; rfl
  have interval : (groupOnLevel level x).settleInterval = x.settleInterval := rfl
  rcases groupOnLevel_cases level x with ⟨state, same⟩ | ⟨on, ⟨now, state⟩ | ⟨was, now, state⟩⟩
  · refine ⟨flag, fun off => state.trans (a.disabled off), fun set => state.trans (a.softTrip set), fun st => ?_, fun on st => ?_,
      fun t st => a.settling t (state.symm.trans st)⟩
    · have before := state.symm.trans st
      rcases same with off | stays
      · cases before.symm.trans (a.disabled off)
      · rw [stays]
        exact a.tripped before
    · have stays := same.resolve_left (by rw [show x.enabled = true from on]; exact nofun)
      rw [stays]
      exact a.calm on fun before => st (state.trans before)
  · refine ⟨flag, fun off => ?_, fun _ => state, fun _ => .inr now, fun _ st => absurd state st, fun t st => ?_⟩
    · cases on.symm.trans off
    · cases state.symm.trans st
  · have before : x.state = .tripped := by
      by_contra st
      cases was.symm.trans (a.calm on st)
    have off : ¬ (groupOnLevel level x).enabled = false := by rw [show (groupOnLevel level x).enabled = true from on]; exact nofun
    rcases stateOnDeassert_cases before with ⟨set, stays⟩ | ⟨noTrip, moves⟩
    · rw [stays] at state
      exact ⟨flag, fun e => absurd e off, fun _ => state, fun _ => .inl set, fun _ _ => now, fun t st => by cases state.symm.trans st⟩
    · have left : (groupOnLevel level x).state ≠ .tripped := by
        rw [state]
        rcases moves with e | e <;> rw [e] <;> exact nofun
      refine ⟨flag, fun e => absurd e off, fun set => ?_, fun st => absurd st left, fun _ _ => now, fun t st => ?_⟩
      · cases noTrip.symm.trans set
      · rcases moves with e | e <;> cases (state.trans e).symm.trans st
        exact Nat.le_of_eq rfl

theorem configure (a : GroupAgrees x q) (cfg : GroupConfig) (clear : x.state = .clear) :
    GroupAgrees (configureGroup cfg q.qualified x) q := by
  have noTrip : ¬ x.softTrip = true := by rw [a.noSoftTrip (by rw [clear]; exact nofun)]; exact nofun
  have state : (configureGroup cfg q.qualified x).state =
      if cfg.enabled && assertedOf cfg.polarity q.qualified then .tripped else x.state := rfl
  cases trips : cfg.enabled && assertedOf cfg.polarity q.qualified with
  | true =>
    rw [trips] at state
    obtain ⟨on, asserted⟩ := Bool.and_eq_true_iff.mp trips
    refine ⟨rfl, fun off => ?_, fun set => absurd set noTrip, fun _ => .inr asserted, fun _ st => absurd state st, fun t st => ?_⟩
    · cases on.symm.trans off
    · cases state.symm.trans st
  | false =>
    rw [trips] at state
    have stays := state.trans clear
    refine ⟨rfl, fun _ => stays, fun set => absurd set noTrip, fun st => ?_, fun on _ => ?_, fun t st => ?_⟩
    · cases stays.symm.trans st
    · rw [show cfg.enabled = true from on, Bool.true_and] at trips
      exact trips
    · cases stays.symm.trans st

theorem trip (a : GroupAgrees x q) (on : x.enabled = true) : GroupAgrees { x with state := .tripped, softTrip := true } q where
  flag := a.flag
  disabled off := by cases on.symm.trans off
  softTrip _ := rfl
  tripped _ := .inl rfl
  calm _ st := absurd rfl st
  settling := nofun

theorem rearm (a : GroupAgrees x q) (absent : ¬ (x.state = .tripped ∧ x.inputAsserted = true)) : GroupAgrees x.rearmed q := by
  refine a.clears ?_ fun on => ?_
  · split
    · rfl
    · rename_i st
      exact a.noSoftTrip fun e => st (isTripped_iff.mpr e)
  · by_cases st : x.state = .tripped
    · exact Bool.eq_false_iff.mpr fun asserted => absent ⟨st, asserted⟩
    · exact a.calm on st

/-- A disabled group takes the level at its pin as reset ends; it stays CLEAR whatever its flag is. -/
theorem start (a : GroupAgrees x q) (off : x.enabled = false) {level : Level} (new : q'.qualified = level) :
    GroupAgrees { x with inputAsserted := assertedOf x.polarity level } q' := by
  have clear := a.disabled off
  refine ⟨by rw [new], a.disabled, a.softTrip, fun st => ?_, fun on => ?_, a.settling⟩
  · cases clear.symm.trans st
  · cases off.symm.trans on

theorem reset (high : q.qualified = .high) : GroupAgrees Group.reset q :=
  ⟨by rw [high]; rfl, fun _ => rfl, nofun, nofun, nofun, nofun⟩

/-- Every event keeps the agreement, as no group is enabled in reset. -/
theorem event {inReset : Bool} {c : Instr} {x' : Group} {level level' : Level} (a : GroupAgrees x q) (off : inReset = true → x.enabled = false)
    (e : GroupEvent inReset x level c x' level') (before : q.qualified = level) (now : q'.qualified = level') : GroupAgrees x' q' := by
  have same {y : Group} (k : GroupAgrees y q) (stays : level' = level) : GroupAgrees y q' := by
    have levels : q'.qualified = q.qualified := now.trans (stays.trans before.symm)
    obtain ⟨flag, disabled, softTrip, tripped, calm, settling⟩ := k
    exact ⟨levels ▸ flag, disabled, softTrip, tripped, calm, settling⟩
  cases e with
  | elapsed d => exact same (a.after d) rfl
  | settled g left =>
    have st : x.state ≠ .tripped := by rw [left]; exact nofun
    exact same (a.clears (a.noSoftTrip st) fun on => a.calm on st) rfl
  | qualified g d => exact (a.after d).onLevel now
  | configured h cfg clear => exact same (before ▸ a.configure cfg clear) rfl
  | tripped h on => exact same (a.trip on) rfl
  | rearmed h absent => exact same (a.rearm absent) rfl
  | reset => exact .reset now
  | started _ _ _ on => exact a.start (off on) now

end GroupAgrees

/-! ### Events and the soft trip (R112) -/

namespace GroupEvent

variable {inReset : Bool} {x x' : Group} {level level' : Level} {c : Instr}

theorem softTrip_set (e : GroupEvent inReset x level c x' level') (was : x.softTrip = false) (now : x'.softTrip = true) :
    ∃ h, c = .trip h := by
  cases e with
  | tripped h => exact ⟨h, rfl⟩
  | rearmed =>
    rw [Group.rearmed] at now
    split at now
    · cases now
    · cases was.symm.trans now
  | reset => cases now
  | elapsed | settled | qualified | configured | started => cases was.symm.trans now

theorem softTrip_cleared (e : GroupEvent inReset x level c x' level') (was : x.softTrip = true) (now : x'.softTrip = false) :
    c = .deviceReset ∨ ∃ h, c = .rearm h ∧ x.state = .tripped ∧ x'.state = .clear := by
  cases e with
  | tripped => cases now
  | rearmed h =>
    refine .inr ⟨h, rfl, ?_, rfl⟩
    rw [Group.rearmed] at now
    split at now
    · rename_i st
      exact isTripped_iff.mp st
    · cases was.symm.trans now
  | reset => exact .inl rfl
  | elapsed | settled | qualified | configured | started => cases was.symm.trans now

theorem rearm_clears {h : HostId} (e : GroupEvent inReset x level (.rearm h) x' level') (was : x.state = .tripped)
    (now : x'.state = .clear) : x'.softTrip = false := by
  cases e with
  | elapsed d => cases was.symm.trans (GroupState.after_eq_clear.mp now)
  | rearmed => exact if_pos (isTripped_iff.mpr was)

/-- A group with its soft trip set stays TRIPPED whatever its input does. -/
theorem leaves_tripped (e : GroupEvent inReset x level c x' level') (set : x.softTrip = true) (was : x.state = .tripped)
    (left : x'.state ≠ .tripped) : c = .deviceReset ∨ ∃ h, c = .rearm h ∧ x'.state = .clear := by
  cases e with
  | elapsed d => exact absurd (GroupState.after_eq_tripped.mpr was) left
  | settled _ st => cases was.symm.trans st
  | qualified _ d =>
    have still : (x.after d).state = .tripped := GroupState.after_eq_tripped.mpr was
    refine absurd ?_ left
    rcases groupOnLevel_cases level' (x.after d) with ⟨state, -⟩ | ⟨-, ⟨-, state⟩ | ⟨-, -, state⟩⟩
    · exact state.trans still
    · exact state
    · rcases stateOnDeassert_cases still with ⟨-, stays⟩ | ⟨noTrip, -⟩
      · exact state.trans stays
      · cases set.symm.trans noTrip
  | configured _ _ clear => cases was.symm.trans clear
  | tripped => exact absurd rfl left
  | rearmed h => exact .inr ⟨h, rfl, rfl⟩
  | reset => exact .inl rfl
  | started => exact absurd was left

end GroupEvent

/-! ### Commands that leave the groups -/

/-- Groups and qualified levels are as they were, and reset lasts as before. -/
structure KeepsFaults (s t : State) : Prop where
  inReset : t.inReset = s.inReset
  group : ∀ g, t.group g = s.group g
  qualified : ∀ g, (t.qualifier g).qualified = (s.qualifier g).qualified

theorem KeepsFaults.of_same {s t : State} (inReset : t.inReset = s.inReset) (groups : t.groups = s.groups)
    (qualifiers : t.qualifiers = s.qualifiers) : KeepsFaults s t :=
  ⟨inReset, fun g => by rw [State.group, groups]; rfl, fun g => by rw [State.qualifier, qualifiers]; rfl⟩

theorem KeepsFaults.refl (s : State) : KeepsFaults s s := .of_same rfl rfl rfl

theorem KeepsFaults.trans {s t u : State} (a : KeepsFaults s t) (b : KeepsFaults t u) : KeepsFaults s u :=
  ⟨b.inReset.trans a.inReset, fun g => (b.group g).trans (a.group g), fun g => (b.qualified g).trans (a.qualified g)⟩

theorem KeepsRest.faults {s t : State} (k : KeepsRest s t) : KeepsFaults s t := .of_same k.inReset k.groups k.qualifiers

theorem settle_keepsFaults (s t : State) : KeepsFaults t (settle s t) :=
  .of_same (settle_inReset s t) (settle_groups s t) (settle_qualifiers s t)

theorem updPort_keepsFaults (s : State) (h : HostId) (f : Port → Port) : KeepsFaults s (s.updPort h f) := .of_same rfl rfl rfl

theorem queued_keepsFaults (s u : State) (h : HostId) (f : List Byte) (a : Answer) : KeepsFaults u (settle s (queueReply h f a u)) :=
  (updPort_keepsFaults u h _).trans (settle_keepsFaults s _)

theorem setPolicyAct_keepsFaults (h : HostId) (ps : List Byte) (s : State) : KeepsFaults s (setPolicyAct h ps s).1 := by
  unfold setPolicyAct
  split
  · exact .refl s
  · rename_i first last p _
    have written : KeepsFaults s (writePolicies first last p s) := by
      unfold writePolicies
      exact .of_same rfl rfl rfl
    exact written.trans (applyPolicy_keepsRest s first last p).faults

/-! ### Commands outside reset -/

theorem changeGroup_qualifier (g k : GroupNo) (f : Group → Group) (s : State) : (changeGroup g f s).qualifier k = s.qualifier k :=
  congrArg (look · k) (changeGroup_qualifiers g f s)

/-- A command outside reset: each group and its qualified level undergo one event. -/
structure FaultMove (c : Instr) (s t : State) : Prop where
  inReset : t.inReset = s.inReset
  event : ∀ g, GroupEvent s.inReset (s.group g) (s.qualifier g).qualified c (t.group g) (t.qualifier g).qualified

namespace FaultMove

variable {c : Instr} {s t u v : State}

theorem congr (k : FaultMove c s t) (before : KeepsFaults u s) (after : KeepsFaults t v) : FaultMove c u v where
  inReset := after.inReset.trans (k.inReset.trans before.inReset)
  event g := by
    rw [after.group, after.qualified, ← before.inReset, ← before.group, ← before.qualified]
    exact k.event g

/-- Time passes, and nothing befalls the groups. -/
theorem elapsed (d : Nat) (k : KeepsFaults (advance d s) t) : FaultMove c s t where
  inReset := k.inReset
  event g := by
    rw [k.group, k.qualified, advance_group_after, advance_qualifier]
    exact .elapsed d

theorem of_same (k : KeepsFaults s t) : FaultMove c s t := elapsed 0 (by rwa [advance_zero])

/-- Time passes, then one group changes, its fault input perhaps with it. -/
theorem changeGroup {d : Nat} {g : GroupNo} {f : Group → Group} (inReset : u.inReset = s.inReset)
    (groups : ∀ k, u.group k = (s.group k).after d)
    (others : ∀ k, k ≠ g → (u.qualifier k).qualified = (s.qualifier k).qualified)
    (event : GroupEvent s.inReset (s.group g) (s.qualifier g).qualified c (f ((s.group g).after d)) (u.qualifier g).qualified) :
    FaultMove c s (changeGroup g f u) where
  inReset := (changeGroup_keepsSurroundings u g f).inReset.trans inReset
  event k := by
    rw [changeGroup_group, changeGroup_qualifier, groups]
    by_cases other : k = g
    · subst other
      rw [if_pos rfl]
      exact event
    · rw [if_neg (Ne.symm other), others k other]
      exact .elapsed d

theorem changeGroupNow {g : GroupNo} {f : Group → Group}
    (event : GroupEvent s.inReset (s.group g) (s.qualifier g).qualified c (f (s.group g)) (s.qualifier g).qualified) :
    FaultMove c s (Machine.changeGroup g f s) :=
  changeGroup (d := 0) rfl (fun k => (Group.after_zero _).symm) (fun _ _ => rfl) (by rwa [Group.after_zero])

theorem qualifyAs {g : GroupNo} (d : Nat) (level : Level) (f : Qualifier → Qualifier) :
    FaultMove (.qualifiedLevelChange g) s (qualifyAs g level f (advance d s)) := by
  refine changeGroup rfl (advance_group_after d s) (fun k other => ?_) ?_
  · rw [State.updQualifier_qualifier, if_neg (Ne.symm other), advance_qualifier]
  · rw [State.updQualifier_qualifier_same]
    exact .qualified g d level

end FaultMove

theorem qualify_faultMove (g : GroupNo) (s : State) : FaultMove (.qualifiedLevelChange g) s (qualify g s) := by
  unfold qualify
  split
  · simpa only [advance_zero] using FaultMove.qualifyAs (s := s) 0 _ _
  · exact .qualifyAs _ _ _
  · exact .of_same (.refl s)

theorem settleEnd_faultMove (g : GroupNo) (s : State) : FaultMove (.settleExpiry g) s (settleEnd g s) := by
  unfold settleEnd
  split
  · rename_i left st
    refine .changeGroup rfl (advance_group_after left s) (fun k _ => by rw [advance_qualifier]) ?_
    rw [advance_qualifier]
    exact .settled g st
  · exact .of_same (.refl s)

theorem leaseEnd_faultMove (c : Instr) (r : RouteSlot) (s : State) : FaultMove c s (leaseEnd r s) := by
  unfold leaseEnd
  split
  · exact .of_same (.refl s)
  · exact .elapsed _ ((closeRoute_keepsRest _ r _).trans (arbitrate_keepsRest _ _ _)).faults

theorem breakEnd_faultMove (c : Instr) (r : RouteSlot) (s : State) : FaultMove c s (breakEnd r s) := by
  unfold breakEnd
  split
  · exact .of_same (.refl s)
  · exact .elapsed _ ((activate_keepsRest _ r).trans (noteRoute_keepsRest _ _ r)).faults

theorem waitEnd_faultMove (c : Instr) (d : ClaimSlot) (s : State) : FaultMove c s (waitEnd d s) := by
  unfold waitEnd
  split
  · exact .of_same (.refl s)
  · exact .elapsed _ (expireWait_keepsRest _ d _).faults

section

variable (h : HostId) (ps : List Byte) (s : State)

theorem setGroupAct_faultMove : FaultMove (.setGroup h) s (setGroupAct h ps s).1 := by
  unfold setGroupAct
  split
  · exact .of_same (.refl s)
  · rename_i g cfg _
    split
    · exact .of_same (.refl s)
    · rename_i clear
      exact .changeGroupNow (.configured h cfg (isClear_iff.mp (by simpa using clear)))

theorem tripAct_faultMove : FaultMove (.trip h) s (tripAct h ps s).1 := by
  unfold tripAct
  split
  · exact .of_same (.refl s)
  · split
    · exact .of_same (.refl s)
    · rename_i on
      exact .changeGroupNow (.tripped h (by simpa using on))

theorem rearmAct_faultMove : FaultMove (.rearm h) s (rearmAct h ps s).1 := by
  unfold rearmAct
  split
  · exact .of_same (.refl s)
  · split
    · exact .of_same (.refl s)
    · split
      · exact .of_same (.refl s)
      · rename_i absent
        exact .changeGroupNow (.rearmed h fun both => absent (by simpa [isTripped_iff] using both))

/-- The three requests of chapter 7 that change a group do so by their event, and no other request does. -/
theorem act_faultMove (code : ReqCode) : FaultMove (code.command h) s (code.act h ps s).1 := by
  have of_rest {c : Instr} {t : State} (k : KeepsRest s t) : FaultMove c s t := .of_same k.faults
  have of_state {c : Instr} {t : State} (e : t = s) : FaultMove c s t := .of_same (e ▸ .refl s)
  cases code with
  | attach => exact of_rest (attachAct_keepsRest h ps s)
  | detach => exact of_rest (endSession_keepsRest h s)
  | collect => exact of_rest (collectAct_keepsRest h ps s)
  | readLevels => exact of_state rfl
  | queryLine => exact of_state (queryLineAct_state h ps s)
  | setPolicy => exact .of_same (setPolicyAct_keepsFaults h ps s)
  | queryPolicy => exact of_state (queryPolicyAct_state h ps s)
  | listen => exact of_rest (listenAct_keepsRest h ps s)
  | release => exact of_rest (releaseAct_keepsRest h ps s)
  | renew => exact of_rest (renewAct_keepsRest h ps s)
  | revoke => exact of_rest (revokeAct_keepsRest h ps s)
  | queryRoute => exact of_state (queryRouteAct_state h ps s)
  | claim => exact of_rest (claimAct_keepsRest h ps s)
  | amend => exact of_rest (amendAct_keepsRest h ps s)
  | cancel => exact of_rest (cancelAct_keepsRest h ps s)
  | queryClaim => exact of_state (queryClaimAct_state h ps s)
  | setGroup => exact setGroupAct_faultMove h ps s
  | trip => exact tripAct_faultMove h ps s
  | rearm => exact rearmAct_faultMove h ps s
  | queryGroup => exact of_state (queryGroupAct_state h ps s)

theorem takeRequest_faultMove (code : ReqCode) : FaultMove (code.command h) s (takeRequest code code.act h s) := by
  have popped : KeepsFaults s (popFrame h s) := updPort_keepsFaults s h _
  obtain e | ⟨f, a, e⟩ | ⟨f, a, -, e⟩ := takeRequest_cases (h := h) (s := s) code <;> rw [e]
  · exact .of_same (.refl s)
  · exact .of_same (popped.trans (queued_keepsFaults ..))
  · exact (act_faultMove h (frameParams f) (popFrame h s) code).congr popped (queued_keepsFaults ..)

variable {h s}

theorem onKind_keepsFaults {f : Byte → State → State} (k : ∀ st, KeepsFaults s (f st s)) : KeepsFaults s (onKind h f s) := by
  unfold onKind
  split
  · exact .refl s
  · exact k _

variable (h s)

theorem takeUnknown_keepsFaults : KeepsFaults s (takeUnknown h s) := by
  unfold takeUnknown
  split
  · exact .refl s
  · split
    · exact .refl s
    · exact (updPort_keepsFaults s h _).trans (updPort_keepsFaults _ h _)

theorem resetLink_keepsFaults (st : Byte) : KeepsFaults s (resetLink h st s) := by
  unfold resetLink
  dsimp only
  refine KeepsFaults.trans ?_ (updPort_keepsFaults _ h _)
  split
  · exact (endSession_keepsRest h s).faults
  · exact .refl s

end

theorem reaction_faultMove (c : Instr) (s : State) : FaultMove c s (reaction c s) := by
  have port (h : HostId) (f : Port → Port) : KeepsFaults s (s.updPort h f) := updPort_keepsFaults s h f
  have settled {t : State} (k : FaultMove c s t) : FaultMove c s (settle s t) := k.congr (.refl s) (settle_keepsFaults s t)
  cases c with
  | transactionBegin h | write h => exact .of_same (port h _)
  | read h => exact .of_same (onKind_keepsFaults (f := fun st t => t.updPort h (readReply st)) fun _ => port h _)
  | readAgain h => exact .of_same (onKind_keepsFaults (f := fun st t => t.updPort h (readReplyAgain st)) fun _ => port h _)
  | linkReset h =>
    exact .of_same (onKind_keepsFaults (f := fun st t => settle t (resetLink h st t)) fun st =>
      (resetLink_keepsFaults h s st).trans (settle_keepsFaults s _))
  | unknownKind h =>
    unfold reaction
    dsimp only
    split
    · exact .of_same (onKind_keepsFaults fun _ => port h _)
    · exact .of_same (.refl s)
  | unknownRequest h => exact .of_same (takeUnknown_keepsFaults h s)
  | attach h => exact takeRequest_faultMove h s .attach
  | detach h => exact takeRequest_faultMove h s .detach
  | collect h => exact takeRequest_faultMove h s .collect
  | readLevels h => exact takeRequest_faultMove h s .readLevels
  | queryLine h => exact takeRequest_faultMove h s .queryLine
  | setPolicy h => exact takeRequest_faultMove h s .setPolicy
  | queryPolicy h => exact takeRequest_faultMove h s .queryPolicy
  | listen h => exact takeRequest_faultMove h s .listen
  | release h => exact takeRequest_faultMove h s .release
  | renew h => exact takeRequest_faultMove h s .renew
  | revoke h => exact takeRequest_faultMove h s .revoke
  | queryRoute h => exact takeRequest_faultMove h s .queryRoute
  | claim h => exact takeRequest_faultMove h s .claim
  | amend h => exact takeRequest_faultMove h s .amend
  | cancel h => exact takeRequest_faultMove h s .cancel
  | queryClaim h => exact takeRequest_faultMove h s .queryClaim
  | setGroup h => exact takeRequest_faultMove h s .setGroup
  | trip h => exact takeRequest_faultMove h s .trip
  | rearm h => exact takeRequest_faultMove h s .rearm
  | queryGroup h => exact takeRequest_faultMove h s .queryGroup
  | leaseExpiry r => exact settled (leaseEnd_faultMove _ r s)
  | breakExpiry r => exact settled (breakEnd_faultMove _ r s)
  | waitLimitExpiry d => exact settled (waitEnd_faultMove _ d s)
  | settleExpiry g => exact settled (settleEnd_faultMove g s)
  | qualifiedLevelChange g => exact settled (qualify_faultMove g s)
  | deviceReset | leaveReset | faultPinChange | terminalLevelChange | boardLineLevelChange => exact .of_same (.refl s)

/-! ### Every command -/

/-- Groups, qualified levels and reset: a command leaves all three, or acts outside reset, or begins or ends reset. -/
theorem exec_faults {c : Instr} {s t : State} (stepped : exec c s = .next t) : KeepsFaults s t ∨ s.inReset = false ∧ FaultMove c s t ∨
    c = .deviceReset ∧ t = deviceReset s ∨ ∃ a b, c = .leaveReset a b ∧ s.inReset = true ∧ t = settle s (leaveReset a b s) := by
  by_cases hc : actsInReset c = false
  · rw [exec_reaction hc] at stepped
    injection stepped with stepped
    subst stepped
    split
    · exact .inl (.refl s)
    · rename_i running
      exact .inr (.inl ⟨by simpa using running, reaction_faultMove c s⟩)
  · cases c with
    | deviceReset =>
      cases stepped
      exact .inr (.inr (.inl ⟨rfl, rfl⟩))
    | leaveReset a b =>
      cases on : s.inReset with
      | true =>
        rw [exec_leaveReset a b s on] at stepped
        cases stepped
        exact .inr (.inr (.inr ⟨a, b, rfl, rfl, rfl⟩))
      | false =>
        rw [exec_leaveReset_running a b s on] at stepped
        cases stepped
        exact .inl (.refl s)
    | faultPinChange g level =>
      cases stepped
      refine .inl ⟨rfl, fun _ => rfl, fun k => ?_⟩
      by_cases same : k = g
      · rw [same]
        exact (faultPin_levels g level s).2
      · rw [faultPin_other level s same]
    | terminalLevelChange k n v =>
      cases stepped
      have driven : KeepsFaults s (driveTerminal k n v s) := .of_same rfl rfl rfl
      exact .inl (driven.trans (settle_keepsFaults s _))
    | boardLineLevelChange l v =>
      cases stepped
      have driven : KeepsFaults s (driveLine l v s) := .of_same rfl rfl rfl
      exact .inl (driven.trans (settle_keepsFaults s _))
    | _ => exact absurd rfl hc

theorem exec_groupEvent {c : Instr} {s t : State} (stepped : exec c s = .next t) (g : GroupNo) :
    GroupEvent s.inReset (s.group g) (s.qualifier g).qualified c (t.group g) (t.qualifier g).qualified := by
  rcases exec_faults stepped with kept | ⟨-, move⟩ | ⟨rfl, rfl⟩ | ⟨a, b, rfl, on, rfl⟩
  · exact (FaultMove.of_same kept).event g
  · exact move.event g
  · rw [deviceReset_group, deviceReset_qualifier]
    exact .reset
  · rw [settle_group, settle_qualifier, leaveReset_group, leaveReset_qualifier]
    exact .started a b _ on

/-- In reset after a command, the groups are those of device reset or those before. -/
theorem exec_inReset_group {c : Instr} {s t : State} (stepped : exec c s = .next t) (on : t.inReset = true) (g : GroupNo) :
    t.group g = Group.reset ∨ s.inReset = true ∧ t.group g = s.group g := by
  rcases exec_faults stepped with kept | ⟨running, move⟩ | ⟨-, rfl⟩ | ⟨a, b, -, -, rfl⟩
  · exact .inr ⟨kept.inReset.symm.trans on, kept.group g⟩
  · rw [move.inReset, running] at on
    cases on
  · exact .inl (deviceReset_group s g)
  · rw [settle_inReset] at on
    cases on

theorem exec_groupsAgree {c : Instr} {s t : State} (agree : GroupsAgree s) (stepped : exec c s = .next t) : GroupsAgree t where
  agree g := (agree.agree g).event (fun on => agree.inReset on g) (exec_groupEvent stepped g) rfl rfl
  inReset on g := by
    rcases exec_inReset_group stepped on g with e | ⟨before, e⟩ <;> rw [e]
    · rfl
    · exact agree.inReset before g

/-- Settles O50. Each command puts each group through one event of chapter 7 at most, and every event keeps the agreement; no command
enables a group in reset. -/
theorem groupsAgreeKept : Obligations.GroupsAgreeKept := by
  intro s t agree stepped
  unfold step at stepped
  split at stepped
  · cases stepped
    refine ⟨fun g => ?_, fun on g => ?_⟩
    · rw [advance_group_after, advance_qualifier]
      obtain ⟨flag, disabled, softTrip, tripped, calm, settling⟩ := (agree.agree g).after 1
      exact ⟨flag, disabled, softTrip, tripped, calm, settling⟩
    · rw [advance_group_after]
      exact agree.inReset on g
  · rename_i c rest _
    exact exec_groupsAgree (s := { s with pending := rest }) ⟨agree.agree, agree.inReset⟩ stepped

/-- Settles O40. TRIP is the one event that sets the soft trip, device reset and a REARM of a TRIPPED group are the two that clear it, and
deassertion of the input leaves a group whose soft trip is set. -/
theorem softTripRule : Obligations.SoftTripRule := by
  refine ⟨fun h f s t g offers admitted params enabled stepped => ?trips, fun c s t g stepped => (exec_groupEvent stepped g).softTrip_set,
    fun s t g stepped => ?resets, fun h s t g stepped => (exec_groupEvent stepped g).rearm_clears,
    fun c s t g stepped => (exec_groupEvent stepped g).softTrip_cleared,
    fun c s t stepped agree g => ((exec_groupsAgree agree stepped).agree g).softTrip,
    fun c s t g stepped => (exec_groupEvent stepped g).leaves_tripped⟩
  case trips =>
    obtain ⟨u, -, tripped, -, -, -, -, -, -, -, group, -⟩ := (tripAndRearm.1 h f s g offers admitted params).2 enabled
    cases tripped.symm.trans stepped
    rw [group]
    exact ⟨rfl, rfl⟩
  case resets =>
    cases stepped
    rw [deviceReset_group]
    rfl

end Sys2Proof.Machine


/-! Change sets stay exact (O54). -/

namespace Sys2Proof.Machine

/-! ### References beside numbered records (R122, R125) -/

/-- For each record in use whose it is, and whether it may stand out of its owner's change set. -/
abbrev Owned (n : Nat) := Fin n → Option (HostId × Bool)

/-- The references that each host's change set holds to the records of one table are to records of its own, each once and in order, and no
reference is missing to a record that may not stand out. -/
structure NotesExact {n : Nat} (notes : HostId → List (Fin n)) (records : Owned n) : Prop where
  once : ∀ h, Ascending (notes h)
  own : ∀ h, ∀ i ∈ notes h, ∃ out, records i = some (h, out)
  needed : ∀ i h, records i = some (h, false) → i ∈ notes h

namespace NotesExact

variable {n : Nat} {notes notes' : HostId → List (Fin n)} {records records' : Owned n} {i : Fin n} {k : HostId}

/-- A record's reference stands in its owner's change set alone. -/
theorem owner (e : NotesExact notes records) {out : Bool} (record : records i = some (k, out)) {h : HostId} (noted : i ∈ notes h) :
    k = h := by
  obtain ⟨_, same⟩ := e.own h i noted
  cases record.symm.trans same
  rfl

theorem congr (e : NotesExact notes records) (same : ∀ h, notes' h = notes h) (kept : ∀ j, records' j = records j) :
    NotesExact notes' records' := by
  obtain rfl : notes' = notes := funext same
  obtain rfl : records' = records := funext kept
  exact e

/-- One record changes, and references to it alone. -/
theorem change (e : NotesExact notes records) (once : ∀ h, Ascending (notes' h)) (kept : ∀ j, i ≠ j → records' j = records j)
    (others : ∀ h j, i ≠ j → (j ∈ notes' h ↔ j ∈ notes h)) (own : ∀ h, i ∈ notes' h → ∃ out, records' i = some (h, out))
    (needed : ∀ h, records' i = some (h, false) → i ∈ notes' h) : NotesExact notes' records' := by
  refine ⟨once, fun h j noted => ?_, fun j h record => ?_⟩ <;> by_cases here : i = j
  · subst here
    exact own h noted
  · rw [kept j here]
    exact e.own h j ((others h j here).mp noted)
  · subst here
    exact needed h record
  · rw [kept j here] at record
    exact (others h j here).mpr (e.needed j h record)

/-- A record comes into use, and may stand out. -/
theorem enter (e : NotesExact notes records) (free : records i = none) (same : ∀ h, notes' h = notes h)
    (kept : ∀ j, i ≠ j → records' j = records j) (record : records' i = some (k, true)) : NotesExact notes' records' := by
  obtain rfl : notes' = notes := funext same
  refine e.change e.once kept (fun _ _ _ => .rfl) (fun h noted => ?_) fun h missing => ?_
  · obtain ⟨_, used⟩ := e.own h i noted
    cases free.symm.trans used
  · cases record.symm.trans missing

/-- A record's reference is placed in its owner's change set, whatever becomes of the record under that owner (R123). -/
theorem place (e : NotesExact notes records) {a b : Bool} (before : records i = some (k, a))
    (placed : ∀ h, notes' h = if k = h then insertAsc i (notes h) else notes h) (kept : ∀ j, i ≠ j → records' j = records j)
    (after : records' i = some (k, b)) : NotesExact notes' records' := by
  refine e.change (fun h => ?_) kept (fun h j other => ?_) (fun h noted => ?_) fun h missing => ?_
  · rw [placed]
    split
    · exact insertAsc_ascending i (e.once h)
    · exact e.once h
  · rw [placed]
    split
    · simp [Ne.symm other]
    · rfl
  · rw [placed] at noted
    split at noted
    · rename_i own
      exact ⟨b, own ▸ after⟩
    · exact ⟨b, e.owner before noted ▸ after⟩
  · cases after.symm.trans missing
    rw [placed, if_pos rfl]
    exact mem_insertAsc.mpr (.inl rfl)

/-- A record's reference is taken out of a change set that is its owner's or does not hold it, and the record may stand out from then on or
is free (R125). -/
theorem remove (e : NotesExact notes records) (removed : ∀ h, notes' h = if k = h then (notes h).filter (· ≠ i) else notes h)
    (kept : ∀ j, i ≠ j → records' j = records j) (after : records' i = none ∧ (∃ a, records i = some (k, a)) ∨
      records' i = records i ∧ ∀ h, records i ≠ some (h, false)) : NotesExact notes' records' := by
  have left {h : HostId} {j : Fin n} : j ∈ notes' h ↔ j ∈ notes h ∧ (k = h → i ≠ j) := by
    rw [removed]
    split
    · rename_i own
      rw [List.mem_filter, decide_eq_true_iff]
      exact and_congr_right fun _ => ⟨fun ne _ => ne.symm, fun apart => (apart own).symm⟩
    · rename_i other
      simp [other]
  refine e.change (fun h => ?_) kept (fun h j other => ?_) (fun h noted => ?_) fun h missing => ?_
  · rw [removed]
    split
    · exact (e.once h).filter _
    · exact e.once h
  · simp [left, other]
  · obtain ⟨before, apart⟩ := left.mp noted
    rcases after with ⟨-, a, record⟩ | ⟨same, -⟩
    · exact absurd rfl (apart (e.owner record before))
    · rw [same]
      exact e.own h i before
  · rcases after with ⟨free, -⟩ | ⟨same, out⟩
    · cases free.symm.trans missing
    · exact absurd (same.symm.trans missing) (out h)

/-- A host's records are freed, and its change set emptied (R43). -/
theorem clear (e : NotesExact notes records) (emptied : ∀ h, notes' h = if k = h then [] else notes h)
    (freed : ∀ j h out, records' j = some (h, out) ↔ records j = some (h, out) ∧ h ≠ k) : NotesExact notes' records' := by
  refine ⟨fun h => ?_, fun h j noted => ?_, fun j h missing => ?_⟩
  · rw [emptied]
    split
    · exact .nil
    · exact e.once h
  · rw [emptied] at noted
    split at noted
    · cases noted
    · rename_i other
      obtain ⟨out, record⟩ := e.own h j noted
      exact ⟨out, (freed j h out).mpr ⟨record, Ne.symm other⟩⟩
  · obtain ⟨record, other⟩ := (freed j h false).mp missing
    rw [emptied, if_neg (Ne.symm other)]
    exact e.needed j h record

end NotesExact

/-! ### Change sets while a request's own claim is unanswered (R65, R124) -/

/-- The claim may stand out of its owner's change set: it is WAITING, or GRANTED as the claim `own` that a request's reply is to tell of. -/
def Claim.standsOut (own : Option ClaimSlot) (c : ClaimSlot) (cl : Claim) : Bool :=
  match cl.state with
  | .waiting => true
  | .granted _ => own = some c
  | .dropped _ => false

theorem Claim.standsOut_of_waiting (own : Option ClaimSlot) (c : ClaimSlot) {cl : Claim} (waits : cl.waiting = true) :
    cl.standsOut own c = true := by
  cases e : cl.state <;> simp_all [Claim.standsOut, Claim.waiting]

theorem Claim.standsOut_of_ne {own : Option ClaimSlot} {c : ClaimSlot} (other : own ≠ some c) (cl : Claim) :
    cl.standsOut own c = cl.waiting := by
  cases e : cl.state <;> simp [Claim.standsOut, Claim.waiting, e, other]

/-- The references to routes that each host's change set holds. -/
def routeNotes (s : State) (h : HostId) : List RouteSlot := (s.session h).changes.routes

/-- The references to claims that each host's change set holds. -/
def claimNotes (s : State) (h : HostId) : List ClaimSlot := (s.session h).changes.claims

/-- The routes in use; one that is live may stand out (R125). -/
def routeRecords (s : State) : Owned 96 := fun r => (s.route? r).map fun rt => (rt.owner, rt.live)

/-- The claims in use, with those that may stand out beside the claim `own`. -/
def claimRecords (own : Option ClaimSlot) (s : State) : Owned 32 := fun c => (s.claim? c).map fun cl => (cl.owner, cl.standsOut own c)

/-- The change sets are exact, but that the claim `own` may be GRANTED and not stand in its owner's. -/
structure ChangeSetsBut (own : Option ClaimSlot) (s : State) : Prop where
  routes : NotesExact (routeNotes s) (routeRecords s)
  claims : NotesExact (claimNotes s) (claimRecords own s)

section

variable {s t : State} {own : Option ClaimSlot} {r : RouteSlot} {c : ClaimSlot}

theorem routeRecords_some {rt : Route} (route : s.route? r = some rt) : routeRecords s r = some (rt.owner, rt.live) := by
  rw [routeRecords, route]
  rfl

theorem routeRecords_none (free : s.route? r = none) : routeRecords s r = none := by
  rw [routeRecords, free]
  rfl

theorem routeRecords_congr (same : t.route? r = s.route? r) : routeRecords t r = routeRecords s r := by
  rw [routeRecords, same, routeRecords]

theorem claimRecords_some {cl : Claim} (claim : s.claim? c = some cl) :
    claimRecords own s c = some (cl.owner, cl.standsOut own c) := by
  rw [claimRecords, claim]
  rfl

theorem claimRecords_none (free : s.claim? c = none) : claimRecords own s c = none := by
  rw [claimRecords, free]
  rfl

theorem claimRecords_congr (same : t.claim? c = s.claim? c) : claimRecords own t c = claimRecords own s c := by
  rw [claimRecords, same, claimRecords]

theorem routeNotes_congr {h : HostId} (same : (t.session h).changes = (s.session h).changes) : routeNotes t h = routeNotes s h :=
  congrArg ChangeSet.routes same

theorem claimNotes_congr {h : HostId} (same : (t.session h).changes = (s.session h).changes) : claimNotes t h = claimNotes s h :=
  congrArg ChangeSet.claims same

/-- Claims other than `own` stand out just while they wait. -/
theorem claimRecords_of_ne (other : own ≠ some c) : claimRecords own s c = (s.claim? c).map fun cl => (cl.owner, cl.waiting) := by
  simp only [claimRecords, Claim.standsOut_of_ne other]

theorem claimRecords_none_own : claimRecords none s c = (s.claim? c).map fun cl => (cl.owner, cl.waiting) := claimRecords_of_ne nofun

theorem changeSetsExact_iff : ChangeSetsExact s ↔ ChangeSetsBut none s := by
  constructor
  · rintro ⟨claimsOnce, routesOnce, claimsOwn, routesOwn, settled, closed⟩
    refine ⟨⟨routesOnce, fun h r noted => ?_, fun r h missing => ?_⟩, ⟨claimsOnce, fun h c noted => ?_, fun c h missing => ?_⟩⟩
    · obtain ⟨rt, route, rfl⟩ := routesOwn h r noted
      exact ⟨_, routeRecords_some route⟩
    · obtain ⟨rt, route, e⟩ := Option.map_eq_some_iff.mp missing
      obtain ⟨rfl, live⟩ := Prod.mk.inj e
      exact closed r rt route live
    · obtain ⟨cl, claim, rfl⟩ := claimsOwn h c noted
      exact ⟨_, claimRecords_some claim⟩
    · rw [claimRecords_none_own] at missing
      obtain ⟨cl, claim, e⟩ := Option.map_eq_some_iff.mp missing
      obtain ⟨rfl, waits⟩ := Prod.mk.inj e
      exact settled c cl claim waits
  · rintro ⟨routes, notedClaims⟩
    refine ⟨notedClaims.once, routes.once, fun h c noted => ?_, fun h r noted => ?_, fun c cl claim waits => ?_, fun r rt route live => ?_⟩
    · obtain ⟨_, record⟩ := notedClaims.own h c noted
      obtain ⟨cl, claim, e⟩ := Option.map_eq_some_iff.mp record
      exact ⟨cl, claim, (Prod.mk.inj e).1⟩
    · obtain ⟨_, record⟩ := routes.own h r noted
      obtain ⟨rt, route, e⟩ := Option.map_eq_some_iff.mp record
      exact ⟨rt, route, (Prod.mk.inj e).1⟩
    · exact notedClaims.needed c _ (by rw [claimRecords_none_own, claim, Option.map_some, waits])
    · exact routes.needed r _ (by rw [routeRecords_some route, live])

end

/-! ### Operations that tell of records -/

namespace ChangeSetsBut

variable {own : Option ClaimSlot} {s t : State} (e : ChangeSetsBut own s)
include e

theorem congr (changes : ∀ h, (t.session h).changes = (s.session h).changes) (routes : ∀ r, routeRecords t r = routeRecords s r)
    (claims : ∀ c, claimRecords own t c = claimRecords own s c) : ChangeSetsBut own t :=
  ⟨e.routes.congr (fun h => routeNotes_congr (changes h)) routes, e.claims.congr (fun h => claimNotes_congr (changes h)) claims⟩

theorem noteRoute {r : RouteSlot} {rt : Route} (route : s.route? r = some rt) : ChangeSetsBut own (noteRoute rt.owner r s) := by
  have record := routeRecords_some route
  refine ⟨e.routes.place record (fun h => ?_) (fun _ _ => rfl) record, e.claims.congr (noteRoute_notedClaims s _ · r) fun _ => rfl⟩
  rw [routeNotes, Machine.noteRoute, State.updSession_session]
  split <;> rfl

theorem noteClaim {c : ClaimSlot} {cl : Claim} (claim : s.claim? c = some cl) : ChangeSetsBut own (noteClaim cl.owner c s) := by
  have record := claimRecords_some (own := own) claim
  refine ⟨e.routes.congr (noteClaim_notedRoutes s _ · c) fun _ => rfl, e.claims.place record (fun h => ?_) (fun _ _ => rfl) record⟩
  rw [claimNotes, Machine.noteClaim, State.updSession_session]
  split <;> rfl

/-- A route that closes is told of (R123). -/
theorem closeRoute (why : CloseReason) (r : RouteSlot) : ChangeSetsBut own (closeRoute why r s) := by
  by_cases live : ∃ rt, s.route? r = some rt ∧ rt.live = true
  · obtain ⟨rt, route, live⟩ := live
    have session := closeRoute_session why route live
    have closed := closeRoute_route? why route live
    have record : routeRecords (Machine.closeRoute why r s) r = some (rt.owner, false) := by
      rw [routeRecords, closed, if_pos rfl]
      rfl
    refine ⟨e.routes.place (routeRecords_some route) (fun h => ?_) (fun q other => ?_) record,
      e.claims.congr (closeRoute_notedClaims s why r) fun c => claimRecords_congr (claim?_congr (closeRoute_claims ..) c)⟩
    · rw [routeNotes, session]
      split <;> rfl
    · exact routeRecords_congr ((closed q).trans (if_neg other))
  · rw [closeRoute_idle fun rt route => Bool.eq_false_iff.mpr fun l => live ⟨rt, route, l⟩]
    exact e

/-- A grant tells of its route, but for that of the claim `own` if no member of it is forced (R65, R94, R124). -/
theorem grant_routes {c : ClaimSlot} {cl : Claim} {r : RouteSlot} (claim : s.claim? c = some cl) (free : s.route? r = none)
    (once : ∀ h, NotedOnce (Machine.grant own c r s).1 h) :
    NotesExact (routeNotes (Machine.grant own c r s).1) (routeRecords (Machine.grant own c r s).1) := by
  have entry := grant_routeEntry own (r := r) claim
  have noted_iff (h : HostId) (q : RouteSlot) := grant_notedRoutes own claim r q h
  obtain ⟨-, rt, route, owner, -, -, -, -, live⟩ := (entry r).2 rfl
  have record : routeRecords (Machine.grant own c r s).1 r = some (cl.owner, true) := by
    rw [routeRecords_some (rt := rt) route, owner, live]
  refine e.routes.change (i := r) (fun h => (once h).2) (fun q other => ?_) (fun h q other => ?_) (fun h noted => ?_) fun h missing => ?_
  · exact routeRecords_congr (congrArg RouteEntry.route ((entry q).1 other))
  · exact (noted_iff h q).trans (or_iff_left fun new => other new.2.1.symm)
  · rcases (noted_iff h r).mp noted with old | ⟨rfl, -⟩
    · obtain ⟨_, used⟩ := e.routes.own h r old
      cases (routeRecords_none free).symm.trans used
    · exact ⟨true, record⟩
  · cases record.symm.trans missing

/-- A grant tells of its claim, but for the claim `own`, which stands out instead (R65, R94, R124). -/
theorem grant_claims {c : ClaimSlot} {cl : Claim} {r : RouteSlot} (claim : s.claim? c = some cl)
    (once : ∀ h, NotedOnce (Machine.grant own c r s).1 h) :
    NotesExact (claimNotes (Machine.grant own c r s).1) (claimRecords own (Machine.grant own c r s).1) := by
  have claims (d : ClaimSlot) : (Machine.grant own c r s).1.claim? d =
      if c = d then some { cl with state := .granted r, waitLimit := none, awaiting := false } else s.claim? d := by
    rw [State.claim?, grant_claimEntry own claim]
    split <;> rfl
  have noted_iff (h : HostId) (d : ClaimSlot) := grant_notedClaims own claim r d h
  have record : claimRecords own (Machine.grant own c r s).1 c = some (cl.owner, decide (own = some c)) := by
    rw [claimRecords, claims, if_pos rfl]
    rfl
  refine e.claims.change (i := c) (fun h => (once h).1) (fun d other => ?_) (fun h d other => ?_) (fun h noted => ?_) fun h missing => ?_
  · exact claimRecords_congr ((claims d).trans (if_neg other))
  · exact (noted_iff h d).trans (or_iff_left fun new => other new.2.1.symm)
  · rcases (noted_iff h c).mp noted with old | ⟨rfl, -⟩
    · exact ⟨_, e.claims.owner (claimRecords_some claim) old ▸ record⟩
    · exact ⟨_, record⟩
  · obtain ⟨rfl, told⟩ := Prod.mk.inj (Option.some.inj (record.symm.trans missing))
    exact (noted_iff _ c).mpr (.inr ⟨rfl, rfl, of_decide_eq_false told⟩)

theorem grant {c : ClaimSlot} {cl : Claim} {r : RouteSlot} (claim : s.claim? c = some cl) (free : s.route? r = none) :
    ChangeSetsBut own (grant own c r s).1 := by
  have once (h : HostId) : NotedOnce (Machine.grant own c r s).1 h :=
    (NotesArise.grant own claim free).once ⟨e.claims.once h, e.routes.once h⟩
  exact ⟨e.grant_routes claim free once, e.grant_claims claim once⟩

omit e in
theorem arbiterMoves (own : Option ClaimSlot) : ArbiterMoves own fun s t => ChangeSetsBut own s → ChangeSetsBut own t where
  refl _ := id
  trans a b := b ∘ a
  line s l e := by
    have kept := setLineState_keeps s l
    exact e.congr (fun h => by rw [session_congr kept.sessions]) (fun r => routeRecords_congr (route?_congr kept.routes r))
      fun c => claimRecords_congr (claim?_congr kept.claims c)
  mark s c b e := by
    refine e.congr (fun _ => rfl) (fun _ => rfl) fun d => ?_
    rw [claimRecords, State.updClaim_claim?]
    split
    · rw [Option.map_map]
      rfl
    · rfl
  preempt _ r e := e.closeRoute .preempted r
  grant _ _ _ _ claim _ free e := e.grant claim free

/-- A claim's record is freed, and its reference leaves its owner's change set; the claim `own` is none but this. -/
theorem remove_claim {c : ClaimSlot} {cl : Claim} (only : ∀ d, own = some d → c = d) (claim : s.claim? c = some cl)
    (routes : t.routes = s.routes) (claims : ∀ d, t.claim? d = if c = d then none else s.claim? d)
    (changes : ∀ h, (t.session h).changes = if cl.owner = h then
      { (s.session h).changes with claims := (s.session h).changes.claims.filter (· ≠ c) } else (s.session h).changes) :
    ChangeSetsBut none t := by
  refine ⟨e.routes.congr (fun h => ?_) fun r => routeRecords_congr (route?_congr routes r),
    e.claims.remove (k := cl.owner) (fun h => ?_) (fun d other => ?_)
      (.inl ⟨claimRecords_none ((claims c).trans (if_pos rfl)), _, claimRecords_some claim⟩)⟩
  · rw [routeNotes, changes]
    split <;> rfl
  · rw [claimNotes, changes]
    split <;> rfl
  · rw [claimRecords_none_own, claimRecords_of_ne fun own => other (only d own), claims, if_neg other]

theorem freeClaim {c : ClaimSlot} {cl : Claim} (only : ∀ d, own = some d → c = d) (claim : s.claim? c = some cl) :
    ChangeSetsBut none (freeClaim c s) :=
  e.remove_claim only claim (freeClaim_routes ..) (freeClaim_claim? claim) fun h => by
    rw [freeClaim_session claim]
    split <;> rfl

theorem arbitrate (ls : List LineNo) : ChangeSetsBut own (arbitrate own ls s) := (arbiterMoves own).arbitrate ls s e

end ChangeSetsBut

/-! ### Operations outside the grant checks -/

namespace ChangeSetsBut

variable {s t : State} {r : RouteSlot} {rt : Route} {c : ClaimSlot} {cl : Claim} (e : ChangeSetsBut none s)
include e

theorem cores (kept : KeepsCores s t) : ChangeSetsBut none t := by
  refine e.congr (fun h => by rw [session_congr kept.sessions]) (fun q => ?_) fun d => ?_
  · have core := congrArg (Option.map fun x => (x.1, x.2.2)) (kept.routes q)
    rwa [Option.map_map, Option.map_map] at core
  · have core := congrArg (Option.map fun x => (x.1, x.2.2)) (kept.claims d)
    rw [Option.map_map, Option.map_map] at core
    rw [claimRecords_none_own, claimRecords_none_own]
    exact core

/-- The owner of a route is told of a change that leaves the route's core. -/
theorem tellRoute (kept : KeepsCores s t) (route : s.route? r = some rt) : ChangeSetsBut none (Machine.noteRoute rt.owner r t) := by
  obtain ⟨x, hx, owner, -, -⟩ := kept.symm.route route
  exact owner ▸ (e.cores kept).noteRoute hx

/-- The owner of a claim is told of a change that leaves the claim's core. -/
theorem tellClaim (kept : KeepsCores s t) (claim : s.claim? c = some cl) : ChangeSetsBut none (Machine.noteClaim cl.owner c t) := by
  obtain ⟨x, hx, owner, -, -⟩ := kept.symm.claim claim
  exact owner ▸ (e.cores kept).noteClaim hx

theorem freeRoute (route : s.route? r = some rt) : ChangeSetsBut none (freeRoute r s) := by
  have session := freeRoute_session route
  have freed := freeRoute_route? route
  refine ⟨e.routes.remove (k := rt.owner) (fun h => ?_) (fun q other => routeRecords_congr ((freed q).trans (if_neg other)))
      (.inl ⟨routeRecords_none ((freed r).trans (if_pos rfl)), _, routeRecords_some route⟩),
    e.claims.congr (fun h => ?_) fun c => claimRecords_congr (claim?_congr (freeRoute_claims ..) c)⟩
  · rw [routeNotes, session]
    split <;> rfl
  · rw [claimNotes, session]
    split <;> rfl

theorem cancelled (claim : s.claim? c = some cl) : ChangeSetsBut none (Machine.freeClaim c (withdrawClaim c cl s)) :=
  e.remove_claim nofun claim (cancelled_routes ..) (cancelled_claim? claim) fun h => by
    rw [cancelled_session claim]
    split <;> rfl

/-- A claim that is dropped is told of (R82, R123). -/
theorem dropClaim (why : DropReason) (c : ClaimSlot) : ChangeSetsBut none (dropClaim why c s) := by
  cases claim : s.claim? c with
  | none =>
    rw [Machine.dropClaim, claim]
    exact e
  | some cl =>
    have session := dropClaim_session why claim
    have dropped := dropClaim_claim? why claim
    refine ⟨e.routes.congr (fun h => ?_) fun r => routeRecords_congr (route?_congr (dropClaim_routes ..) r),
      e.claims.place (claimRecords_some claim) (fun h => ?_) (fun d other => claimRecords_congr ((dropped d).trans (if_neg other)))
        (claimRecords_some (cl := cl.drop why) ((dropped c).trans (if_pos rfl)))⟩
    · rw [routeNotes, session]
      split <;> rfl
    · rw [claimNotes, session]
      split <;> rfl

/-- A new LISTENER route is live, and the reply tells of it. -/
theorem createListener (h : HostId) (lease : Nat) (ms : List Member) (free : s.route? r = none) :
    ChangeSetsBut none (createListener h lease ms r s) := by
  have changes (k : HostId) : ((Machine.createListener h lease ms r s).session k).changes = (s.session k).changes := by
    rw [createListener_session]
    split <;> rfl
  have created (q : RouteSlot) := createListener_route? s h r q lease ms
  refine ⟨e.routes.enter (routeRecords_none free) (fun k => routeNotes_congr (changes k))
      (fun q other => routeRecords_congr ((created q).trans (if_neg other)))
      (routeRecords_some (rt := listenerRoute s h lease ms) ((created r).trans (if_pos rfl))),
    e.claims.congr (fun k => claimNotes_congr (changes k)) fun _ => rfl⟩

/-- A new claim waits, and the reply tells of it. -/
theorem acceptClaim (h : HostId) (p : ClaimParams) (free : s.claim? c = none) : ChangeSetsBut none (acceptClaim h p c s) := by
  have changes (k : HostId) : ((Machine.acceptClaim h p c s).session k).changes = (s.session k).changes := by
    rw [accepted_session]
    split <;> rfl
  have accepted (d : ClaimSlot) := acceptClaim_claim? s h c d p
  refine ⟨e.routes.congr (fun k => routeNotes_congr (changes k)) fun r => routeRecords_congr (route?_congr (acceptClaim_routes ..) r),
    e.claims.enter (claimRecords_none free) (fun k => claimNotes_congr (changes k))
      (fun d other => claimRecords_congr ((accepted d).trans (if_neg other)))
      (claimRecords_some (cl := newClaim h p) ((accepted c).trans (if_pos rfl)))⟩

theorem amended (p : Priority) (limit : Nat) (claim : s.claim? c = some cl) : ChangeSetsBut none (amended c cl p limit s) := by
  have sessions : (Machine.amended c cl p limit s).sessions = s.sessions := reprioritise_sessions _ c cl p
  refine e.congr (fun h => by rw [session_congr sessions])
    (fun r => routeRecords_congr (route?_congr (reprioritise_routes _ c cl p) r)) fun d => ?_
  rw [claimRecords, amended_claim? claim]
  split
  · rename_i here
    subst here
    exact (claimRecords_some claim).symm
  · rfl

/-- The end of a session leaves neither records nor references of its host (R43, R122). -/
theorem clearHost (h : HostId) : ChangeSetsBut none (clearHost h s) := by
  have cleared (k : HostId) := clearHost_session s h k
  refine ⟨e.routes.clear (k := h) (fun k => ?_) fun r k out => ?_, e.claims.clear (k := h) (fun k => ?_) fun c k out => ?_⟩
  · rw [routeNotes, cleared]
    split <;> rfl
  · simp only [routeRecords, Option.map_eq_some_iff, clearHost_route?_some, Prod.mk.injEq]
    constructor
    · rintro ⟨rt, ⟨route, other⟩, rfl, live⟩
      exact ⟨⟨rt, route, rfl, live⟩, other⟩
    · rintro ⟨⟨rt, route, rfl, live⟩, other⟩
      exact ⟨rt, ⟨route, other⟩, rfl, live⟩
  · rw [claimNotes, cleared]
    split <;> rfl
  · simp only [claimRecords, Option.map_eq_some_iff, clearHost_claim?_some, Prod.mk.injEq]
    constructor
    · rintro ⟨cl, ⟨claim, other⟩, rfl, out⟩
      exact ⟨⟨cl, claim, rfl, out⟩, other⟩
    · rintro ⟨⟨cl, claim, rfl, out⟩, other⟩
      exact ⟨cl, ⟨claim, other⟩, rfl, out⟩

/-! ### COLLECT -/

/-- A reference to a route that need not stand in a change set is taken out of it. -/
theorem unnoteRoute (h : HostId) (live : ∀ rt, s.route? r = some rt → rt.live = true) : ChangeSetsBut none (unnoteRoute h r s) := by
  refine ⟨e.routes.remove (k := h) (i := r) (fun k => ?_) (fun _ _ => rfl) (.inr ⟨rfl, fun k missing => ?_⟩),
    e.claims.congr (fun k => ?_) fun _ => rfl⟩
  · rw [routeNotes, Machine.unnoteRoute, State.updSession_session]
    split <;> rfl
  · obtain ⟨rt, route, closed⟩ := Option.map_eq_some_iff.mp missing
    cases (live rt route).symm.trans (Prod.mk.inj closed).2
  · rw [claimNotes, Machine.unnoteRoute, State.updSession_session]
    split <;> rfl

theorem unnoteClaim (h : HostId) (waits : ∀ cl, s.claim? c = some cl → cl.waiting = true) : ChangeSetsBut none (unnoteClaim h c s) := by
  refine ⟨e.routes.congr (fun k => ?_) fun _ => rfl,
    e.claims.remove (k := h) (i := c) (fun k => ?_) (fun _ _ => rfl) (.inr ⟨rfl, fun k missing => ?_⟩)⟩
  · rw [routeNotes, Machine.unnoteClaim, State.updSession_session]
    split <;> rfl
  · rw [claimNotes, Machine.unnoteClaim, State.updSession_session]
    split <;> rfl
  · obtain ⟨cl, claim, settled⟩ := Option.map_eq_some_iff.mp missing
    cases (Claim.standsOut_of_waiting none c (waits cl claim)).symm.trans (Prod.mk.inj settled).2

/-- A reported reference leaves the change set; the record is freed with it unless it is live or WAITING (R125, R128). -/
theorem reportRef (h : HostId) (ref : ChangeRef) : ChangeSetsBut none (reportRef h ref s) := by
  cases ref with
  | claim c =>
    unfold Machine.reportRef
    dsimp only
    split
    · rename_i free
      exact e.unnoteClaim h fun cl claim => by cases free.symm.trans claim
    · rename_i cl claim
      split
      · rename_i waits
        exact e.unnoteClaim h fun x hx => by cases claim.symm.trans hx; exact waits
      · exact e.freeClaim nofun claim
  | route r =>
    unfold Machine.reportRef
    dsimp only
    split
    · rename_i free
      exact e.unnoteRoute h fun rt route => by cases free.symm.trans route
    · rename_i rt route
      split
      · rename_i live
        have untold := e.unnoteRoute (r := r) h fun x hx => by cases route.symm.trans hx; exact live
        exact untold.cores (updRoute_keepsCores _ r fun _ _ => rfl)
      · exact e.freeRoute route

/-! ### SET_POLICY and changes of held status -/

theorem clampRoute (r : RouteSlot) : ChangeSetsBut none (clampRoute r s) := by
  unfold Machine.clampRoute
  split
  · exact e
  · rename_i rt route
    dsimp only
    split
    · exact e.tellRoute (updRoute_keepsCores s r fun _ _ => rfl) route
    · exact e

theorem demote {x : Claim} (claim : s.claim? c = some x) (owner : x.owner = cl.owner) : ChangeSetsBut none (demote c cl s) := by
  have left : KeepsCores s (leaveQueues c (linesOf cl.members) s) := (leaveQueues_keeps s c _).cores
  have tuned := updClaim_keepsCores (leaveQueues c (linesOf cl.members) s) c (f := fun x => { x with priority := 2 }) fun _ _ => rfl
  have joined := (left.trans tuned).trans (joinQueues_keeps _ c (linesOf cl.members)).cores
  rw [Machine.demote, ← owner]
  exact e.tellClaim joined claim

theorem passHeldOn (l : LineNo) : ChangeSetsBut none (passHeldOn l s) := by
  rcases passHeldOn_cases s l with same | ⟨r, rt, i, driver, -, -, told⟩
  · rw [same]
    exact e
  · rw [told]
    exact e.tellRoute (updRoute_keepsCores s r fun _ _ => by split <;> rfl) (lineDriver_route driver).2.1

/-- What each member of a list of moves keeps, the list keeps. -/
theorem foldl {α : Type} {f : State → α → State} (each : ∀ t x, ChangeSetsBut none t → ChangeSetsBut none (f t x)) (xs : List α) :
    ChangeSetsBut none (xs.foldl f s) :=
  List.foldlRecOn xs f e fun t k x _ => each t x k

theorem passHeldChanges (before : State) : ChangeSetsBut none (passHeldChanges before s) := e.foldl (fun _ l e => e.passHeldOn l) _

theorem demotions (xs : List (ClaimSlot × Claim)) (owned : ∀ x ∈ xs, (s.claim? x.1).map (·.owner) = some x.2.owner) :
    ChangeSetsBut none (xs.foldl (fun t x => Machine.demote x.1 x.2 t) s) := by
  induction xs generalizing s with
  | nil => exact e
  | cons x xs ih =>
    obtain ⟨first, rest⟩ := List.forall_mem_cons.mp owned
    obtain ⟨y, claim, owner⟩ := Option.map_eq_some_iff.mp first
    exact ih (e.demote claim owner) fun z hz => (RecordMoves.demote_owner s z.1).trans (rest z hz)

theorem enforced (first last : LineNo) : ChangeSetsBut none (enforced first last s) := by
  have closed : ChangeSetsBut none (withClosures first last s) := e.foldl (fun _ x e => e.closeRoute .policy x.1) _
  have dropped : ChangeSetsBut none (withDrops first last s) := closed.foldl (fun _ x e => e.dropClaim .policy x.1) _
  have demoted : ChangeSetsBut none (withDemotions first last s) := by
    refine dropped.demotions _ fun x mem => ?_
    have claim : (s.claimEntry x.1).claim = some x.2 := mem_affectedClaims s (List.mem_of_mem_filter mem)
    rw [State.claim?, withDrops_entry]
    split
    · simp [ClaimEntry.onClaim, claim, Claim.drop]
    · rw [claim]
      rfl
  exact demoted.foldl (fun _ x e => e.clampRoute x.1) _

theorem applyPolicy (first last : LineNo) (p : Policy) : ChangeSetsBut none (applyPolicy first last p s).1 := by
  have written : KeepsCores s (writePolicies first last p s) :=
    keepsCores_of_same (writePolicies_sessions ..) (writePolicies_routes ..) (writePolicies_claims ..)
  have set : ChangeSetsBut none (policySet first last s p) := ((e.cores written).enforced first last).passHeldChanges s
  rw [applyPolicy_eq]
  exact set.arbitrate _

/-! ### The answer to CLAIM and AMEND -/

/-- Change sets that are exact stay so when a claim may stand out. -/
theorem unanswered (own : Option ClaimSlot) : ChangeSetsBut own s := by
  refine ⟨e.routes, e.claims.once, fun h c noted => ?_, fun c h missing => ?_⟩
  · obtain ⟨_, record⟩ := e.claims.own h c noted
    obtain ⟨cl, claim, same⟩ := Option.map_eq_some_iff.mp record
    exact ⟨_, (Prod.mk.inj same).1 ▸ claimRecords_some claim⟩
  · obtain ⟨cl, claim, same⟩ := Option.map_eq_some_iff.mp missing
    obtain ⟨rfl, told⟩ := Prod.mk.inj same
    refine e.claims.needed c _ ?_
    rw [claimRecords_none_own, claim, Option.map_some]
    cases waits : cl.waiting with
    | true => cases (Claim.standsOut_of_waiting own c waits).symm.trans told
    | false => rfl

end ChangeSetsBut

/-- The request's own claim stands out no more where it is not GRANTED. -/
theorem ChangeSetsBut.settle_own {s : State} {c : ClaimSlot} (e : ChangeSetsBut (some c) s)
    (told : ∀ cl, s.claim? c = some cl → ∀ r, cl.state ≠ .granted r) : ChangeSetsBut none s := by
  refine ⟨e.routes, e.claims.congr (fun _ => rfl) fun d => ?_⟩
  by_cases own : some c = some d
  · obtain rfl := Option.some.inj own
    cases claim : s.claim? c with
    | none => rw [claimRecords_none claim, claimRecords_none claim]
    | some cl =>
      rw [claimRecords_some claim, claimRecords_some claim]
      cases state : cl.state with
      | granted r => exact absurd state (told cl claim r)
      | waiting | dropped => simp only [Claim.standsOut, state]
  · rw [claimRecords_none_own, claimRecords_of_ne own]

/-- The answer to a CLAIM or AMEND frees the record of its own claim if it has been granted (R74, R79). -/
theorem ChangeSetsBut.answerClaim {s : State} {c : ClaimSlot} (e : ChangeSetsBut (some c) s) :
    ChangeSetsBut none (answerClaim c s).1 := by
  unfold Machine.answerClaim
  split
  · rename_i free
    exact e.settle_own fun cl claim => by cases free.symm.trans claim
  · rename_i cl claim
    split
    · exact e.freeClaim (fun _ => Option.some.inj) claim
    · rename_i ungranted
      exact e.settle_own fun x hx r granted => by
        cases claim.symm.trans hx
        exact ungranted r granted

/-! ### Every step -/

theorem changeSets_events : EventMoves fun s t => ChangeSetsBut none s → ChangeSetsBut none t where
  refl _ := id
  congr k before after e := (k (e.cores before.symm.cores)).cores after.cores
  later d s _ k e := k (e.cores (advance_keepsCores d s))
  endSession {h _} _ e := (e.clearHost h).arbitrate _
  collect {h} _ {_} _ e := (e.foldl (fun _ ref e => e.reportRef h ref) _).arbitrate _
  listen _ _ _ _ free e := e.createListener _ _ _ free
  release route e := (e.freeRoute route).arbitrate _
  close why r _ _ _ _ e := (e.closeRoute why r).arbitrate _
  renew r _ s e := e.cores (updRoute_keepsCores s r fun _ _ => rfl)
  cancel claim _ e := (e.cancelled claim).arbitrate _
  policy first last p _ e := e.applyPolicy first last p
  held before _ e := e.passHeldChanges before
  activate route connecting e := by
    refine e.tellRoute (activate_keepsCores fun x hx => ?_) route
    cases route.symm.trans hx
    simp [Route.live, connecting]
  expireWait {c _ _} _ _ e := (e.dropClaim .timedOut c).arbitrate _

theorem attachAct_changeSets (h : HostId) (ps : List Byte) {s : State} (e : ChangeSetsBut none s) :
    ChangeSetsBut none (attachAct h ps s).1 := by
  have opened {t : State} (e : ChangeSetsBut none t) : ChangeSetsBut none (openSession h t) :=
    e.congr (fun k => by rw [openSession_session]; split <;> rfl) (fun _ => rfl) fun _ => rfl
  unfold attachAct
  split
  · rename_i attached
    exact opened (changeSets_events.endSession attached e)
  · exact opened e

theorem claimAct_changeSets (h : HostId) (ps : List Byte) {s : State} (e : ChangeSetsBut none s) :
    ChangeSetsBut none (claimAct h ps s).1 := by
  rcases claimAct_cases h ps s with ⟨_, -, refused⟩ | ⟨p, c, -, free, answered⟩
  · rw [refused]
    exact e
  · rw [answered]
    exact (((e.acceptClaim h p (firstFreeClaim_free free)).unanswered (some c)).arbitrate _).answerClaim

theorem amendAct_changeSets (h : HostId) (ps : List Byte) {s : State} (e : ChangeSetsBut none s) :
    ChangeSetsBut none (amendAct h ps s).1 := by
  rcases amendAct_cases h ps s with ⟨_, -, refused⟩ | ⟨c, _, p, limit, cl, -, claim, -, answered⟩
  · rw [refused]
    exact e
  · rw [answered, amendClaim_eq]
    exact (((e.amended p limit claim).unanswered (some c)).arbitrate _).answerClaim

theorem ownAct_changeSets {code : ReqCode} (h : HostId) (ps : List Byte) {s : State} (isOwn : code.isOwn = true)
    (e : ChangeSetsBut none s) : ChangeSetsBut none (code.act h ps s).1 := by
  cases code with
  | attach => exact attachAct_changeSets h ps e
  | claim => exact claimAct_changeSets h ps e
  | amend => exact amendAct_changeSets h ps e
  | _ => cases isOwn

/-- Settles O54. A reference is placed only while its record is in use, for the record's owner, and is taken out as the record is freed; a
route that closes and a claim that settles are told of in the same move, but for the claim of a CLAIM or AMEND that is granted at once, whose
record the reply frees. -/
theorem changeSetsExactKept : Obligations.ChangeSetsExactKept := fun _ _ exact_ stepped =>
  changeSetsExact_iff.mpr (changeSets_events.step (fun _ _ => changeSetsExact_iff.mp reset_changeSetsExact)
    (fun _ h f _ isOwn _ e => ownAct_changeSets h (frameParams f) isOwn e) stepped (changeSetsExact_iff.mp exact_))

end Sys2Proof.Machine

/-! The Host Link Ports: what a transaction makes of its port and of nothing else (O6 to O11), and requests that are not carried out (O13,
O14). -/

namespace Sys2Proof.Machine

/-! ### A change of one port -/

section

variable (s u : State) (h : HostId) (f : Port → Port)

theorem updPort_onlyPortsChange : OnlyPortsChange s (s.updPort h f) := rfl

theorem updPort_keepsOtherPorts : KeepsOtherPorts h s (s.updPort h f) := fun k other => by
  rw [State.updPort_port, if_neg (Ne.symm other)]

/-- What acts at the line pins does not depend on the ports. -/
theorem updPort_pinDrive (l : LineNo) : pinDrive (s.updPort h f) l = pinDrive s l := rfl

theorem settle_updPort : settle s (u.updPort h f) = (settle s u).updPort h f := by
  unfold settle
  simp only [updPort_pinDrive]
  rfl

variable {s h f}

/-- A change that finds its port as it would leave it is none. -/
theorem updPort_of_fixed (fixed : f (s.port h) = s.port h) : s.updPort h f = s := by
  have ports : (s.updPort h f).ports = s.ports := ext_look fun k => by
    show (s.updPort h f).port k = s.port k
    rw [State.updPort_port]
    split
    · rename_i same
      exact same ▸ fixed
    · rfl
  have whole : s.updPort h f = { s with ports := (s.updPort h f).ports } := rfl
  rw [whole, ports]

variable {t : State}

theorem KeepsOutside.updPort (k : KeepsOutside s t) : KeepsOutside s (t.updPort h f) :=
  ⟨k.inReset, k.supervisor, k.pending, k.terminals, k.boards⟩

theorem KeepsSettings.updPort (k : KeepsSettings s t) : KeepsSettings s (t.updPort h f) := ⟨k.policies, k.groups, k.qualifiers⟩

theorem PinsFollow.updPort (k : PinsFollow s t) : PinsFollow s (t.updPort h f) := fun l drive board => k l drive board

end

/-! ### Commands of a running part, and complete kind bytes -/

section

variable {s : State} {h : HostId} {st : Byte}

theorem whileRunning_running (running : s.inReset = false) (g : State → State) : whileRunning g s = .next (g s) := by
  simp [whileRunning, running]

theorem exec_running {c : Instr} (running : s.inReset = false) (excluded : actsInReset c = false) :
    exec c s = .next (reaction c s) := by
  rw [exec_reaction excluded, whileRunning_running running]

theorem onKind_begun (begun : (s.port h).transaction = .begun st) (f : Byte → State → State) : onKind h f s = f st s := by
  rw [onKind, awaitedKind, begun]

end

/-! ### What is shifted out on SDOn (R133) -/

theorem sent_begun (st : Byte) (i : Nat) : (Transaction.begun st).sent i = some (if i = 0 then st else 0x00#8) := by
  cases i <;> rfl

/-- After the null reply's 00h the further bytes are 00h as well. -/
theorem sent_nullReply (st : Byte) (i : Nat) :
    (Transaction.sending st nullReply).sent i = some (if i = 0 then st else 0x00#8) := by
  cases i with
  | zero => rfl
  | succ i => cases i <;> rfl

/-! ### TRANSACTION_BEGIN (R133, R134) -/

theorem linkStatus_fields (replies changes attached : Bool) (n : Nat) (small : n ≤ 24) :
    let x := flagAt replies 7 ||| flagAt changes 6 ||| flagAt attached 5 ||| place n 0
    x.getLsbD 7 = replies ∧ x.getLsbD 6 = changes ∧ x.getLsbD 5 = attached ∧ (x.extractLsb' 0 5).toNat = n := by
  revert replies changes attached
  interval_cases n <;> decide

/-- The write result and the inbound space of a port fit the five low bits of the status byte. -/
theorem writeResult_and_space_le (p : Port) : 5 * p.lastWrite.code + inboundSpace p ≤ 24 := by
  have code : p.lastWrite.code ≤ 4 := by cases p.lastWrite <;> decide
  have space : inboundSpace p ≤ 4 := Nat.sub_le ..
  omega

/-- A transaction that is begun again with no kind byte in between has changed nothing that the status byte tells. -/
theorem beginTransaction_again (h : HostId) (s : State) : beginTransaction h (beginTransaction h s) = beginTransaction h s := by
  have port : (beginTransaction h s).port h = (s.port h).deselect.select (linkStatus s h) := State.updPort_port_same ..
  have status : linkStatus (beginTransaction h s) h = linkStatus s h := by
    rw [linkStatus, port]
    rfl
  exact updPort_of_fixed (by rw [status, port]; rfl)

/-- Settles O6. The flags and the number below 25 stand in fields of the status byte of their own. -/
theorem transactionBeginCapturesStatus : Obligations.TransactionBeginCapturesStatus := by
  intro h s running
  have port : (beginTransaction h s).port h = { s.port h with transaction := .begun (linkStatus s h) } := State.updPort_port_same ..
  obtain ⟨replies, changes, attached, number⟩ := linkStatus_fields (!(s.port h).replies.isEmpty) (!(s.session h).changes.isEmpty)
    (s.session h).attached _ (writeResult_and_space_le (s.port h))
  refine ⟨beginTransaction h s, linkStatus s h, exec_running running rfl, updPort_onlyPortsChange .., updPort_keepsOtherPorts _ _ _,
    port, by rw [port]; rfl, ?_, replies, changes, attached, number.trans ?_⟩
  · rw [exec_running (c := .transactionBegin h) (s := beginTransaction h s) running rfl]
    exact congrArg _ (beginTransaction_again h s)
  · cases (s.port h).lastWrite <;> rfl

/-! ### WRITE (R135) -/

theorem frameLengthOk_iff (f : List Byte) : frameLengthOk f = true ↔
    2 ≤ (f.headD 0#8).toNat ∧ (f.headD 0#8).toNat ≤ 26 ∧ f.length = (f.headD 0#8).toNat + 3 := by
  cases f with
  | nil => simp [frameLengthOk]
  | cons len rest => simp [frameLengthOk, and_assoc]

theorem frameCheckOk_iff (f : List Byte) :
    frameCheckOk f = true ↔ f.drop (f.length - 2) = checkBytes (f.take (f.length - 2)) := decide_eq_true_iff

/-- The three checks of a WRITE in their order. -/
theorem judgeFrame_eq (p : Port) (bytes : List Byte) : judgeFrame p bytes =
    if ¬ frameLengthOk bytes = true then .rejectedLength
    else if ¬ frameCheckOk bytes = true then .rejectedCheck
    else if p.inbound.length < 4 then .accepted
    else .rejectedFull := by
  simp only [judgeFrame, Bool.not_eq_true', Bool.not_eq_true]
  rfl

theorem endTransaction_begun {p : Port} {st : Byte} (begun : p.transaction = .begun st) (bytes : List Byte) :
    endTransaction (some bytes) p = writeFrame bytes p := by
  simp only [endTransaction, begun]

/-- No frame to judge: no bytes came, or the transaction is past its kind byte or none at all. -/
theorem endTransaction_other {p : Port} {frame : Option (List Byte)} (other : frame = none ∨ ∀ st, p.transaction ≠ .begun st) :
    endTransaction frame p = p.deselect := by
  unfold endTransaction
  split
  · rename_i st bytes begun
    rcases other with no | other
    · cases no
    · exact absurd begun (other st)
  · rfl

/-- Settles O7. The port alone changes, by the judgement of the frame where a WRITE's frame stands to be judged. -/
theorem writeJudgesTheFrame : Obligations.WriteJudgesTheFrame := by
  refine ⟨fun h bytes s st running begun => ?_, fun h frame s running other => ?_⟩
  · have port : (s.updPort h (endTransaction (some bytes))).port h = writeFrame bytes (s.port h) := by
      rw [State.updPort_port_same, endTransaction_begun begun]
    refine ⟨_, judgeFrame (s.port h) bytes, exec_running running rfl, updPort_onlyPortsChange .., updPort_keepsOtherPorts _ _ _,
      port, fun i => ⟨by rw [begun, sent_begun], by rw [reaction, port]; rfl⟩, ?_⟩
    simp only [← frameLengthOk_iff, ne_eq, ← frameCheckOk_iff, judgeFrame_eq]
    split_ifs <;> rfl
  · have port : (s.updPort h (endTransaction frame)).port h = (s.port h).deselect := by
      rw [State.updPort_port_same, endTransaction_other other]
    exact ⟨_, exec_running running rfl, updPort_onlyPortsChange .., updPort_keepsOtherPorts _ _ _, port,
      fun i => by rw [reaction, port]; rfl⟩

/-! ### READ, READ_AGAIN and kinds that are not known (R133, R139, R140) -/

/-- A command that acts on its port alone when its kind byte is complete. -/
theorem exec_kind {c : Instr} {s : State} {h : HostId} {st : Byte} {f : Byte → Port → Port} (running : s.inReset = false)
    (begun : (s.port h).transaction = .begun st) (excluded : actsInReset c = false)
    (reacts : reaction c s = onKind h (fun st t => t.updPort h (f st)) s) : exec c s = .next (s.updPort h (f st)) := by
  rw [exec_running running excluded, reacts, onKind_begun begun]

/-- Settles O8. The port alone changes, and how depends on whether its reply queue is empty. -/
theorem readTakesTheOldestReply : Obligations.ReadTakesTheOldestReply := by
  intro h s st running begun
  refine ⟨_, exec_kind running begun rfl rfl, updPort_onlyPortsChange .., updPort_keepsOtherPorts _ _ _, fun r rs replies => ?_,
    fun replies => ?_⟩
  · have port : (s.updPort h (readReply st)).port h =
        { s.port h with transaction := .sending st r, replies := rs, lastRead := some r } := by
      rw [State.updPort_port_same, readReply, replies]
    exact ⟨port, by rw [port]; rfl, fun i => by rw [port]; rfl⟩
  · rw [State.updPort_port_same]
    simp only [readReply, replies]
    rfl

theorem exec_readAgain {s : State} {h : HostId} {st : Byte} (running : s.inReset = false)
    (begun : (s.port h).transaction = .begun st) : exec (.readAgain h) s = .next (s.updPort h (readReplyAgain st)) :=
  exec_kind running begun rfl rfl

/-- ATTNn depends on the reply queues of the ports alone (R130). -/
theorem attn_updPort {f : Port → Port} (s : State) (h k : HostId) (replies : (f (s.port h)).replies = (s.port h).replies) :
    attn (s.updPort h f) k = attn s k := by
  show (!(s.session k).changes.isEmpty || !((s.updPort h f).port k).replies.isEmpty) = _
  rw [State.updPort_port]
  split
  · rename_i same
    subst same
    rw [replies]
    rfl
  · rfl

/-- Settles O11. A kind byte is read off the table of R133, and UNKNOWN_KIND acts just for a byte outside it. -/
theorem unknownKindIsRejected : Obligations.UnknownKindIsRejected := by
  refine ⟨fun h bytes => ⟨rfl, rfl, rfl, rfl, fun kind unknown => ?_⟩, fun h kind s st running begun unknown => ?_,
    fun h kind s known => ?_⟩
  · rw [kindCommand, kindOf_unknown.mpr unknown]
  · have port : (s.updPort h (rejectKind st)).port h =
        { s.port h with transaction := .sending st nullReply, lastWrite := .rejectedKind } := State.updPort_port_same ..
    exact ⟨_, exec_kind running begun rfl (if_pos (kindOf_unknown.mpr unknown)), updPort_onlyPortsChange ..,
      updPort_keepsOtherPorts _ _ _, port, fun i => by rw [port, sent_nullReply]⟩
  · have idle : reaction (.unknownKind h kind) s = s := if_neg fun unknown => kindOf_unknown.mp unknown known
    rw [exec_reaction rfl, whileRunning, idle, ite_self]

/-! ### LINK_RESET (R141) -/

section

variable (h : HostId) (st : Byte) (s : State)

/-- A link reset but for its port: the session of an ATTACHED host ends. -/
def resetSession : State := if (s.session h).attached then endSession h s else s

/-- The port after a link reset, which sends 00h. -/
def resetPort : Port := { Port.reset with transaction := .sending st nullReply }

theorem resetLink_eq : resetLink h st s = (resetSession h s).updPort h fun _ => resetPort st := rfl

theorem resetSession_attached (attached : (s.session h).attached = true) : resetSession h s = endSession h s := if_pos attached

theorem resetSession_detached (detached : (s.session h).attached = false) : resetSession h s = s := by
  rw [resetSession, detached]
  rfl

theorem resetSession_keepsRest : KeepsRest s (resetSession h s) := by
  unfold resetSession
  split
  · exact endSession_keepsRest h s
  · exact .refl s

theorem settle_self : settle s s = s := settle_same s s fun _ => ⟨rfl, rfl⟩

end

/-- Settles O10. Beside the port a link reset is the end of the session, or nothing; pins and settings do not see the port. -/
theorem linkResetClearsPortAndSession : Obligations.LinkResetClearsPortAndSession := by
  intro h s st running begun
  have rest := resetSession_keepsRest h s
  obtain ⟨outside, pins, ports⟩ := rest.surroundings.settled
  have settings := rest.settledSettings
  have reset : exec (.linkReset h) s = .next ((settle s (resetSession h s)).updPort h fun _ => resetPort st) := by
    rw [exec_running running rfl]
    rw [reaction, onKind_begun begun, resetLink_eq, settle_updPort]
  have port : ((settle s (resetSession h s)).updPort h fun _ => resetPort st).port h = resetPort st := State.updPort_port_same ..
  refine ⟨_, reset, fun k other => ?_, outside.updPort, settings.updPort, pins.updPort, port,
    fun i => by rw [port]; exact sent_nullReply st i, fun attached => ?_, fun detached => ?_⟩
  · exact (updPort_keepsOtherPorts _ h _ k other).trans (port_congr ports k)
  · rw [resetSession_attached h s attached]
    have records := (settle_keepsRecords s (endSession h s)).trans (updPort_keepsRecords _ h fun _ => resetPort st)
    exact ⟨(endSession_ended h s).congr (fun r => congrArg (look · r) records.routes) (fun c => congrArg (look · c) records.claims)
      fun k _ => session_congr records.sessions k, (session_congr records.sessions h).trans (endSession_gone h s).session⟩
  · rw [resetSession_detached h s detached, settle_self]
    exact updPort_onlyPortsChange ..

/-! ### Requests that are not carried out (R137, R138, R143) -/

theorem takeableFrame_none {s : State} {h : HostId} (stalled : 4 ≤ (s.port h).replies.length ∨ (s.port h).inbound = []) :
    takeableFrame s h = none := by
  unfold takeableFrame
  split
  · rename_i room
    rcases stalled with full | empty
    · exact absurd room (Nat.not_lt.mpr full)
    · rw [empty]
      rfl
  · rfl

/-- Settles O14. A port that may take no frame is left by every request command, in reset and out of it. -/
theorem stalledLinkTakesNothing : Obligations.StalledLinkTakesNothing := by
  intro h s stalled
  have noFrame := takeableFrame_none stalled
  have idle : reaction (.unknownRequest h) s = s := by simp only [reaction, takeUnknown, noFrame]
  exact ⟨fun code => exec_idle code h s noFrame, by rw [exec_reaction rfl, whileRunning, idle, ite_self]⟩

theorem isRequestCode_false {b : Byte} (unknown : ∀ code : ReqCode, b ≠ code.byte) : isRequestCode b = false := by
  simp only [isRequestCode, List.any_eq_false, decide_eq_true_eq]
  exact fun code _ same => unknown code same.symm

/-- Settles O13. The frame is taken and answered; no pin depends on the port. -/
theorem unknownRequestIsAnswered : Obligations.UnknownRequestIsAnswered := by
  intro h s f running room head unknown
  have takeable : takeableFrame s h = some f := by rw [takeableFrame, if_pos (show _ < Config.replyCapacity from room), head]
  have taken : takeUnknown h s = queueReply h f ⟨.unknownRequest, []⟩ (popFrame h s) := by
    simp only [takeUnknown, takeable, isRequestCode_false unknown, Bool.false_eq_true, if_false]
  have settled : settle s (takeUnknown h s) = takeUnknown h s := by
    rw [taken]
    exact settle_same _ _ fun _ => ⟨rfl, rfl⟩
  refine ⟨takeUnknown h s, exec_running running rfl, ?_⟩
  rw [← settled, taken]
  exact onlyAnswered_of s h f _

end Sys2Proof.Machine

/-! What one command makes of a port: the last-read reply (O9) and the replies that are queued, with the CRC that ends them (O12). -/

namespace Sys2Proof.Machine

/-- What a command makes of port h: a transaction of the link moves on, a request of the link is answered, device reset empties the port;
any other command leaves it. -/
inductive PortMove (h : HostId) : Instr → Port → Port → Prop
  | stays (c : Instr) (p : Port) : PortMove h c p p
  | selected (st : Byte) (p : Port) : PortMove h (.transactionBegin h) p (p.deselect.select st)
  | deselected (frame : Option (List Byte)) (p : Port) : PortMove h (.write h frame) p (endTransaction frame p)
  | reads (st : Byte) (p : Port) : PortMove h (.read h) p (readReply st p)
  | readsAgain (st : Byte) (p : Port) : PortMove h (.readAgain h) p (readReplyAgain st p)
  | resets (st : Byte) (p : Port) : PortMove h (.linkReset h) p (resetPort st)
  | rejects (kind st : Byte) (p : Port) : PortMove h (.unknownKind h kind) p (rejectKind st p)
  | answers {c : Instr} (request : c = .unknownRequest h ∨ ∃ code, c = ReqCode.command h code) (tag code epoch : Byte) (a : Answer)
      (p : Port) : PortMove h c p { p with inbound := p.inbound.tail, replies := p.replies ++ [replyFrame tag code epoch a] }
  | deviceResets (p : Port) : PortMove h .deviceReset p Port.reset

namespace PortMove

variable {s t : State} {h k : HostId} {c : Instr}

theorem of_same (ports : t.ports = s.ports) : PortMove k c (s.port k) (t.port k) := port_congr ports k ▸ .stays c _

/-- A change of the ports of one link is a move of that link's port alone. -/
theorem updPort {f : Port → Port} (own : PortMove h c (s.port h) (f (s.port h))) : PortMove k c (s.port k) ((s.updPort h f).port k) := by
  rw [State.updPort_port]
  split
  · rename_i same
    subst same
    exact own
  · exact .stays c _

theorem settled {before : State} (move : PortMove k c (s.port k) (t.port k)) : PortMove k c (s.port k) ((settle before t).port k) :=
  (port_congr (settle_ports before t) k).symm ▸ move

theorem onKind {f : Byte → State → State} (each : ∀ st, PortMove k c (s.port k) ((f st s).port k)) :
    PortMove k c (s.port k) ((onKind h f s).port k) := by
  unfold Machine.onKind
  split
  · exact .stays c _
  · exact each _

theorem resetLink (st : Byte) : PortMove k (.linkReset h) (s.port k) ((resetLink h st s).port k) := by
  rw [resetLink_eq, ← port_congr (resetSession_keepsRest h s).ports k]
  exact updPort (.resets st _)

/-- The head frame has left, and its reply is queued. -/
theorem answered {u : State} (request : c = .unknownRequest h ∨ ∃ code, c = ReqCode.command h code) (f : List Byte) (a : Answer)
    (ports : u.ports = (popFrame h s).ports) : PortMove k c (s.port k) ((queueReply h f a u).port k) := by
  rw [queueReply_port, port_congr ports, popFrame_port]
  split
  · rename_i same
    subst same
    exact .answers request _ _ _ a _
  · exact .stays c _

theorem takeRequest (code : ReqCode) (request : c = code.command h) :
    PortMove k c (s.port k) ((takeRequest code code.act h s).port k) := by
  obtain e | ⟨f, a, e⟩ | ⟨f, a, -, e⟩ := takeRequest_cases (h := h) (s := s) code <;> rw [e]
  · exact .stays _ _
  · exact (answered (.inr ⟨code, request⟩) f a rfl).settled
  · exact (answered (.inr ⟨code, request⟩) f a (act_keepsSurroundings h _ _ code).ports).settled

theorem takeUnknown : PortMove k (.unknownRequest h) (s.port k) ((takeUnknown h s).port k) := by
  unfold Machine.takeUnknown
  split
  · exact .stays _ _
  · split
    · exact .stays _ _
    · exact answered (.inl rfl) _ _ rfl

theorem reaction (c : Instr) : PortMove k c (s.port k) ((reaction c s).port k) := by
  cases c with
  | transactionBegin h => exact updPort (.selected _ _)
  | write h frame => exact updPort (.deselected frame _)
  | read h => exact onKind (f := fun st t => t.updPort h (readReply st)) fun st => updPort (.reads st _)
  | readAgain h => exact onKind (f := fun st t => t.updPort h (readReplyAgain st)) fun st => updPort (.readsAgain st _)
  | linkReset h => exact onKind (f := fun st t => settle t (Machine.resetLink h st t)) fun st => (resetLink st).settled
  | unknownKind h kind =>
    unfold Machine.reaction
    dsimp only
    split
    · exact onKind (f := fun st t => t.updPort h (rejectKind st)) fun st => updPort (.rejects kind st _)
    · exact .stays _ _
  | unknownRequest h => exact takeUnknown
  | attach h | detach h | collect h | readLevels h | queryLine h | setPolicy h | queryPolicy h | listen h | release h | renew h | revoke h
  | queryRoute h | claim h | amend h | cancel h | queryClaim h | setGroup h | trip h | rearm h | queryGroup h => exact takeRequest _ rfl
  | leaseExpiry r => exact (of_same (leaseEnd_keepsSurroundings s r).ports).settled
  | breakExpiry r => exact (of_same (breakEnd_keepsSurroundings s r).ports).settled
  | waitLimitExpiry c => exact (of_same (waitEnd_keepsSurroundings s c).ports).settled
  | settleExpiry g => exact (of_same (settleEnd_keepsSurroundings s g).ports).settled
  | qualifiedLevelChange g => exact (of_same (qualify_keepsSurroundings s g).ports).settled
  | deviceReset | leaveReset | faultPinChange | terminalLevelChange | boardLineLevelChange => exact .stays _ _

/-- Every command moves every port as the list of moves says. -/
theorem exec (step : exec c s = .next t) : PortMove k c (s.port k) (t.port k) := by
  by_cases acts : actsInReset c = false
  · rw [exec_reaction acts] at step
    injection step with step
    subst step
    split
    · exact .stays _ _
    · exact reaction c
  · cases c with
    | deviceReset =>
      cases step
      rw [deviceReset_port]
      exact .deviceResets _
    | leaveReset a b =>
      cases on : s.inReset with
      | true =>
        rw [exec_leaveReset a b s on] at step
        cases step
        exact settled (t := leaveReset a b s) (of_same rfl)
      | false =>
        rw [exec_leaveReset_running a b s on] at step
        cases step
        exact .stays _ _
    | faultPinChange g v =>
      cases step
      exact of_same rfl
    | terminalLevelChange l n v =>
      cases step
      exact settled (t := driveTerminal l n v s) (of_same rfl)
    | boardLineLevelChange l v =>
      cases step
      exact settled (t := driveLine l v s) (of_same rfl)
    | _ => exact absurd rfl acts

end PortMove

/-! ### The last-read reply (R140) -/

/-- The end of a transaction judges a frame at most, which touches neither the replies nor the last-read reply. -/
theorem endTransaction_keepsReplies (frame : Option (List Byte)) (p : Port) :
    (endTransaction frame p).lastRead = p.lastRead ∧ (endTransaction frame p).replies = p.replies := by
  unfold endTransaction
  split <;> exact ⟨rfl, rfl⟩

theorem PortMove.lastRead {h : HostId} {c : Instr} {p q : Port} (move : PortMove h c p q) (changed : q.lastRead ≠ p.lastRead) :
    c = .read h ∨ c = .linkReset h ∨ c = .deviceReset := by
  cases move with
  | reads => exact .inl rfl
  | resets => exact .inr (.inl rfl)
  | deviceResets => exact .inr (.inr rfl)
  | deselected frame => exact absurd (endTransaction_keepsReplies frame p).1 changed
  | stays | selected | readsAgain | rejects | answers => exact absurd rfl changed

/-- Settles O9. A READ_AGAIN leaves the last-read reply, and so does the begin of the next transaction; over all commands it is read off the
moves of a port. -/
theorem readAgainResends : Obligations.ReadAgainResends := by
  refine ⟨fun h s st running begun => ?_, fun c s t h step changed => (PortMove.exec step).lastRead changed⟩
  have port : (s.updPort h (readReplyAgain st)).port h =
      { s.port h with transaction := .sending st ((s.port h).lastRead.getD nullReply) } := State.updPort_port_same ..
  refine ⟨s.updPort h (readReplyAgain st), exec_readAgain running begun, updPort_onlyPortsChange .., updPort_keepsOtherPorts _ _ _, port,
    fun k => attn_updPort s h k rfl, ?_⟩
  have next : (beginTransaction h (s.updPort h (readReplyAgain st))).port h =
      { s.port h with transaction := .begun (linkStatus (s.updPort h (readReplyAgain st)) h) } := by
    rw [beginTransaction, State.updPort_port_same, port]
    rfl
  refine ⟨beginTransaction h (s.updPort h (readReplyAgain st)), _, exec_running running rfl, exec_readAgain running (by rw [next]),
    linkStatus (s.updPort h (readReplyAgain st)) h, ?_⟩
  rw [State.updPort_port_same, next]
  rfl

/-! ### The CRC (R136) -/

/-- One bit enters the division. -/
def crcBit (c : BitVec 16) (bit : Bool) : BitVec 16 := if c.msb != bit then (c <<< 1) ^^^ 0x1021#16 else c <<< 1

/-- The bits of a byte, the most significant first. -/
def bitsOf (b : Byte) : List Bool := (List.range 8).map fun i => b.getMsbD i

/-- A shift of a remainder that holds bits still to enter takes the first of them in. -/
theorem crcShift_xor (c d : BitVec 16) : crcShift (c ^^^ d) = crcBit c d.msb ^^^ (d <<< 1) := by
  rw [crcShift, crcBit, BitVec.msb_xor, BitVec.shiftLeft_xor_distrib]
  split
  · rw [BitVec.xor_assoc, BitVec.xor_assoc, BitVec.xor_comm (d <<< 1)]
  · rfl

theorem crcShifts_xor (n : Nat) (c d : BitVec 16) :
    crcShifts n (c ^^^ d) = (((List.range n).map fun i => d.getMsbD i).foldl crcBit c) ^^^ (d <<< n) := by
  induction n generalizing c d with
  | zero => simp [crcShifts]
  | succ n ih =>
    have later (i : Nat) : (d <<< 1).getMsbD i = d.getMsbD (i + 1) := by
      rw [BitVec.getMsbD_shiftLeft]
    rw [crcShifts, crcShift_xor, ih, List.range_succ_eq_map, ← BitVec.shiftLeft_add, Nat.add_comm 1 n]
    simp only [later, List.map_cons, List.map_map, List.foldl_cons, BitVec.msb]
    rfl

/-- A byte enters bit by bit, most significant bit first. -/
theorem crcByte_eq (c : BitVec 16) (b : Byte) : crcByte c b = (bitsOf b).foldl crcBit c := by
  have gone : (b.setWidth 16 <<< 8) <<< 8 = 0#16 := by
    rw [← BitVec.shiftLeft_add]
    exact BitVec.shiftLeft_eq_zero (Nat.le_refl 16)
  have bits : ∀ i ∈ List.range 8, (b.setWidth 16 <<< 8).getMsbD i = b.getMsbD i := fun i small => by
    have : i < 8 := List.mem_range.mp small
    rw [BitVec.getMsbD_shiftLeft, BitVec.getMsbD_setWidth]
    simp
  rw [crcByte, crcShifts_xor, gone, BitVec.xor_zero, List.map_congr_left bits]
  rfl

theorem crc_eq (bs : List Byte) : crc bs = (bs.flatMap bitsOf).foldl crcBit 0xFFFF#16 := by
  rw [crc, List.foldl_flatMap]
  congr 1
  funext c b
  exact crcByte_eq c b

/-! ### What ends with its CHECK -/

/-- The bytes end with the CHECK of those before. -/
def EndsWithCheck (f : List Byte) : Prop := ∃ body, f = body ++ checkBytes body

theorem frameCheckOk_iff_endsWithCheck (f : List Byte) : frameCheckOk f = true ↔ EndsWithCheck f := by
  rw [frameCheckOk_iff]
  constructor
  · intro check
    exact ⟨f.take (f.length - 2), by rw [← check, List.take_append_drop]⟩
  · rintro ⟨body, rfl⟩
    have length : (body ++ checkBytes body).length - 2 = body.length := by rw [List.length_append]; rfl
    rw [length, List.drop_left, List.take_left]

theorem replyFrame_endsWithCheck (tag code epoch : Byte) (a : Answer) : EndsWithCheck (replyFrame tag code epoch a) := ⟨_, rfl⟩

theorem judgeFrame_accepted {p : Port} {bytes : List Byte} (accepted : judgeFrame p bytes = .accepted) : EndsWithCheck bytes := by
  rw [judgeFrame_eq] at accepted
  split_ifs at accepted with length check room
  exact (frameCheckOk_iff_endsWithCheck bytes).mp check

theorem PortMove.replies {h : HostId} {c : Instr} {p q : Port} (move : PortMove h c p q) :
    ∀ r ∈ q.replies, r ∈ p.replies ∨ EndsWithCheck r := by
  intro r queued
  cases move with
  | answers _ tag code epoch a =>
    rcases List.mem_append.mp queued with old | new
    · exact .inl old
    · rw [List.mem_singleton.mp new]
      exact .inr (replyFrame_endsWithCheck tag code epoch a)
  | reads st =>
    unfold readReply at queued
    split at queued
    · exact .inl queued
    · rename_i replies
      exact .inl (replies ▸ List.mem_cons_of_mem _ queued)
  | deselected frame => exact .inl ((endTransaction_keepsReplies frame p).2 ▸ queued)
  | resets | deviceResets => cases queued
  | stays | selected | readsAgain | rejects => exact .inl queued

/-- Settles O12. A byte that is added to the remainder at once enters it bit by bit as it is shifted; a frame is accepted by its CHECK, and a
port's replies are those it had and the replies that requests queue. -/
theorem crcIsComputedBitwise : Obligations.CrcIsComputedBitwise := by
  refine ⟨crc_eq, fun _ => rfl, fun f _ => frameCheckOk_iff_endsWithCheck f, fun _ _ _ _ => ⟨_, rfl, rfl⟩,
    fun h bytes s t st running begun step accepted => ?_, fun c s t h step => (PortMove.exec step).replies, rfl⟩
  rw [exec_running running rfl] at step
  cases step
  rw [reaction, State.updPort_port_same, endTransaction_begun begun] at accepted
  exact judgeFrame_accepted accepted

end Sys2Proof.Machine

/-! The queue: a step runs its front command, and every command completes and leaves what waits behind it (O1, O3). -/

namespace Sys2Proof.Machine

/-! ### The queue that waits behind a command -/

section

variable (h : HostId) (s : State)

theorem onKind_pending {f : Byte → State → State} (k : ∀ st, (f st s).pending = s.pending) : (onKind h f s).pending = s.pending := by
  unfold onKind
  split
  · rfl
  · exact k _

theorem resetLink_pending (st : Byte) : (resetLink h st s).pending = s.pending := by
  rw [resetLink_eq, State.updPort_pending]
  exact (resetSession_keepsRest h s).pending

theorem takeUnknown_pending : (takeUnknown h s).pending = s.pending := by
  unfold takeUnknown
  split
  · rfl
  · split <;> rfl

/-- Neither the answering of a request nor the block that carries it out touches the queue. -/
theorem takeRequest_pending (code : ReqCode) : (takeRequest code code.act h s).pending = s.pending := by
  obtain same | ⟨f, a, refused⟩ | ⟨f, a, -, answered⟩ := takeRequest_cases (h := h) (s := s) code
  · rw [same]
  · rw [refused, settle_pending, queueReply_pending, popFrame_pending]
  · rw [answered, settle_pending, queueReply_pending, (act_keepsSurroundings h (frameParams f) (popFrame h s) code).pending,
      popFrame_pending]

end

/-- What the part makes of a command outside reset leaves the queue. -/
theorem reaction_pending (c : Instr) (s : State) : (reaction c s).pending = s.pending := by
  have settled {t : State} (k : KeepsSurroundings s t) : (settle s t).pending = s.pending := (settle_pending s t).trans k.pending
  cases c with
  | transactionBegin | write => rfl
  | read h | readAgain h => exact onKind_pending h s fun _ => rfl
  | linkReset h => exact onKind_pending h s fun st => (settle_pending ..).trans (resetLink_pending h s st)
  | unknownKind h =>
    unfold reaction
    dsimp only
    split
    · exact onKind_pending h s fun _ => rfl
    · rfl
  | unknownRequest h => exact takeUnknown_pending h s
  | attach h | detach h | collect h | readLevels h | queryLine h | setPolicy h | queryPolicy h | listen h | release h | renew h | revoke h
  | queryRoute h | claim h | amend h | cancel h | queryClaim h | setGroup h | trip h | rearm h | queryGroup h =>
    exact takeRequest_pending h s _
  | leaseExpiry r => exact settled (leaseEnd_keepsSurroundings s r)
  | breakExpiry r => exact settled (breakEnd_keepsSurroundings s r)
  | waitLimitExpiry d => exact settled (waitEnd_keepsSurroundings s d)
  | settleExpiry g => exact settled (settleEnd_keepsSurroundings s g)
  | qualifiedLevelChange g => exact settled (qualify_keepsSurroundings s g)
  | deviceReset | leaveReset | faultPinChange | terminalLevelChange | boardLineLevelChange => rfl

/-- Settles O3. A command that reset excludes leaves the state, or the part reacts to it; the other five say themselves what they make of
it, and none of them changes the queue. -/
theorem everyCommandCompletes : Obligations.EveryCommandCompletes := by
  intro c s
  cases excluded : actsInReset c with
  | false =>
    cases on : s.inReset with
    | true => exact ⟨s, exec_inReset on excluded, rfl⟩
    | false => exact ⟨reaction c s, exec_running on excluded, reaction_pending c s⟩
  | true =>
    cases c with
    | deviceReset => exact ⟨deviceReset s, rfl, rfl⟩
    | leaveReset a b =>
      cases on : s.inReset with
      | true => exact ⟨_, exec_leaveReset a b s on, settle_pending s (leaveReset a b s)⟩
      | false => exact ⟨s, exec_leaveReset_running a b s on, rfl⟩
    | faultPinChange g level => exact ⟨faultPin g level s, rfl, State.updQualifier_pending ..⟩
    | terminalLevelChange h n level => exact ⟨_, rfl, settle_pending s (driveTerminal h n level s)⟩
    | boardLineLevelChange l level => exact ⟨_, rfl, settle_pending s (driveLine l level s)⟩
    | _ => cases excluded

/-! ### A step -/

/-- Settles O1. The step matches on the queue, which holds the command in front. -/
theorem stepRunsFrontCommand : Obligations.StepRunsFrontCommand := by
  intro c rest s
  rfl

end Sys2Proof.Machine
